-- ==== Sys2Proof/Word.lean ====
section
/-! DEFINITION. The widths of the RC unit's data (00_scope.md R2, 30_encoding.md R50). -/

namespace Sys2Proof

/-- A coder register or a 32-bit operand: unsigned, arithmetic modulo 2^32, logical shifts (R2). The registers
that the spec calls signed (rem, nend_bits, error) hold their two's-complement pattern (R11, R14). -/
abbrev Word := BitVec 32

/-- One byte of BUF or of TBL (R30, R31, R37). -/
abbrev Byte := BitVec 8

/-- One command packet, format CMD128 (R50). -/
abbrev Packet := BitVec 128

/-- The packet field T: the address of an inverse-CDF table in TBL (R31, R50, R51). -/
abbrev TblAddr := BitVec 16

end Sys2Proof
end

