-- ==== Sys2Proof/Syntax.lean ====
section
/-! DEFINITION. The commands of the RC unit (30_encoding.md R52, opcode_table.json), one constructor per row, and the
closed list of reasons for which a command is refused (60_exceptions.md R146). -/

namespace Sys2Proof

/-- The 21 commands. Operands stand in the order A, B, C, T of R52; a field the command does not use is no operand
of it (R51: it is ignored). -/
inductive Instr where
  | encInit (size : Word)
  | encode (fl fh ft : Word)
  | encodeBin (fl fh bits : Word)
  | encBitLogp (bit logp : Word)
  | encIcdf (sym ftb : Word) (table : TblAddr)
  | encUint (value total : Word)
  | encBits (value nbits : Word)
  | encPatch (value nbits : Word)
  | encShrink (size : Word)
  | encDone
  | decInit (size : Word)
  | decode (ft : Word)
  | decodeBin (bits : Word)
  | decUpdate (fl fh ft : Word)
  | decBitLogp (logp : Word)
  | decIcdf (ftb : Word) (table : TblAddr)
  | decUint (total : Word)
  | decBits (nbits : Word)
  | tell
  | tellFrac
  | release
deriving DecidableEq, Repr

/-- The closed list of refusal reasons of R146. -/
inductive RefuseReason where
  /-- RSV (bits 15:8) of the packet is not 0 (R54). -/
  | reservedBits
  /-- OP is not in R52's table (R54). -/
  | illegalOpcode
  /-- The command is not admitted in the current MODE (R53). -/
  | wrongMode
  /-- An operand is outside its rule's contract. -/
  | badOperand
  /-- WellFormed(T, ftb) of R32 is false. -/
  | badTable
  /-- DEC_UPDATE whose total differs from PROBE, or with PROBE = none (R106). -/
  | noProbe
  /-- A host write to BUF while MODE = ENC or DEC (R39). -/
  | hostBufWrite
deriving DecidableEq, Repr

end Sys2Proof
end

