-- ==== Sys2Proof/Decode.lean ====
section
/-! DEFINITION. The command packet CMD128 (30_encoding.md R50 to R52, R54): the decoder, total on every packet and
rejecting by name, and the encoder, written from the same table. -/

namespace Sys2Proof

/-- OP, bits 7:0 (R50). -/
def Packet.op (p : Packet) : BitVec 8 := p.extractLsb' 0 8
/-- RSV, bits 15:8 (R50). -/
def Packet.rsv (p : Packet) : BitVec 8 := p.extractLsb' 8 8
/-- T, bits 31:16 (R50). -/
def Packet.t (p : Packet) : TblAddr := p.extractLsb' 16 16
/-- A, bits 63:32 (R50). -/
def Packet.a (p : Packet) : Word := p.extractLsb' 32 32
/-- B, bits 95:64 (R50). -/
def Packet.b (p : Packet) : Word := p.extractLsb' 64 32
/-- C, bits 127:96 (R50). -/
def Packet.c (p : Packet) : Word := p.extractLsb' 96 32

/-- The command a packet with RSV = 0 stands for, by the opcode map of R52; `none` for an illegal OP. -/
def decodeOp (p : Packet) : Option Instr :=
  if p.op = 0x01#8 then some (.encInit p.a)
  else if p.op = 0x02#8 then some (.encode p.a p.b p.c)
  else if p.op = 0x03#8 then some (.encodeBin p.a p.b p.c)
  else if p.op = 0x04#8 then some (.encBitLogp p.a p.b)
  else if p.op = 0x05#8 then some (.encIcdf p.a p.b p.t)
  else if p.op = 0x06#8 then some (.encUint p.a p.b)
  else if p.op = 0x07#8 then some (.encBits p.a p.b)
  else if p.op = 0x08#8 then some (.encPatch p.a p.b)
  else if p.op = 0x09#8 then some (.encShrink p.a)
  else if p.op = 0x0A#8 then some .encDone
  else if p.op = 0x11#8 then some (.decInit p.a)
  else if p.op = 0x12#8 then some (.decode p.a)
  else if p.op = 0x13#8 then some (.decodeBin p.a)
  else if p.op = 0x14#8 then some (.decUpdate p.a p.b p.c)
  else if p.op = 0x15#8 then some (.decBitLogp p.a)
  else if p.op = 0x16#8 then some (.decIcdf p.a p.t)
  else if p.op = 0x17#8 then some (.decUint p.a)
  else if p.op = 0x18#8 then some (.decBits p.a)
  else if p.op = 0x20#8 then some .tell
  else if p.op = 0x21#8 then some .tellFrac
  else if p.op = 0x30#8 then some .release
  else none

/-- The first two checks of R54, in their order: reserved bits, then the opcode. -/
def decode (p : Packet) : Except RefuseReason Instr :=
  if p.rsv ≠ 0#8 then .error .reservedBits
  else match decodeOp p with
    | some i => .ok i
    | none => .error .illegalOpcode

/-- The OP of each command (R52). -/
def opcode : Instr → BitVec 8
  | .encInit .. => 0x01#8
  | .encode .. => 0x02#8
  | .encodeBin .. => 0x03#8
  | .encBitLogp .. => 0x04#8
  | .encIcdf .. => 0x05#8
  | .encUint .. => 0x06#8
  | .encBits .. => 0x07#8
  | .encPatch .. => 0x08#8
  | .encShrink .. => 0x09#8
  | .encDone => 0x0A#8
  | .decInit .. => 0x11#8
  | .decode .. => 0x12#8
  | .decodeBin .. => 0x13#8
  | .decUpdate .. => 0x14#8
  | .decBitLogp .. => 0x15#8
  | .decIcdf .. => 0x16#8
  | .decUint .. => 0x17#8
  | .decBits .. => 0x18#8
  | .tell => 0x20#8
  | .tellFrac => 0x21#8
  | .release => 0x30#8

/-- The packet with the fields OP, T, A, B, C and RSV = 0 (R50). -/
def packet (op : BitVec 8) (t : TblAddr) (a b c : Word) : Packet :=
  c ++ b ++ a ++ t ++ 0#8 ++ op

/-- The packet of a command; a field it does not use is 0 (R50 to R52). -/
def encode : Instr → Packet
  | .encInit size => packet 0x01#8 0#16 size 0#32 0#32
  | .encode fl fh ft => packet 0x02#8 0#16 fl fh ft
  | .encodeBin fl fh bits => packet 0x03#8 0#16 fl fh bits
  | .encBitLogp bit logp => packet 0x04#8 0#16 bit logp 0#32
  | .encIcdf sym ftb table => packet 0x05#8 table sym ftb 0#32
  | .encUint value total => packet 0x06#8 0#16 value total 0#32
  | .encBits value nbits => packet 0x07#8 0#16 value nbits 0#32
  | .encPatch value nbits => packet 0x08#8 0#16 value nbits 0#32
  | .encShrink size => packet 0x09#8 0#16 size 0#32 0#32
  | .encDone => packet 0x0A#8 0#16 0#32 0#32 0#32
  | .decInit size => packet 0x11#8 0#16 size 0#32 0#32
  | .decode ft => packet 0x12#8 0#16 ft 0#32 0#32
  | .decodeBin bits => packet 0x13#8 0#16 bits 0#32 0#32
  | .decUpdate fl fh ft => packet 0x14#8 0#16 fl fh ft
  | .decBitLogp logp => packet 0x15#8 0#16 logp 0#32 0#32
  | .decIcdf ftb table => packet 0x16#8 table ftb 0#32 0#32
  | .decUint total => packet 0x17#8 0#16 total 0#32 0#32
  | .decBits nbits => packet 0x18#8 0#16 nbits 0#32 0#32
  | .tell => packet 0x20#8 0#16 0#32 0#32 0#32
  | .tellFrac => packet 0x21#8 0#16 0#32 0#32 0#32
  | .release => packet 0x30#8 0#16 0#32 0#32 0#32

/-- The packet written as the four words W0 W1 W2 W3 of R50 (W0 = bits 31:0, W1 = A, W2 = B, W3 = C). -/
def ofWords (w0 w1 w2 w3 : Word) : Packet := w3 ++ w2 ++ w1 ++ w0

/-- The packet of an opcode-table word: bit 0 is bit 0 of W0, and every bit at or above `nbits` is 0 (log entry 11). -/
def tablePacket (nbits w : Nat) : Packet := BitVec.ofNat 128 (w % 2 ^ nbits)

/-- The command the decoder reads from an opcode-table word, `none` where it refuses. -/
def decodeTableWord (nbits w : Nat) : Option Instr := (decode (tablePacket nbits w)).toOption

end Sys2Proof
end

