-- ==== Sys2Proof/Config.lean ====
section
/-! DEFINITION. What one implementation of the RC unit fixes (00_scope.md R4), and the values the spec leaves free. -/

namespace Sys2Proof

/-- The two OPEN parameters of R4 (D13): the sizes of BUF and of TBL in bytes. The spec calls them parameters of a
run, a "model argument"; the state carries them and no step writes them (log entry 3). -/
structure Params where
  bufCap  : Nat
  tblSize : Nat
deriving DecidableEq, Repr

/-- The bounds R4 puts on the two parameters. -/
abbrev Params.ok (p : Params) : Prop :=
  (0 < p.bufCap ∧ p.bufCap ≤ 2 ^ 31 - 1) ∧ (0 < p.tblSize ∧ p.tblSize ≤ 2 ^ 16)

/-- The parameters of `State.reset`: the largest sizes R4 allows (DESIGN CHOICE, log entry 3; unsafe for a claim
about one smaller unit). -/
def Config.largest : Params := { bufCap := 2 ^ 31 - 1, tblSize := 2 ^ 16 }

/-- The byte of BUF at an address after the n-th hardware reset, while nothing has been written there: "a model
gives each byte an arbitrary value (a draw)" (R30, R160, U17). A free value: no body, nothing can evaluate it
(log entries 4 and 5; safe). -/
opaque Config.bufDraw (n a : Nat) : Byte

/-- The byte of TBL at an address after the n-th hardware reset, while the host has not written it (R31, R160, U17).
A free value (log entries 4 and 5; safe). -/
opaque Config.tblDraw (n a : Nat) : Byte

end Sys2Proof
end

