-- ==== Sys2Proof/Machine/Memory.lean ====
section
/-! DEFINITION. A byte memory as plain data: the bytes written since the last hardware reset, by rising address. BUF
and TBL (20_memory.md R30, R31) are two of these. -/

namespace Sys2Proof.Machine

/-- The written bytes of a memory, in the canonical form of `Memory.wf`. What an unlisted address reads as here is
"nothing written" (`none`), so no listed byte equals it. -/
abbrev Memory := List Host.Cell

/-- The canonical form: addresses strictly rising. -/
abbrev Memory.wf (m : Memory) : Prop := m.Pairwise (fun x y => x.1 < y.1)

/-- Every listed address is below `n`. -/
abbrev Memory.below (n : Nat) (m : Memory) : Prop := ∀ x ∈ m, x.1 < n

/-- The byte written at an address, `none` if nothing has been written there. -/
def Memory.read? : Memory → Nat → Option Byte
  | [], _ => none
  | (k, b) :: m, a => if a = k then some b else Memory.read? m a

/-- Store one byte. -/
def Memory.write : Memory → Nat → Byte → Memory
  | [], a, v => [(a, v)]
  | (k, b) :: m, a, v =>
    if a < k then (a, v) :: (k, b) :: m
    else if a = k then (a, v) :: m
    else (k, b) :: Memory.write m a v

end Sys2Proof.Machine
end

