-- ==== Sys2Proof/Machine/State.lean ====
section
/-! DEFINITION. The state of the RC unit (10_state.md), as plain data, and its value after a hardware reset
(70_reset_and_hazards.md R160). INVENTORY.md lists every field with its rule. -/

namespace Sys2Proof.Machine

/-- MODE, the four values of R10. -/
inductive Mode where
  /-- no stream -/
  | idle
  /-- the registers are an encoder state -/
  | enc
  /-- the registers are a decoder state -/
  | dec
  /-- encoder finished; BUF belongs to the host -/
  | done
deriving DecidableEq, Repr

/-- What the host may do to the unit between two commands (00_scope.md R1, 20_memory.md R39, R160). Its reads have
no effect and are functions of the state, not transactions (log entry 8). -/
inductive Transaction where
  /-- issue a command packet on the command port -/
  | command (p : Packet)
  /-- write one byte of BUF -/
  | writeBuf (a : Nat) (v : Byte)
  /-- write one byte of TBL -/
  | writeTbl (a : Nat) (v : Byte)
  /-- hardware reset -/
  | hardwareReset
deriving DecidableEq, Repr

/-- The whole state. Field by field the registers of R11, then RESULT (R16), PROBE (R15), the REFUSED mark (R21),
the two memories (R30, R31), and three fields of the model: the parameters (R4), the index of the draw of the
unspecified bytes, and the host's pending transactions. -/
structure State where
  mode       : Mode
  storage    : Word
  offs       : Word
  endOffs    : Word
  rng        : Word
  val        : Word
  ext        : Word
  rem        : Word
  endWindow  : Word
  nendBits   : Word
  nbitsTotal : Word
  error      : Word
  result     : Word
  /-- PROBE of R15: the total of the last probe, or none. -/
  probe      : Option Nat
  /-- The REFUSED mark of R21: `none` is false, `some r` is true, and r is the reason of the latest refusal (R146;
  log entry 1). -/
  refusal    : Option RefuseReason
  buf        : Memory
  tbl        : Memory
  /-- BUF_CAP and TBL_SIZE (R4; log entry 3). -/
  params     : Params
  /-- The model's own: how many hardware resets have been served, the index of the draw (log entry 5). -/
  resets     : Nat
  /-- The model's own: the host's pending transactions, the next one first (log entry 2). -/
  port       : List Transaction
deriving DecidableEq, Repr

/-- Where the spec's pseudocode has no meaning, the model stops with one of these. The hardware never halts (R140);
no state that meets the invariants of 10_state.md reaches any but the last two, and each is SAFE: it gives no run
where the hardware might have one. -/
inductive Fault where
  /-- EncNormalize or DecNormalize entered with rng = 0: its loop never ends, "since 0 << 8 = 0" (R146). Raised by
  the narrowing commands; safe (log entry 6). -/
  | normalizerHangs
  /-- A probe whose ext is 0 (R112: every divisor is at least 2^7). Raised by DECODE, DECODE_BIN, DEC_UINT; safe
  (log entry 6). -/
  | divideByZero
  /-- nend_bits is negative: the window has no such count (R19 (e), R20 (d)). Raised by ENC_BITS, ENC_UINT,
  ENC_DONE, DEC_BITS, DEC_UINT; safe (log entry 6). -/
  | negativeBitCount
  /-- storage > BUF_CAP: the stream is not inside BUF (R30). Raised by every command that may touch BUF; safe (log
  entry 6). -/
  | streamBeyondBuf
  /-- TELL_FRAC with rng < 2^15: its shift count l - 16 is negative (R131). Safe (log entry 6). -/
  | tellFracDomain
  /-- A host write of BUF at or above BUF_CAP (R30). Safe (log entry 7). -/
  | noSuchBufByte
  /-- A host write of TBL at or above TBL_SIZE (R31). Safe (log entry 7). -/
  | noSuchTblByte
deriving DecidableEq, Repr

/-- The reasons for which the model gives an instruction no meaning. The spec's own refusals (R146) are not these:
they set the REFUSED mark and the run goes on (log entry 1). -/
inductive Refusal where
  /-- An instruction the model has not reached, rejected by its mnemonic in `exec`. Raised by no instruction of this
  model; safe. -/
  | notModelled (mnemonic : String)
deriving DecidableEq, Repr

/-- The state after a hardware reset of a unit with parameters `p`, for the n-th draw of the unspecified bytes, with
the host's transactions still pending (R160). -/
def State.afterReset (p : Params) (n : Nat) (pending : List Transaction) : State where
  mode       := .idle
  storage    := 0#32
  offs       := 0#32
  endOffs    := 0#32
  rng        := 0#32
  val        := 0#32
  ext        := 0#32
  rem        := 0#32
  endWindow  := 0#32
  nendBits   := 0#32
  nbitsTotal := 0#32
  error      := 0#32
  result     := 0#32
  probe      := none
  refusal    := none
  buf        := []
  tbl        := []
  params     := p
  resets     := n
  port       := pending

/-- The machine right after reset (R160), with the largest memories R4 allows and no transaction pending (log
entries 2, 3 and 5). -/
def State.reset : State := State.afterReset Config.largest 0 []

end Sys2Proof.Machine
end

