-- ==== Sys2Proof/Machine/Flags.lean ====
section
/-! DEFINITION. The unit's only flag, the sticky `error` (10_state.md R14, 60_exceptions.md R141), and the REFUSED
mark (R21, R146). -/

namespace Sys2Proof.Machine

/-- -1, the value of every encoder cause EC1 .. EC5 (R141). -/
abbrev encFault : Word := 0xFFFFFFFF#32
/-- 1, the value of the decoder cause DC1 (R141). -/
abbrev decFault : Word := 1#32

/-- `set_error(v)`: error <- error | v (00_scope.md section 5, R141). -/
def State.setError (s : State) (v : Word) : State := { s with error := s.error ||| v }

/-- `force_error(v)`: error <- v (00_scope.md section 5, R141). -/
def State.forceError (s : State) (v : Word) : State := { s with error := v }

/-- A refusal (R146): nothing changes but the REFUSED mark, which then stays set until reset (R21). -/
def State.refuse (s : State) (r : RefuseReason) : State := { s with refusal := some r }

/-- The REFUSED mark of R21 as a Bool. -/
def State.refused (s : State) : Bool := s.refusal.isSome

end Sys2Proof.Machine
end

