-- ==== Sys2Proof/Machine/Constants.lean ====
section
/-! DEFINITION. The fixed constants of the coder (00_scope.md R3) and the fixed operand limits (R4). -/

namespace Sys2Proof.Machine

/-- SYM_BITS of R3. -/
abbrev symBits : Nat := 8
/-- SYM_MAX of R3. -/
abbrev symMax : Word := 0xFF#32
/-- CODE_BITS of R3. -/
abbrev codeBits : Nat := 32
/-- CODE_BOT = 2^23 of R3. -/
abbrev codeBot : Word := 0x00800000#32
/-- CODE_TOP = 2^31 of R3 (90_conflicts.md C1). -/
abbrev codeTop : Word := 0x80000000#32
/-- CODE_SHIFT of R3. -/
abbrev codeShift : Nat := 23
/-- CODE_EXTRA of R3. -/
abbrev codeExtra : Nat := 7
/-- WINDOW_SIZE of R3. -/
abbrev windowSize : Nat := 32
/-- UINT_BITS of R3. -/
abbrev uintBits : Nat := 8
/-- BITRES of R3. -/
abbrev bitRes : Nat := 3

/-- TOTAL_MAX of R4. -/
abbrev totalMax : Nat := 65536
/-- BITS_MAX of R4. -/
abbrev bitsMax : Nat := 16
/-- The largest logp of R4. -/
abbrev logpMax : Nat := 16
/-- The largest ftb of R4. -/
abbrev ftbMax : Nat := 8
/-- The largest raw field width of R4. -/
abbrev rawMax : Nat := 25
/-- The widest patch of R4. -/
abbrev patchMax : Nat := 8

/-- The mask CODE_TOP - 1, which keeps bits 30..0 (R74, R83, R103). -/
abbrev lowMask : Word := 0x7FFFFFFF#32

end Sys2Proof.Machine
end

