-- ==== Sys2Proof/Machine/Operands.lean ====
section
/-! DEFINITION. The operand contracts that read no state (the "Contract" lines of 41_encoder.md and 42_decoder.md with
the limits of 00_scope.md R4), the one operand read as a boolean (30_encoding.md R51), and the bit length ilog (R5). -/

namespace Sys2Proof.Machine

/-- `ilog(x)`: the bit length of x (R5). -/
def ilog (x : Word) : Nat := if x = 0#32 then 0 else Nat.log2 x.toNat + 1

/-- R51: the `bit` of ENC_BIT_LOGP is 1 when A is not 0, and 0 when A = 0 (D26). -/
def bitOperand (a : Word) : Bool := a != 0#32

/-- R75: 1 ≤ ft ≤ TOTAL_MAX and fl < fh ≤ ft. -/
abbrev encodeOk (fl fh ft : Word) : Prop :=
  1 ≤ ft.toNat ∧ ft.toNat ≤ totalMax ∧ fl.toNat < fh.toNat ∧ fh.toNat ≤ ft.toNat

/-- R76: 0 ≤ bits ≤ BITS_MAX and fl < fh ≤ 2^bits. -/
abbrev encodeBinOk (fl fh bits : Word) : Prop :=
  bits.toNat ≤ bitsMax ∧ fl.toNat < fh.toNat ∧ fh.toNat ≤ 2 ^ bits.toNat

/-- R77, R107: 1 ≤ logp ≤ 16. -/
abbrev logpOk (logp : Word) : Prop := 1 ≤ logp.toNat ∧ logp.toNat ≤ logpMax

/-- R32: 0 ≤ ftb ≤ 8. -/
abbrev ftbOk (ftb : Word) : Prop := ftb.toNat ≤ ftbMax

/-- R109: 2 ≤ total ≤ 2^32 - 1 (the upper bound is the operand's width). -/
abbrev uintTotalOk (total : Word) : Prop := 2 ≤ total.toNat

/-- R79: 2 ≤ total ≤ 2^32 - 1 and value < total. -/
abbrev encUintOk (value total : Word) : Prop := uintTotalOk total ∧ value.toNat < total.toNat

/-- R80, R110: 1 ≤ nbits ≤ 25. -/
abbrev rawOk (nbits : Word) : Prop := 1 ≤ nbits.toNat ∧ nbits.toNat ≤ rawMax

/-- R81: 1 ≤ nbits ≤ 8 and value < 2^nbits. -/
abbrev patchOk (value nbits : Word) : Prop :=
  (1 ≤ nbits.toNat ∧ nbits.toNat ≤ patchMax) ∧ value.toNat < 2 ^ nbits.toNat

/-- R104: 1 ≤ ft ≤ TOTAL_MAX. -/
abbrev probeOk (ft : Word) : Prop := 1 ≤ ft.toNat ∧ ft.toNat ≤ totalMax

/-- R105: 0 ≤ bits ≤ BITS_MAX. -/
abbrev probeBinOk (bits : Word) : Prop := bits.toNat ≤ bitsMax

/-- R106: fl < fh ≤ ft. -/
abbrev updateOk (fl fh ft : Word) : Prop := fl.toNat < fh.toNat ∧ fh.toNat ≤ ft.toNat

end Sys2Proof.Machine
end

