-- ==== Sys2Proof/Machine/Ops.lean ====
section
/-! DEFINITION. The named operations over memory and registers: the memory primitives (00_scope.md R6), the buffer
writers and readers (41_encoder.md R71, R72; 42_decoder.md R101, R102), the carry-out (R73), the two normalizers
(R74, R103), WellFormed (20_memory.md R32), how a command is admitted (30_encoding.md R53, R54), the host's
accesses (20_memory.md R39) and the hardware reset (R160). The unit takes no exception and returns from none (R140):
a refused command (`State.refuse`) and the sticky `error` (`State.setError`, `State.forceError`) stand in their place. -/

namespace Sys2Proof.Machine

/-! ### Memory primitives -/

/-- `MemRead(BUF, a, 1)` (R6): the byte last written there, or the free value of an unwritten byte (R30). -/
def State.bufByte (s : State) (a : Nat) : Byte := (s.buf.read? a).getD (Config.bufDraw s.resets a)

/-- `MemRead(TBL, a, 1)` (R6): the byte last written there, or the free value of an unwritten byte (R31). -/
def State.tblByte (s : State) (a : Nat) : Byte := (s.tbl.read? a).getD (Config.tblDraw s.resets a)

/-- `MemWrite(BUF, a, 1, v)` (R6). -/
def State.bufWrite (s : State) (a : Nat) (v : Byte) : State := { s with buf := s.buf.write a v }

/-- Store bytes at rising addresses from `a` on. -/
def State.bufWriteAll : State → Nat → List Byte → State
  | s, _, [] => s
  | s, a, v :: vs => State.bufWriteAll (s.bufWrite a v) (a + 1) vs

/-! ### Registers read as numbers -/

/-- nend_bits is a signed count of bits (R11); a negative one has no meaning as a count. -/
def State.bitCount (s : State) : Except Fault Nat :=
  if s.nendBits.msb then .error .negativeBitCount else .ok s.nendBits.toNat

/-- `rem >= 0` (R73, R81, R83): rem is signed (R11). -/
def State.remIsByte (s : State) : Bool := !s.rem.msb

/-! ### Buffer writers (41_encoder.md section 2) -/

/-- WriteFront(v) of R71, with its status. -/
def State.writeFront (s : State) (v : Byte) : State × Word :=
  if s.storage.toNat ≤ s.offs.toNat + s.endOffs.toNat then (s, encFault)
  else ({ s.bufWrite s.offs.toNat v with offs := s.offs + 1#32 }, 0#32)

/-- WriteBack(v) of R72, with its status. -/
def State.writeBack (s : State) (v : Byte) : State × Word :=
  if s.storage.toNat ≤ s.offs.toNat + s.endOffs.toNat then (s, encFault)
  else ({ s.bufWrite (s.storage.toNat - (s.endOffs.toNat + 1)) v with endOffs := s.endOffs + 1#32 }, 0#32)

/-- `set_error(WriteFront(v))`. -/
def State.putFront (s : State) (v : Byte) : State := (s.writeFront v).1.setError (s.writeFront v).2

/-- `set_error(WriteBack(v))`. -/
def State.putBack (s : State) (v : Byte) : State := (s.writeBack v).1.setError (s.writeBack v).2

/-! ### Carry-out and the encoder's normalizer (41_encoder.md section 3) -/

/-- The loop of R73 over the pending bytes: n bytes `v` are written, and ext counts down at each. -/
def State.flushPending : Nat → Byte → State → State
  | 0, _, s => s
  | n + 1, v, s => State.flushPending n v { s.putFront v with ext := s.ext - 1#32 }

/-- The first write of R73: the buffered byte with the carry, if there is one. -/
def State.flushRem (s : State) (carry : Word) : State :=
  if s.remIsByte then s.putFront ((s.rem + carry).setWidth 8) else s

/-- CarryOut(c) of R73. -/
def State.carryOut (s : State) (c : Word) : State :=
  if c = symMax then { s with ext := s.ext + 1#32 }
  else
    let carry := c >>> symBits
    let t := State.flushPending s.ext.toNat ((symMax + carry).setWidth 8) (s.flushRem carry)
    { t with rem := c &&& symMax }

/-- One pass of the loop of R74. -/
def State.encPass (s : State) : State :=
  { s.carryOut (s.val >>> codeShift) with
    val := (s.val <<< symBits) &&& lowMask
    rng := s.rng <<< symBits
    nbitsTotal := s.nbitsTotal + 8#32 }

/-- The loop of R74, at most `n` passes. -/
def State.encPasses : Nat → State → State
  | 0, s => s
  | n + 1, s => if s.rng ≤ codeBot then State.encPasses n s.encPass else s

/-- EncNormalize() of R74. From rng > 0 three passes bring rng above CODE_BOT; at rng = 0 the loop never ends (R146). -/
def State.encNormalize (s : State) : Except Fault State :=
  if s.rng = 0#32 then .error .normalizerHangs else .ok (State.encPasses 3 s)

/-! ### Buffer readers and the decoder's normalizer (42_decoder.md sections 2 and 3) -/

/-- ReadFront() of R101. -/
def State.readFront (s : State) : Byte × State :=
  if s.offs.toNat < s.storage.toNat then (s.bufByte s.offs.toNat, { s with offs := s.offs + 1#32 })
  else (0#8, s)

/-- ReadBack() of R102. -/
def State.readBack (s : State) : Byte × State :=
  if s.endOffs.toNat < s.storage.toNat then
    (s.bufByte (s.storage.toNat - (s.endOffs.toNat + 1)), { s with endOffs := s.endOffs + 1#32 })
  else (0#8, s)

/-- One pass of the loop of R103. -/
def State.decPass (s : State) : State :=
  let byte := s.readFront.1.setWidth 32
  let sym := ((s.rem <<< symBits) ||| byte) >>> (symBits - codeExtra)
  { s.readFront.2 with
    nbitsTotal := s.nbitsTotal + 8#32
    rng := s.rng <<< symBits
    rem := byte
    val := ((s.val <<< symBits) + (symMax &&& ~~~sym)) &&& lowMask }

/-- The loop of R103, at most `n` passes. -/
def State.decPasses : Nat → State → State
  | 0, s => s
  | n + 1, s => if s.rng ≤ codeBot then State.decPasses n s.decPass else s

/-- DecNormalize() of R103, as `encNormalize`. -/
def State.decNormalize (s : State) : Except Fault State :=
  if s.rng = 0#32 then .error .normalizerHangs else .ok (State.decPasses 3 s)

/-! ### The raw-bit window (41_encoder.md R80, R83; 42_decoder.md R110) -/

/-- The locals `window` and `used` (encoder) or `avail` (decoder). -/
structure Window where
  bits  : Word
  count : Nat
deriving DecidableEq, Repr

/-- The end_window and nend_bits registers as the locals of a command. -/
def State.window (s : State) (n : Nat) : Window := { bits := s.endWindow, count := n }

/-- `while used >= SYM_BITS`: write whole bytes back (R80, R83), at most `n` of them. -/
def State.flushWindow : Nat → Window → State → Window × State
  | 0, w, s => (w, s)
  | n + 1, w, s =>
    if symBits ≤ w.count then
      State.flushWindow n { bits := w.bits >>> symBits, count := w.count - symBits }
        (s.putBack ((w.bits &&& symMax).setWidth 8))
    else (w, s)

/-- The refill loop of R110, `while (avail <= WINDOW_SIZE - SYM_BITS)`, at most `n` reads. -/
def State.refillWindow : Nat → Window → State → Window × State
  | 0, w, s => (w, s)
  | n + 1, w, s =>
    if w.count ≤ windowSize - symBits then
      State.refillWindow n
        { bits := w.bits ||| (s.readBack.1.setWidth 32 <<< w.count), count := w.count + symBits } s.readBack.2
    else (w, s)

/-! ### Inverse-CDF tables (20_memory.md R32) -/

/-- The loop of WellFormed from address `a` with bound `prev`: how many entries lie from `a` to the first zero, or
`none` where the table is not well formed. `n` bounds the passes; entries fall, so `prev` passes are enough. -/
def State.tableFrom (s : State) : Nat → Nat → Nat → Option Nat
  | 0, _, _ => none
  | n + 1, a, prev =>
    if s.params.tblSize ≤ a then none
    else if prev ≤ (s.tblByte a).toNat then none
    else if s.tblByte a = 0#8 then some 1
    else (State.tableFrom s n (a + 1) (s.tblByte a).toNat).map (· + 1)

/-- The length n of the well-formed table at `t` for `ftb` bits (R32), `none` where WellFormed(t, ftb) is false. -/
def State.tableLength (s : State) (t : TblAddr) (ftb : Word) : Option Nat :=
  if ftbOk ftb then s.tableFrom (2 ^ ftb.toNat) t.toNat (2 ^ ftb.toNat) else none

/-- icdf[k] of the table at `t` (R32, R78, R108). -/
def State.icdf (s : State) (t : TblAddr) (k : Nat) : Word := (s.tblByte (t.toNat + k)).setWidth 32

/-! ### Admission of a command (30_encoding.md R53, R54) -/

/-- Modes "any" of R52. -/
def inAnyMode (_ : Mode) : Bool := true
/-- Mode "ENC" of R52. -/
def inEnc (m : Mode) : Bool := m == .enc
/-- Mode "DEC" of R52. -/
def inDec (m : Mode) : Bool := m == .dec
/-- Modes "ENC, DEC, DONE" of R52. -/
def inStream (m : Mode) : Bool := m != .idle

/-- An operand contract whose violation is BadOperand. -/
def operands (ok : Prop) [Decidable ok] : Option RefuseReason := if ok then none else some .badOperand

/-- The last three steps of Issue (R54): MODE, the operand contract, then the command's rule. A refusal is a next
state with the REFUSED mark set and nothing else changed (R146, log entry 1). -/
def command (admitted : Mode → Bool) (contract : Option RefuseReason) (rule : State → Except Fault State)
    (s : State) : Host.Outcome State Fault Refusal :=
  if admitted s.mode then
    match contract with
    | some r => .next (s.refuse r)
    | none =>
      match rule s with
      | .ok t => .next t
      | .error f => .fault f
  else .next (s.refuse .wrongMode)

/-- The stream lies inside BUF (R30): the guard of every rule that may touch BUF, all of whose accesses are below
`storage` (R30, R38). -/
def onStream (rule : State → Except Fault State) (s : State) : Except Fault State :=
  if s.storage.toNat ≤ s.params.bufCap then rule s else .error .streamBeyondBuf

/-- An encoder command (R53: MODE = ENC), which sets PROBE to none (41_encoder.md, preamble). -/
def encoderCommand (contract : Option RefuseReason) (rule : State → Except Fault State) (s : State) :
    Host.Outcome State Fault Refusal :=
  command inEnc contract (onStream fun t => rule { t with probe := none }) s

/-- A decoder command that may read BUF (R53: MODE = DEC); PROBE is the rule's own. -/
def decoderCommand (contract : Option RefuseReason) (rule : State → Except Fault State) (s : State) :
    Host.Outcome State Fault Refusal :=
  command inDec contract (onStream rule) s

/-! ### The host's side (10_state.md R16, R17; 20_memory.md R39; 70_reset_and_hazards.md R160) -/

/-- The code of a mode (R10). -/
def Mode.code : Mode → BitVec 2
  | .idle => 0#2
  | .enc => 1#2
  | .dec => 2#2
  | .done => 3#2

/-- What the status interface shows (R17). -/
structure Status where
  mode    : BitVec 2
  error   : Word
  storage : Word
  offs    : Word
  endOffs : Word
deriving DecidableEq, Repr

/-- A status read (R17): no side effect. -/
def State.status (s : State) : Status :=
  { mode := s.mode.code, error := s.error, storage := s.storage, offs := s.offs, endOffs := s.endOffs }

/-- A host read of BUF (R39): no side effect; `none` where the address does not exist. -/
def State.hostReadBuf (s : State) (a : Nat) : Option Byte :=
  if a < s.params.bufCap then some (s.bufByte a) else none

/-- A host read of TBL (R39): no side effect; `none` where the address does not exist. -/
def State.hostReadTbl (s : State) (a : Nat) : Option Byte :=
  if a < s.params.tblSize then some (s.tblByte a) else none

/-- The host may write BUF only in IDLE or DONE (R39). -/
def Mode.hostOwnsBuf : Mode → Bool
  | .idle => true
  | .enc => false
  | .dec => false
  | .done => true

/-- A host write of BUF (R39): refused HostBufWrite in ENC and DEC; an address that does not exist faults (log entry 7). -/
def hostWriteBuf (a : Nat) (v : Byte) (s : State) : Host.Outcome State Fault Refusal :=
  if s.mode.hostOwnsBuf then
    if a < s.params.bufCap then .next (s.bufWrite a v) else .fault .noSuchBufByte
  else .next (s.refuse .hostBufWrite)

/-- A host write of TBL (R39): admitted between any two commands. -/
def hostWriteTbl (a : Nat) (v : Byte) (s : State) : Host.Outcome State Fault Refusal :=
  if a < s.params.tblSize then .next { s with tbl := s.tbl.write a v } else .fault .noSuchTblByte

/-- A hardware reset (R160): every byte of BUF and of TBL is unspecified again (log entry 5). -/
def hardwareReset (s : State) : Host.Outcome State Fault Refusal :=
  .next (State.afterReset s.params (s.resets + 1) s.port)

end Sys2Proof.Machine
end

