-- ==== Sys2Proof/Machine/Common.lean ====
section
/-! DEFINITION. The commands both roles share (43_common.md R130, R131, R133). -/

namespace Sys2Proof.Machine

/-- The value of TELL (R130): wrap32(nbits_total - ilog(rng)). -/
def tellValue (rng nbitsTotal : Word) : Word := nbitsTotal - BitVec.ofNat 32 (ilog rng)

/-- TELL (R130). -/
def execTell (s : State) : Host.Outcome State Fault Refusal :=
  command inStream none (fun t => .ok { t with result := tellValue t.rng t.nbitsTotal }) s

/-- CORR[0..7] of R131. -/
def corr : Nat → Nat
  | 0 => 35733
  | 1 => 38967
  | 2 => 42495
  | 3 => 46340
  | 4 => 50535
  | 5 => 55109
  | 6 => 60097
  | _ => 65535

/-- `b` of R131 for the top 16 bits r of rng: the eighths of a bit above 2^15. -/
def fracEighths (r : Nat) : Nat :=
  let b := r >>> 12 - 8
  if corr b < r then b + 1 else b

/-- The value of TELL_FRAC (R131). -/
def tellFracValue (rng nbitsTotal : Word) : Word :=
  let l := ilog rng
  nbitsTotal <<< bitRes - BitVec.ofNat 32 (8 * l + fracEighths (rng.toNat >>> (l - 16)))

/-- The pseudocode of R131. Below 2^15 the shift count l - 16 would be negative; R131 says it is 8 .. 16. -/
def tellFracRule (s : State) : Except Fault State :=
  if ilog s.rng < 16 then .error .tellFracDomain
  else .ok { s with result := tellFracValue s.rng s.nbitsTotal }

/-- TELL_FRAC (R131). -/
def execTellFrac (s : State) : Host.Outcome State Fault Refusal :=
  command inStream none tellFracRule s

/-- RELEASE (R133). -/
def execRelease (s : State) : Host.Outcome State Fault Refusal :=
  command inAnyMode none (fun t => .ok { t with mode := .idle, probe := none }) s

end Sys2Proof.Machine
end

