-- ==== Sys2Proof/Machine/Encoder.lean ====
section
/-! DEFINITION. The ten encoder commands (41_encoder.md R70, R75 to R83). A "rule" is the pseudocode of a command
alone (the "-body" of R79); the meaning `exec…` adds its mode and its operand contract. -/

namespace Sys2Proof.Machine

/-! ### Initialisation -/

/-- The pseudocode of R70 after its contract. -/
def encInitRule (size : Word) (s : State) : Except Fault State :=
  .ok { s with
    storage := size
    offs := 0#32
    endOffs := 0#32
    endWindow := 0#32
    nendBits := 0#32
    nbitsTotal := 33#32
    rng := codeTop
    rem := 0xFFFFFFFF#32
    val := 0#32
    ext := 0#32
    error := 0#32
    probe := none
    mode := .enc }

/-- ENC_INIT (R70): admitted in every mode; size ≤ BUF_CAP. -/
def execEncInit (size : Word) (s : State) : Host.Outcome State Fault Refusal :=
  command inAnyMode (operands (size.toNat ≤ s.params.bufCap)) (encInitRule size) s

/-! ### Interval narrowing -/

/-- The narrowing of R75 before its normalization: `r` is the width of one part of the total. `above` is how many
parts of the total lie above the symbol's lower bound (ft - fl), `left` how many above its upper bound (ft - fh).
R75, R76 and R78 narrow by this one step. -/
def State.narrow (s : State) (r : Word) (first : Bool) (above left : Word) : State :=
  if first then { s with rng := s.rng - r * left }
  else { s with val := s.val + s.rng - r * above, rng := r * (above - left) }

/-- The pseudocode of R75. -/
def encodeRule (fl fh ft : Word) (s : State) : Except Fault State :=
  (s.narrow (s.rng / ft) (fl == 0#32) (ft - fl) (ft - fh)).encNormalize

/-- ENCODE (R75). -/
def execEncode (fl fh ft : Word) (s : State) : Host.Outcome State Fault Refusal :=
  encoderCommand (operands (encodeOk fl fh ft)) (encodeRule fl fh ft) s

/-- The pseudocode of R76. -/
def encodeBinRule (fl fh bits : Word) (s : State) : Except Fault State :=
  (s.narrow (s.rng >>> bits.toNat) (fl == 0#32) (1#32 <<< bits.toNat - fl) (1#32 <<< bits.toNat - fh)).encNormalize

/-- ENCODE_BIN (R76). -/
def execEncodeBin (fl fh bits : Word) (s : State) : Host.Outcome State Fault Refusal :=
  encoderCommand (operands (encodeBinOk fl fh bits)) (encodeBinRule fl fh bits) s

/-- The pseudocode of R77: a 1 takes the top rng >> logp of the interval. -/
def encBitLogpRule (bit : Bool) (logp : Word) (s : State) : Except Fault State :=
  let one := s.rng >>> logp.toNat
  let zero := s.rng - one
  (if bit then { s with val := s.val + zero, rng := one } else { s with rng := zero }).encNormalize

/-- ENC_BIT_LOGP (R77). -/
def execEncBitLogp (bit logp : Word) (s : State) : Host.Outcome State Fault Refusal :=
  encoderCommand (operands (logpOk logp)) (encBitLogpRule (bitOperand bit) logp) s

/-- The contract of R78: WellFormed(T, ftb), else BadTable; then s < n, else BadOperand. -/
def encIcdfContract (sym ftb : Word) (table : TblAddr) (s : State) : Option RefuseReason :=
  match s.tableLength table ftb with
  | none => some .badTable
  | some n => operands (sym.toNat < n)

/-- The pseudocode of R78. -/
def encIcdfRule (sym ftb : Word) (table : TblAddr) (s : State) : Except Fault State :=
  (s.narrow (s.rng >>> ftb.toNat) (sym == 0#32) (s.icdf table (sym.toNat - 1)) (s.icdf table sym.toNat)).encNormalize

/-- ENC_ICDF (R78). -/
def execEncIcdf (sym ftb : Word) (table : TblAddr) (s : State) : Host.Outcome State Fault Refusal :=
  encoderCommand (encIcdfContract sym ftb table s) (encIcdfRule sym ftb table) s

/-! ### Raw bits -/

/-- R80 and R83 flush whole bytes only when the new field would pass WINDOW_SIZE. Under the contract the loop's first
pass is always due (used ≥ 8), so its test may stand first. -/
def makeRoom (used nbits : Nat) (s : State) : Window × State :=
  if windowSize < used + nbits then State.flushWindow used (s.window used) s else (s.window used, s)

/-- The pseudocode of R80. The value is not masked to nbits. -/
def encBitsRule (value nbits : Word) (s : State) : Except Fault State :=
  match s.bitCount with
  | .error f => .error f
  | .ok used =>
    let (w, t) := makeRoom used nbits.toNat s
    .ok { t with
      endWindow := w.bits ||| (value <<< w.count)
      nendBits := BitVec.ofNat 32 (w.count + nbits.toNat)
      nbitsTotal := t.nbitsTotal + nbits }

/-- ENC_BITS (R80). -/
def execEncBits (value nbits : Word) (s : State) : Host.Outcome State Fault Refusal :=
  encoderCommand (operands (rawOk nbits)) (encBitsRule value nbits) s

/-! ### Uniform integers -/

/-- The extra raw bits of a uniform integer below `total`: ilog(total - 1) - UINT_BITS, 0 where it is not split
(R79, R109). -/
def extraBits (total : Word) : Nat := ilog (total - 1#32) - uintBits

/-- The pseudocode of R79. -/
def encUintRule (value total : Word) (s : State) : Except Fault State :=
  let x := extraBits total
  if x = 0 then encodeRule value (value + 1#32) total s
  else
    let high := value >>> x
    match encodeRule high (high + 1#32) ((total - 1#32) >>> x + 1#32) s with
    | .error f => .error f
    | .ok t => encBitsRule (value &&& (1#32 <<< x - 1#32)) (BitVec.ofNat 32 x) t

/-- ENC_UINT (R79). -/
def execEncUint (value total : Word) (s : State) : Host.Outcome State Fault Refusal :=
  encoderCommand (operands (encUintOk value total)) (encUintRule value total) s

/-! ### Patch and shrink -/

/-- The mask of R81: the first nbits bits of a byte, its bits 7 .. 8 - nbits. -/
def patchMask (nbits : Nat) : Word := (1#32 <<< nbits - 1#32) <<< (symBits - nbits)

/-- The bits `mask` of `old` replaced by the patch value, in place. -/
def patched (old value : Word) (nbits : Nat) : Word :=
  (old &&& ~~~patchMask nbits) ||| (value <<< (symBits - nbits))

/-- The pseudocode of R81: BUF[0], else rem, else val, else too early (EC3). -/
def encPatchRule (value nbits : Word) (s : State) : Except Fault State :=
  let n := nbits.toNat
  if 0#32 < s.offs then .ok (s.bufWrite 0 ((patched ((s.bufByte 0).setWidth 32) value n).setWidth 8))
  else if s.remIsByte then .ok { s with rem := patched s.rem value n }
  else if s.rng ≤ codeTop >>> n then
    .ok { s with
      val := (s.val &&& ~~~(patchMask n <<< codeShift)) ||| (value <<< (codeShift + (symBits - n))) }
  else .ok (s.forceError encFault)

/-- ENC_PATCH (R81). -/
def execEncPatch (value nbits : Word) (s : State) : Host.Outcome State Fault Refusal :=
  encoderCommand (operands (patchOk value nbits)) (encPatchRule value nbits) s

/-- The contract of R82: offs + end_offs ≤ size ≤ storage. -/
abbrev shrinkOk (size : Word) (s : State) : Prop :=
  s.offs.toNat + s.endOffs.toNat ≤ size.toNat ∧ size.toNat ≤ s.storage.toNat

/-- The back bytes BUF[storage - end_offs .. storage - 1], by rising address (R82). -/
def State.tail (s : State) : List Byte :=
  (List.range s.endOffs.toNat).map fun i => s.bufByte (s.storage.toNat - s.endOffs.toNat + i)

/-- The pseudocode of R82: read all, then write all. -/
def encShrinkRule (size : Word) (s : State) : Except Fault State :=
  .ok { s.bufWriteAll (size.toNat - s.endOffs.toNat) s.tail with storage := size }

/-- ENC_SHRINK (R82). -/
def execEncShrink (size : Word) (s : State) : Host.Outcome State Fault Refusal :=
  encoderCommand (operands (shrinkOk size s)) (encShrinkRule size) s

/-! ### Finish -/

/-- The locals `l` and `end` after step 1 of R83: the shortest code value inside the interval. Sums are mathematical
integers where they are compared (R2; log entry 9). -/
def State.codeValue (s : State) : Nat × Word :=
  let l := codeBits - ilog s.rng
  let msk := lowMask >>> l
  let e := (s.val + msk) &&& ~~~msk
  if s.val.toNat + s.rng.toNat ≤ (e ||| msk).toNat then
    (l + 1, (s.val + msk >>> 1) &&& ~~~(msk >>> 1))
  else (l, e)

/-- The loop of step 2 of R83, at most `n` passes; the number it returns is the last `l`, which is not positive. -/
def State.emitCode : Nat → Int → Word → State → Int × State
  | 0, l, _, s => (l, s)
  | n + 1, l, e, s =>
    if 0 < l then State.emitCode n (l - symBits) ((e <<< symBits) &&& lowMask) (s.carryOut (e >>> codeShift))
    else (l, s)

/-- Step 3 of R83. -/
def State.flushCarry (s : State) : State :=
  if s.remIsByte || 0#32 < s.ext then s.carryOut 0#32 else s

/-- The zero fill of step 5 of R83: BUF[offs .. storage - end_offs - 1]. -/
def State.zeroGap (s : State) : State :=
  s.bufWriteAll s.offs.toNat (List.replicate (s.storage.toNat - s.endOffs.toNat - s.offs.toNat) 0#8)

/-- OR the leftover bits into the byte just before the raw bytes (step 5 of R83). -/
def State.mergeByte (s : State) (bits : Word) : State :=
  let a := s.storage.toNat - s.endOffs.toNat - 1
  s.bufWrite a (s.bufByte a ||| bits.setWidth 8)

/-- The merge of step 5 of R83: `w` is the leftover window, `free` the free low bits of the last range byte. -/
def State.mergeLeftover (s : State) (w : Window) (free : Nat) : State :=
  if w.count = 0 then s
  else if s.storage.toNat ≤ s.endOffs.toNat then s.forceError encFault
  else if s.storage.toNat ≤ s.offs.toNat + s.endOffs.toNat ∧ free < w.count then
    (s.forceError encFault).mergeByte (w.bits &&& (1#32 <<< free - 1#32))
  else s.mergeByte w.bits

/-- Steps 2 to 4 of R83: the leftover window, the free low bits of the last range byte, and the state. -/
def State.flushAll (s : State) (used : Nat) : Window × Nat × State :=
  let (l, e) := s.codeValue
  let (rest, t) := State.emitCode l l e s
  let (w, u) := State.flushWindow used (s.window used) t.flushCarry
  (w, (-rest).toNat, u)

/-- The pseudocode of R83. -/
def encDoneRule (s : State) : Except Fault State :=
  match s.bitCount with
  | .error f => .error f
  | .ok used =>
    let (w, free, t) := s.flushAll used
    let u := if t.error = 0#32 then t.zeroGap.mergeLeftover w free else t
    .ok { u with mode := .done }

/-- ENC_DONE (R83). -/
def execEncDone (s : State) : Host.Outcome State Fault Refusal :=
  encoderCommand none encDoneRule s

end Sys2Proof.Machine
end

