-- ==== Sys2Proof/Machine/Decoder.lean ====
section
/-! DEFINITION. The eight decoder commands (42_decoder.md R100, R104 to R110). -/

namespace Sys2Proof.Machine

/-! ### Initialisation -/

/-- The registers of R100 before its first read. -/
def State.decInitRegs (s : State) (size : Word) : State :=
  { s with
    storage := size
    endOffs := 0#32
    endWindow := 0#32
    nendBits := 0#32
    nbitsTotal := 9#32
    offs := 0#32
    rng := 128#32
    ext := 0#32
    error := 0#32
    probe := none
    mode := .dec }

/-- The pseudocode of R100 after its contract. -/
def decInitRule (size : Word) (s : State) : Except Fault State :=
  let t := s.decInitRegs size
  let byte := t.readFront.1.setWidth 32
  { t.readFront.2 with
    rem := byte
    val := t.rng - 1#32 - byte >>> (symBits - codeExtra) : State }.decNormalize

/-- DEC_INIT (R100): admitted in every mode; size ≤ BUF_CAP. -/
def execDecInit (size : Word) (s : State) : Host.Outcome State Fault Refusal :=
  command inAnyMode (operands (size.toNat ≤ s.params.bufCap)) (decInitRule size) s

/-! ### Probe and commit -/

/-- The value `total - min(q + 1, total)` of R104 and R105, q = val div ext. -/
def scaledValue (val ext : Word) (total : Nat) : Nat := total - min (val.toNat / ext.toNat + 1) total

/-- The probe of R104 and R105 with the quotient `ext` of its total. -/
def State.probeWith (s : State) (ext : Word) (total : Nat) : Except Fault State :=
  if ext = 0#32 then .error .divideByZero
  else .ok { s with
    ext := ext
    result := BitVec.ofNat 32 (scaledValue s.val ext total)
    probe := some total }

/-- The pseudocode of R104. -/
def decodeRule (ft : Word) (s : State) : Except Fault State := s.probeWith (s.rng / ft) ft.toNat

/-- DECODE (R104). -/
def execDecode (ft : Word) (s : State) : Host.Outcome State Fault Refusal :=
  command inDec (operands (probeOk ft)) (decodeRule ft) s

/-- The pseudocode of R105. -/
def decodeBinRule (bits : Word) (s : State) : Except Fault State :=
  s.probeWith (s.rng >>> bits.toNat) (2 ^ bits.toNat)

/-- DECODE_BIN (R105). -/
def execDecodeBin (bits : Word) (s : State) : Host.Outcome State Fault Refusal :=
  command inDec (operands (probeBinOk bits)) (decodeBinRule bits) s

/-- The commit of R106 before its normalization. -/
def State.commit (s : State) (fl fh ft : Word) : State :=
  let below := s.ext * (ft - fh)
  { s with
    val := s.val - below
    rng := if 0#32 < fl then s.ext * (fh - fl) else s.rng - below
    probe := none }

/-- The pseudocode of R106. -/
def decUpdateRule (fl fh ft : Word) (s : State) : Except Fault State := (s.commit fl fh ft).decNormalize

/-- The contract of R106: PROBE = ft, else NoProbe; then fl < fh ≤ ft, else BadOperand. -/
def decUpdateContract (fl fh ft : Word) (s : State) : Option RefuseReason :=
  if s.probe = some ft.toNat then operands (updateOk fl fh ft) else some .noProbe

/-- DEC_UPDATE (R106). -/
def execDecUpdate (fl fh ft : Word) (s : State) : Host.Outcome State Fault Refusal :=
  decoderCommand (decUpdateContract fl fh ft s) (decUpdateRule fl fh ft) s

/-! ### Fused probe and commit -/

/-- The decision of R107, before its normalization: a 1 is the top rng >> logp of the interval. -/
def State.decideBit (s : State) (logp : Word) : Bool × State :=
  let one := s.rng >>> logp.toNat
  if s.val < one then (true, { s with rng := one, probe := none })
  else (false, { s with val := s.val - one, rng := s.rng - one, probe := none })

/-- The pseudocode of R107. -/
def decBitLogpRule (logp : Word) (s : State) : Except Fault State :=
  let (b, t) := s.decideBit logp
  match t.decNormalize with
  | .error f => .error f
  | .ok u => .ok { u with result := if b then 1#32 else 0#32 }

/-- DEC_BIT_LOGP (R107). -/
def execDecBitLogp (logp : Word) (s : State) : Host.Outcome State Fault Refusal :=
  decoderCommand (operands (logpOk logp)) (decBitLogpRule logp) s

/-- The walk of R108 from entry k, whose upper bound is `top`: the symbol found, with the bounds `top` and `s` of its
part. `n` bounds the walk; a well-formed table ends it at its zero entry. -/
def State.icdfWalk (st : State) (r : Word) (t : TblAddr) : Nat → Nat → Word → Nat × Word × Word
  | 0, k, top => (k, top, 0#32)
  | n + 1, k, top =>
    if st.val < r * st.icdf t k then State.icdfWalk st r t n (k + 1) (r * st.icdf t k)
    else (k, top, r * st.icdf t k)

/-- The pseudocode of R108. -/
def decIcdfRule (ftb : Word) (table : TblAddr) (st : State) : Except Fault State :=
  let (k, top, s) := st.icdfWalk (st.rng >>> ftb.toNat) table (2 ^ ftb.toNat) 0 st.rng
  match { st with val := st.val - s, rng := top - s, probe := none : State }.decNormalize with
  | .error f => .error f
  | .ok u => .ok { u with result := BitVec.ofNat 32 k }

/-- The contract of R108: WellFormed(T, ftb), else BadTable. -/
def decIcdfContract (ftb : Word) (table : TblAddr) (s : State) : Option RefuseReason :=
  if (s.tableLength table ftb).isSome then none else some .badTable

/-- DEC_ICDF (R108). -/
def execDecIcdf (ftb : Word) (table : TblAddr) (s : State) : Host.Outcome State Fault Refusal :=
  decoderCommand (decIcdfContract ftb table s) (decIcdfRule ftb table) s

/-! ### Raw bits -/

/-- The window of R110 after its refill, which is due when fewer than nbits bits are valid. Under the contract the
loop's test holds at its first pass (avail ≤ 24), so it may stand first. -/
def refill (avail nbits : Nat) (s : State) : Window × State :=
  if avail < nbits then State.refillWindow 4 (s.window avail) s else (s.window avail, s)

/-- The pseudocode of R110. -/
def decBitsRule (nbits : Word) (s : State) : Except Fault State :=
  match s.bitCount with
  | .error f => .error f
  | .ok avail =>
    let n := nbits.toNat
    let (w, t) := refill avail n s
    .ok { t with
      result := w.bits &&& (1#32 <<< n - 1#32)
      endWindow := w.bits >>> n
      nendBits := BitVec.ofNat 32 (w.count - n)
      nbitsTotal := t.nbitsTotal + nbits
      probe := none }

/-- DEC_BITS (R110). -/
def execDecBits (nbits : Word) (s : State) : Host.Outcome State Fault Refusal :=
  decoderCommand (operands (rawOk nbits)) (decBitsRule nbits) s

/-! ### Uniform integers -/

/-- DECODE-body(ft), then DEC_UPDATE-body(s, s + 1, ft) with its scaled value s (R109). -/
def decodeSymbol (ft : Word) (s : State) : Except Fault State :=
  match decodeRule ft s with
  | .error f => .error f
  | .ok t => decUpdateRule t.result (t.result + 1#32) ft t

/-- The check of R109 on the reconstructed value v against t = total - 1 (DC1). -/
def State.checkUint (s : State) (v t : Word) : State :=
  if v ≤ t then { s with result := v, probe := none }
  else { s.forceError decFault with result := t, probe := none }

/-- The pseudocode of R109. `t.result` is the scaled value s, since a commit writes no RESULT; `u.result` is the value
of DEC_BITS-body. -/
def decUintRule (total : Word) (s : State) : Except Fault State :=
  let x := extraBits total
  if x = 0 then decodeSymbol total s
  else
    match decodeSymbol ((total - 1#32) >>> x + 1#32) s with
    | .error f => .error f
    | .ok t =>
      match decBitsRule (BitVec.ofNat 32 x) t with
      | .error f => .error f
      | .ok u => .ok (u.checkUint (t.result <<< x ||| u.result) (total - 1#32))

/-- DEC_UINT (R109). -/
def execDecUint (total : Word) (s : State) : Host.Outcome State Fault Refusal :=
  decoderCommand (operands (uintTotalOk total)) (decUintRule total) s

end Sys2Proof.Machine
end

