-- ==== Sys2Proof/Machine/Dispatch.lean ====
section
/-! DEFINITION. One arm per command (30_encoding.md R52). -/

namespace Sys2Proof.Machine

def exec (i : Instr) (s : State) : Host.Outcome State Fault Refusal :=
  match i with
  -- 41_encoder.md
  | .encInit size => Sys2Proof.Machine.execEncInit size s
  | .encode fl fh ft => Sys2Proof.Machine.execEncode fl fh ft s
  | .encodeBin fl fh bits => Sys2Proof.Machine.execEncodeBin fl fh bits s
  | .encBitLogp bit logp => Sys2Proof.Machine.execEncBitLogp bit logp s
  | .encIcdf sym ftb table => Sys2Proof.Machine.execEncIcdf sym ftb table s
  | .encUint value total => Sys2Proof.Machine.execEncUint value total s
  | .encBits value nbits => Sys2Proof.Machine.execEncBits value nbits s
  | .encPatch value nbits => Sys2Proof.Machine.execEncPatch value nbits s
  | .encShrink size => Sys2Proof.Machine.execEncShrink size s
  | .encDone => Sys2Proof.Machine.execEncDone s
  -- 42_decoder.md
  | .decInit size => Sys2Proof.Machine.execDecInit size s
  | .decode ft => Sys2Proof.Machine.execDecode ft s
  | .decodeBin bits => Sys2Proof.Machine.execDecodeBin bits s
  | .decUpdate fl fh ft => Sys2Proof.Machine.execDecUpdate fl fh ft s
  | .decBitLogp logp => Sys2Proof.Machine.execDecBitLogp logp s
  | .decIcdf ftb table => Sys2Proof.Machine.execDecIcdf ftb table s
  | .decUint total => Sys2Proof.Machine.execDecUint total s
  | .decBits nbits => Sys2Proof.Machine.execDecBits nbits s
  -- 43_common.md
  | .tell => Sys2Proof.Machine.execTell s
  | .tellFrac => Sys2Proof.Machine.execTellFrac s
  | .release => Sys2Proof.Machine.execRelease s

end Sys2Proof.Machine
end

