-- ==== Sys2Proof/Machine/Step.lean ====
section
/-! DEFINITION. One step: the next pending transaction of the host is served (10_state.md R18, 30_encoding.md R54). -/

namespace Sys2Proof.Machine

/-- `Issue(pkt)` of R54: the two checks of the packet, then MODE, contract and rule (`exec`). -/
def issue (p : Packet) (s : State) : Host.Outcome State Fault Refusal :=
  match decode p with
  | .error r => .next (s.refuse r)
  | .ok i => exec i s

/-- Serve one transaction. -/
def serve (x : Transaction) (s : State) : Host.Outcome State Fault Refusal :=
  match x with
  | .command p => issue p s
  | .writeBuf a v => hostWriteBuf a v s
  | .writeTbl a v => hostWriteTbl a v s
  | .hardwareReset => hardwareReset s

/-- One step: take the host's next transaction off the list and serve it; with none pending the unit waits and
nothing changes (R160: "after reset it waits for the first command"). -/
def step (s : State) : Host.Outcome State Fault Refusal :=
  match s.port with
  | [] => .next s
  | x :: rest => serve x { s with port := rest }

/-- The state whose next step issues the opcode-table word `w`: its packet is the host's next transaction (log
entries 2 and 11). -/
def State.withFetchWord (s : State) (nbits w : Nat) : State :=
  { s with port := .command (tablePacket nbits w) :: s.port }

end Sys2Proof.Machine
end

