-- ==== Sys2Proof/Machine/Assembly.lean ====
section
/-! DEFINITION. The assembler syntax of 30_encoding.md R55: `MNEMONIC op, op, ...` with the operands in the order A, B,
C, then the table address as `@addr`; numbers decimal or hexadecimal with `0x`; `;` starts a comment. It is how the
spec writes commands; the unit itself sees packets only. -/

namespace Sys2Proof.Machine

/-- An operand as it is written: a number, or a table address. -/
inductive AsmOperand where
  | num (n : Nat)
  | addr (n : Nat)
deriving DecidableEq, Repr

/-- The digits of R55's numbers, each at the place of its value: the first ten are the decimal ones. -/
def digitNames : List Char := "0123456789ABCDEF".toList

/-- The value of a digit of a number in base 10 or 16: its place among the first `base` digits, in either case. -/
def digitValue (base : Nat) (c : Char) : Option Nat := (digitNames.take base).findIdx? (· == c.toUpper)

/-- The number a list of digits stands for, after `acc`. -/
def digitsFrom (base : Nat) : Nat → List Char → Option Nat
  | acc, [] => some acc
  | acc, c :: cs =>
    match digitValue base c with
    | none => none
    | some d => digitsFrom base (acc * base + d) cs

/-- A number: decimal, or hexadecimal after `0x`. -/
def parseNumber : List Char → Option Nat
  | [] => none
  | '0' :: 'x' :: [] => none
  | '0' :: 'x' :: cs => digitsFrom 16 0 cs
  | cs => digitsFrom 10 0 cs

/-- A text without the blanks at its two ends. -/
def trimBlanks (cs : List Char) : List Char :=
  ((cs.dropWhile (· == ' ')).reverse.dropWhile (· == ' ')).reverse

/-- One operand. -/
def parseOperand (cs : List Char) : Option AsmOperand :=
  match trimBlanks cs with
  | '@' :: ds => (parseNumber ds).map .addr
  | ds => (parseNumber ds).map .num

/-- The texts between commas. -/
def splitCommas : List Char → List (List Char)
  | [] => [[]]
  | c :: cs =>
    match splitCommas cs with
    | [] => [[c]]
    | t :: ts => if c = ',' then [] :: t :: ts else (c :: t) :: ts

/-- The operands after the mnemonic. -/
def parseOperands (cs : List Char) : Option (List AsmOperand) :=
  if trimBlanks cs = [] then some [] else (splitCommas cs).mapM parseOperand

/-- The command a mnemonic and its operands name (R52), numbers taken at the width of their fields. -/
def commandOf (mnemonic : String) (ops : List AsmOperand) : Option Instr :=
  let w (n : Nat) : Word := BitVec.ofNat 32 n
  let t (n : Nat) : TblAddr := BitVec.ofNat 16 n
  match mnemonic, ops with
  | "ENC_INIT", [.num a] => some (.encInit (w a))
  | "ENCODE", [.num a, .num b, .num c] => some (.encode (w a) (w b) (w c))
  | "ENCODE_BIN", [.num a, .num b, .num c] => some (.encodeBin (w a) (w b) (w c))
  | "ENC_BIT_LOGP", [.num a, .num b] => some (.encBitLogp (w a) (w b))
  | "ENC_ICDF", [.num a, .num b, .addr x] => some (.encIcdf (w a) (w b) (t x))
  | "ENC_UINT", [.num a, .num b] => some (.encUint (w a) (w b))
  | "ENC_BITS", [.num a, .num b] => some (.encBits (w a) (w b))
  | "ENC_PATCH", [.num a, .num b] => some (.encPatch (w a) (w b))
  | "ENC_SHRINK", [.num a] => some (.encShrink (w a))
  | "ENC_DONE", [] => some .encDone
  | "DEC_INIT", [.num a] => some (.decInit (w a))
  | "DECODE", [.num a] => some (.decode (w a))
  | "DECODE_BIN", [.num a] => some (.decodeBin (w a))
  | "DEC_UPDATE", [.num a, .num b, .num c] => some (.decUpdate (w a) (w b) (w c))
  | "DEC_BIT_LOGP", [.num a] => some (.decBitLogp (w a))
  | "DEC_ICDF", [.num a, .addr x] => some (.decIcdf (w a) (t x))
  | "DEC_UINT", [.num a] => some (.decUint (w a))
  | "DEC_BITS", [.num a] => some (.decBits (w a))
  | "TELL", [] => some .tell
  | "TELL_FRAC", [] => some .tellFrac
  | "RELEASE", [] => some .release
  | _, _ => none

/-- Every number fits its field: 32 bits for an operand, 16 for a table address (R50). -/
def AsmOperand.fits : AsmOperand → Bool
  | .num n => decide (n < 2 ^ 32)
  | .addr n => decide (n < 2 ^ 16)

/-- The command a line of assembler text stands for, `none` where the text is not of the syntax. -/
def assemble (line : String) : Option Instr :=
  let cs := trimBlanks (line.toList.takeWhile (· != ';'))
  match parseOperands (cs.dropWhile (· != ' ')) with
  | none => none
  | some ops => if ops.all AsmOperand.fits then commandOf (String.ofList (cs.takeWhile (· != ' '))) ops else none

/-- The mnemonic of each command (R52). -/
def mnemonic : Instr → String
  | .encInit .. => "ENC_INIT"
  | .encode .. => "ENCODE"
  | .encodeBin .. => "ENCODE_BIN"
  | .encBitLogp .. => "ENC_BIT_LOGP"
  | .encIcdf .. => "ENC_ICDF"
  | .encUint .. => "ENC_UINT"
  | .encBits .. => "ENC_BITS"
  | .encPatch .. => "ENC_PATCH"
  | .encShrink .. => "ENC_SHRINK"
  | .encDone => "ENC_DONE"
  | .decInit .. => "DEC_INIT"
  | .decode .. => "DECODE"
  | .decodeBin .. => "DECODE_BIN"
  | .decUpdate .. => "DEC_UPDATE"
  | .decBitLogp .. => "DEC_BIT_LOGP"
  | .decIcdf .. => "DEC_ICDF"
  | .decUint .. => "DEC_UINT"
  | .decBits .. => "DEC_BITS"
  | .tell => "TELL"
  | .tellFrac => "TELL_FRAC"
  | .release => "RELEASE"

/-- The operands of each command, in the order of R55. -/
def asmOperands : Instr → List AsmOperand
  | .encInit a => [.num a.toNat]
  | .encode a b c => [.num a.toNat, .num b.toNat, .num c.toNat]
  | .encodeBin a b c => [.num a.toNat, .num b.toNat, .num c.toNat]
  | .encBitLogp a b => [.num a.toNat, .num b.toNat]
  | .encIcdf a b t => [.num a.toNat, .num b.toNat, .addr t.toNat]
  | .encUint a b => [.num a.toNat, .num b.toNat]
  | .encBits a b => [.num a.toNat, .num b.toNat]
  | .encPatch a b => [.num a.toNat, .num b.toNat]
  | .encShrink a => [.num a.toNat]
  | .encDone => []
  | .decInit a => [.num a.toNat]
  | .decode a => [.num a.toNat]
  | .decodeBin a => [.num a.toNat]
  | .decUpdate a b c => [.num a.toNat, .num b.toNat, .num c.toNat]
  | .decBitLogp a => [.num a.toNat]
  | .decIcdf a t => [.num a.toNat, .addr t.toNat]
  | .decUint a => [.num a.toNat]
  | .decBits a => [.num a.toNat]
  | .tell => []
  | .tellFrac => []
  | .release => []

/-- An operand as text, in decimal. -/
def AsmOperand.text : AsmOperand → String
  | .num n => toString n
  | .addr n => "@" ++ toString n

/-- A command as text. -/
def disassemble (i : Instr) : String :=
  match asmOperands i with
  | [] => mnemonic i
  | ops => mnemonic i ++ " " ++ String.intercalate ", " (ops.map AsmOperand.text)

end Sys2Proof.Machine
end

