-- ==== Sys2Proof/Safety.lean ====
section
/-! DEFINITION. The terms that claims about the RC unit use: the invariants of 10_state.md R19 and R20, the mode
column of 30_encoding.md R52, what a normalization and a buffer access leave, and what a safe run is. -/

namespace Sys2Proof.Machine

/-! ### Invariants -/

/-- R19 (a), R20 (a): CODE_BOT < rng ≤ CODE_TOP. -/
abbrev State.rngOk (s : State) : Prop := 2 ^ 23 < s.rng.toNat ∧ s.rng.toNat ≤ 2 ^ 31

/-- R19 (b), R84: val + rng < 2^32. -/
abbrev State.valRngOk (s : State) : Prop := s.val.toNat + s.rng.toNat < 2 ^ 32

/-- No byte is in BUF and none is buffered in rem, so that ENC_PATCH looks for the first byte in val (R81). -/
abbrev State.firstByteInVal (s : State) : Prop := s.offs = 0#32 ∧ s.rem = 0xFFFFFFFF#32

/-- R19 (a) to (e), with the values of `error` an encoder stream can have (R141) and PROBE = none (R15). (b) holds in ENC,
but for what R81 can do to it: while no byte is in BUF or rem, a patch of val over a pending carry (bit 31) can raise the
sum (log entry 9). The other clauses hold in DONE as well, since ENC_DONE writes neither rng nor nend_bits (R83). -/
structure State.EncInv (s : State) : Prop where
  rng      : s.rngOk
  valRng   : s.mode = .enc → s.valRngOk ∨ s.firstByteInVal ∧ 2 ^ 31 ≤ s.val.toNat
  cursors  : s.offs.toNat + s.endOffs.toNat ≤ s.storage.toNat
  rem      : s.rem = 0xFFFFFFFF#32 ∨ s.rem.toNat ≤ 255
  nendBits : s.nendBits.toNat ≤ 32
  error    : s.error = 0#32 ∨ s.error = encFault
  probe    : s.probe = none

/-- R20 (a) to (d), with the values of `error` a decoder stream can have (R141), and: while PROBE holds a total, ext is
the quotient of that total's probe (R15, R104, R105). -/
structure State.DecInv (s : State) : Prop where
  rng      : s.rngOk
  front    : s.offs.toNat ≤ s.storage.toNat
  back     : s.endOffs.toNat ≤ s.storage.toNat
  rem      : s.rem.toNat ≤ 255
  nendBits : s.nendBits.toNat ≤ 31
  error    : s.error = 0#32 ∨ s.error = decFault
  probe    : ∀ ft, s.probe = some ft → (1 ≤ ft ∧ ft ≤ totalMax) ∧ s.ext.toNat = s.rng.toNat / ft

/-- In IDLE the registers hold the last stream's values, or those of reset (R133, R160). -/
structure State.IdleInv (s : State) : Prop where
  error : s.error = 0#32 ∨ s.error = encFault ∨ s.error = decFault
  probe : s.probe = none

/-- The invariant of the mode. -/
def State.ModeInv (s : State) : Prop :=
  match s.mode with
  | .idle => s.IdleInv
  | .enc => s.EncInv
  | .dec => s.DecInv
  | .done => s.EncInv

/-- The invariant of the machine: the parameters are those R4 allows, the stream lies inside BUF (R30), both memories
are in canonical form and inside their sizes, and the invariant of the mode holds. -/
structure State.Inv (s : State) : Prop where
  params   : s.params.ok
  storage  : s.storage.toNat ≤ s.params.bufCap
  bufWf    : s.buf.wf
  tblWf    : s.tbl.wf
  bufBelow : s.buf.below s.params.bufCap
  tblBelow : s.tbl.below s.params.tblSize
  mode     : s.ModeInv

/-- The one command that can break R19 (b): an ENC_PATCH that meets its contract and finds `nbits` settled bits in val
(R81) while a carry is pending there, in bit 31 (log entry 9). -/
def PatchesOverCarry (i : Instr) (s : State) : Prop :=
  ∃ value nbits, i = .encPatch value nbits ∧ patchOk value nbits ∧ s.firstByteInVal ∧
    s.rng.toNat ≤ 2 ^ (31 - nbits.toNat) ∧ 2 ^ 31 ≤ s.val.toNat

/-! ### Admission -/

/-- The "modes" column of R52 (R53). -/
def admittedIn : Instr → Mode → Bool
  | .encInit .., _ => true
  | .decInit .., _ => true
  | .release, _ => true
  | .tell, m => m == .enc || m == .dec || m == .done
  | .tellFrac, m => m == .enc || m == .dec || m == .done
  | .encode .., m => m == .enc
  | .encodeBin .., m => m == .enc
  | .encBitLogp .., m => m == .enc
  | .encIcdf .., m => m == .enc
  | .encUint .., m => m == .enc
  | .encBits .., m => m == .enc
  | .encPatch .., m => m == .enc
  | .encShrink .., m => m == .enc
  | .encDone, m => m == .enc
  | .decode .., m => m == .dec
  | .decodeBin .., m => m == .dec
  | .decUpdate .., m => m == .dec
  | .decBitLogp .., m => m == .dec
  | .decIcdf .., m => m == .dec
  | .decUint .., m => m == .dec
  | .decBits .., m => m == .dec

/-- The command is refused for the reason `r`: a step that changes nothing but the REFUSED mark (R146, log entry 1). -/
abbrev RefusedAs (i : Instr) (s : State) (r : RefuseReason) : Prop := exec i s = .next { s with refusal := some r }

/-! ### What claims say of a normalization -/

/-- `k` is the number of passes a normalization makes from the width `rng` (R74, R103): they end at the first width
above CODE_BOT, which is then at most CODE_TOP. -/
abbrev Passes (rng k : Nat) : Prop := 2 ^ 23 < rng * 2 ^ (8 * k) ∧ rng * 2 ^ (8 * k) ≤ 2 ^ 31

/-- What R74 leaves of val after k passes: val itself, or its low bits moved up, bits 30..0 kept. -/
abbrev shiftedVal (val k : Nat) : Nat := if k = 0 then val else val * 2 ^ (8 * k) % 2 ^ 31

/-- The k-th byte of the front from cursor `offs` on, as ReadFront gives it: 0 past the end (R101). -/
def State.frontByte (s : State) (k : Nat) : Nat :=
  if s.offs.toNat + k < s.storage.toNat then (s.bufByte (s.offs.toNat + k)).toNat else 0

/-- The k-th byte of the back from cursor `end_offs` on, as ReadBack gives it: 0 past the start (R102). -/
def State.backByte (s : State) (k : Nat) : Nat :=
  if s.endOffs.toNat + k < s.storage.toNat then (s.bufByte (s.storage.toNat - s.endOffs.toNat - k - 1)).toNat else 0

/-- The next `k` front bytes as one number, most significant first (R35). -/
def State.frontNumber (s : State) : Nat → Nat
  | 0 => 0
  | k + 1 => State.frontNumber s k * 256 + s.frontByte k

/-- The val that k passes of R103 leave: val moved up k bytes, less the stream bits folded in. Those are bit 0 of rem
and then the next k front bytes without their last bit (R13), inverted. -/
abbrev refilledVal (s : State) (val k : Nat) : Nat :=
  if k = 0 then val
  else (val * 2 ^ (8 * k) + (2 ^ (8 * k) - 1 - (s.rem.toNat % 2 * 2 ^ (8 * k) + s.frontNumber k) / 2)) % 2 ^ 31

/-- The next `k` back bytes as one number, the first one least significant (R36). -/
def State.backNumber (s : State) : Nat → Nat
  | 0 => 0
  | k + 1 => State.backNumber s k + s.backByte k * 256 ^ k

/-! ### What claims say of memory -/

/-- Every byte of BUF outside `lo .. hi - 1` reads as before. -/
abbrev SameBufOutside (lo hi : Nat) (s t : State) : Prop := ∀ a, a < lo ∨ hi ≤ a → t.bufByte a = s.bufByte a

/-- Every byte of BUF reads as before. -/
abbrev SameBuf (s t : State) : Prop := ∀ a, t.bufByte a = s.bufByte a

/-- The table at `t` for `ftb` bits is well formed and has `n` entries (R32). -/
def IcdfTable (s : State) (t : TblAddr) (ftb : Word) (n : Nat) : Prop :=
  ftb.toNat ≤ 8 ∧ 0 < n ∧
  ∀ k, k < n → t.toNat + k < s.params.tblSize ∧
    (s.tblByte (t.toNat + k)).toNat < (if k = 0 then 2 ^ ftb.toNat else (s.tblByte (t.toNat + k - 1)).toNat) ∧
    ((s.tblByte (t.toNat + k)).toNat = 0 ↔ k = n - 1)

/-! ### What claims say of a narrowing -/

/-- The output symbols of the first k passes of R74 from `val` on: bits 31..23 of the val each pass starts with. -/
def State.carryAll (s : State) (val : Nat) : Nat → State
  | 0 => s
  | k + 1 => (State.carryAll s val k).carryOut (BitVec.ofNat 32 (shiftedVal val k / 2 ^ 23))

/-- `t` is what an encoder command leaves that narrows the interval of `s` to the low end `val` and the width `rng`,
and then normalizes (R74 to R78): the k passes due, their output symbols carried out, and nothing else. -/
def EncNarrowedTo (s t : State) (val rng : Nat) : Prop :=
  ∃ k, k ≤ 3 ∧ Passes rng k ∧
    t = { s.carryAll val k with
      rng := BitVec.ofNat 32 (rng * 2 ^ (8 * k))
      val := BitVec.ofNat 32 (shiftedVal val k)
      nbitsTotal := s.nbitsTotal + BitVec.ofNat 32 (8 * k)
      probe := none }

/-- The frame of an encoder narrowing (the "State written" line of R75): only these registers, and of BUF only the
bytes from the old front cursor up to the new one. -/
def EncNarrowFrame (s t : State) : Prop :=
  t = { s with
    val := t.val, rng := t.rng, rem := t.rem, ext := t.ext, offs := t.offs, buf := t.buf
    nbitsTotal := t.nbitsTotal, error := t.error, probe := none } ∧
  s.offs.toNat ≤ t.offs.toNat ∧ SameBufOutside s.offs.toNat t.offs.toNat s t

/-- `t` is what a decoder command leaves that narrows the interval of `s` to the value `val` and the width `rng`, and
then normalizes (R103, R106 to R108). RESULT is said by each command; BUF is the same data. -/
def DecNarrowedTo (s t : State) (val rng : Nat) : Prop :=
  ∃ k, k ≤ 3 ∧ Passes rng k ∧
    t.rng.toNat = rng * 2 ^ (8 * k) ∧
    t.val.toNat = refilledVal s val k ∧
    t.rem.toNat = (if k = 0 then s.rem.toNat else s.frontByte (k - 1)) ∧
    t.offs.toNat = min (s.offs.toNat + k) s.storage.toNat ∧
    t = { s with
      val := t.val, rng := t.rng, rem := t.rem, offs := t.offs
      nbitsTotal := s.nbitsTotal + BitVec.ofNat 32 (8 * k), result := t.result, probe := none }

/-! ### The value an encoder has put out -/

/-- The first `n` bytes of BUF as one number, most significant first (R35). -/
def State.bufNumber (s : State) : Nat → Nat
  | 0 => 0
  | n + 1 => State.bufNumber s n * 256 + (s.bufByte n).toNat

/-- What has left the encoder's val so far, as one number: the bytes in BUF, then the buffered byte rem if there is one,
then ext pending bytes 0xFF (R12, R73). -/
def State.outNumber (s : State) : Nat :=
  let front := if s.remIsByte then s.bufNumber s.offs.toNat * 256 + s.rem.toNat else s.bufNumber s.offs.toNat
  front * 256 ^ s.ext.toNat + (256 ^ s.ext.toNat - 1)

/-- The low end of the encoder's interval as one exact number, at the scale of the current val (R12). -/
def State.lowEnd (s : State) : Nat := s.outNumber * 2 ^ 31 + s.val.toNat

/-! ### What ENC_DONE has to put out (R83), in numbers -/

/-- Step 1 of R83: the number l of code bits and the code value `end`. A code of l bits names the block of 2^(31 - l)
values from its low end on; l is one more where the first block passes the top of the interval. -/
def State.doneCode (s : State) : Nat × Nat :=
  let code (l : Nat) := (s.val.toNat + 2 ^ (31 - l) - 1) % 2 ^ 32 / 2 ^ (31 - l) * 2 ^ (31 - l)
  let l := 32 - ilog s.rng
  if s.val.toNat + s.rng.toNat < code l + 2 ^ (31 - l) then (l + 1, code (l + 1)) else (l, code l)

/-- Step 2 of R83: how many bytes hold the l code bits. -/
def State.doneCodeBytes (s : State) : Nat := (s.doneCode.1 + 7) / 8

/-- The low bits of the last range byte that step 2 of R83 leaves free. -/
def State.doneFree (s : State) : Nat := 8 * s.doneCodeBytes - s.doneCode.1

/-- The range bytes steps 2 and 3 of R83 put out: the buffered one, the pending ones, and those of the code. -/
def State.doneFront (s : State) : Nat := (if s.remIsByte then 1 else 0) + s.ext.toNat + s.doneCodeBytes

/-- With the whole raw bytes of the window (step 4 of R83). -/
def State.doneNeed (s : State) : Nat := s.doneFront + s.nendBits.toNat / 8

/-- How many bytes lie between the cursors (R71, R72). -/
def State.room (s : State) : Nat := s.storage.toNat - (s.offs.toNat + s.endOffs.toNat)

/-- Nothing of R83 fails: every range byte and every whole raw byte has a place between the cursors (EC1, EC2), and so
have the leftover raw bits: none is left, or a byte of the gap is, or the last range byte has room for them (EC4, EC5; with
no byte at all its free bits are none). -/
abbrev State.doneFits (s : State) : Prop :=
  s.doneNeed ≤ s.room ∧ (s.nendBits.toNat % 8 = 0 ∨ s.doneNeed < s.room ∨ s.nendBits.toNat % 8 ≤ s.doneFree)

/-- No carry can be lost (R84, R85): val + rng < 2^32, and either no carry can come out of val, or a byte that can
take one is buffered. -/
abbrev State.carrySafe (s : State) : Prop :=
  s.valRngOk ∧ (s.val.toNat + s.rng.toNat ≤ 2 ^ 31 ∨ s.rem.toNat ≤ 254)

/-! ### A stream and its mirror (R111) -/

/-- One symbol of a stream: the interval [fl, fh) of ft. -/
structure Symbol where
  fl : Word
  fh : Word
  ft : Word
deriving DecidableEq, Repr

/-- ENCODE of each symbol in turn. -/
def State.encodeAll : List Symbol → State → Option State
  | [], s => some s
  | x :: xs, s =>
    match exec (.encode x.fl x.fh x.ft) s with
    | .next t => State.encodeAll xs t
    | .fault _ => none
    | .refused _ => none

/-- The decoder `d` mirrors the encoder `e` over the symbols: each probe lands in its symbol's interval, and after its
commit the two agree on rng and nbits_total. -/
def Mirrors : List Symbol → State → State → Prop
  | [], _, _ => True
  | x :: xs, e, d => ∃ f u v,
    exec (.encode x.fl x.fh x.ft) e = .next f ∧ exec (.decode x.ft) d = .next u ∧
    x.fl.toNat ≤ u.result.toNat ∧ u.result.toNat < x.fh.toNat ∧
    exec (.decUpdate x.fl x.fh x.ft) u = .next v ∧ v.rng = f.rng ∧ v.nbitsTotal = f.nbitsTotal ∧ Mirrors xs f v

/-- One raw field of a stream. -/
structure RawField where
  value : Word
  nbits : Word
deriving DecidableEq, Repr

/-- ENC_BITS of each field in turn. -/
def State.appendAll : List RawField → State → Option State
  | [], s => some s
  | x :: xs, s =>
    match exec (.encBits x.value x.nbits) s with
    | .next t => State.appendAll xs t
    | .fault _ => none
    | .refused _ => none

/-- The decoder `d` reads the fields back as the encoder `e` appended them. -/
def ReadsBackAll : List RawField → State → State → Prop
  | [], _, _ => True
  | x :: xs, e, d => ∃ f u,
    exec (.encBits x.value x.nbits) e = .next f ∧ exec (.decBits x.nbits) d = .next u ∧
    u.result = x.value ∧ u.nbitsTotal = f.nbitsTotal ∧ ReadsBackAll xs f u

/-! ### Safe runs -/

/-- A state that a claim about the hardware may speak of: no command or host access of the run was refused (R21, R146,
U16) and no fault was recorded (R14). -/
abbrev State.clean (s : State) : Prop := s.refused = false ∧ s.error = 0#32

end Sys2Proof.Machine
end

