-- ==== Sys2Proof/WellFormed.lean ====
section
/-! DEFINITION. When a command is well formed: its operands meet the part of its contract that reads no state. The
part that reads the state (a size against BUF_CAP or the cursors, a table's bytes, PROBE) is checked by the meaning
of the command; a command that is not well formed still decodes, and the unit refuses it (30_encoding.md R54). -/

namespace Sys2Proof

open Sys2Proof.Machine

/-- The static operand contract of each command (R4 and the "Contract" line of its rule). -/
def Instr.wf (i : Instr) : Bool :=
  match i with
  | .encInit _ => true
  | .encode fl fh ft => decide (encodeOk fl fh ft)
  | .encodeBin fl fh bits => decide (encodeBinOk fl fh bits)
  | .encBitLogp _ logp => decide (logpOk logp)
  | .encIcdf _ ftb _ => decide (ftbOk ftb)
  | .encUint value total => decide (encUintOk value total)
  | .encBits _ nbits => decide (rawOk nbits)
  | .encPatch value nbits => decide (patchOk value nbits)
  | .encShrink _ => true
  | .encDone => true
  | .decInit _ => true
  | .decode ft => decide (probeOk ft)
  | .decodeBin bits => decide (probeBinOk bits)
  | .decUpdate fl fh ft => decide (ft.toNat ≤ totalMax ∧ updateOk fl fh ft)
  | .decBitLogp logp => decide (logpOk logp)
  | .decIcdf ftb _ => decide (ftbOk ftb)
  | .decUint total => decide (uintTotalOk total)
  | .decBits nbits => decide (rawOk nbits)
  | .tell => true
  | .tellFrac => true
  | .release => true

end Sys2Proof
end

