-- ==== Sys2Proof/Certificates/Slice0/Obligations.lean ====
section
/-! DEFINITION. The statements about the RC unit, for the provers. Each docstring names the rule it formalises; where a
clause rests on a choice of the model, the docstring names the log entry. -/

open Sys2Proof Sys2Proof.Machine

/-! ### Encoding (30_encoding.md) -/

/-- R50 to R52: no bit of a command's operands is lost between its packet and the decoder. -/
def Obligations.DecodeOfEncode : Prop := ∀ i : Instr, decode (encode i) = .ok i

/-- R51, R52: every opcode means its command, operands are taken as they stand, and every field that the command does
not use is ignored, whatever its value; the one boolean operand is 1 exactly when A is not 0. -/
def Obligations.OpcodeMapIgnoresUnusedFields : Prop :=
  (∀ (t : TblAddr) (a b c : Word),
    decode (packet 0x01#8 t a b c) = .ok (.encInit a) ∧
    decode (packet 0x02#8 t a b c) = .ok (.encode a b c) ∧
    decode (packet 0x03#8 t a b c) = .ok (.encodeBin a b c) ∧
    decode (packet 0x04#8 t a b c) = .ok (.encBitLogp a b) ∧
    decode (packet 0x05#8 t a b c) = .ok (.encIcdf a b t) ∧
    decode (packet 0x06#8 t a b c) = .ok (.encUint a b) ∧
    decode (packet 0x07#8 t a b c) = .ok (.encBits a b) ∧
    decode (packet 0x08#8 t a b c) = .ok (.encPatch a b) ∧
    decode (packet 0x09#8 t a b c) = .ok (.encShrink a) ∧
    decode (packet 0x0A#8 t a b c) = .ok .encDone ∧
    decode (packet 0x11#8 t a b c) = .ok (.decInit a) ∧
    decode (packet 0x12#8 t a b c) = .ok (.decode a) ∧
    decode (packet 0x13#8 t a b c) = .ok (.decodeBin a) ∧
    decode (packet 0x14#8 t a b c) = .ok (.decUpdate a b c) ∧
    decode (packet 0x15#8 t a b c) = .ok (.decBitLogp a) ∧
    decode (packet 0x16#8 t a b c) = .ok (.decIcdf a t) ∧
    decode (packet 0x17#8 t a b c) = .ok (.decUint a) ∧
    decode (packet 0x18#8 t a b c) = .ok (.decBits a) ∧
    decode (packet 0x20#8 t a b c) = .ok .tell ∧
    decode (packet 0x21#8 t a b c) = .ok .tellFrac ∧
    decode (packet 0x30#8 t a b c) = .ok .release) ∧
  ∀ a : Word, bitOperand a = true ↔ a ≠ 0#32

/-- R55 and part 3 of 95_test_vectors.md: packets written out word by word decode to the commands they stand for. -/
def Obligations.WrittenWordsDecode : Prop :=
  decode (ofWords 0x00000002#32 1#32 2#32 3#32) = .ok (.encode 1#32 2#32 3#32) ∧
  decode (ofWords 0x00100005#32 2#32 2#32 0#32) = .ok (.encIcdf 2#32 2#32 0x0010#16) ∧
  decode (ofWords 0x00100016#32 8#32 0#32 0#32) = .ok (.decIcdf 8#32 0x0010#16) ∧
  decode (ofWords 0x00000014#32 0x12#32 0x13#32 0x100#32) = .ok (.decUpdate 0x12#32 0x13#32 0x100#32) ∧
  decode (ofWords 0x00000021#32 0#32 0#32 0#32) = .ok .tellFrac

/-- R55: a command's mnemonic and its operands, in the order A, B, C, T, name that command. -/
def Obligations.AssemblerNamesCommand : Prop :=
  ∀ i : Instr, (asmOperands i).all AsmOperand.fits = true ∧ commandOf (mnemonic i) (asmOperands i) = some i

/-- R54, first two checks: RSV ≠ 0 is refused ReservedBits whatever the OP; with RSV = 0 an OP outside R52's table is
refused IllegalOpcode; the refusal is a step, and it changes nothing but the REFUSED mark (log entry 1). -/
def Obligations.BadPacketsRefusedInOrder : Prop :=
  ∀ (s : State) (p : Packet) (rest : List Transaction), s.port = .command p :: rest →
    (p.extractLsb' 8 8 ≠ 0#8 → step s = .next { s with port := rest, refusal := some .reservedBits }) ∧
    (p.extractLsb' 8 8 = 0#8 →
      p.extractLsb' 0 8 ∉ [0x01#8, 0x02#8, 0x03#8, 0x04#8, 0x05#8, 0x06#8, 0x07#8, 0x08#8, 0x09#8, 0x0A#8, 0x11#8,
        0x12#8, 0x13#8, 0x14#8, 0x15#8, 0x16#8, 0x17#8, 0x18#8, 0x20#8, 0x21#8, 0x30#8] →
      step s = .next { s with port := rest, refusal := some .illegalOpcode })

/-! ### Steps and the host (10_state.md R18, 20_memory.md R39, 70_reset_and_hazards.md R160) -/

/-- R18, R54: a step takes the host's next packet off the port and runs the command it decodes to; with nothing pending
nothing changes; `withFetchWord` places exactly the command that the next step runs (log entries 2, 11). -/
def Obligations.StepRunsDecodedCommand : Prop :=
  (∀ (s : State) (p : Packet) (rest : List Transaction) (i : Instr),
    s.port = .command p :: rest → decode p = .ok i → step s = exec i { s with port := rest }) ∧
  (∀ (s : State) (nbits w : Nat) (i : Instr),
    decodeTableWord nbits w = some i → step (s.withFetchWord nbits w) = exec i s) ∧
  (∀ s : State, s.port = [] → step s = .next s)

/-- R39: the host's write of a byte of BUF happens in IDLE and DONE, and is refused HostBufWrite in ENC and DEC; its
write of a byte of TBL happens in every mode; nothing else changes. -/
def Obligations.HostWritesByOwnership : Prop :=
  ∀ (s : State) (a : Nat) (v : Byte) (rest : List Transaction),
    (s.port = .writeBuf a v :: rest → a < s.params.bufCap →
      (s.mode = .idle ∨ s.mode = .done →
        ∃ t, step s = .next t ∧ t = { s with port := rest, buf := t.buf } ∧
          t.bufByte a = v ∧ ∀ x, x ≠ a → t.bufByte x = s.bufByte x) ∧
      (s.mode = .enc ∨ s.mode = .dec →
        step s = .next { s with port := rest, refusal := some .hostBufWrite })) ∧
    (s.port = .writeTbl a v :: rest → a < s.params.tblSize →
      ∃ t, step s = .next t ∧ t = { s with port := rest, tbl := t.tbl } ∧
        t.tblByte a = v ∧ ∀ x, x ≠ a → t.tblByte x = s.tblByte x)

/-- R17, with the codes of R10: what the status interface shows: MODE's code, error, storage and the two cursors. -/
def Obligations.StatusShowsRegisters : Prop :=
  ∀ s : State,
    (s.status.mode = match s.mode with
      | .idle => 0#2
      | .enc => 1#2
      | .dec => 2#2
      | .done => 3#2) ∧
    s.status.error = s.error ∧ s.status.storage = s.storage ∧ s.status.offs = s.offs ∧ s.status.endOffs = s.endOffs

/-- R160: a hardware reset, from any state, sets MODE to IDLE, every coder register, RESULT and error to 0, PROBE to
none and REFUSED to false, and leaves every byte of both memories unspecified (a free value; log entry 4). That the free
value is named by the draw's index `resets`, and that the host's pending transactions stay on the port, are the
model's choices (log entry 5). -/
def Obligations.HardwareResetFromAnyState : Prop :=
  ∀ (s : State) (rest : List Transaction), s.port = .hardwareReset :: rest →
    ∃ t, step s = .next t ∧
      t.mode = .idle ∧ t.storage = 0#32 ∧ t.offs = 0#32 ∧ t.endOffs = 0#32 ∧ t.rng = 0#32 ∧ t.val = 0#32 ∧
      t.ext = 0#32 ∧ t.rem = 0#32 ∧ t.endWindow = 0#32 ∧ t.nendBits = 0#32 ∧ t.nbitsTotal = 0#32 ∧
      t.error = 0#32 ∧ t.result = 0#32 ∧ t.probe = none ∧ t.refused = false ∧
      (∀ a, t.bufByte a = Config.bufDraw t.resets a) ∧ (∀ a, t.tblByte a = Config.tblDraw t.resets a) ∧
      t.params = s.params ∧ t.port = rest

/-! ### Admission and refusals (30_encoding.md R53, R54; 60_exceptions.md R146) -/

/-- R53: a command that R52's "modes" column does not list for the current MODE is refused WrongMode, whatever its
operands, and nothing else changes. -/
def Obligations.WrongModeRefused : Prop :=
  ∀ (i : Instr) (s : State),
    (admittedIn i s.mode = false → RefusedAs i s .wrongMode) ∧
    (admittedIn i s.mode = true → s.refusal = none → ∀ t, exec i s = .next t → t.refusal ≠ some .wrongMode)

/-- R146: a command either leaves the REFUSED mark as it was, or changes nothing but the mark, which it sets. -/
def Obligations.RefusedCommandChangesOnlyMark : Prop :=
  ∀ (i : Instr) (s t : State), exec i s = .next t →
    t.refusal = s.refusal ∨ ∃ r, t = { s with refusal := some r }

/-- R21: once set, the REFUSED mark stays set through every step but a hardware reset. -/
def Obligations.RefusedStaysUntilReset : Prop :=
  ∀ s t : State, s.refused = true → (∀ rest, s.port ≠ .hardwareReset :: rest) → step s = .next t → t.refused = true

/-- R4 and the contract lines of R75 to R110: in its mode, a command whose operands are outside their limits is refused,
BadTable for a table command and BadOperand for the others, and nothing else changes. DEC_UPDATE, whose PROBE check
comes first, has its own statement. -/
def Obligations.OperandsOutsideLimitsRefused : Prop :=
  ∀ (i : Instr) (s : State), admittedIn i s.mode = true → i.wf = false → (∀ fl fh ft, i ≠ .decUpdate fl fh ft) →
    RefusedAs i s (match i with
      | .encIcdf .. => .badTable
      | .decIcdf .. => .badTable
      | _ => .badOperand)

/-- R32: the unit's table walk accepts exactly the well-formed tables, and finds their length. -/
def Obligations.TableCheckIsWellFormedness : Prop :=
  ∀ (s : State) (t : TblAddr) (ftb : Word) (n : Nat), s.tableLength t ftb = some n ↔ IcdfTable s t ftb n

/-- R5: ilog is the bit length. -/
def Obligations.IlogIsBitLength : Prop :=
  ilog 0#32 = 0 ∧ ∀ x : Word, x ≠ 0#32 → 2 ^ (ilog x - 1) ≤ x.toNat ∧ x.toNat < 2 ^ ilog x ∧ 1 ≤ ilog x

/-! ### Encoder commands (41_encoder.md) -/

/-- R70: ENC_INIT completes in every mode and writes every coder register, MODE and PROBE, and nothing else: BUF, TBL and
RESULT stay. A size above BUF_CAP is refused. -/
def Obligations.EncInitStartsStream : Prop :=
  ∀ (s : State) (size : Word),
    (s.params.bufCap < size.toNat → RefusedAs (.encInit size) s .badOperand) ∧
    (size.toNat ≤ s.params.bufCap → exec (.encInit size) s = .next { s with
      storage := size, offs := 0#32, endOffs := 0#32, endWindow := 0#32, nendBits := 0#32
      nbitsTotal := BitVec.ofNat 32 33, rng := BitVec.ofNat 32 (2 ^ 31), rem := BitVec.ofInt 32 (-1), val := 0#32
      ext := 0#32, error := 0#32, probe := none, mode := .enc })

/-- R71, R73: CarryOut(c) for a symbol c of 9 bits. 0xFF is counted in ext. Any other c resolves rem (with its carry)
and the ext pending bytes: those that fit are stored at the front cursor in that order, the rest are dropped and error
becomes -1; c's low byte becomes rem. That ext wraps modulo 2^32 at its end is the model's reading (log entry 10). -/
def Obligations.CarryOutResolvesPendingBytes : Prop :=
  ∀ (s : State) (c : Word), c.toNat < 512 →
    (c.toNat = 255 → s.carryOut c = { s with ext := s.ext + 1#32 }) ∧
    (c.toNat ≠ 255 →
      let out : List Nat :=
        (if 0 ≤ s.rem.toInt then [(s.rem.toNat + c.toNat / 256) % 256] else []) ++
          List.replicate s.ext.toNat ((255 + c.toNat / 256) % 256)
      let room := s.storage.toNat - (s.offs.toNat + s.endOffs.toNat)
      let stored := min out.length room
      let t := s.carryOut c
      t = { s with offs := t.offs, buf := t.buf, error := t.error, ext := 0#32, rem := BitVec.ofNat 32 (c.toNat % 256) } ∧
      t.offs.toNat = s.offs.toNat + stored ∧
      (∀ j, j < stored → some (t.bufByte (s.offs.toNat + j)).toNat = out[j]?) ∧
      SameBufOutside s.offs.toNat (s.offs.toNat + stored) s t ∧
      t.error = if out.length ≤ room then s.error else encFault)

/-- R74, R75: ENCODE completes whenever its contract holds, and narrows the interval to the part of [fl, fh) of ft, with
the rounding slack in the symbol at 0, then normalizes; its frame. Other operands are refused. -/
def Obligations.EncodeNarrowsInterval : Prop :=
  ∀ (s : State) (fl fh ft : Word), s.Inv → s.mode = .enc →
    (ft.toNat = 0 ∨ 65536 < ft.toNat ∨ fh.toNat ≤ fl.toNat ∨ ft.toNat < fh.toNat →
      RefusedAs (.encode fl fh ft) s .badOperand) ∧
    (1 ≤ ft.toNat → ft.toNat ≤ 65536 → fl.toNat < fh.toNat → fh.toNat ≤ ft.toNat →
    ∃ t, exec (.encode fl fh ft) s = .next t ∧ EncNarrowFrame s t ∧
      let r := s.rng.toNat / ft.toNat
      EncNarrowedTo s t
        (if 0 < fl.toNat then (s.val.toNat + s.rng.toNat - r * (ft.toNat - fl.toNat)) % 2 ^ 32 else s.val.toNat)
        (if 0 < fl.toNat then r * (fh.toNat - fl.toNat) else s.rng.toNat - r * (ft.toNat - fh.toNat)))

/-- R76: ENCODE_BIN completes whenever its contract holds; it has exactly the effect of ENCODE with total 2^bits; its
own formula, with the shift. Other operands are refused. -/
def Obligations.EncodeBinNarrowsInterval : Prop :=
  ∀ (s : State) (fl fh bits : Word), s.Inv → s.mode = .enc →
    (16 < bits.toNat ∨ fh.toNat ≤ fl.toNat ∨ 2 ^ bits.toNat < fh.toNat →
      RefusedAs (.encodeBin fl fh bits) s .badOperand) ∧
    (bits.toNat ≤ 16 → fl.toNat < fh.toNat → fh.toNat ≤ 2 ^ bits.toNat →
    exec (.encodeBin fl fh bits) s = exec (.encode fl fh (BitVec.ofNat 32 (2 ^ bits.toNat))) s ∧
    ∃ t, exec (.encodeBin fl fh bits) s = .next t ∧ EncNarrowFrame s t ∧
      let r := s.rng.toNat >>> bits.toNat
      EncNarrowedTo s t
        (if 0 < fl.toNat then (s.val.toNat + s.rng.toNat - r * (2 ^ bits.toNat - fl.toNat)) % 2 ^ 32 else s.val.toNat)
        (if 0 < fl.toNat then r * (fh.toNat - fl.toNat) else s.rng.toNat - r * (2 ^ bits.toNat - fh.toNat)))

/-- R77, R56: ENC_BIT_LOGP completes whenever its contract holds; a 1 (any A that is not 0) takes the top rng >> logp of
the interval, a 0 the rest; and it has the effect of the ENCODE_BIN that R77 names. Another logp is refused. -/
def Obligations.EncBitLogpSplitsInterval : Prop :=
  ∀ (s : State) (bit logp : Word), s.Inv → s.mode = .enc →
    (logp.toNat = 0 ∨ 16 < logp.toNat → RefusedAs (.encBitLogp bit logp) s .badOperand) ∧
    (1 ≤ logp.toNat → logp.toNat ≤ 16 →
    (bit ≠ 0#32 → exec (.encBitLogp bit logp) s =
      exec (.encodeBin (BitVec.ofNat 32 (2 ^ logp.toNat - 1)) (BitVec.ofNat 32 (2 ^ logp.toNat)) logp) s) ∧
    (bit = 0#32 → exec (.encBitLogp bit logp) s =
      exec (.encodeBin 0#32 (BitVec.ofNat 32 (2 ^ logp.toNat - 1)) logp) s) ∧
    ∃ t, exec (.encBitLogp bit logp) s = .next t ∧ EncNarrowFrame s t ∧
      let one := s.rng.toNat >>> logp.toNat
      EncNarrowedTo s t
        (if bit ≠ 0#32 then (s.val.toNat + (s.rng.toNat - one)) % 2 ^ 32 else s.val.toNat)
        (if bit ≠ 0#32 then one else s.rng.toNat - one))

/-- R78, R56: ENC_ICDF completes for every well-formed table and every symbol of it; it narrows by the table's bounds,
and has the effect of ENCODE_BIN with the interval R32 gives the symbol. TBL is read only. A table that is not well
formed is refused BadTable; then a symbol past its end BadOperand. -/
def Obligations.EncIcdfNarrowsByTable : Prop :=
  ∀ (s : State) (sym ftb : Word) (table : TblAddr), s.Inv → s.mode = .enc →
    ((∀ n, ¬ IcdfTable s table ftb n) → RefusedAs (.encIcdf sym ftb table) s .badTable) ∧
    (∀ n, IcdfTable s table ftb n → n ≤ sym.toNat → RefusedAs (.encIcdf sym ftb table) s .badOperand) ∧
    (∀ n, IcdfTable s table ftb n → sym.toNat < n →
    let entry (k : Nat) := (s.tblByte (table.toNat + k)).toNat
    let above := if sym.toNat = 0 then 2 ^ ftb.toNat else entry (sym.toNat - 1)
    exec (.encIcdf sym ftb table) s =
      exec (.encodeBin (BitVec.ofNat 32 (2 ^ ftb.toNat - above)) (BitVec.ofNat 32 (2 ^ ftb.toNat - entry sym.toNat)) ftb) s ∧
    ∃ t, exec (.encIcdf sym ftb table) s = .next t ∧ EncNarrowFrame s t ∧
      let r := s.rng.toNat >>> ftb.toNat
      EncNarrowedTo s t
        (if 0 < sym.toNat then (s.val.toNat + s.rng.toNat - r * above) % 2 ^ 32 else s.val.toNat)
        (if 0 < sym.toNat then r * (above - entry sym.toNat) else s.rng.toNat - r * entry sym.toNat))

/-- R79, R56: ENC_UINT completes whenever its contract holds. For total ≤ 256 it is ENCODE value, value + 1, total; for a
larger total it is ENCODE of the high part followed by ENC_BITS of the x = ilog(total - 1) - 8 low bits. Other operands
are refused. -/
def Obligations.EncUintIsEncodeThenBits : Prop :=
  ∀ (s : State) (value total : Word), s.Inv → s.mode = .enc →
    (total.toNat < 2 ∨ total.toNat ≤ value.toNat → RefusedAs (.encUint value total) s .badOperand) ∧
    (2 ≤ total.toNat → value.toNat < total.toNat → total.toNat ≤ 256 → ∃ t, exec (.encUint value total) s = .next t ∧ t.refusal = s.refusal ∧
      exec (.encode value (value + 1#32) total) s = .next t) ∧
    (256 < total.toNat → value.toNat < total.toNat →
      let x := ilog (total - 1#32) - 8
      let high := value.toNat / 2 ^ x
      ∃ u t, exec (.encUint value total) s = .next t ∧ u.refusal = s.refusal ∧ t.refusal = s.refusal ∧
        exec (.encode (BitVec.ofNat 32 high) (BitVec.ofNat 32 (high + 1))
          (BitVec.ofNat 32 ((total.toNat - 1) / 2 ^ x + 1))) s = .next u ∧
        exec (.encBits (BitVec.ofNat 32 (value.toNat % 2 ^ x)) (BitVec.ofNat 32 x)) u = .next t)

/-- R72, R80: ENC_BITS completes whenever its contract holds. If the field fits the window it is ORed in above the used
bits, unmasked; else the m whole bytes of the window go to the back cursor first, least significant byte first and
each at the next lower address; those that do not fit are dropped and error becomes -1. Its frame. Another width is
refused. -/
def Obligations.EncBitsAppendsField : Prop :=
  ∀ (s : State) (value nbits : Word), s.Inv → s.mode = .enc →
    (nbits.toNat = 0 ∨ 25 < nbits.toNat → RefusedAs (.encBits value nbits) s .badOperand) ∧
    (1 ≤ nbits.toNat → nbits.toNat ≤ 25 → ∃ t, exec (.encBits value nbits) s = .next t ∧
      let used := s.nendBits.toNat
      let m := if used + nbits.toNat ≤ 32 then 0 else used / 8
      let room := s.storage.toNat - (s.offs.toNat + s.endOffs.toNat)
      let stored := min m room
      t = { s with
        endWindow := t.endWindow, nendBits := t.nendBits, nbitsTotal := s.nbitsTotal + nbits, endOffs := t.endOffs
        buf := t.buf, error := if m ≤ room then s.error else encFault, probe := none } ∧
      t.endWindow.toNat = (s.endWindow.toNat / 2 ^ (8 * m)) ||| (value.toNat * 2 ^ (used - 8 * m) % 2 ^ 32) ∧
      t.nendBits.toNat = used - 8 * m + nbits.toNat ∧
      t.endOffs.toNat = s.endOffs.toNat + stored ∧
      (∀ j, j < stored →
        (t.bufByte (s.storage.toNat - s.endOffs.toNat - 1 - j)).toNat = s.endWindow.toNat / 2 ^ (8 * j) % 256) ∧
      SameBufOutside (s.storage.toNat - s.endOffs.toNat - stored) (s.storage.toNat - s.endOffs.toNat) s t)

/-- R81: ENC_PATCH completes whenever its contract holds, in one of four ways: the first nbits bits of BUF[0], else of
rem, else bits 30 .. 31 - nbits of val are replaced, else error becomes -1. Nothing else changes. Other operands are
refused. -/
def Obligations.EncPatchReplacesFirstBits : Prop :=
  ∀ (s : State) (value nbits : Word), s.Inv → s.mode = .enc →
    (nbits.toNat = 0 ∨ 8 < nbits.toNat ∨ 2 ^ nbits.toNat ≤ value.toNat →
      RefusedAs (.encPatch value nbits) s .badOperand) ∧
    (1 ≤ nbits.toNat → nbits.toNat ≤ 8 → value.toNat < 2 ^ nbits.toNat →
    let n := nbits.toNat
    (0 < s.offs.toNat → ∃ t, exec (.encPatch value nbits) s = .next t ∧
      t = { s with buf := t.buf, probe := none } ∧
      (t.bufByte 0).toNat = value.toNat * 2 ^ (8 - n) + (s.bufByte 0).toNat % 2 ^ (8 - n) ∧
      SameBufOutside 0 1 s t) ∧
    (s.offs.toNat = 0 → 0 ≤ s.rem.toInt → exec (.encPatch value nbits) s = .next { s with
      rem := BitVec.ofNat 32 (value.toNat * 2 ^ (8 - n) + s.rem.toNat % 2 ^ (8 - n)), probe := none }) ∧
    (s.offs.toNat = 0 → s.rem.toInt < 0 → s.rng.toNat ≤ 2 ^ (31 - n) → exec (.encPatch value nbits) s = .next { s with
      val := BitVec.ofNat 32
        (s.val.toNat / 2 ^ 31 * 2 ^ 31 + value.toNat * 2 ^ (31 - n) + s.val.toNat % 2 ^ (31 - n)), probe := none }) ∧
    (s.offs.toNat = 0 → s.rem.toInt < 0 → 2 ^ (31 - n) < s.rng.toNat → exec (.encPatch value nbits) s = .next { s with
      error := BitVec.ofInt 32 (-1), probe := none }))

/-- R82: ENC_SHRINK completes whenever offs + end_offs ≤ size ≤ storage; the back bytes move to the new end, also where
the two places overlap, every other byte of BUF stays (the old tail's bytes above the new storage among them), and
storage is the only register written. Another size is refused. -/
def Obligations.EncShrinkMovesTail : Prop :=
  ∀ (s : State) (size : Word), s.Inv → s.mode = .enc →
    (size.toNat < s.offs.toNat + s.endOffs.toNat ∨ s.storage.toNat < size.toNat →
      RefusedAs (.encShrink size) s .badOperand) ∧
    (s.offs.toNat + s.endOffs.toNat ≤ size.toNat → size.toNat ≤ s.storage.toNat →
    ∃ t, exec (.encShrink size) s = .next t ∧
      t = { s with storage := size, buf := t.buf, probe := none } ∧
      (∀ i, i < s.endOffs.toNat →
        t.bufByte (size.toNat - s.endOffs.toNat + i) = s.bufByte (s.storage.toNat - s.endOffs.toNat + i)) ∧
      SameBufOutside (size.toNat - s.endOffs.toNat) size.toNat s t)

/-- R83: ENC_DONE completes in every encoder state and leaves MODE = DONE. Its frame: rng, val, end_window, nend_bits,
nbits_total and storage stay; the cursors only grow and keep offs + end_offs ≤ storage; nothing stays pending; of BUF
only the bytes that lay between the cursors, and the one byte before the raw bytes, can change. Error stays as it was when
all range bytes, whole raw bytes and leftover bits fit (`State.doneFits`), and becomes -1 otherwise (EC1, EC2, EC4, EC5
of R141). The range bytes that fit come first, then the raw bytes; nothing is filled in after an earlier error. The
clauses that count bytes hold while the count of pending bytes cannot wrap (log entry 10). -/
def Obligations.EncDoneCompletes : Prop :=
  ∀ s : State, s.Inv → s.mode = .enc →
    ∃ t, exec .encDone s = .next t ∧
      t = { s with
        mode := .done, rem := t.rem, ext := 0#32, offs := t.offs, endOffs := t.endOffs, buf := t.buf
        error := t.error, probe := none } ∧
      (t.rem = 0#32 ∨ t.rem = BitVec.ofInt 32 (-1)) ∧
      s.offs.toNat ≤ t.offs.toNat ∧ s.endOffs.toNat ≤ t.endOffs.toNat ∧
      t.offs.toNat + t.endOffs.toNat ≤ s.storage.toNat ∧
      (∀ a, a < s.offs.toNat ∨ s.storage.toNat - s.endOffs.toNat ≤ a → a + 1 ≠ s.storage.toNat - t.endOffs.toNat →
        t.bufByte a = s.bufByte a) ∧
      (s.error ≠ 0#32 → ∀ a, t.offs.toNat ≤ a → a < s.storage.toNat - t.endOffs.toNat → t.bufByte a = s.bufByte a) ∧
      (s.ext.toNat < 2 ^ 32 - 3 →
        t.rem = (if s.doneFront = 0 then s.rem else 0#32) ∧
        t.offs.toNat = s.offs.toNat + min s.doneFront s.room ∧
        t.endOffs.toNat = s.endOffs.toNat + min (s.nendBits.toNat / 8) (s.room - s.doneFront) ∧
        (s.doneFits → t.error = s.error) ∧ (¬ s.doneFits → t.error = encFault))

/-- R34, R83: after ENC_DONE with error = 0, the whole raw bytes lie back to front before the old back cursor, every byte
of the gap between the cursors is zero but its last, and that last byte holds the leftover raw bits. Where there is no
gap, leftover raw bits lie in the low bits of the last range byte, which the code left free, under the code's last
bits (R34 part 3). -/
def Obligations.EncDoneLaysOutStream : Prop :=
  ∀ s t : State, s.Inv → s.mode = .enc → exec .encDone s = .next t → t.error = 0#32 →
    let m := s.nendBits.toNat / 8
    t.endOffs.toNat = s.endOffs.toNat + m ∧
    (∀ j, j < m →
      (t.bufByte (s.storage.toNat - s.endOffs.toNat - 1 - j)).toNat = s.endWindow.toNat / 2 ^ (8 * j) % 256) ∧
    (∀ a, t.offs.toNat ≤ a → a + 1 < s.storage.toNat - t.endOffs.toNat → t.bufByte a = 0#8) ∧
    (t.offs.toNat + t.endOffs.toNat < s.storage.toNat →
      (t.bufByte (s.storage.toNat - t.endOffs.toNat - 1)).toNat =
        if s.nendBits.toNat % 8 = 0 then 0 else s.endWindow.toNat / 2 ^ (8 * m) % 256) ∧
    (t.offs.toNat + t.endOffs.toNat = s.storage.toNat → 0 < s.nendBits.toNat % 8 →
      let codeByte := s.doneCode.2 / 2 ^ (31 - 8 * s.doneCodeBytes) % 256
      0 < t.offs.toNat ∧ s.nendBits.toNat % 8 ≤ s.doneFree ∧ codeByte % 2 ^ s.doneFree = 0 ∧
      (t.bufByte (t.offs.toNat - 1)).toNat = codeByte ||| (s.endWindow.toNat / 2 ^ (8 * m) % 256))

/-- R83, step 1: the code value is the shortest: its l bits name a block of values that lies inside the interval
[val, val + rng) whichever lower bits follow, and no block named by fewer bits does. -/
def Obligations.EncDoneCodeIsShortest : Prop :=
  ∀ s : State, s.rngOk → s.valRngOk →
    let l := s.codeValue.1
    let e := s.codeValue.2.toNat
    l ≤ 9 ∧ e % 2 ^ (31 - l) = 0 ∧ s.val.toNat ≤ e ∧ e + 2 ^ (31 - l) ≤ s.val.toNat + s.rng.toNat ∧
    ∀ j x, j < l → x % 2 ^ (31 - j) = 0 → s.val.toNat ≤ x → s.val.toNat + s.rng.toNat < x + 2 ^ (31 - j)

/-- R84, R85: every command that the encoder accepts but ENC_PATCH keeps val + rng < 2^32 and loses no carry; ENC_INIT
establishes both. -/
def Obligations.NoCarryLostWithoutPatch : Prop :=
  ∀ (i : Instr) (s t : State), s.Inv → (∀ v n, i ≠ .encPatch v n) → exec i s = .next t → t.mode = .enc →
    (s.mode = .enc → s.carrySafe) → t.carrySafe

/-- R19 (b), R81: every command that leaves MODE = ENC keeps val + rng < 2^32, ENC_PATCH included, but for a patch of the
bits in val while a carry is pending there (log entry 9); ENC_INIT establishes it. Where no carry can be lost (R84) there
is no such patch, so the first patch of a stream never breaks (b). Such a patch can break it: from a state that meets R19
with clause (b), an admitted ENC_PATCH leaves val + rng ≥ 2^32. -/
def Obligations.OnlyPatchOverCarryBreaksValPlusRng : Prop :=
  (∀ (i : Instr) (s t : State), s.Inv → exec i s = .next t → t.mode = .enc →
    (s.mode = .enc → s.valRngOk ∧ ¬ PatchesOverCarry i s) → t.valRngOk) ∧
  (∀ (i : Instr) (s : State), s.rngOk → s.carrySafe → ¬ PatchesOverCarry i s) ∧
  ∃ (s t : State) (value nbits : Word), s.Inv ∧ s.mode = .enc ∧ s.valRngOk ∧ PatchesOverCarry (.encPatch value nbits) s ∧
    exec (.encPatch value nbits) s = .next t ∧ t.refusal = s.refusal ∧ ¬ t.valRngOk

/-- R73, R74, R12: the normalizer is exact. While no write is dropped and no carry can be lost, what has been put out
and val together stand for the same low end, moved up one byte a pass; the width moves with it. -/
def Obligations.EncNormalizeKeepsLowEnd : Prop :=
  ∀ s t : State, 0 < s.rng.toNat → s.rng.toNat ≤ 2 ^ 31 → (s.rem = 0xFFFFFFFF#32 ∨ s.rem.toNat ≤ 255) →
    s.carrySafe → s.ext.toNat < 2 ^ 32 - 3 → s.encNormalize = .ok t → s.error = 0#32 → t.error = 0#32 →
    ∃ k, k ≤ 3 ∧ t.lowEnd = s.lowEnd * 256 ^ k ∧ t.rng.toNat = s.rng.toNat * 256 ^ k ∧ t.carrySafe

/-- R75, R86: measured exactly, ENCODE moves the interval to the sub-interval of the symbol: its low end goes up by
rng - r * (ft - fl) (or not at all for fl = 0), its width becomes that of the symbol, both at the scale of the k passes
made, and it never leaves the old interval. -/
def Obligations.EncodeStaysInsideInterval : Prop :=
  ∀ (s t : State) (fl fh ft : Word), s.Inv → s.mode = .enc → s.carrySafe → s.ext.toNat < 2 ^ 32 - 3 →
    encodeOk fl fh ft → exec (.encode fl fh ft) s = .next t → s.error = 0#32 → t.error = 0#32 →
    let r := s.rng.toNat / ft.toNat
    ∃ k, k ≤ 3 ∧
      t.lowEnd = (s.lowEnd + if 0 < fl.toNat then s.rng.toNat - r * (ft.toNat - fl.toNat) else 0) * 256 ^ k ∧
      t.rng.toNat = (if 0 < fl.toNat then r * (fh.toNat - fl.toNat) else s.rng.toNat - r * (ft.toNat - fh.toNat)) * 256 ^ k ∧
      s.lowEnd * 256 ^ k ≤ t.lowEnd ∧ t.lowEnd + t.rng.toNat ≤ (s.lowEnd + s.rng.toNat) * 256 ^ k

/-- R83: ENC_DONE's bytes "disambiguate the final interval regardless of any bits a decoder might read past the end".
After it, with error = 0 and no oversized raw value in the window (R166), the bytes BUF[0 .. offs - 1] name a number
all of whose continuations lie in the final interval, at the scale of the bytes that hold the code (step 2). -/
def Obligations.EncDoneNamesFinalInterval : Prop :=
  ∀ s t : State, s.Inv → s.mode = .enc → s.carrySafe → s.ext.toNat < 2 ^ 32 - 3 →
    s.endWindow.toNat < 2 ^ s.nendBits.toNat → s.error = 0#32 → exec .encDone s = .next t → t.error = 0#32 →
    s.lowEnd * 256 ^ s.doneCodeBytes ≤ t.bufNumber t.offs.toNat * 2 ^ 31 ∧
    (t.bufNumber t.offs.toNat + 1) * 2 ^ 31 ≤ (s.lowEnd + s.rng.toNat) * 256 ^ s.doneCodeBytes

/-! ### Decoder commands (42_decoder.md) -/

/-- R100: DEC_INIT completes in every mode, and its three passes leave the registers R100 gives, read from the first four
bytes of BUF (0 past the end); BUF, TBL and RESULT stay. A size above BUF_CAP is refused. -/
def Obligations.DecInitPrimesRegisters : Prop :=
  ∀ (s : State) (size : Word),
    (s.params.bufCap < size.toNat → RefusedAs (.decInit size) s .badOperand) ∧
    (size.toNat ≤ s.params.bufCap →
    let byte (k : Nat) := if k < size.toNat then (s.bufByte k).toNat else 0
    exec (.decInit size) s = .next { s with
      storage := size, endOffs := 0#32, endWindow := 0#32, nendBits := 0#32
      nbitsTotal := BitVec.ofNat 32 33, offs := BitVec.ofNat 32 (min size.toNat 4), rng := BitVec.ofNat 32 (2 ^ 31)
      ext := 0#32, rem := BitVec.ofNat 32 (byte 3)
      val := BitVec.ofNat 32 (2 ^ 31 - 1 - (byte 0 * 2 ^ 23 + byte 1 * 2 ^ 15 + byte 2 * 2 ^ 7 + byte 3 / 2))
      error := 0#32, probe := none, mode := .dec })

/-- R104: DECODE completes whenever its contract holds and writes ext, RESULT and PROBE only. RESULT is the scaled value,
below ft; it is the number of the part of the interval that val lies in, counted from the bottom, with the slack in
part 0. Another total is refused. -/
def Obligations.DecodeFindsPart : Prop :=
  ∀ (s : State) (ft : Word), s.Inv → s.mode = .dec →
    (ft.toNat = 0 ∨ 65536 < ft.toNat → RefusedAs (.decode ft) s .badOperand) ∧
    (1 ≤ ft.toNat → ft.toNat ≤ 65536 →
    let r := s.rng.toNat / ft.toNat
    let x := ft.toNat - min (s.val.toNat / r + 1) ft.toNat
    exec (.decode ft) s = .next { s with
      ext := BitVec.ofNat 32 r, result := BitVec.ofNat 32 x, probe := some ft.toNat } ∧
    x < ft.toNat ∧ r * (ft.toNat - x - 1) ≤ s.val.toNat ∧ (0 < x → s.val.toNat < r * (ft.toNat - x)))

/-- R105: DECODE_BIN completes whenever its contract holds, writes ext, RESULT and PROBE only, and has exactly the effect
of DECODE with total 2^bits. A larger bits is refused. -/
def Obligations.DecodeBinIsDecode : Prop :=
  ∀ (s : State) (bits : Word), s.Inv → s.mode = .dec →
    (16 < bits.toNat → RefusedAs (.decodeBin bits) s .badOperand) ∧
    (bits.toNat ≤ 16 →
    let r := s.rng.toNat >>> bits.toNat
    exec (.decodeBin bits) s = .next { s with
      ext := BitVec.ofNat 32 r
      result := BitVec.ofNat 32 (2 ^ bits.toNat - min (s.val.toNat / r + 1) (2 ^ bits.toNat))
      probe := some (2 ^ bits.toNat) } ∧
    exec (.decodeBin bits) s = exec (.decode (BitVec.ofNat 32 (2 ^ bits.toNat))) s)

/-- R103, R106: DEC_UPDATE after its probe completes for every interval [fl, fh) of ft, narrows by the probe's ext, and
normalizes; val is taken modulo 2^32 where the interval does not hold the probe's result. Its frame: RESULT, ext, BUF
and the back cursor stay. Without that probe it is refused NoProbe; then another interval BadOperand. -/
def Obligations.DecUpdateCommits : Prop :=
  ∀ (s : State) (fl fh ft : Word), s.Inv → s.mode = .dec →
    (s.probe ≠ some ft.toNat → RefusedAs (.decUpdate fl fh ft) s .noProbe) ∧
    (s.probe = some ft.toNat → fh.toNat ≤ fl.toNat ∨ ft.toNat < fh.toNat →
      RefusedAs (.decUpdate fl fh ft) s .badOperand) ∧
    (s.probe = some ft.toNat → fl.toNat < fh.toNat → fh.toNat ≤ ft.toNat →
    ∃ t, exec (.decUpdate fl fh ft) s = .next t ∧ t.result = s.result ∧
      DecNarrowedTo s t
        ((s.val.toNat + 2 ^ 32 - s.ext.toNat * (ft.toNat - fh.toNat)) % 2 ^ 32)
        (if 0 < fl.toNat then s.ext.toNat * (fh.toNat - fl.toNat)
          else s.rng.toNat - s.ext.toNat * (ft.toNat - fh.toNat)))

/-- R107: DEC_BIT_LOGP completes whenever its contract holds; it returns 1 exactly when val lies in the top rng >> logp of
the interval, and narrows to the part it returns. Its frame: ext, BUF and the back cursor stay. Another logp
is refused. -/
def Obligations.DecBitLogpDecides : Prop :=
  ∀ (s : State) (logp : Word), s.Inv → s.mode = .dec →
    (logp.toNat = 0 ∨ 16 < logp.toNat → RefusedAs (.decBitLogp logp) s .badOperand) ∧
    (1 ≤ logp.toNat → logp.toNat ≤ 16 → ∃ t, exec (.decBitLogp logp) s = .next t ∧
      let one := s.rng.toNat >>> logp.toNat
      t.result = (if s.val.toNat < one then 1#32 else 0#32) ∧
      DecNarrowedTo s t (if s.val.toNat < one then s.val.toNat else s.val.toNat - one)
        (if s.val.toNat < one then one else s.rng.toNat - one))

/-- R108: DEC_ICDF completes for every well-formed table; it returns the first entry k with r * icdf[k] ≤ val, and narrows
to that symbol's part. Its frame: ext, BUF, TBL and the back cursor stay. Another table is refused. -/
def Obligations.DecIcdfFindsSymbol : Prop :=
  ∀ (s : State) (ftb : Word) (table : TblAddr), s.Inv → s.mode = .dec →
    ((∀ n, ¬ IcdfTable s table ftb n) → RefusedAs (.decIcdf ftb table) s .badTable) ∧
    (∀ n, IcdfTable s table ftb n → ∃ t k, exec (.decIcdf ftb table) s = .next t ∧ k < n ∧ t.result = BitVec.ofNat 32 k ∧
      let bound (j : Nat) := (s.rng.toNat >>> ftb.toNat) * (s.tblByte (table.toNat + j)).toNat
      let top := if k = 0 then s.rng.toNat else bound (k - 1)
      bound k ≤ s.val.toNat ∧ (∀ j, j < k → s.val.toNat < bound j) ∧
      DecNarrowedTo s t (s.val.toNat - bound k) (top - bound k))

/-- R109: DEC_UINT completes whenever its contract holds. For total ≤ 256 it is DECODE total and DEC_UPDATE of the part
found. For a larger total it is that for the high part, then DEC_BITS of the x = ilog(total - 1) - 8 low bits; the value
is returned if it is below total, else total - 1 with error = 1. A total below 2 is refused. -/
def Obligations.DecUintIsProbeCommitBits : Prop :=
  ∀ (s : State) (total : Word), s.Inv → s.mode = .dec →
    (total.toNat < 2 → RefusedAs (.decUint total) s .badOperand) ∧
    (2 ≤ total.toNat → total.toNat ≤ 256 → ∃ u t, exec (.decUint total) s = .next t ∧
      exec (.decode total) s = .next u ∧ exec (.decUpdate u.result (u.result + 1#32) total) u = .next t ∧
      t.result = u.result ∧ t.result.toNat < total.toNat ∧ t.refusal = s.refusal) ∧
    (256 < total.toNat →
      let x := ilog (total - 1#32) - 8
      let ft : Word := BitVec.ofNat 32 ((total.toNat - 1) / 2 ^ x + 1)
      ∃ u v w, exec (.decode ft) s = .next u ∧ exec (.decUpdate u.result (u.result + 1#32) ft) u = .next v ∧
        exec (.decBits (BitVec.ofNat 32 x)) v = .next w ∧ w.refusal = s.refusal ∧
        let value := u.result.toNat * 2 ^ x + w.result.toNat
        exec (.decUint total) s = .next (if value < total.toNat then { w with result := BitVec.ofNat 32 value }
          else { w with result := total - 1#32, error := 1#32 }))

/-- R102, R110: DEC_BITS completes whenever its contract holds. When fewer than nbits bits are valid it refills the window
with whole back bytes, 0 past the start, until more than 24 are; it returns the low nbits bits and drops them. Its
frame: rng, val and BUF stay. Another width is refused. -/
def Obligations.DecBitsReadsField : Prop :=
  ∀ (s : State) (nbits : Word), s.Inv → s.mode = .dec →
    (nbits.toNat = 0 ∨ 25 < nbits.toNat → RefusedAs (.decBits nbits) s .badOperand) ∧
    (1 ≤ nbits.toNat → nbits.toNat ≤ 25 →
    let avail := s.nendBits.toNat
    let m := if avail < nbits.toNat then (32 - avail) / 8 else 0
    let w := s.endWindow.toNat ||| (s.backNumber m * 2 ^ avail)
    exec (.decBits nbits) s = .next { s with
      result := BitVec.ofNat 32 (w % 2 ^ nbits.toNat), endWindow := BitVec.ofNat 32 (w / 2 ^ nbits.toNat)
      nendBits := BitVec.ofNat 32 (avail + 8 * m - nbits.toNat), nbitsTotal := s.nbitsTotal + nbits
      endOffs := BitVec.ofNat 32 (min (s.endOffs.toNat + m) s.storage.toNat), probe := none })

/-- R20 (e): val < rng is kept by every decoder command, for DEC_UPDATE when the interval holds the scaled value of its
probe; DEC_INIT establishes it. -/
def Obligations.DecoderKeepsValBelowRng : Prop :=
  ∀ (i : Instr) (s t : State), s.Inv → exec i s = .next t → t.mode = .dec →
    (s.mode = .dec → s.val.toNat < s.rng.toNat) →
    (∀ fl fh ft, i = .decUpdate fl fh ft →
      let x := ft.toNat - min (s.val.toNat / s.ext.toNat + 1) ft.toNat
      fl.toNat ≤ x ∧ x < fh.toNat) →
    t.val.toNat < t.rng.toNat

/-- R111, R134, for the narrowing commands, each of which has the effect of an ENCODE: every list of symbols, encoded from
ENC_INIT to an ENC_DONE that ends with error = 0, decodes: after DEC_INIT with the same size each probe's RESULT lies in
its symbol's interval, each commit completes, and after it rng and nbits_total (and so TELL and TELL_FRAC) are those of
the encoder after the symbol. The bound on the length keeps the count of pending bytes below 2^32 (log entry 10). -/
def Obligations.RangeCodedRoundTrip : Prop :=
  ∀ (s s0 e d : State) (size : Word) (xs : List Symbol), s.Inv → (∀ x ∈ xs, encodeOk x.fl x.fh x.ft) →
    xs.length < 2 ^ 30 → size.toNat ≤ s.params.bufCap → exec (.encInit size) s = .next s0 → s0.encodeAll xs = some e →
    exec .encDone e = .next d → d.error = 0#32 →
    ∃ t, exec (.decInit size) d = .next t ∧ Mirrors xs s0 t

/-- R36, R111, R134, for raw bits: every list of fields, appended from ENC_INIT to an ENC_DONE that ends with error = 0,
each value inside its width (R166), reads back in order by DEC_BITS after DEC_INIT with the same size, with the
encoder's nbits_total after each. -/
def Obligations.RawBitsRoundTrip : Prop :=
  ∀ (s s0 e d : State) (size : Word) (xs : List RawField), s.Inv →
    (∀ x ∈ xs, rawOk x.nbits ∧ x.value.toNat < 2 ^ x.nbits.toNat) → size.toNat ≤ s.params.bufCap →
    exec (.encInit size) s = .next s0 → s0.appendAll xs = some e →
    exec .encDone e = .next d → d.error = 0#32 →
    ∃ t, exec (.decInit size) d = .next t ∧ ReadsBackAll xs s0 t

/-! ### Shared commands (43_common.md) -/

/-- R130: TELL completes in ENC, DEC and DONE, and writes RESULT only, with wrap32(nbits_total - ilog(rng)); in IDLE it is
refused. -/
def Obligations.TellCountsBits : Prop :=
  ∀ s : State,
    (s.mode = .idle → RefusedAs .tell s .wrongMode) ∧
    (s.mode ≠ .idle → exec .tell s =
      .next { s with result := BitVec.ofInt 32 ((s.nbitsTotal.toNat : Int) - (ilog s.rng : Int)) })

/-- R131: TELL_FRAC completes in every stream state and writes RESULT only, by the formula and the table CORR of R131; in
IDLE it is refused. -/
def Obligations.TellFracFollowsTable : Prop :=
  ∀ s : State, s.Inv →
    (s.mode = .idle → RefusedAs .tellFrac s .wrongMode) ∧
    (s.mode ≠ .idle →
    let l := ilog s.rng
    let r := s.rng.toNat / 2 ^ (l - 16)
    let b := r / 4096 - 8
    let e := if [35733, 38967, 42495, 46340, 50535, 55109, 60097, 65535].getD b 0 < r then b + 1 else b
    e ≤ 7 ∧
    exec .tellFrac s = .next { s with
      result := BitVec.ofInt 32 (8 * (s.nbitsTotal.toNat : Int) - (8 * (l : Int) + (e : Int))) })

/-- R132: for every rng in (2^23, 2^31] and every nbits_total, the table form of TELL_FRAC equals the form that squares
the top 16 bits of rng three times. -/
def Obligations.TellFracEqualsSquaring : Prop :=
  ∀ rng nbitsTotal : Word, 2 ^ 23 < rng.toNat → rng.toNat ≤ 2 ^ 31 →
    let square (x : Nat × Nat) : Nat × Nat :=
      let r := x.2 * x.2 / 2 ^ 15
      (2 * x.1 + r / 2 ^ 16, r / 2 ^ (r / 2 ^ 16))
    let l := (square (square (square (ilog rng, rng.toNat / 2 ^ (ilog rng - 16))))).1
    tellFracValue rng nbitsTotal = BitVec.ofInt 32 (8 * (nbitsTotal.toNat : Int) - (l : Int))

/-- R130, R131: TELL_FRAC lies within 7 eighths of a bit below 8 TELL, and a narrower interval never gives a smaller
TELL_FRAC for the same nbits_total. -/
def Obligations.TellFracIsMonotonic : Prop :=
  (∀ rng nbitsTotal : Word, 2 ^ 23 < rng.toNat → rng.toNat ≤ 2 ^ 31 →
    ∃ b, b ≤ 7 ∧ tellFracValue rng nbitsTotal = 8#32 * tellValue rng nbitsTotal - BitVec.ofNat 32 b) ∧
  ∀ g h : Word, 2 ^ 23 < g.toNat → g.toNat ≤ h.toNat → h.toNat ≤ 2 ^ 31 →
    8 * ilog g + fracEighths (g.toNat >>> (ilog g - 16)) ≤ 8 * ilog h + fracEighths (h.toNat >>> (ilog h - 16))

/-- R133: RELEASE completes in every mode and writes MODE and PROBE only. -/
def Obligations.ReleaseEndsStream : Prop :=
  ∀ s : State, exec .release s = .next { s with mode := .idle, probe := none }

/-! ### The whole machine -/

/-- R19, R20 at reset: the state after a hardware reset meets the invariant, for all parameters that R4 allows. -/
def Obligations.InvariantAtReset : Prop :=
  State.reset.Inv ∧ ∀ (p : Params) (n : Nat) (q : List Transaction), p.ok → (State.afterReset p n q).Inv

/-- R19 (a), (c), (d), (e), R20 (a) to (d), with the canonical form of both memories, and R19 (b) as far as R81 lets it
hold: in ENC, val + rng < 2^32 unless no byte is in BUF or rem yet and bit 31 of val is set (log entry 9). Every step from
a state that meets the invariant leaves one that meets it. -/
def Obligations.StepKeepsInvariant : Prop := ∀ s t : State, s.Inv → step s = .next t → t.Inv

/-- R140, R112, R172: from a state that meets the invariant no command faults, hangs or halts: every command, whatever
its operands, answers a next state. -/
def Obligations.EveryCommandAnswers : Prop := ∀ (i : Instr) (s : State), s.Inv → ∃ t, exec i s = .next t

/-- R14, R141, R144: error is sticky: only ENC_INIT, DEC_INIT and reset make it 0 again. -/
def Obligations.ErrorIsSticky : Prop :=
  ∀ (i : Instr) (s t : State), exec i s = .next t → s.error ≠ 0#32 →
    (∀ n, i ≠ .encInit n) → (∀ n, i ≠ .decInit n) → t.error ≠ 0#32

/-- R141: a command that changes error does so by a cause that R141 lists for it. A front or back byte did not fit, so that
the buffer is full (EC1 of the narrowing commands, EC1 or EC2 of ENC_UINT; EC2 of ENC_BITS, whose whole bytes were more
than the room); the patch was too early (EC3); ENC_DONE had something that did not fit (EC1, EC2, EC4, EC5; while the
count of pending bytes cannot wrap, log entry 10); the integer of a split DEC_UINT came out above total - 1 (DC1). No other
command changes error, but the INITs clear it. -/
def Obligations.ErrorCausesAreThoseListed : Prop :=
  ∀ (i : Instr) (s t : State), s.Inv → exec i s = .next t → t.error ≠ s.error →
    let isFull := t.offs.toNat + t.endOffs.toNat = t.storage.toNat
    match i with
    | .encInit _ => t.error = 0#32
    | .decInit _ => t.error = 0#32
    | .encode .. => t.error = encFault ∧ isFull
    | .encodeBin .. => t.error = encFault ∧ isFull
    | .encBitLogp .. => t.error = encFault ∧ isFull
    | .encIcdf .. => t.error = encFault ∧ isFull
    | .encUint .. => t.error = encFault ∧ isFull
    | .encBits _ nbits => t.error = encFault ∧ isFull ∧ 32 < s.nendBits.toNat + nbits.toNat ∧
        s.storage.toNat < s.offs.toNat + s.endOffs.toNat + s.nendBits.toNat / 8
    | .encPatch _ nbits => t.error = encFault ∧
        s.offs.toNat = 0 ∧ s.rem.toInt < 0 ∧ 2 ^ (31 - nbits.toNat) < s.rng.toNat
    | .encDone => t.error = encFault ∧ (s.ext.toNat < 2 ^ 32 - 3 → ¬ s.doneFits)
    | .decUint total => t.error = decFault ∧ t.result = total - 1#32 ∧ 256 < total.toNat ∧
        let x := ilog (total - 1#32) - 8
        let ft : Word := BitVec.ofNat 32 ((total.toNat - 1) / 2 ^ x + 1)
        ∃ u v w, exec (.decode ft) s = .next u ∧ exec (.decUpdate u.result (u.result + 1#32) ft) u = .next v ∧
          exec (.decBits (BitVec.ofNat 32 x)) v = .next w ∧ total.toNat ≤ u.result.toNat * 2 ^ x + w.result.toNat
    | _ => False

/-- R30, R33, R38: the unit never writes BUF at or above storage and never writes TBL. The two INITs, the decoder's
commands and the shared commands write neither memory, in any mode; outside MODE = ENC no command does. The parameters
and the host's pending transactions are not touched by a command. -/
def Obligations.UnitWritesOnlyBelowStorage : Prop :=
  ∀ (i : Instr) (s t : State), s.Inv → exec i s = .next t →
    t.tbl = s.tbl ∧ t.params = s.params ∧ t.resets = s.resets ∧ t.port = s.port ∧
    (∀ a, s.storage.toNat ≤ a → t.bufByte a = s.bufByte a) ∧
    (s.mode ≠ .enc → t.buf = s.buf) ∧
    (match i with
      | .encInit _ => t.buf = s.buf
      | .decInit _ => t.buf = s.buf
      | .decode _ => t.buf = s.buf
      | .decodeBin _ => t.buf = s.buf
      | .decUpdate .. => t.buf = s.buf
      | .decBitLogp _ => t.buf = s.buf
      | .decIcdf .. => t.buf = s.buf
      | .decUint _ => t.buf = s.buf
      | .decBits _ => t.buf = s.buf
      | .tell => t.buf = s.buf
      | .tellFrac => t.buf = s.buf
      | .release => t.buf = s.buf
      | _ => True)

/-- R144: once the buffer is full, nothing more is written into the front or the back region: a narrowing command or
ENC_BITS leaves BUF and both cursors as they are. -/
def Obligations.FullBufferIsNotWritten : Prop :=
  ∀ (i : Instr) (s t : State), s.storage.toNat ≤ s.offs.toNat + s.endOffs.toNat → exec i s = .next t →
    (match i with
      | .encode .. => True
      | .encodeBin .. => True
      | .encBitLogp .. => True
      | .encIcdf .. => True
      | .encUint .. => True
      | .encBits .. => True
      | _ => False) →
    t.buf = s.buf ∧ t.offs = s.offs ∧ t.endOffs = s.endOffs

/-- R10: MODE changes only as R10's table says. -/
def Obligations.ModeChangesAsListed : Prop :=
  ∀ (i : Instr) (s t : State), exec i s = .next t → t.mode ≠ s.mode →
    match i with
    | .encInit _ => t.mode = .enc
    | .decInit _ => t.mode = .dec
    | .encDone => s.mode = .enc ∧ t.mode = .done
    | .release => t.mode = .idle
    | _ => False

/-- R15: who sets PROBE and who clears it: a probe that is not refused sets it to its total; TELL and TELL_FRAC leave it;
every other command that is not refused leaves it none. -/
def Obligations.ProbeFollowsCommands : Prop :=
  ∀ (i : Instr) (s t : State), s.Inv → exec i s = .next t → s.refusal = none → t.refusal = none →
    t.probe = match i with
      | .decode ft => some ft.toNat
      | .decodeBin bits => some (2 ^ bits.toNat)
      | .tell => s.probe
      | .tellFrac => s.probe
      | _ => none

/-- R16: only DECODE, DECODE_BIN, DEC_BIT_LOGP, DEC_ICDF, DEC_UINT, DEC_BITS, TELL and TELL_FRAC write RESULT. -/
def Obligations.OnlyReturningCommandsWriteResult : Prop :=
  ∀ (i : Instr) (s t : State), exec i s = .next t → t.result ≠ s.result →
    match i with
    | .decode _ => True
    | .decodeBin _ => True
    | .decBitLogp _ => True
    | .decIcdf .. => True
    | .decUint _ => True
    | .decBits _ => True
    | .tell => True
    | .tellFrac => True
    | _ => False

/-- R161: the state after an INIT does not depend on the coder registers, MODE or PROBE before it. -/
def Obligations.InitForgetsOldStream : Prop :=
  ∀ (s u : State) (size : Word),
    u.params = s.params → u.buf = s.buf → u.tbl = s.tbl → u.resets = s.resets → u.port = s.port →
    u.result = s.result → u.refusal = s.refusal → size.toNat ≤ s.params.bufCap →
    exec (.encInit size) u = exec (.encInit size) s ∧ exec (.decInit size) u = exec (.decInit size) s
end

