-- ==== Sys2Proof/Laws/State.lean ====
section
/-! SUPPORT. One lemma per field per named update of the state, each true by rfl. -/

namespace Sys2Proof.Machine

/-! ### setError -/

@[simp] theorem State.setError_mode (s : State) (v : Word) : (s.setError v).mode = s.mode := rfl
@[simp] theorem State.setError_storage (s : State) (v : Word) : (s.setError v).storage = s.storage := rfl
@[simp] theorem State.setError_offs (s : State) (v : Word) : (s.setError v).offs = s.offs := rfl
@[simp] theorem State.setError_endOffs (s : State) (v : Word) : (s.setError v).endOffs = s.endOffs := rfl
@[simp] theorem State.setError_rng (s : State) (v : Word) : (s.setError v).rng = s.rng := rfl
@[simp] theorem State.setError_val (s : State) (v : Word) : (s.setError v).val = s.val := rfl
@[simp] theorem State.setError_ext (s : State) (v : Word) : (s.setError v).ext = s.ext := rfl
@[simp] theorem State.setError_rem (s : State) (v : Word) : (s.setError v).rem = s.rem := rfl
@[simp] theorem State.setError_endWindow (s : State) (v : Word) : (s.setError v).endWindow = s.endWindow := rfl
@[simp] theorem State.setError_nendBits (s : State) (v : Word) : (s.setError v).nendBits = s.nendBits := rfl
@[simp] theorem State.setError_nbitsTotal (s : State) (v : Word) : (s.setError v).nbitsTotal = s.nbitsTotal := rfl
@[simp] theorem State.setError_error (s : State) (v : Word) : (s.setError v).error = s.error ||| v := rfl
@[simp] theorem State.setError_result (s : State) (v : Word) : (s.setError v).result = s.result := rfl
@[simp] theorem State.setError_probe (s : State) (v : Word) : (s.setError v).probe = s.probe := rfl
@[simp] theorem State.setError_refusal (s : State) (v : Word) : (s.setError v).refusal = s.refusal := rfl
@[simp] theorem State.setError_buf (s : State) (v : Word) : (s.setError v).buf = s.buf := rfl
@[simp] theorem State.setError_tbl (s : State) (v : Word) : (s.setError v).tbl = s.tbl := rfl
@[simp] theorem State.setError_params (s : State) (v : Word) : (s.setError v).params = s.params := rfl
@[simp] theorem State.setError_resets (s : State) (v : Word) : (s.setError v).resets = s.resets := rfl
@[simp] theorem State.setError_port (s : State) (v : Word) : (s.setError v).port = s.port := rfl

/-! ### forceError -/

@[simp] theorem State.forceError_mode (s : State) (v : Word) : (s.forceError v).mode = s.mode := rfl
@[simp] theorem State.forceError_storage (s : State) (v : Word) : (s.forceError v).storage = s.storage := rfl
@[simp] theorem State.forceError_offs (s : State) (v : Word) : (s.forceError v).offs = s.offs := rfl
@[simp] theorem State.forceError_endOffs (s : State) (v : Word) : (s.forceError v).endOffs = s.endOffs := rfl
@[simp] theorem State.forceError_rng (s : State) (v : Word) : (s.forceError v).rng = s.rng := rfl
@[simp] theorem State.forceError_val (s : State) (v : Word) : (s.forceError v).val = s.val := rfl
@[simp] theorem State.forceError_ext (s : State) (v : Word) : (s.forceError v).ext = s.ext := rfl
@[simp] theorem State.forceError_rem (s : State) (v : Word) : (s.forceError v).rem = s.rem := rfl
@[simp] theorem State.forceError_endWindow (s : State) (v : Word) : (s.forceError v).endWindow = s.endWindow := rfl
@[simp] theorem State.forceError_nendBits (s : State) (v : Word) : (s.forceError v).nendBits = s.nendBits := rfl
@[simp] theorem State.forceError_nbitsTotal (s : State) (v : Word) : (s.forceError v).nbitsTotal = s.nbitsTotal := rfl
@[simp] theorem State.forceError_error (s : State) (v : Word) : (s.forceError v).error = v := rfl
@[simp] theorem State.forceError_result (s : State) (v : Word) : (s.forceError v).result = s.result := rfl
@[simp] theorem State.forceError_probe (s : State) (v : Word) : (s.forceError v).probe = s.probe := rfl
@[simp] theorem State.forceError_refusal (s : State) (v : Word) : (s.forceError v).refusal = s.refusal := rfl
@[simp] theorem State.forceError_buf (s : State) (v : Word) : (s.forceError v).buf = s.buf := rfl
@[simp] theorem State.forceError_tbl (s : State) (v : Word) : (s.forceError v).tbl = s.tbl := rfl
@[simp] theorem State.forceError_params (s : State) (v : Word) : (s.forceError v).params = s.params := rfl
@[simp] theorem State.forceError_resets (s : State) (v : Word) : (s.forceError v).resets = s.resets := rfl
@[simp] theorem State.forceError_port (s : State) (v : Word) : (s.forceError v).port = s.port := rfl

/-! ### refuse -/

@[simp] theorem State.refuse_mode (s : State) (r : RefuseReason) : (s.refuse r).mode = s.mode := rfl
@[simp] theorem State.refuse_storage (s : State) (r : RefuseReason) : (s.refuse r).storage = s.storage := rfl
@[simp] theorem State.refuse_offs (s : State) (r : RefuseReason) : (s.refuse r).offs = s.offs := rfl
@[simp] theorem State.refuse_endOffs (s : State) (r : RefuseReason) : (s.refuse r).endOffs = s.endOffs := rfl
@[simp] theorem State.refuse_rng (s : State) (r : RefuseReason) : (s.refuse r).rng = s.rng := rfl
@[simp] theorem State.refuse_val (s : State) (r : RefuseReason) : (s.refuse r).val = s.val := rfl
@[simp] theorem State.refuse_ext (s : State) (r : RefuseReason) : (s.refuse r).ext = s.ext := rfl
@[simp] theorem State.refuse_rem (s : State) (r : RefuseReason) : (s.refuse r).rem = s.rem := rfl
@[simp] theorem State.refuse_endWindow (s : State) (r : RefuseReason) : (s.refuse r).endWindow = s.endWindow := rfl
@[simp] theorem State.refuse_nendBits (s : State) (r : RefuseReason) : (s.refuse r).nendBits = s.nendBits := rfl
@[simp] theorem State.refuse_nbitsTotal (s : State) (r : RefuseReason) : (s.refuse r).nbitsTotal = s.nbitsTotal := rfl
@[simp] theorem State.refuse_error (s : State) (r : RefuseReason) : (s.refuse r).error = s.error := rfl
@[simp] theorem State.refuse_result (s : State) (r : RefuseReason) : (s.refuse r).result = s.result := rfl
@[simp] theorem State.refuse_probe (s : State) (r : RefuseReason) : (s.refuse r).probe = s.probe := rfl
@[simp] theorem State.refuse_refusal (s : State) (r : RefuseReason) : (s.refuse r).refusal = some r := rfl
@[simp] theorem State.refuse_buf (s : State) (r : RefuseReason) : (s.refuse r).buf = s.buf := rfl
@[simp] theorem State.refuse_tbl (s : State) (r : RefuseReason) : (s.refuse r).tbl = s.tbl := rfl
@[simp] theorem State.refuse_params (s : State) (r : RefuseReason) : (s.refuse r).params = s.params := rfl
@[simp] theorem State.refuse_resets (s : State) (r : RefuseReason) : (s.refuse r).resets = s.resets := rfl
@[simp] theorem State.refuse_port (s : State) (r : RefuseReason) : (s.refuse r).port = s.port := rfl

/-! ### bufWrite -/

@[simp] theorem State.bufWrite_mode (s : State) (a : Nat) (v : Byte) : (s.bufWrite a v).mode = s.mode := rfl
@[simp] theorem State.bufWrite_storage (s : State) (a : Nat) (v : Byte) : (s.bufWrite a v).storage = s.storage := rfl
@[simp] theorem State.bufWrite_offs (s : State) (a : Nat) (v : Byte) : (s.bufWrite a v).offs = s.offs := rfl
@[simp] theorem State.bufWrite_endOffs (s : State) (a : Nat) (v : Byte) : (s.bufWrite a v).endOffs = s.endOffs := rfl
@[simp] theorem State.bufWrite_rng (s : State) (a : Nat) (v : Byte) : (s.bufWrite a v).rng = s.rng := rfl
@[simp] theorem State.bufWrite_val (s : State) (a : Nat) (v : Byte) : (s.bufWrite a v).val = s.val := rfl
@[simp] theorem State.bufWrite_ext (s : State) (a : Nat) (v : Byte) : (s.bufWrite a v).ext = s.ext := rfl
@[simp] theorem State.bufWrite_rem (s : State) (a : Nat) (v : Byte) : (s.bufWrite a v).rem = s.rem := rfl
@[simp] theorem State.bufWrite_endWindow (s : State) (a : Nat) (v : Byte) : (s.bufWrite a v).endWindow = s.endWindow := rfl
@[simp] theorem State.bufWrite_nendBits (s : State) (a : Nat) (v : Byte) : (s.bufWrite a v).nendBits = s.nendBits := rfl
@[simp] theorem State.bufWrite_nbitsTotal (s : State) (a : Nat) (v : Byte) : (s.bufWrite a v).nbitsTotal = s.nbitsTotal := rfl
@[simp] theorem State.bufWrite_error (s : State) (a : Nat) (v : Byte) : (s.bufWrite a v).error = s.error := rfl
@[simp] theorem State.bufWrite_result (s : State) (a : Nat) (v : Byte) : (s.bufWrite a v).result = s.result := rfl
@[simp] theorem State.bufWrite_probe (s : State) (a : Nat) (v : Byte) : (s.bufWrite a v).probe = s.probe := rfl
@[simp] theorem State.bufWrite_refusal (s : State) (a : Nat) (v : Byte) : (s.bufWrite a v).refusal = s.refusal := rfl
@[simp] theorem State.bufWrite_buf (s : State) (a : Nat) (v : Byte) : (s.bufWrite a v).buf = s.buf.write a v := rfl
@[simp] theorem State.bufWrite_tbl (s : State) (a : Nat) (v : Byte) : (s.bufWrite a v).tbl = s.tbl := rfl
@[simp] theorem State.bufWrite_params (s : State) (a : Nat) (v : Byte) : (s.bufWrite a v).params = s.params := rfl
@[simp] theorem State.bufWrite_resets (s : State) (a : Nat) (v : Byte) : (s.bufWrite a v).resets = s.resets := rfl
@[simp] theorem State.bufWrite_port (s : State) (a : Nat) (v : Byte) : (s.bufWrite a v).port = s.port := rfl

/-! ### commit -/

@[simp] theorem State.commit_mode (s : State) (fl fh ft : Word) : (s.commit fl fh ft).mode = s.mode := rfl
@[simp] theorem State.commit_storage (s : State) (fl fh ft : Word) : (s.commit fl fh ft).storage = s.storage := rfl
@[simp] theorem State.commit_offs (s : State) (fl fh ft : Word) : (s.commit fl fh ft).offs = s.offs := rfl
@[simp] theorem State.commit_endOffs (s : State) (fl fh ft : Word) : (s.commit fl fh ft).endOffs = s.endOffs := rfl
@[simp] theorem State.commit_rng (s : State) (fl fh ft : Word) : (s.commit fl fh ft).rng = if 0#32 < fl then s.ext * (fh - fl) else s.rng - s.ext * (ft - fh) := rfl
@[simp] theorem State.commit_val (s : State) (fl fh ft : Word) : (s.commit fl fh ft).val = s.val - s.ext * (ft - fh) := rfl
@[simp] theorem State.commit_ext (s : State) (fl fh ft : Word) : (s.commit fl fh ft).ext = s.ext := rfl
@[simp] theorem State.commit_rem (s : State) (fl fh ft : Word) : (s.commit fl fh ft).rem = s.rem := rfl
@[simp] theorem State.commit_endWindow (s : State) (fl fh ft : Word) : (s.commit fl fh ft).endWindow = s.endWindow := rfl
@[simp] theorem State.commit_nendBits (s : State) (fl fh ft : Word) : (s.commit fl fh ft).nendBits = s.nendBits := rfl
@[simp] theorem State.commit_nbitsTotal (s : State) (fl fh ft : Word) : (s.commit fl fh ft).nbitsTotal = s.nbitsTotal := rfl
@[simp] theorem State.commit_error (s : State) (fl fh ft : Word) : (s.commit fl fh ft).error = s.error := rfl
@[simp] theorem State.commit_result (s : State) (fl fh ft : Word) : (s.commit fl fh ft).result = s.result := rfl
@[simp] theorem State.commit_probe (s : State) (fl fh ft : Word) : (s.commit fl fh ft).probe = none := rfl
@[simp] theorem State.commit_refusal (s : State) (fl fh ft : Word) : (s.commit fl fh ft).refusal = s.refusal := rfl
@[simp] theorem State.commit_buf (s : State) (fl fh ft : Word) : (s.commit fl fh ft).buf = s.buf := rfl
@[simp] theorem State.commit_tbl (s : State) (fl fh ft : Word) : (s.commit fl fh ft).tbl = s.tbl := rfl
@[simp] theorem State.commit_params (s : State) (fl fh ft : Word) : (s.commit fl fh ft).params = s.params := rfl
@[simp] theorem State.commit_resets (s : State) (fl fh ft : Word) : (s.commit fl fh ft).resets = s.resets := rfl
@[simp] theorem State.commit_port (s : State) (fl fh ft : Word) : (s.commit fl fh ft).port = s.port := rfl

/-! ### decInitRegs -/

@[simp] theorem State.decInitRegs_mode (s : State) (n : Word) : (s.decInitRegs n).mode = .dec := rfl
@[simp] theorem State.decInitRegs_storage (s : State) (n : Word) : (s.decInitRegs n).storage = n := rfl
@[simp] theorem State.decInitRegs_offs (s : State) (n : Word) : (s.decInitRegs n).offs = 0#32 := rfl
@[simp] theorem State.decInitRegs_endOffs (s : State) (n : Word) : (s.decInitRegs n).endOffs = 0#32 := rfl
@[simp] theorem State.decInitRegs_rng (s : State) (n : Word) : (s.decInitRegs n).rng = 128#32 := rfl
@[simp] theorem State.decInitRegs_val (s : State) (n : Word) : (s.decInitRegs n).val = s.val := rfl
@[simp] theorem State.decInitRegs_ext (s : State) (n : Word) : (s.decInitRegs n).ext = 0#32 := rfl
@[simp] theorem State.decInitRegs_rem (s : State) (n : Word) : (s.decInitRegs n).rem = s.rem := rfl
@[simp] theorem State.decInitRegs_endWindow (s : State) (n : Word) : (s.decInitRegs n).endWindow = 0#32 := rfl
@[simp] theorem State.decInitRegs_nendBits (s : State) (n : Word) : (s.decInitRegs n).nendBits = 0#32 := rfl
@[simp] theorem State.decInitRegs_nbitsTotal (s : State) (n : Word) : (s.decInitRegs n).nbitsTotal = 9#32 := rfl
@[simp] theorem State.decInitRegs_error (s : State) (n : Word) : (s.decInitRegs n).error = 0#32 := rfl
@[simp] theorem State.decInitRegs_result (s : State) (n : Word) : (s.decInitRegs n).result = s.result := rfl
@[simp] theorem State.decInitRegs_probe (s : State) (n : Word) : (s.decInitRegs n).probe = none := rfl
@[simp] theorem State.decInitRegs_refusal (s : State) (n : Word) : (s.decInitRegs n).refusal = s.refusal := rfl
@[simp] theorem State.decInitRegs_buf (s : State) (n : Word) : (s.decInitRegs n).buf = s.buf := rfl
@[simp] theorem State.decInitRegs_tbl (s : State) (n : Word) : (s.decInitRegs n).tbl = s.tbl := rfl
@[simp] theorem State.decInitRegs_params (s : State) (n : Word) : (s.decInitRegs n).params = s.params := rfl
@[simp] theorem State.decInitRegs_resets (s : State) (n : Word) : (s.decInitRegs n).resets = s.resets := rfl
@[simp] theorem State.decInitRegs_port (s : State) (n : Word) : (s.decInitRegs n).port = s.port := rfl

/-! ### afterReset -/

@[simp] theorem State.afterReset_mode (p : Params) (n : Nat) (q : List Transaction) : (State.afterReset p n q).mode = .idle := rfl
@[simp] theorem State.afterReset_storage (p : Params) (n : Nat) (q : List Transaction) : (State.afterReset p n q).storage = 0#32 := rfl
@[simp] theorem State.afterReset_offs (p : Params) (n : Nat) (q : List Transaction) : (State.afterReset p n q).offs = 0#32 := rfl
@[simp] theorem State.afterReset_endOffs (p : Params) (n : Nat) (q : List Transaction) : (State.afterReset p n q).endOffs = 0#32 := rfl
@[simp] theorem State.afterReset_rng (p : Params) (n : Nat) (q : List Transaction) : (State.afterReset p n q).rng = 0#32 := rfl
@[simp] theorem State.afterReset_val (p : Params) (n : Nat) (q : List Transaction) : (State.afterReset p n q).val = 0#32 := rfl
@[simp] theorem State.afterReset_ext (p : Params) (n : Nat) (q : List Transaction) : (State.afterReset p n q).ext = 0#32 := rfl
@[simp] theorem State.afterReset_rem (p : Params) (n : Nat) (q : List Transaction) : (State.afterReset p n q).rem = 0#32 := rfl
@[simp] theorem State.afterReset_endWindow (p : Params) (n : Nat) (q : List Transaction) : (State.afterReset p n q).endWindow = 0#32 := rfl
@[simp] theorem State.afterReset_nendBits (p : Params) (n : Nat) (q : List Transaction) : (State.afterReset p n q).nendBits = 0#32 := rfl
@[simp] theorem State.afterReset_nbitsTotal (p : Params) (n : Nat) (q : List Transaction) : (State.afterReset p n q).nbitsTotal = 0#32 := rfl
@[simp] theorem State.afterReset_error (p : Params) (n : Nat) (q : List Transaction) : (State.afterReset p n q).error = 0#32 := rfl
@[simp] theorem State.afterReset_result (p : Params) (n : Nat) (q : List Transaction) : (State.afterReset p n q).result = 0#32 := rfl
@[simp] theorem State.afterReset_probe (p : Params) (n : Nat) (q : List Transaction) : (State.afterReset p n q).probe = none := rfl
@[simp] theorem State.afterReset_refusal (p : Params) (n : Nat) (q : List Transaction) : (State.afterReset p n q).refusal = none := rfl
@[simp] theorem State.afterReset_buf (p : Params) (n : Nat) (q : List Transaction) : (State.afterReset p n q).buf = [] := rfl
@[simp] theorem State.afterReset_tbl (p : Params) (n : Nat) (q : List Transaction) : (State.afterReset p n q).tbl = [] := rfl
@[simp] theorem State.afterReset_params (p : Params) (n : Nat) (q : List Transaction) : (State.afterReset p n q).params = p := rfl
@[simp] theorem State.afterReset_resets (p : Params) (n : Nat) (q : List Transaction) : (State.afterReset p n q).resets = n := rfl
@[simp] theorem State.afterReset_port (p : Params) (n : Nat) (q : List Transaction) : (State.afterReset p n q).port = q := rfl

/-! ### Bytes of BUF and of TBL -/

theorem State.bufByte_congr {s t : State} {a : Nat} (h : t.buf.read? a = s.buf.read? a) (hr : t.resets = s.resets) :
    t.bufByte a = s.bufByte a := by simp [State.bufByte, h, hr]

theorem State.tblByte_congr {s t : State} (h : t.tbl = s.tbl) (hr : t.resets = s.resets) (a : Nat) :
    t.tblByte a = s.tblByte a := by simp [State.tblByte, h, hr]

/-- PROBE and RESULT are not read by a table. -/
theorem State.icdf_congr {s t : State} (h : t.tbl = s.tbl) (hr : t.resets = s.resets) (x : TblAddr) (k : Nat) :
    t.icdf x k = s.icdf x k := by simp [State.icdf, State.tblByte_congr h hr]

end Sys2Proof.Machine
end

