-- ==== Sys2Proof/Laws/Exec.lean ====
section
/-! SUPPORT. The shape every command has: its modes, its contract, its rule; and what an answer says. -/

namespace Sys2Proof.Machine

/-- The operand contract of a command in a state (the "Contract" line of its rule). -/
def contractOf : Instr → State → Option RefuseReason
  | .encInit size, s => operands (size.toNat ≤ s.params.bufCap)
  | .encode fl fh ft, _ => operands (encodeOk fl fh ft)
  | .encodeBin fl fh bits, _ => operands (encodeBinOk fl fh bits)
  | .encBitLogp _ logp, _ => operands (logpOk logp)
  | .encIcdf sym ftb table, s => encIcdfContract sym ftb table s
  | .encUint value total, _ => operands (encUintOk value total)
  | .encBits _ nbits, _ => operands (rawOk nbits)
  | .encPatch value nbits, _ => operands (patchOk value nbits)
  | .encShrink size, s => operands (shrinkOk size s)
  | .encDone, _ => none
  | .decInit size, s => operands (size.toNat ≤ s.params.bufCap)
  | .decode ft, _ => operands (probeOk ft)
  | .decodeBin bits, _ => operands (probeBinOk bits)
  | .decUpdate fl fh ft, s => decUpdateContract fl fh ft s
  | .decBitLogp logp, _ => operands (logpOk logp)
  | .decIcdf ftb table, s => decIcdfContract ftb table s
  | .decUint total, _ => operands (uintTotalOk total)
  | .decBits nbits, _ => operands (rawOk nbits)
  | .tell, _ => none
  | .tellFrac, _ => none
  | .release, _ => none

/-- An encoder rule with its guard and its PROBE step. -/
def encoderRule (rule : State → Except Fault State) : State → Except Fault State :=
  onStream fun t => rule { t with probe := none }

/-- The rule of a command (the pseudocode of its R<n>). -/
def ruleOf : Instr → State → Except Fault State
  | .encInit size => encInitRule size
  | .encode fl fh ft => encoderRule (encodeRule fl fh ft)
  | .encodeBin fl fh bits => encoderRule (encodeBinRule fl fh bits)
  | .encBitLogp bit logp => encoderRule (encBitLogpRule (bitOperand bit) logp)
  | .encIcdf sym ftb table => encoderRule (encIcdfRule sym ftb table)
  | .encUint value total => encoderRule (encUintRule value total)
  | .encBits value nbits => encoderRule (encBitsRule value nbits)
  | .encPatch value nbits => encoderRule (encPatchRule value nbits)
  | .encShrink size => encoderRule (encShrinkRule size)
  | .encDone => encoderRule encDoneRule
  | .decInit size => decInitRule size
  | .decode ft => decodeRule ft
  | .decodeBin bits => decodeBinRule bits
  | .decUpdate fl fh ft => onStream (decUpdateRule fl fh ft)
  | .decBitLogp logp => onStream (decBitLogpRule logp)
  | .decIcdf ftb table => onStream (decIcdfRule ftb table)
  | .decUint total => onStream (decUintRule total)
  | .decBits nbits => onStream (decBitsRule nbits)
  | .tell => fun t => .ok { t with result := tellValue t.rng t.nbitsTotal }
  | .tellFrac => tellFracRule
  | .release => fun t => .ok { t with mode := .idle, probe := none }

/-- Every command is its modes, its contract and its rule (R54). -/
theorem exec_eq_command (i : Instr) (s : State) :
    exec i s = command (admittedIn i) (contractOf i s) (ruleOf i) s := by
  have h : ∀ m : Mode, inStream m = (m == .enc || m == .dec || m == .done) := by intro m; cases m <;> rfl
  cases i <;> first
    | rfl
    | (unfold exec; simp only [execTell, execTellFrac, command, admittedIn, h]; rfl)

theorem command_wrongMode {a : Mode → Bool} {s : State} (h : a s.mode = false) (c : Option RefuseReason)
    (r : State → Except Fault State) : command a c r s = .next (s.refuse .wrongMode) := by simp [command, h]

theorem command_refused {a : Mode → Bool} {s : State} (h : a s.mode = true) (x : RefuseReason)
    (r : State → Except Fault State) : command a (some x) r s = .next (s.refuse x) := by simp [command, h]

theorem command_ok {a : Mode → Bool} {s t : State} {r : State → Except Fault State} (h : a s.mode = true)
    (hr : r s = .ok t) : command a none r s = .next t := by simp [command, h, hr]

/-- What a next state of a command says: the command was refused, or it ran. -/
theorem command_next {a : Mode → Bool} {c : Option RefuseReason} {r : State → Except Fault State} {s t : State}
    (h : command a c r s = .next t) :
    (∃ x, t = s.refuse x) ∨ (a s.mode = true ∧ c = none ∧ r s = .ok t) := by
  unfold command at h
  split at h
  · split at h
    · injection h with h; exact .inl ⟨_, h.symm⟩
    · split at h
      · injection h with h; subst h; exact .inr ⟨‹_›, rfl, ‹_›⟩
      · cases h
  · injection h with h; exact .inl ⟨_, h.symm⟩

/-- What a next state of a command says, for `exec`. -/
theorem exec_next {i : Instr} {s t : State} (h : exec i s = .next t) :
    (∃ x, t = s.refuse x) ∨ (admittedIn i s.mode = true ∧ contractOf i s = none ∧ ruleOf i s = .ok t) :=
  command_next (by rw [← exec_eq_command]; exact h)

theorem operands_none {p : Prop} [Decidable p] : operands p = none ↔ p := by
  unfold operands; split <;> simp_all

theorem operands_some {p : Prop} [Decidable p] (h : ¬ p) : operands p = some .badOperand := by simp [operands, h]

theorem onStream_of_le {s : State} (h : s.storage.toNat ≤ s.params.bufCap) (r : State → Except Fault State) :
    onStream r s = r s := by simp [onStream, h]

theorem onStream_ok {s t : State} {r : State → Except Fault State} (h : onStream r s = .ok t) :
    s.storage.toNat ≤ s.params.bufCap ∧ r s = .ok t := by
  unfold onStream at h
  split at h
  · exact ⟨‹_›, h⟩
  · cases h

theorem encoderRule_of_le {s : State} (h : s.storage.toNat ≤ s.params.bufCap) (r : State → Except Fault State) :
    encoderRule r s = r { s with probe := none } := onStream_of_le h _

theorem encoderRule_ok {s t : State} {r : State → Except Fault State} (h : encoderRule r s = .ok t) :
    s.storage.toNat ≤ s.params.bufCap ∧ r { s with probe := none } = .ok t := onStream_ok h

/-- A command whose mode and contract hold and whose rule answers runs. -/
theorem exec_ok {i : Instr} {s t : State} (hm : admittedIn i s.mode = true) (hc : contractOf i s = none)
    (hr : ruleOf i s = .ok t) : exec i s = .next t := by
  rw [exec_eq_command, hc]; exact command_ok hm hr

end Sys2Proof.Machine
end

