-- ==== Sys2Proof/Laws/Memory.lean ====
section
/-! SUPPORT. The laws of a byte memory: read after write, the canonical form is kept, and it is canonical. -/

namespace Sys2Proof.Machine

theorem Memory.read?_write_self (m : Memory) (a : Nat) (v : Byte) : (Memory.write m a v).read? a = some v := by
  induction m with
  | nil => simp [Memory.write, Memory.read?]
  | cons c m ih =>
    obtain ⟨k, b⟩ := c
    simp only [Memory.write]
    split
    · simp [Memory.read?]
    · split
      · simp [Memory.read?]
      · simp [Memory.read?, *]

theorem Memory.read?_write_other (m : Memory) {a x : Nat} (v : Byte) (h : x ≠ a) :
    (Memory.write m a v).read? x = m.read? x := by
  induction m with
  | nil => simp [Memory.write, Memory.read?, h]
  | cons c m ih =>
    obtain ⟨k, b⟩ := c
    simp only [Memory.write]
    split
    · simp [Memory.read?, h]
    · split
      · simp_all [Memory.read?]
      · simp [Memory.read?, ih]

theorem Memory.read?_write (m : Memory) (a x : Nat) (v : Byte) :
    (Memory.write m a v).read? x = if x = a then some v else m.read? x := by
  split
  · subst x; exact Memory.read?_write_self m a v
  · exact Memory.read?_write_other m v ‹_›

theorem Memory.mem_write {m : Memory} {a : Nat} {v : Byte} {c : Host.Cell} (h : c ∈ Memory.write m a v) :
    c = (a, v) ∨ c ∈ m := by
  induction m with
  | nil => simpa [Memory.write] using h
  | cons d m ih =>
    obtain ⟨k, b⟩ := d
    simp only [Memory.write] at h
    split at h
    · simpa using h
    · split at h
      · rcases List.mem_cons.mp h with h | h
        · exact .inl h
        · exact .inr (List.mem_cons_of_mem _ h)
      · rcases List.mem_cons.mp h with h | h
        · exact .inr (by simp [h])
        · exact (ih h).imp id (List.mem_cons_of_mem _)

/-- A write keeps the canonical form. -/
theorem Memory.write_wf {m : Memory} (hm : m.wf) (a : Nat) (v : Byte) : (Memory.write m a v).wf := by
  induction m with
  | nil => simp [Memory.wf, Memory.write]
  | cons c m ih =>
    obtain ⟨k, b⟩ := c
    have hm' := List.pairwise_cons.mp hm
    simp only [Memory.write]
    split
    · refine List.pairwise_cons.mpr ⟨?_, hm⟩
      intro y hy
      rcases List.mem_cons.mp hy with rfl | hy
      · assumption
      · have := hm'.1 y hy; simp at this ⊢; omega
    · split
      · subst a; exact List.pairwise_cons.mpr ⟨hm'.1, hm'.2⟩
      · refine List.pairwise_cons.mpr ⟨?_, ih hm'.2⟩
        intro y hy
        rcases Memory.mem_write hy with rfl | hy
        · simp; omega
        · exact hm'.1 y hy

theorem Memory.write_below {m : Memory} {n a : Nat} (hm : m.below n) (ha : a < n) (v : Byte) :
    (Memory.write m a v).below n := by
  intro x hx
  rcases Memory.mem_write hx with rfl | hx
  · exact ha
  · exact hm x hx

theorem Memory.read?_eq_none_of_lt {m : Memory} {a : Nat} (h : ∀ x ∈ m, a < x.1) : m.read? a = none := by
  induction m with
  | nil => rfl
  | cons c m ih =>
    obtain ⟨k, b⟩ := c
    have := h (k, b) (by simp)
    simp only [Memory.read?]
    rw [if_neg (by simp at this; omega), ih fun x hx => h x (by simp [hx])]

/-- Two memories in canonical form that read alike are the same data. -/
theorem Memory.eq_of_read?_eq {m n : Memory} (hm : m.wf) (hn : n.wf) (h : ∀ a, m.read? a = n.read? a) : m = n := by
  induction m generalizing n with
  | nil =>
    cases n with
    | nil => rfl
    | cons c n => obtain ⟨k, b⟩ := c; have := h k; simp [Memory.read?] at this
  | cons c m ih =>
    obtain ⟨k, b⟩ := c
    have hm' := List.pairwise_cons.mp hm
    cases n with
    | nil => have := h k; simp [Memory.read?] at this
    | cons d n =>
      obtain ⟨l, e⟩ := d
      have hn' := List.pairwise_cons.mp hn
      have hkl : k = l := by
        rcases Nat.lt_trichotomy k l with hlt | heq | hlt
        · have hk := h k
          rw [Memory.read?_eq_none_of_lt (m := (l, e) :: n) (by
            intro x hx
            rcases List.mem_cons.mp hx with rfl | hx
            · exact hlt
            · exact Nat.lt_trans hlt (hn'.1 x hx))] at hk
          simp [Memory.read?] at hk
        · exact heq
        · have hk := h l
          rw [Memory.read?_eq_none_of_lt (m := (k, b) :: m) (by
            intro x hx
            rcases List.mem_cons.mp hx with rfl | hx
            · exact hlt
            · exact Nat.lt_trans hlt (hm'.1 x hx))] at hk
          simp [Memory.read?] at hk
      subst hkl
      have hb := h k
      simp [Memory.read?] at hb
      subst hb
      congr 1
      refine ih hm'.2 hn'.2 fun a => ?_
      by_cases ha : a = k
      · subst ha; rw [Memory.read?_eq_none_of_lt hm'.1, Memory.read?_eq_none_of_lt hn'.1]
      · have := h a; simpa [Memory.read?, ha] using this

end Sys2Proof.Machine
end

