-- ==== Sys2Proof/Laws/Ops.lean ====
section
/-! SUPPORT. What each shared operation over memory and registers can do: the buffer writers and readers, the
carry-out, the two normalizers, the raw-bit window. -/

namespace Sys2Proof.Machine

/-! ### Reading BUF after a write -/

theorem State.bufByte_bufWrite (s : State) (a x : Nat) (v : Byte) :
    (s.bufWrite a v).bufByte x = if x = a then v else s.bufByte x := by
  unfold State.bufByte
  rw [State.bufWrite_buf, State.bufWrite_resets, Memory.read?_write]
  split <;> simp

/-! ### The error flag -/

theorem or_zero_word (x : Word) : x ||| 0#32 = x := by simp

theorem or_encFault (x : Word) : x ||| encFault = encFault := by
  have h : encFault = BitVec.allOnes 32 := by decide
  rw [h, BitVec.or_allOnes]

/-! ### One byte out -/

theorem State.putFront_fits {s : State} (h : s.offs.toNat + s.endOffs.toNat < s.storage.toNat) (v : Byte) :
    s.putFront v = { s with offs := s.offs + 1#32, buf := s.buf.write s.offs.toNat v } := by
  simp [State.putFront, State.writeFront, State.bufWrite, State.setError, Nat.not_le.mpr h]

theorem State.putFront_full {s : State} (h : s.storage.toNat ≤ s.offs.toNat + s.endOffs.toNat) (v : Byte) :
    s.putFront v = { s with error := encFault } := by
  simp [State.putFront, State.writeFront, State.setError, h, or_encFault]

theorem State.putBack_fits {s : State} (h : s.offs.toNat + s.endOffs.toNat < s.storage.toNat) (v : Byte) :
    s.putBack v = { s with
      endOffs := s.endOffs + 1#32, buf := s.buf.write (s.storage.toNat - (s.endOffs.toNat + 1)) v } := by
  simp [State.putBack, State.writeBack, State.bufWrite, State.setError, Nat.not_le.mpr h]

theorem State.putBack_full {s : State} (h : s.storage.toNat ≤ s.offs.toNat + s.endOffs.toNat) (v : Byte) :
    s.putBack v = { s with error := encFault } := by
  simp [State.putBack, State.writeBack, State.setError, h, or_encFault]

theorem toNat_succ {x : Word} {n : Nat} (h : x.toNat < n) (hn : n < 2 ^ 32) : (x + 1#32).toNat = x.toNat + 1 := by
  simp [BitVec.toNat_add]; omega

/-! ### What the front writers can do, once for all of them -/

/-- `t` comes from `s` by front writes, with any change of rng, val and nbits_total. -/
structure Emits (s t : State) : Prop where
  frame : t = { s with
    offs := t.offs, buf := t.buf, error := t.error, rem := t.rem, ext := t.ext
    rng := t.rng, val := t.val, nbitsTotal := t.nbitsTotal }
  grows : s.offs.toNat ≤ t.offs.toNat
  room  : s.offs.toNat + s.endOffs.toNat ≤ s.storage.toNat → t.offs.toNat + s.endOffs.toNat ≤ s.storage.toNat
  bytes : ∀ a, a < s.offs.toNat ∨ t.offs.toNat ≤ a → t.buf.read? a = s.buf.read? a
  wf    : s.buf.wf → t.buf.wf
  below : ∀ n, s.storage.toNat ≤ n → s.buf.below n → t.buf.below n
  error : t.error = s.error ∨ t.error = encFault
  full  : s.storage.toNat ≤ s.offs.toNat + s.endOffs.toNat → t.offs = s.offs ∧ t.buf = s.buf
  lost  : t.error ≠ s.error → s.storage.toNat ≤ t.offs.toNat + s.endOffs.toNat
  rem   : t.rem = s.rem ∨ t.rem.toNat ≤ 255

theorem Emits.storage {s t : State} (h : Emits s t) : t.storage = s.storage := by rw [h.frame]
theorem Emits.endOffs {s t : State} (h : Emits s t) : t.endOffs = s.endOffs := by rw [h.frame]

/-- A change of the registers alone. -/
theorem Emits.regs (s : State) {r : Word} (x g v n : Word) (hr : r = s.rem ∨ r.toNat ≤ 255) :
    Emits s { s with rem := r, ext := x, rng := g, val := v, nbitsTotal := n } :=
  ⟨rfl, Nat.le_refl _, id, fun _ _ => rfl, id, fun _ _ => id, .inl rfl, fun _ => ⟨rfl, rfl⟩,
    fun h => absurd rfl h, hr⟩

theorem Emits.refl (s : State) : Emits s s := Emits.regs s s.ext s.rng s.val s.nbitsTotal (.inl rfl)

theorem Emits.trans {s t u : State} (h : Emits s t) (k : Emits t u) : Emits s u where
  frame := by rw [k.frame, h.frame]
  grows := Nat.le_trans h.grows k.grows
  room hs := by have := k.room; rw [h.storage, h.endOffs] at this; exact this (h.room hs)
  bytes a ha := by
    have := h.grows; have := k.grows
    rw [k.bytes a (by omega), h.bytes a (by omega)]
  wf hs := k.wf (h.wf hs)
  below n hn hs := k.below n (by rw [h.storage]; exact hn) (h.below n hn hs)
  error := by
    rcases k.error with e | e
    · rw [e]; exact h.error
    · exact .inr e
  full hs := by
    have e := h.full hs
    have := k.full (by rw [h.storage, h.endOffs, e.1]; exact hs)
    exact ⟨this.1.trans e.1, this.2.trans e.2⟩
  lost hs := by
    have := k.grows
    by_cases e : t.error = s.error
    · have := k.lost (by rw [e]; exact hs); rw [h.storage, h.endOffs] at this; exact this
    · have := h.lost e; omega
  rem := by
    rcases k.rem with e | e
    · rw [e]; exact h.rem
    · exact .inr e

theorem putFront_emits (s : State) (v : Byte) : Emits s (s.putFront v) := by
  rcases Nat.lt_or_ge (s.offs.toNat + s.endOffs.toNat) s.storage.toNat with h | h
  · rw [State.putFront_fits h]
    have ho := toNat_succ (x := s.offs) (n := s.storage.toNat) (by omega) s.storage.isLt
    exact {
      frame := rfl
      grows := by simp only [ho]; omega
      room := fun _ => by simp only [ho]; omega
      bytes := fun a ha => by
        simp only [ho] at ha ⊢
        exact Memory.read?_write_other _ _ (by omega)
      wf := fun hs => Memory.write_wf hs _ _
      below := fun n hn hs => Memory.write_below hs (by omega) _
      error := .inl rfl
      full := fun hs => absurd hs (by omega)
      lost := fun hs => absurd rfl hs
      rem := .inl rfl }
  · rw [State.putFront_full h]
    exact ⟨rfl, Nat.le_refl _, id, fun _ _ => rfl, id, fun _ _ => id, .inr rfl, fun _ => ⟨rfl, rfl⟩, fun _ => h, .inl rfl⟩

theorem flushPending_emits (n : Nat) (v : Byte) (s : State) : Emits s (State.flushPending n v s) := by
  induction n generalizing s with
  | zero => exact Emits.refl s
  | succ n ih =>
    refine ((putFront_emits s v).trans ?_).trans (ih _)
    exact Emits.regs _ _ (s.putFront v).rng (s.putFront v).val (s.putFront v).nbitsTotal (.inl rfl)

theorem flushRem_emits (s : State) (carry : Word) : Emits s (s.flushRem carry) := by
  unfold State.flushRem
  split
  · exact putFront_emits s _
  · exact Emits.refl s

theorem and_symMax_le (c : Word) : (c &&& symMax).toNat ≤ 255 := by
  rw [BitVec.toNat_and]
  exact Nat.le_trans Nat.and_le_right (by decide)

/-- The state of CarryOut after its writes, before c's own byte becomes rem (R73). -/
def carryFlush (s : State) (c : Word) : State :=
  State.flushPending s.ext.toNat ((symMax + c >>> symBits).setWidth 8) (s.flushRem (c >>> symBits))

theorem carryOut_ff (s : State) : s.carryOut symMax = { s with ext := s.ext + 1#32 } := by simp [State.carryOut]

theorem carryOut_other {c : Word} (s : State) (h : c ≠ symMax) :
    s.carryOut c = { carryFlush s c with rem := c &&& symMax } := by simp [State.carryOut, carryFlush, h]

theorem carryFlush_emits (s : State) (c : Word) : Emits s (carryFlush s c) :=
  (flushRem_emits s _).trans (flushPending_emits _ _ _)

/-- CarryOut writes front bytes, rem and ext, and nothing else. -/
theorem carryOut_emits (s : State) (c : Word) : Emits s (s.carryOut c) := by
  by_cases h : c = symMax
  · subst h; rw [carryOut_ff]; exact Emits.regs s _ s.rng s.val s.nbitsTotal (.inl rfl)
  · rw [carryOut_other s h]
    refine (carryFlush_emits s c).trans ?_
    generalize carryFlush s c = t
    exact Emits.regs t t.ext t.rng t.val t.nbitsTotal (.inr (and_symMax_le c))

/-! ### The encoder's normalizer -/

theorem encPass_emits (s : State) : Emits s s.encPass := by
  refine (carryOut_emits s (s.val >>> codeShift)).trans ?_
  unfold State.encPass
  generalize s.carryOut (s.val >>> codeShift) = t
  exact Emits.regs t t.ext _ _ _ (.inl rfl)

theorem encPasses_emits (n : Nat) (s : State) : Emits s (State.encPasses n s) := by
  induction n generalizing s with
  | zero => exact Emits.refl s
  | succ n ih =>
    simp only [State.encPasses]
    split
    · exact (encPass_emits s).trans (ih _)
    · exact Emits.refl s

end Sys2Proof.Machine
end

