-- ==== Sys2Proof/Laws/Normalize.lean ====
section
/-! SUPPORT. The two normalizers in closed form (41_encoder.md R74, 42_decoder.md R103): how many passes they make,
and what the passes leave of each register. -/

namespace Sys2Proof.Machine

/-! ### Words as numbers -/

theorem toNat_and_lowMask (x : Word) : (x &&& lowMask).toNat = x.toNat % 2 ^ 31 := by
  rw [BitVec.toNat_and]
  exact Nat.and_two_pow_sub_one_eq_mod x.toNat 31

theorem toNat_and_symMax (x : Word) : (x &&& symMax).toNat = x.toNat % 2 ^ 8 := by
  rw [BitVec.toNat_and]
  exact Nat.and_two_pow_sub_one_eq_mod x.toNat 8

theorem toNat_shl8 (x : Word) : (x <<< symBits).toNat = x.toNat * 256 % 2 ^ 32 := by
  simp [BitVec.toNat_shiftLeft, Nat.shiftLeft_eq, symBits]

theorem toNat_shl8_of_le {x : Word} (h : x ≤ codeBot) : (x <<< symBits).toNat = x.toNat * 256 := by
  have : x.toNat ≤ 2 ^ 23 := h
  rw [toNat_shl8]; omega

theorem toNat_shl8_lowMask (x : Word) : ((x <<< symBits) &&& lowMask).toNat = x.toNat * 256 % 2 ^ 31 := by
  rw [toNat_and_lowMask, toNat_shl8]; omega

theorem le_codeBot_iff (x : Word) : x ≤ codeBot ↔ x.toNat ≤ 2 ^ 23 := Iff.rfl

theorem ofNat_succ_mul8 (x : Word) (k : Nat) :
    x + 8#32 + BitVec.ofNat 32 (8 * k) = x + BitVec.ofNat 32 (8 * (k + 1)) := by
  apply BitVec.eq_of_toNat_eq
  simp [BitVec.toNat_add, BitVec.toNat_ofNat]; omega

theorem pow_succ_mul8 (k : Nat) : 2 ^ (8 * (k + 1)) = 256 * 2 ^ (8 * k) := by
  rw [show 8 * (k + 1) = 8 + 8 * k by ring, Nat.pow_add]

/-- The number of passes from a width that is not 0. -/
theorem passes_of_pos {g : Nat} (h0 : 0 < g) (h : g ≤ 2 ^ 31) : ∃ k, k ≤ 3 ∧ Passes g k := by
  rcases Nat.lt_or_ge (2 ^ 23) g with h1 | h1
  · exact ⟨0, by omega, by simpa [Passes] using ⟨h1, h⟩⟩
  rcases Nat.lt_or_ge (2 ^ 15) g with h2 | h2
  · exact ⟨1, by omega, by simp [Passes]; omega⟩
  rcases Nat.lt_or_ge (2 ^ 7) g with h3 | h3
  · exact ⟨2, by omega, by simp [Passes]; omega⟩
  · exact ⟨3, by omega, by simp [Passes]; omega⟩

theorem passes_zero {g : Nat} (h : Passes g 0) : 2 ^ 23 < g := by simpa [Passes] using h.1

theorem passes_pred {g k : Nat} (h : Passes g (k + 1)) : g ≤ 2 ^ 23 ∧ Passes (g * 256) k := by
  unfold Passes at *
  rw [pow_succ_mul8, ← Nat.mul_assoc] at h
  refine ⟨?_, h⟩
  have : g * 256 ≤ g * 256 * 2 ^ (8 * k) := Nat.le_mul_of_pos_right _ (Nat.two_pow_pos _)
  omega

/-! ### EncNormalize -/

@[simp] theorem encPass_rng (s : State) : s.encPass.rng = s.rng <<< symBits := rfl
@[simp] theorem encPass_val (s : State) : s.encPass.val = (s.val <<< symBits) &&& lowMask := rfl
@[simp] theorem encPass_nbitsTotal (s : State) : s.encPass.nbitsTotal = s.nbitsTotal + 8#32 := by
  simp [State.encPass]

theorem shiftedVal_succ (v k : Nat) : shiftedVal (v * 256 % 2 ^ 31) k = shiftedVal v (k + 1) := by
  unfold shiftedVal
  rw [if_neg (Nat.succ_ne_zero k), pow_succ_mul8]
  split
  · subst k; simp
  · rw [Nat.mod_mul_mod, Nat.mul_assoc]

/-- The loop of R74 in closed form: with `k` the number of passes due, rng is moved up k bytes, val too (bits 30..0
kept), and nbits_total counts 8 bits a pass. -/
theorem encPasses_closed {n k : Nat} {s : State} (hk : k ≤ n) (h : Passes s.rng.toNat k) :
    (State.encPasses n s).rng.toNat = s.rng.toNat * 2 ^ (8 * k) ∧
    (State.encPasses n s).val.toNat = shiftedVal s.val.toNat k ∧
    (State.encPasses n s).nbitsTotal = s.nbitsTotal + BitVec.ofNat 32 (8 * k) := by
  induction k generalizing n s with
  | zero =>
    have h1 := passes_zero h
    have : State.encPasses n s = s := by
      cases n with
      | zero => rfl
      | succ n => simp only [State.encPasses, le_codeBot_iff]; rw [if_neg (by omega)]
    simp [this, shiftedVal]
  | succ k ih =>
    obtain ⟨h1, h2⟩ := passes_pred h
    obtain ⟨n, rfl⟩ : ∃ m, n = m + 1 := ⟨n - 1, by omega⟩
    have e : State.encPasses (n + 1) s = State.encPasses n s.encPass := by
      simp only [State.encPasses, le_codeBot_iff]; rw [if_pos h1]
    have r : s.encPass.rng.toNat = s.rng.toNat * 256 := toNat_shl8_of_le h1
    have := ih (n := n) (s := s.encPass) (by omega) (by rw [r]; exact h2)
    rw [e]
    refine ⟨?_, ?_, ?_⟩
    · rw [this.1, r, pow_succ_mul8, Nat.mul_assoc]
    · rw [this.2.1, encPass_val, toNat_shl8_lowMask, shiftedVal_succ]
    · rw [this.2.2, encPass_nbitsTotal, ofNat_succ_mul8]

/-- What EncNormalize can do (R74), from any state whose rng is not 0 and at most CODE_TOP. -/
theorem encNormalize_ok {s : State} (h0 : 0 < s.rng.toNat) (h : s.rng.toNat ≤ 2 ^ 31) :
    ∃ t k, s.encNormalize = .ok t ∧ k ≤ 3 ∧ Passes s.rng.toNat k ∧ Emits s t ∧
      t.rng.toNat = s.rng.toNat * 2 ^ (8 * k) ∧ t.val.toNat = shiftedVal s.val.toNat k ∧
      t.nbitsTotal = s.nbitsTotal + BitVec.ofNat 32 (8 * k) := by
  obtain ⟨k, hk, hp⟩ := passes_of_pos h0 h
  refine ⟨State.encPasses 3 s, k, ?_, hk, hp, encPasses_emits 3 s, encPasses_closed hk hp⟩
  have : s.rng ≠ 0#32 := by intro e; simp [e] at h0
  simp [State.encNormalize, this]

/-! ### DecNormalize -/

/-- `t` comes from `s` by front reads, with any change of rng, val, rem and nbits_total. -/
structure Reads (s t : State) : Prop where
  frame : t = { s with offs := t.offs, rng := t.rng, val := t.val, rem := t.rem, nbitsTotal := t.nbitsTotal }
  front : s.offs.toNat ≤ s.storage.toNat → t.offs.toNat ≤ s.storage.toNat

theorem readFront_byte (s : State) : s.readFront.1.toNat = s.frontByte 0 := by
  unfold State.readFront State.frontByte
  split <;> simp_all

theorem readFront_offs {s : State} (h : s.offs.toNat ≤ s.storage.toNat) :
    s.readFront.2 = { s with offs := s.readFront.2.offs } ∧
    s.readFront.2.offs.toNat = min (s.offs.toNat + 1) s.storage.toNat := by
  unfold State.readFront
  split
  · refine ⟨rfl, ?_⟩
    have := toNat_succ (x := s.offs) (n := s.storage.toNat) (by omega) s.storage.isLt
    simp only [this]; omega
  · refine ⟨rfl, ?_⟩
    simp only; omega

theorem readFront_frame (s : State) : s.readFront.2 = { s with offs := s.readFront.2.offs } := by
  unfold State.readFront; split <;> rfl

theorem decPass_eq (s : State) : s.decPass = { s with
    offs := s.decPass.offs, rng := s.decPass.rng, val := s.decPass.val, rem := s.decPass.rem
    nbitsTotal := s.decPass.nbitsTotal } := by
  have h := readFront_frame s
  unfold State.decPass
  generalize s.readFront.1 = b at *
  generalize s.readFront.2 = t at *
  rw [h]

@[simp] theorem decPass_rng (s : State) : s.decPass.rng = s.rng <<< symBits := rfl
@[simp] theorem decPass_nbitsTotal (s : State) : s.decPass.nbitsTotal = s.nbitsTotal + 8#32 := rfl
theorem decPass_offs (s : State) : s.decPass.offs = s.readFront.2.offs := rfl

theorem decPass_rem (s : State) : s.decPass.rem.toNat = s.frontByte 0 := by
  have : s.decPass.rem.toNat = s.readFront.1.toNat := by
    simp [State.decPass, BitVec.toNat_setWidth]; have := s.readFront.1.isLt; omega
  rw [this, readFront_byte]

theorem frontByte_lt (s : State) (k : Nat) : s.frontByte k < 256 := by
  unfold State.frontByte; split
  · exact (s.bufByte _).isLt
  · omega

theorem toNat_fold (r : Word) (b : Byte) :
    (symMax &&& ~~~(((r <<< symBits) ||| b.setWidth 32) >>> (symBits - codeExtra))).toNat =
      255 - (r.toNat % 2 * 256 + b.toNat) / 2 := by
  have hb := b.isLt
  have hr := r.isLt
  have e : ((r <<< symBits) ||| b.setWidth 32).toNat = r.toNat % 2 ^ 24 * 256 + b.toNat := by
    rw [BitVec.toNat_or, BitVec.toNat_setWidth, toNat_shl8]
    rw [show r.toNat * 256 % 2 ^ 32 = r.toNat % 2 ^ 24 * 2 ^ 8 by omega, Nat.mod_eq_of_lt (a := b.toNat) (by omega)]
    rw [Nat.mul_comm, ← Nat.two_pow_add_eq_or_of_lt hb]
    omega
  rw [BitVec.and_comm, toNat_and_symMax, BitVec.toNat_not, BitVec.toNat_ushiftRight, e]
  simp only [symBits, codeExtra, Nat.shiftRight_eq_div_pow]
  omega

theorem decPass_val (s : State) :
    s.decPass.val.toNat = (s.val.toNat * 256 + (255 - (s.rem.toNat % 2 * 256 + s.frontByte 0) / 2)) % 2 ^ 31 := by
  have : s.decPass.val.toNat = (((s.val <<< symBits) +
      (symMax &&& ~~~(((s.rem <<< symBits) ||| s.readFront.1.setWidth 32) >>> (symBits - codeExtra)))) &&& lowMask).toNat := rfl
  rw [this, toNat_and_lowMask, BitVec.toNat_add, toNat_shl8, toNat_fold, readFront_byte]
  omega

theorem frontByte_succ {s t : State} (hb : t.buf = s.buf) (hr : t.resets = s.resets) (hst : t.storage = s.storage)
    (ho : s.offs.toNat ≤ s.storage.toNat) (h : t.offs.toNat = min (s.offs.toNat + 1) s.storage.toNat) (k : Nat) :
    t.frontByte k = s.frontByte (k + 1) := by
  unfold State.frontByte
  rw [hst, h]
  by_cases hc : s.offs.toNat + (k + 1) < s.storage.toNat
  · rw [if_pos hc, if_pos (by omega), show min (s.offs.toNat + 1) s.storage.toNat + k = s.offs.toNat + (k + 1) by omega]
    simp [State.bufByte, hb, hr]
  · rw [if_neg hc, if_neg (by omega)]

theorem frontNumber_lt (s : State) (k : Nat) : s.frontNumber k < 2 ^ (8 * k) := by
  induction k with
  | zero => simp [State.frontNumber]
  | succ k ih => have := frontByte_lt s k; rw [pow_succ_mul8]; simp only [State.frontNumber]; omega

theorem frontNumber_succ_left {s t : State} (h : ∀ k, t.frontByte k = s.frontByte (k + 1)) (k : Nat) :
    s.frontNumber (k + 1) = s.frontByte 0 * 2 ^ (8 * k) + t.frontNumber k := by
  induction k with
  | zero => simp [State.frontNumber]
  | succ k ih =>
    rw [State.frontNumber, ih]
    simp only [State.frontNumber]
    rw [h k, pow_succ_mul8]; ring

theorem refilledVal_step {v r b f p : Nat} (hb : b < 256) (hf : f < p) (hp : 0 < p) :
    ((v * 256 + (255 - (r % 2 * 256 + b) / 2)) % 2 ^ 31 * p + (p - 1 - (b % 2 * p + f) / 2)) % 2 ^ 31 =
    (v * (256 * p) + (256 * p - 1 - (r % 2 * (256 * p) + (b * p + f)) / 2)) % 2 ^ 31 := by
  rw [Nat.add_mod, Nat.mod_mul_mod, ← Nat.add_mod]
  congr 1
  set q := (r % 2 * 256 + b) / 2 with hq
  have hq' : r % 2 * 256 + b = 2 * q + b % 2 := by omega
  have hq255 : q ≤ 255 := by omega
  have e : (r % 2 * (256 * p) + (b * p + f)) / 2 = q * p + (b % 2 * p + f) / 2 := by
    have : r % 2 * (256 * p) + (b * p + f) = 2 * (q * p) + (b % 2 * p + f) := by
      have := congrArg (· * p) hq'
      simp only [Nat.add_mul] at this
      nlinarith
    rw [this]; omega
  rw [e]
  have h1 : (b % 2 * p + f) / 2 ≤ p - 1 := by
    have : b % 2 * p ≤ p := by rcases Nat.mod_two_eq_zero_or_one b with h | h <;> simp [h]
    omega
  have h2 : q * p ≤ 255 * p := Nat.mul_le_mul_right p hq255
  have h3 : (255 - q) * p = 255 * p - q * p := Nat.sub_mul 255 q p
  rw [Nat.add_mul, h3]
  have : v * 256 * p = v * (256 * p) := by ring
  omega

/-- The loop of R103 in closed form. -/
theorem decPasses_closed {n k : Nat} {s : State} (hk : k ≤ n) (h : Passes s.rng.toNat k)
    (ho : s.offs.toNat ≤ s.storage.toNat) :
    (State.decPasses n s).rng.toNat = s.rng.toNat * 2 ^ (8 * k) ∧
    (State.decPasses n s).val.toNat = refilledVal s s.val.toNat k ∧
    (State.decPasses n s).nbitsTotal = s.nbitsTotal + BitVec.ofNat 32 (8 * k) ∧
    (State.decPasses n s).offs.toNat = min (s.offs.toNat + k) s.storage.toNat ∧
    (State.decPasses n s).rem.toNat = (if k = 0 then s.rem.toNat else s.frontByte (k - 1)) ∧
    Reads s (State.decPasses n s) := by
  induction k generalizing n s with
  | zero =>
    have h1 := passes_zero h
    have : State.decPasses n s = s := by
      cases n with
      | zero => rfl
      | succ n => simp only [State.decPasses, le_codeBot_iff]; rw [if_neg (by omega)]
    rw [this]
    exact ⟨by simp, by simp, by simp, by omega, by simp, ⟨rfl, id⟩⟩
  | succ k ih =>
    obtain ⟨h1, h2⟩ := passes_pred h
    obtain ⟨n, rfl⟩ : ∃ m, n = m + 1 := ⟨n - 1, by omega⟩
    have e : State.decPasses (n + 1) s = State.decPasses n s.decPass := by
      simp only [State.decPasses, le_codeBot_iff]; rw [if_pos h1]
    have r : s.decPass.rng.toNat = s.rng.toNat * 256 := toNat_shl8_of_le h1
    have hf := decPass_eq s
    have hst : s.decPass.storage = s.storage := by rw [hf]
    have hoff : s.decPass.offs.toNat = min (s.offs.toNat + 1) s.storage.toNat := (readFront_offs ho).2
    have hfb := frontByte_succ (t := s.decPass) (by rw [hf]) (by rw [hf]) hst ho hoff
    obtain ⟨i1, i2, i3, i4, i5, i6⟩ := ih (n := n) (s := s.decPass) (by omega) (by rw [r]; exact h2)
      (by rw [hst]; omega)
    rw [e]
    refine ⟨?_, ?_, ?_, ?_, ?_, ?_, ?_⟩
    · rw [i1, r, pow_succ_mul8, Nat.mul_assoc]
    · rw [i2]
      unfold refilledVal
      rw [if_neg (Nat.succ_ne_zero k), frontNumber_succ_left hfb, pow_succ_mul8, decPass_rem, decPass_val]
      have hb := frontByte_lt s 0
      split
      · subst k; simp [State.frontNumber]
      · exact refilledVal_step hb (frontNumber_lt _ k) (Nat.two_pow_pos _)
    · rw [i3, decPass_nbitsTotal, ofNat_succ_mul8]
    · rw [i4, hst, hoff]; omega
    · rw [i5, if_neg (Nat.succ_ne_zero k), Nat.add_sub_cancel]
      split
      · subst k; exact decPass_rem s
      · rw [hfb]; congr 1; omega
    · rw [i6.frame, hf]
    · intro _; rw [i4, hst]; omega

/-- What DecNormalize can do (R103), from any state whose rng is not 0 and at most CODE_TOP. -/
theorem decNormalize_ok {s : State} (h0 : 0 < s.rng.toNat) (h : s.rng.toNat ≤ 2 ^ 31)
    (ho : s.offs.toNat ≤ s.storage.toNat) :
    ∃ t k, s.decNormalize = .ok t ∧ k ≤ 3 ∧ Passes s.rng.toNat k ∧ Reads s t ∧
      t.rng.toNat = s.rng.toNat * 2 ^ (8 * k) ∧ t.val.toNat = refilledVal s s.val.toNat k ∧
      t.nbitsTotal = s.nbitsTotal + BitVec.ofNat 32 (8 * k) ∧
      t.offs.toNat = min (s.offs.toNat + k) s.storage.toNat ∧
      t.rem.toNat = (if k = 0 then s.rem.toNat else s.frontByte (k - 1)) := by
  obtain ⟨k, hk, hp⟩ := passes_of_pos h0 h
  obtain ⟨i1, i2, i3, i4, i5, i6⟩ := decPasses_closed hk hp ho
  refine ⟨State.decPasses 3 s, k, ?_, hk, hp, i6, i1, i2, i3, i4, i5⟩
  have : s.rng ≠ 0#32 := by intro e; simp [e] at h0
  simp [State.decNormalize, this]

end Sys2Proof.Machine
end

