-- ==== Sys2Proof/Laws/Window.lean ====
section
/-! SUPPORT. What the raw-bit window's two loops (41_encoder.md R80, R83; 42_decoder.md R110), the writer of a run of
bytes (R82, R83) and the table walk (20_memory.md R32) can do, once each. -/

namespace Sys2Proof.Machine

/-! ### A run of bytes -/

/-- A run of writes touches BUF only. -/
theorem bufWriteAll_frame (vs : List Byte) (s : State) (a : Nat) :
    s.bufWriteAll a vs = { s with buf := (s.bufWriteAll a vs).buf } := by
  induction vs generalizing s a with
  | nil => rfl
  | cons v vs ih => simp only [State.bufWriteAll]; rw [ih]; rfl

/-- What BUF reads as after a run of writes. -/
theorem bufByte_bufWriteAll (vs : List Byte) (s : State) (a x : Nat) :
    (s.bufWriteAll a vs).bufByte x =
      if a ≤ x ∧ x < a + vs.length then vs.getD (x - a) 0#8 else s.bufByte x := by
  induction vs generalizing s a with
  | nil => rw [if_neg (by simp)]; rfl
  | cons v vs ih =>
    rw [State.bufWriteAll, ih, State.bufByte_bufWrite]
    simp only [List.length_cons]
    rcases Nat.lt_trichotomy x a with h | h | h
    · rw [if_neg (by omega), if_neg (by omega), if_neg (by omega)]
    · subst h; rw [if_neg (by omega), if_pos rfl, if_pos (by omega), Nat.sub_self]; rfl
    · obtain ⟨d, rfl⟩ : ∃ d, x = a + 1 + d := ⟨x - (a + 1), by omega⟩
      rw [show a + 1 + d - a = d + 1 by omega, Nat.add_sub_cancel_left, List.getD_cons_succ]
      by_cases hd : d < vs.length
      · rw [if_pos (by omega), if_pos (by omega)]
      · rw [if_neg (by omega), if_neg (by omega), if_neg (by omega)]

theorem bufWriteAll_wf (vs : List Byte) {s : State} (h : s.buf.wf) (a : Nat) : (s.bufWriteAll a vs).buf.wf := by
  induction vs generalizing s a with
  | nil => exact h
  | cons v vs ih => exact ih (Memory.write_wf h a v) _

theorem bufWriteAll_below (vs : List Byte) {s : State} {n : Nat} (h : s.buf.below n) {a : Nat}
    (ha : a + vs.length ≤ n) : (s.bufWriteAll a vs).buf.below n := by
  induction vs generalizing s a with
  | nil => exact h
  | cons v vs ih =>
    simp only [List.length_cons] at ha
    exact ih (Memory.write_below h (by omega) v) (by omega)

/-! ### Back writes -/

/-- `t` comes from `s` by back writes. -/
structure Backs (s t : State) : Prop where
  frame : t = { s with endOffs := t.endOffs, buf := t.buf, error := t.error }
  grows : s.endOffs.toNat ≤ t.endOffs.toNat
  room  : s.offs.toNat + s.endOffs.toNat ≤ s.storage.toNat → s.offs.toNat + t.endOffs.toNat ≤ s.storage.toNat
  bytes : ∀ a, a < s.storage.toNat - t.endOffs.toNat ∨ s.storage.toNat - s.endOffs.toNat ≤ a →
    t.buf.read? a = s.buf.read? a
  wf    : s.buf.wf → t.buf.wf
  below : ∀ n, s.storage.toNat ≤ n → s.buf.below n → t.buf.below n
  error : t.error = s.error ∨ t.error = encFault
  full  : s.storage.toNat ≤ s.offs.toNat + s.endOffs.toNat → t.endOffs = s.endOffs ∧ t.buf = s.buf
  lost  : t.error ≠ s.error → s.storage.toNat ≤ s.offs.toNat + t.endOffs.toNat

theorem Backs.refl (s : State) : Backs s s :=
  ⟨rfl, Nat.le_refl _, id, fun _ _ => rfl, id, fun _ _ => id, .inl rfl, fun _ => ⟨rfl, rfl⟩, fun h => absurd rfl h⟩

theorem Backs.storage {s t : State} (h : Backs s t) : t.storage = s.storage := by rw [h.frame]
theorem Backs.offs {s t : State} (h : Backs s t) : t.offs = s.offs := by rw [h.frame]

theorem Backs.trans {s t u : State} (h : Backs s t) (k : Backs t u) : Backs s u where
  frame := by rw [k.frame, h.frame]
  grows := Nat.le_trans h.grows k.grows
  room hs := by have := k.room; rw [h.storage, h.offs] at this; exact this (h.room hs)
  bytes a ha := by
    have := h.grows; have := k.grows; have kb := k.bytes a
    rw [h.storage] at kb
    rw [kb (by omega), h.bytes a (by omega)]
  wf hs := k.wf (h.wf hs)
  below n hn hs := k.below n (by rw [h.storage]; exact hn) (h.below n hn hs)
  error := by
    rcases k.error with e | e
    · rw [e]; exact h.error
    · exact .inr e
  full hs := by
    have e := h.full hs
    have := k.full (by rw [h.storage, h.offs, e.1]; exact hs)
    exact ⟨this.1.trans e.1, this.2.trans e.2⟩
  lost hs := by
    have := k.grows
    by_cases e : t.error = s.error
    · have := k.lost (by rw [e]; exact hs); rw [h.storage, h.offs] at this; exact this
    · have := h.lost e; omega

theorem putBack_backs (s : State) (v : Byte) : Backs s (s.putBack v) := by
  rcases Nat.lt_or_ge (s.offs.toNat + s.endOffs.toNat) s.storage.toNat with h | h
  · rw [State.putBack_fits h]
    have ho := toNat_succ (x := s.endOffs) (n := s.storage.toNat) (by omega) s.storage.isLt
    exact {
      frame := rfl
      grows := by simp only [ho]; omega
      room := fun _ => by simp only [ho]; omega
      bytes := fun a ha => by
        simp only [ho] at ha ⊢
        exact Memory.read?_write_other _ _ (by omega)
      wf := fun hs => Memory.write_wf hs _ _
      below := fun n hn hs => Memory.write_below hs (by omega) _
      error := .inl rfl
      full := fun hs => absurd hs (by omega)
      lost := fun hs => absurd rfl hs }
  · rw [State.putBack_full h]
    exact ⟨rfl, Nat.le_refl _, id, fun _ _ => rfl, id, fun _ _ => id, .inr rfl, fun _ => ⟨rfl, rfl⟩, fun _ => h⟩

/-! ### The encoder's window -/

theorem flushWindow_backs (n : Nat) (w : Window) (s : State) : Backs s (State.flushWindow n w s).2 := by
  induction n generalizing w s with
  | zero => exact Backs.refl s
  | succ n ih =>
    simp only [State.flushWindow]
    split
    · exact (putBack_backs s _).trans (ih _ _)
    · exact Backs.refl s

/-- The window after its whole bytes have gone: m = count / 8 of them, when the loop is allowed that many. -/
theorem flushWindow_window {n : Nat} {w : Window} (h : w.count / 8 ≤ n) (s : State) :
    (State.flushWindow n w s).1.count = w.count % 8 ∧
    (State.flushWindow n w s).1.bits.toNat = w.bits.toNat / 2 ^ (8 * (w.count / 8)) := by
  induction n generalizing w s with
  | zero =>
    have : w.count / 8 = 0 := by omega
    simp only [State.flushWindow, this]
    exact ⟨by omega, by simp⟩
  | succ n ih =>
    simp only [State.flushWindow, symBits]
    split
    · have := ih (w := { bits := w.bits >>> 8, count := w.count - 8 }) (by simp only; omega)
        (s.putBack ((w.bits &&& symMax).setWidth 8))
      simp only at this
      refine ⟨by rw [this.1]; omega, ?_⟩
      rw [this.2, BitVec.toNat_ushiftRight, Nat.shiftRight_eq_div_pow, Nat.div_div_eq_div_mul, ← Nat.pow_add]
      congr 2; omega
    · have : w.count / 8 = 0 := by omega
      rw [this]
      exact ⟨by simp only; omega, by simp⟩

/-! ### The decoder's window -/

/-- `t` comes from `s` by back reads. -/
structure ReadsBack (s t : State) : Prop where
  frame : t = { s with endOffs := t.endOffs }
  back  : s.endOffs.toNat ≤ s.storage.toNat → t.endOffs.toNat ≤ s.storage.toNat

theorem readBack_frame (s : State) : s.readBack.2 = { s with endOffs := s.readBack.2.endOffs } := by
  unfold State.readBack; split <;> rfl

theorem readBack_byte (s : State) : s.readBack.1.toNat = s.backByte 0 := by
  unfold State.readBack State.backByte
  split <;> simp_all [Nat.sub_sub]

theorem readBack_endOffs {s : State} (h : s.endOffs.toNat ≤ s.storage.toNat) :
    s.readBack.2.endOffs.toNat = min (s.endOffs.toNat + 1) s.storage.toNat := by
  unfold State.readBack
  split
  · have := toNat_succ (x := s.endOffs) (n := s.storage.toNat) (by omega) s.storage.isLt
    simp only [this]; omega
  · simp only; omega

theorem refillWindow_reads (n : Nat) (w : Window) (s : State) : ReadsBack s (State.refillWindow n w s).2 := by
  induction n generalizing w s with
  | zero => exact ⟨rfl, id⟩
  | succ n ih =>
    simp only [State.refillWindow]
    split
    · have i := ih { bits := w.bits ||| (s.readBack.1.setWidth 32 <<< w.count), count := w.count + symBits } s.readBack.2
      have f := readBack_frame s
      refine ⟨by rw [i.frame, f], fun h => ?_⟩
      have hb := readBack_endOffs h
      have st : s.readBack.2.storage = s.storage := by rw [f]
      have := i.back (by rw [st, hb]; omega)
      rw [st] at this; exact this
    · exact ⟨rfl, id⟩

/-- The bits valid after a refill: whole bytes are added while at most 24 are valid. -/
theorem refillWindow_count {n : Nat} {w : Window} (h : (32 - w.count) / 8 ≤ n) (hw : w.count ≤ 32) (s : State) :
    (State.refillWindow n w s).1.count = w.count + 8 * ((32 - w.count) / 8) := by
  induction n generalizing w s with
  | zero => simp only [State.refillWindow]; omega
  | succ n ih =>
    simp only [State.refillWindow, windowSize, symBits]
    split
    · rw [ih (by simp only; omega) (by simp only; omega)]; simp only; omega
    · simp only; omega

/-! ### The table walk -/

/-- The walk of R32 reads its entries only: it does not see PROBE, RESULT or any coder register. -/
theorem tableFrom_congr {s t : State} (hp : t.params = s.params) (hb : ∀ a, t.tblByte a = s.tblByte a) (n a prev : Nat) :
    t.tableFrom n a prev = s.tableFrom n a prev := by
  induction n generalizing a prev with
  | zero => rfl
  | succ n ih => simp only [State.tableFrom, hp, hb, ih]

/-- A table the walk accepts has at least one entry, lies in TBL, and starts below its bound. -/
theorem tableFrom_some {s : State} {n a prev m : Nat} (h : s.tableFrom n a prev = some m) :
    0 < m ∧ a < s.params.tblSize ∧ (s.tblByte a).toNat < prev := by
  cases n with
  | zero => simp [State.tableFrom] at h
  | succ n =>
    simp only [State.tableFrom] at h
    split at h
    · cases h
    · split at h
      · cases h
      · refine ⟨?_, by omega, by omega⟩
        split at h
        · injection h; omega
        · obtain ⟨k, -, hk⟩ := Option.map_eq_some_iff.mp h; omega

end Sys2Proof.Machine
end

