-- ==== Sys2Proof/Laws/Finish.lean ====
section
/-! SUPPORT. What the steps of ENC_DONE (41_encoder.md R83) and the probe of the decoder (42_decoder.md R104, R105) can
do, once each. -/

namespace Sys2Proof.Machine

/-! ### ENC_DONE -/

theorem emitCode_emits (n : Nat) (l : Int) (e : Word) (s : State) : Emits s (State.emitCode n l e s).2 := by
  induction n generalizing l e s with
  | zero => exact Emits.refl s
  | succ n ih =>
    simp only [State.emitCode]
    split
    · exact (carryOut_emits s _).trans (ih _ _ _)
    · exact Emits.refl s

theorem flushCarry_emits (s : State) : Emits s s.flushCarry := by
  unfold State.flushCarry
  split
  · exact carryOut_emits s _
  · exact Emits.refl s

theorem zeroGap_frame (s : State) : s.zeroGap = { s with buf := s.zeroGap.buf } := bufWriteAll_frame _ _ _

/-- The zero fill: the bytes between the cursors read 0, and every other byte reads as before. -/
theorem zeroGap_bufByte (s : State) (x : Nat) :
    s.zeroGap.bufByte x =
      if s.offs.toNat ≤ x ∧ x < s.storage.toNat - s.endOffs.toNat then 0#8 else s.bufByte x := by
  unfold State.zeroGap
  rw [bufByte_bufWriteAll, List.length_replicate]
  by_cases h : s.offs.toNat ≤ x ∧ x < s.storage.toNat - s.endOffs.toNat
  · rw [if_pos (by omega), if_pos h]
    simp only [List.getD_eq_getElem?_getD, List.getElem?_replicate]
    rw [if_pos (by omega)]; rfl
  · rw [if_neg (by omega), if_neg h]

theorem mergeByte_frame (s : State) (b : Word) : s.mergeByte b = { s with buf := (s.mergeByte b).buf } := rfl

/-- The merge changes BUF and error only. -/
theorem mergeLeftover_frame (s : State) (w : Window) (free : Nat) :
    s.mergeLeftover w free = { s with buf := (s.mergeLeftover w free).buf, error := (s.mergeLeftover w free).error } := by
  unfold State.mergeLeftover
  split
  · rfl
  · split
    · rfl
    · split <;> rfl

/-- Of BUF the merge changes one byte: the one just before the raw bytes. -/
theorem mergeLeftover_bufByte (s : State) (w : Window) (free : Nat) {x : Nat}
    (h : x + 1 ≠ s.storage.toNat - s.endOffs.toNat) : (s.mergeLeftover w free).bufByte x = s.bufByte x := by
  unfold State.mergeLeftover
  split
  · rfl
  · split
    · rfl
    · split
      · unfold State.mergeByte
        rw [State.bufByte_bufWrite, if_neg (by simp only [State.forceError_storage, State.forceError_endOffs]; omega)]
        rfl
      · unfold State.mergeByte
        rw [State.bufByte_bufWrite, if_neg (by omega)]

/-- The error after a merge: as before, or -1 (EC4, EC5). -/
theorem mergeLeftover_error (s : State) (w : Window) (free : Nat) :
    (s.mergeLeftover w free).error = s.error ∨ (s.mergeLeftover w free).error = encFault := by
  unfold State.mergeLeftover
  split
  · exact .inl rfl
  · split
    · exact .inr rfl
    · split
      · exact .inr rfl
      · exact .inl rfl

/-! ### The code value of step 1 -/

/-- The mask of R83 after l bits is 2^(31 - l) - 1. -/
theorem toNat_doneMask {l : Nat} (h : l ≤ 31) : (lowMask >>> l).toNat = 2 ^ (31 - l) - 1 := by
  interval_cases l <;> rfl

/-- Clearing the low bits of a word rounds it down to a multiple of their block. -/
theorem toNat_and_not_mask (x : Word) {l : Nat} (h : l ≤ 31) :
    (x &&& ~~~(lowMask >>> l)).toNat = x.toNat / 2 ^ (31 - l) * 2 ^ (31 - l) := by
  apply Nat.eq_of_testBit_eq
  intro i
  have hx := x.isLt
  rw [BitVec.toNat_and, Nat.testBit_and, BitVec.testBit_toNat, BitVec.testBit_toNat, BitVec.getLsbD_not,
    ← BitVec.testBit_toNat, ← BitVec.testBit_toNat, toNat_doneMask h, Nat.testBit_two_pow_sub_one,
    Nat.mul_comm, Nat.testBit_two_pow_mul, Nat.testBit_div_two_pow]
  by_cases h1 : 31 - l ≤ i
  · have e' : i - (31 - l) + (31 - l) = i := by omega
    by_cases h2 : i < 32
    · simp [h1, h2, e']
    · have : x.toNat.testBit i = false := Nat.testBit_lt_two_pow (Nat.lt_of_lt_of_le hx (Nat.pow_le_pow_right (by omega) (by omega)))
      simp [h1, h2, e', this]
  · simp [h1]; omega

/-- Setting them adds the block less one. -/
theorem toNat_or_mask (x : Word) {l : Nat} (h : l ≤ 31) :
    ((x &&& ~~~(lowMask >>> l)) ||| (lowMask >>> l)).toNat = x.toNat / 2 ^ (31 - l) * 2 ^ (31 - l) + (2 ^ (31 - l) - 1) := by
  rw [BitVec.toNat_or, toNat_and_not_mask x h, toNat_doneMask h, Nat.mul_comm,
    Nat.two_pow_add_eq_or_of_lt (Nat.sub_lt (Nat.two_pow_pos _) (by omega))]

/-- The code value of the claims is the one the meaning computes (step 1 of R83). -/
theorem doneCode_eq {s : State} (h : s.rngOk) : s.doneCode = (s.codeValue.1, s.codeValue.2.toNat) := by
  have hl : 24 ≤ ilog s.rng := by
    have h0 : s.rng ≠ 0#32 := by intro e; rw [State.rngOk, e] at h; simp at h
    have : 23 ≤ Nat.log2 s.rng.toNat := (Nat.le_log2 (by omega)).mpr (by omega)
    simp only [ilog, if_neg h0]; omega
  obtain ⟨l, hl'⟩ : ∃ l, l = 32 - ilog s.rng := ⟨_, rfl⟩
  have h8 : l ≤ 8 := by omega
  have hm (k : Nat) (hk : k ≤ 31) : (s.val + lowMask >>> k).toNat = (s.val.toNat + 2 ^ (31 - k) - 1) % 2 ^ 32 := by
    rw [BitVec.toNat_add, toNat_doneMask hk, Nat.add_sub_assoc (Nat.two_pow_pos _)]
  have hs : lowMask >>> l >>> 1 = lowMask >>> (l + 1) := by rw [BitVec.shiftRight_add]
  have hp := Nat.two_pow_pos (31 - l)
  simp only [State.doneCode, State.codeValue, codeBits, ← hl', hs]
  rw [toNat_or_mask _ (by omega), hm l (by omega)]
  by_cases hc : s.val.toNat + s.rng.toNat < (s.val.toNat + 2 ^ (31 - l) - 1) % 2 ^ 32 / 2 ^ (31 - l) * 2 ^ (31 - l) + 2 ^ (31 - l)
  · rw [if_pos hc, if_pos (by omega), toNat_and_not_mask _ (by omega), hm (l + 1) (by omega)]
  · rw [if_neg hc, if_neg (by omega), toNat_and_not_mask _ (by omega), hm l (by omega)]
/-! ### The probe -/

/-- A probe whose divisor is not 0 writes ext, RESULT and PROBE only. -/
theorem probeWith_ok {s : State} {e : Word} (h : e ≠ 0#32) (n : Nat) :
    s.probeWith e n = .ok { s with ext := e, result := BitVec.ofNat 32 (scaledValue s.val e n), probe := some n } := by
  simp [State.probeWith, h]

/-- The quotient of a probe is at least 2^7 (R112). -/
theorem quotient_ge {g n : Nat} (hg : 2 ^ 23 < g) (h0 : 0 < n) (hn : n ≤ 65536) : 2 ^ 7 ≤ g / n := by
  rw [Nat.le_div_iff_mul_le h0]; omega

end Sys2Proof.Machine
end

