-- ==== Sys2Proof/Laws/PerInstr.lean ====
section
/-! SUPPORT. Statements about every command as syntax, one lemma per constructor. `FixedBits`: the two fixed fields of
a command's packet (30_encoding.md R50, R52): OP in bits 7:0 and RSV = 0 in bits 15:8. -/

namespace Sys2Proof.Laws

/-- The low half of W0 is OP under an RSV of 0, whatever the other fields hold. -/
theorem packet_fixedBits (op : BitVec 8) (t : TblAddr) (a b c : Word) :
    (packet op t a b c).extractLsb' 0 16 = 0#8 ++ op := by
  apply BitVec.eq_of_getLsbD_eq
  intro i hi
  simp only [packet, BitVec.getLsbD_extractLsb', BitVec.getLsbD_append]
  grind

/-- Every field of a packet is where R50 puts it. -/
theorem packet_fields (op : BitVec 8) (t : TblAddr) (a b c : Word) :
    (packet op t a b c).op = op ∧ (packet op t a b c).rsv = 0#8 ∧ (packet op t a b c).t = t ∧
    (packet op t a b c).a = a ∧ (packet op t a b c).b = b ∧ (packet op t a b c).c = c := by
  refine ⟨?_, ?_, ?_, ?_, ?_, ?_⟩ <;>
  · apply BitVec.eq_of_getLsbD_eq
    intro i hi
    simp [packet, Packet.op, Packet.rsv, Packet.t, Packet.a, Packet.b, Packet.c]
    try grind

namespace FixedBits

/-- The fixed bits of the packet are those of the command's row. -/
def Statement (i : Instr) : Prop := (encode i).extractLsb' 0 16 = 0#8 ++ opcode i

theorem encInit (size : Word) : Statement (.encInit size) := packet_fixedBits _ _ _ _ _
theorem encode (fl fh ft : Word) : Statement (.encode fl fh ft) := packet_fixedBits _ _ _ _ _
theorem encodeBin (fl fh bits : Word) : Statement (.encodeBin fl fh bits) := packet_fixedBits _ _ _ _ _
theorem encBitLogp (bit logp : Word) : Statement (.encBitLogp bit logp) := packet_fixedBits _ _ _ _ _
theorem encIcdf (sym ftb : Word) (table : TblAddr) : Statement (.encIcdf sym ftb table) := packet_fixedBits _ _ _ _ _
theorem encUint (value total : Word) : Statement (.encUint value total) := packet_fixedBits _ _ _ _ _
theorem encBits (value nbits : Word) : Statement (.encBits value nbits) := packet_fixedBits _ _ _ _ _
theorem encPatch (value nbits : Word) : Statement (.encPatch value nbits) := packet_fixedBits _ _ _ _ _
theorem encShrink (size : Word) : Statement (.encShrink size) := packet_fixedBits _ _ _ _ _
theorem encDone : Statement .encDone := packet_fixedBits _ _ _ _ _
theorem decInit (size : Word) : Statement (.decInit size) := packet_fixedBits _ _ _ _ _
theorem decode (ft : Word) : Statement (.decode ft) := packet_fixedBits _ _ _ _ _
theorem decodeBin (bits : Word) : Statement (.decodeBin bits) := packet_fixedBits _ _ _ _ _
theorem decUpdate (fl fh ft : Word) : Statement (.decUpdate fl fh ft) := packet_fixedBits _ _ _ _ _
theorem decBitLogp (logp : Word) : Statement (.decBitLogp logp) := packet_fixedBits _ _ _ _ _
theorem decIcdf (ftb : Word) (table : TblAddr) : Statement (.decIcdf ftb table) := packet_fixedBits _ _ _ _ _
theorem decUint (total : Word) : Statement (.decUint total) := packet_fixedBits _ _ _ _ _
theorem decBits (nbits : Word) : Statement (.decBits nbits) := packet_fixedBits _ _ _ _ _
theorem tell : Statement .tell := packet_fixedBits _ _ _ _ _
theorem tellFrac : Statement .tellFrac := packet_fixedBits _ _ _ _ _
theorem release : Statement .release := packet_fixedBits _ _ _ _ _

end FixedBits

end Sys2Proof.Laws
end

