-- ==== Sys2Proof/Tests/Slice0.lean ====
section
/-! SUPPORT. Small tests. Expected values come from spec/95_test_vectors.md (the row is named at each) or from
30_encoding.md; the last part shows, for each statement with hypotheses, a state and operands that meet them. -/

namespace Sys2Proof.Tests

open Sys2Proof.Machine

/-! ### Helpers -/

/-- The next state of an answer. -/
def next? : Host.Outcome State Fault Refusal → Option State
  | .next t => some t
  | _ => none

/-- A memory that holds `vs` from address `a` on. -/
def bytes : Nat → List Byte → Memory
  | _, [] => []
  | a, v :: vs => (a, v) :: bytes (a + 1) vs

/-- The two tables of the vectors' notation, at 0 and at 16. -/
def tables : Memory := bytes 0 [3#8, 2#8, 1#8, 0#8] ++ bytes 16 [200#8, 100#8, 5#8, 0#8]

/-- After reset, with the vectors' tables and 16 bytes of BUF: `vs`, then `fill`. -/
def bench (vs : List Byte) (fill : Byte := 0#8) : State :=
  { State.afterReset { bufCap := 16, tblSize := 42 } 0 [] with
    buf := bytes 0 (vs ++ List.replicate (16 - vs.length) fill), tbl := tables }

/-- The encoder state of V-ENC-1, with a stream of `size` bytes in the BUF of `b`. -/
def encoder (size : Word) (b : State := bench []) : State :=
  { b with mode := .enc, storage := size, rng := 0x80000000#32, rem := 0xFFFFFFFF#32, nbitsTotal := 33#32 }

/-- The decoder state after DEC_INIT as the V-DEC rows give it: nbits_total = 33, rng = 0x80000000. -/
def decoder (size val rem offs : Word) (b : State := bench []) : State :=
  { b with mode := .dec, storage := size, rng := 0x80000000#32, val := val, rem := rem, offs := offs, nbitsTotal := 33#32 }

/-- The bench of V-DEC-1: BUF[0..4] = 12 34 56 78 9A. -/
def bench1 : State := bench [0x12#8, 0x34#8, 0x56#8, 0x78#8, 0x9A#8]
/-- The state of V-DEC-1. -/
def dec1 : State := decoder 5#32 0x76E5D4C3#32 120#32 4#32 bench1

/-- rng, val, ext, rem, offs, nbits_total, error after a command. -/
def coder (i : Instr) (s : State) : Option (Word × Word × Word × Word × Word × Word × Word) :=
  (next? (exec i s)).map fun t => (t.rng, t.val, t.ext, t.rem, t.offs, t.nbitsTotal, t.error)

/-- RESULT, rng, val, ext, rem, offs, nbits_total after a command. -/
def reader (i : Instr) (s : State) : Option (Word × Word × Word × Word × Word × Word × Word) :=
  (next? (exec i s)).map fun t => (t.result, t.rng, t.val, t.ext, t.rem, t.offs, t.nbitsTotal)

/-- The first eight bytes of BUF. -/
def buf8 (s : State) : List Byte := (List.range 8).map s.bufByte

/-- The refusal a command meets, and that it changed nothing else. -/
def refusedBy (o : Host.Outcome State Fault Refusal) (s : State) (r : RefuseReason) : Bool :=
  decide (next? o = some { s with refusal := some r })

/-! ### WellFormed: an ill-formed term for each check -/

theorem test_wf_encode_empty : (Instr.encode 1#32 1#32 3#32).wf = false := by decide
theorem test_wf_encode_total : (Instr.encode 0#32 1#32 65537#32).wf = false := by decide
theorem test_wf_encode_above : (Instr.encode 0#32 4#32 3#32).wf = false := by decide
theorem test_wf_encodeBin : (Instr.encodeBin 0#32 5#32 2#32).wf = false ∧ (Instr.encodeBin 0#32 1#32 17#32).wf = false ∧
    (Instr.encodeBin 1#32 1#32 2#32).wf = false := by decide
theorem test_wf_logp : (Instr.encBitLogp 1#32 17#32).wf = false ∧ (Instr.encBitLogp 1#32 0#32).wf = false ∧
    (Instr.decBitLogp 17#32).wf = false ∧ (Instr.decBitLogp 0#32).wf = false := by decide
theorem test_wf_ftb : (Instr.encIcdf 0#32 9#32 0#16).wf = false ∧ (Instr.decIcdf 9#32 0#16).wf = false := by decide
theorem test_wf_uint : (Instr.encUint 5#32 5#32).wf = false ∧ (Instr.encUint 0#32 1#32).wf = false ∧
    (Instr.decUint 1#32).wf = false := by decide
theorem test_wf_raw : (Instr.encBits 1#32 26#32).wf = false ∧ (Instr.encBits 0#32 0#32).wf = false ∧
    (Instr.decBits 26#32).wf = false ∧ (Instr.decBits 0#32).wf = false := by decide
theorem test_wf_patch : (Instr.encPatch 2#32 1#32).wf = false ∧ (Instr.encPatch 0#32 9#32).wf = false ∧
    (Instr.encPatch 0#32 0#32).wf = false := by decide
theorem test_wf_probe : (Instr.decode 0#32).wf = false ∧ (Instr.decode 65537#32).wf = false ∧
    (Instr.decodeBin 17#32).wf = false := by decide
theorem test_wf_update : (Instr.decUpdate 2#32 1#32 3#32).wf = false ∧ (Instr.decUpdate 0#32 4#32 3#32).wf = false ∧
    (Instr.decUpdate 0#32 1#32 65537#32).wf = false := by decide
theorem test_wf_accepts : (Instr.encode 0#32 1#32 3#32).wf = true ∧ (Instr.decUpdate 0#32 1#32 3#32).wf = true := by decide

/-! ### Decoding: a written-out packet for every row of R52 (W0 = T, RSV, OP; W1 = A; W2 = B; W3 = C) -/

theorem test_decode_encInit : decode (ofWords 0x00000001#32 8#32 0#32 0#32) = .ok (.encInit 8#32) := by rfl
theorem test_decode_encode : decode (ofWords 0b00000000000000000000000000000010#32 0b01#32 0b10#32 0b11#32) =
    .ok (.encode 1#32 2#32 3#32) := by rfl
theorem test_decode_encodeBin : decode (ofWords 0x00000003#32 3#32 4#32 2#32) = .ok (.encodeBin 3#32 4#32 2#32) := by rfl
theorem test_decode_encBitLogp : decode (ofWords 0x00000004#32 7#32 3#32 9#32) = .ok (.encBitLogp 7#32 3#32) := by rfl
theorem test_decode_encIcdf : decode (ofWords 0b00000000000100000000000000000101#32 2#32 8#32 0#32) =
    .ok (.encIcdf 2#32 8#32 16#16) := by rfl
theorem test_decode_encUint : decode (ofWords 0x00000006#32 300#32 1000#32 0#32) = .ok (.encUint 300#32 1000#32) := by rfl
theorem test_decode_encBits : decode (ofWords 0x00000007#32 0xABC#32 12#32 0#32) = .ok (.encBits 0xABC#32 12#32) := by rfl
theorem test_decode_encPatch : decode (ofWords 0x00000008#32 5#32 3#32 0#32) = .ok (.encPatch 5#32 3#32) := by rfl
theorem test_decode_encShrink : decode (ofWords 0xFFFF0009#32 6#32 1#32 2#32) = .ok (.encShrink 6#32) := by rfl
theorem test_decode_encDone : decode (ofWords 0x0000000A#32 1#32 2#32 3#32) = .ok .encDone := by rfl
theorem test_decode_decInit : decode (ofWords 0x00000011#32 8#32 0#32 0#32) = .ok (.decInit 8#32) := by rfl
theorem test_decode_decode : decode (ofWords 0x00000012#32 3#32 0#32 0#32) = .ok (.decode 3#32) := by rfl
theorem test_decode_decodeBin : decode (ofWords 0x00000013#32 4#32 0#32 0#32) = .ok (.decodeBin 4#32) := by rfl
theorem test_decode_decUpdate : decode (ofWords 0x00000014#32 1#32 2#32 16#32) = .ok (.decUpdate 1#32 2#32 16#32) := by rfl
theorem test_decode_decBitLogp : decode (ofWords 0x00000015#32 3#32 0#32 0#32) = .ok (.decBitLogp 3#32) := by rfl
theorem test_decode_decIcdf : decode (ofWords 0b00000000000100000000000000010110#32 8#32 0#32 0#32) =
    .ok (.decIcdf 8#32 16#16) := by rfl
theorem test_decode_decUint : decode (ofWords 0x00000017#32 257#32 0#32 0#32) = .ok (.decUint 257#32) := by rfl
theorem test_decode_decBits : decode (ofWords 0x00000018#32 25#32 0#32 0#32) = .ok (.decBits 25#32) := by rfl
theorem test_decode_tell : decode (ofWords 0b00000000000000000000000000100000#32 0#32 0#32 0#32) = .ok .tell := by rfl
theorem test_decode_tellFrac : decode (ofWords 0x00000021#32 0#32 0#32 0#32) = .ok .tellFrac := by rfl
theorem test_decode_release : decode (ofWords 0x00000030#32 0#32 0#32 0#32) = .ok .release := by rfl

/-- The encoder writes R55's packets. -/
theorem test_encode_words : encode (.encIcdf 2#32 8#32 16#16) = ofWords 0x00100005#32 2#32 8#32 0#32 ∧
    encode (.decUpdate 1#32 2#32 16#32) = ofWords 0x00000014#32 1#32 2#32 16#32 := by decide

/-- R55's notation, with both bases, a table address and a comment. -/
theorem test_assemble : assemble "ENC_ICDF 2, 8, @0x10 ; symbol 2" = some (.encIcdf 2#32 8#32 16#16) ∧
    assemble "ENC_DONE" = some .encDone ∧ assemble "ENC_DONE 1" = none ∧
    assemble "ENC_BITS 0xaBC, 12" = some (.encBits 0xABC#32 12#32) ∧ assemble "ENC_INIT A" = none := by decide
theorem test_disassemble : disassemble (.encIcdf 2#32 8#32 16#16) = "ENC_ICDF 2, 8, @16" ∧
    disassemble .tell = "TELL" := by decide

/-! ### Encoder (2.1 to 2.7 of the vectors) -/

/-- V-ENC-1. -/
theorem test_encInit : (next? (exec (.encInit 8#32) (bench []))) = some (encoder 8#32) := by decide
/-- V-ENC-5. -/
theorem test_encode_slack : coder (.encode 1#32 3#32 7#32) (encoder 8#32) =
    some (0x24924924#32, 0x12492494#32, 0#32, 0xFFFFFFFF#32, 0#32, 33#32, 0#32) := by decide
/-- V-ENC-8: two passes, two pending bytes. -/
theorem test_encode_smallest : coder (.encode 65535#32 65536#32 65536#32) (encoder 8#32) =
    some (0x80000000#32, 0#32, 2#32, 0xFFFFFFFF#32, 0#32, 49#32, 0#32) := by decide
/-- V-ENC-13. -/
theorem test_encodeBin : coder (.encodeBin 1#32 2#32 16#32) (encoder 8#32) =
    some (0x80000000#32, 0#32, 0#32, 1#32, 1#32, 49#32, 0#32) := by decide

/-- The state of V-CARRY-3. -/
def carry3 : State :=
  { encoder 16#32 with rng := 0x18000000#32, val := 0x78000000#32, rem := 241#32, ext := 1#32, nbitsTotal := 49#32 }
/-- V-CARRY-4: the carry turns F1 FF into F2 00. -/
theorem test_encodeBin_carry : coder (.encodeBin 188#32 190#32 8#32) carry3 =
      some (0x30000000#32, 0x20000000#32, 0#32, 19#32, 2#32, 57#32, 0#32) ∧
    (next? (exec (.encodeBin 188#32 190#32 8#32) carry3)).map buf8 = some [0xF2#8, 0#8, 0#8, 0#8, 0#8, 0#8, 0#8, 0#8] := by
  decide
/-- V-ENC-17: A = 7 is a 1. -/
theorem test_encBitLogp_one : coder (.encBitLogp 7#32 3#32) (encoder 8#32) =
    some (0x10000000#32, 0x70000000#32, 0#32, 0xFFFFFFFF#32, 0#32, 33#32, 0#32) := by decide
/-- V-ENC-20. -/
theorem test_encBitLogp_zero : coder (.encBitLogp 0#32 16#32) (encoder 8#32) =
    some (0x7FFF8000#32, 0#32, 0#32, 0xFFFFFFFF#32, 0#32, 33#32, 0#32) := by decide
/-- V-ENC-22. -/
theorem test_encIcdf_middle : coder (.encIcdf 1#32 8#32 16#16) (encoder 8#32) =
    some (0x32000000#32, 0x1C000000#32, 0#32, 0xFFFFFFFF#32, 0#32, 33#32, 0#32) := by decide
/-- V-ENC-24: the last symbol. -/
theorem test_encIcdf_last : coder (.encIcdf 3#32 8#32 16#16) (encoder 8#32) =
    some (0x02800000#32, 0x7D800000#32, 0#32, 0xFFFFFFFF#32, 0#32, 33#32, 0#32) := by decide
/-- V-UINT-3: one raw bit is split off. -/
theorem test_encUint_split : coder (.encUint 256#32 257#32) (encoder 8#32) =
      some (0x00FE03F8#32, 0x7F01FC08#32, 0#32, 0xFFFFFFFF#32, 0#32, 34#32, 0#32) ∧
    (next? (exec (.encUint 256#32 257#32) (encoder 8#32))).map (fun t => (t.endWindow, t.nendBits)) =
      some (0#32, 1#32) := by decide
/-- V-UINT-5: 23 raw bits. -/
theorem test_encUint_wide : coder (.encUint 0x12345678#32 0x80000000#32) (encoder 8#32) =
      some (0x80000000#32, 0#32, 0#32, 36#32, 0#32, 64#32, 0#32) ∧
    (next? (exec (.encUint 0x12345678#32 0x80000000#32) (encoder 8#32))).map (fun t => (t.endWindow, t.nendBits)) =
      some (0x345678#32, 23#32) := by decide

/-- The state after ENC_BITS 0x1234567, 25 (V-RAW-3, V-RAW-4). -/
def raw25 (size : Word) : State :=
  { encoder size with endWindow := 0x1234567#32, nendBits := 25#32, nbitsTotal := 58#32 }
/-- end_window, nend_bits, end_offs, nbits_total, error and BUF after ENC_BITS 0xABC, 12. -/
def rawTest (size : Word) : Option ((Word × Word × Word × Word × Word) × List Byte) :=
  (next? (exec (.encBits 0xABC#32 12#32) (raw25 size))).map fun t =>
    ((t.endWindow, t.nendBits, t.endOffs, t.nbitsTotal, t.error), buf8 t)
/-- V-RAW-3. -/
theorem test_encBits_flush : rawTest 8#32 =
    some ((0x1579#32, 13#32, 3#32, 70#32, 0#32), [0#8, 0#8, 0#8, 0#8, 0#8, 0x23#8, 0x45#8, 0x67#8]) := by decide
/-- V-RAW-4: the third byte does not fit (EC1). -/
theorem test_encBits_full : rawTest 2#32 =
    some ((0x1579#32, 13#32, 2#32, 70#32, 0xFFFFFFFF#32), [0x45#8, 0x67#8, 0#8, 0#8, 0#8, 0#8, 0#8, 0#8]) := by decide
/-- V-PATCH-2: the val case. -/
theorem test_encPatch_val : coder (.encPatch 1#32 1#32) { encoder 8#32 with rng := 0x20000000#32 } =
    some (0x20000000#32, 0x40000000#32, 0#32, 0xFFFFFFFF#32, 0#32, 33#32, 0#32) := by decide
/-- V-PATCH-3: the rem case. -/
theorem test_encPatch_rem : coder (.encPatch 5#32 3#32) { encoder 8#32 with rem := 0x12#32, nbitsTotal := 41#32 } =
    some (0x80000000#32, 0#32, 0#32, 178#32, 0#32, 41#32, 0#32) := by decide

/-- The state of V-SHRINK-1. -/
def shrink1 : State :=
  { encoder 8#32 (bench [0#8, 0#8, 0#8, 0#8, 0#8, 0xEF#8, 0xCD#8, 0xAB#8]) with
    endOffs := 3#32, nendBits := 9#32, nbitsTotal := 66#32 }
/-- V-SHRINK-2: the tail moves; the old tail above the new storage stays. -/
theorem test_encShrink : (next? (exec (.encShrink 6#32) shrink1)).map (fun t => (t.storage, t.endOffs, buf8 t)) =
    some (6#32, 3#32, [0#8, 0#8, 0#8, 0xEF#8, 0xCD#8, 0xAB#8, 0xCD#8, 0xAB#8]) := by decide

/-- offs, end_offs, rem, ext, error and BUF after ENC_DONE; BUF was EE everywhere but for `vs`. -/
def doneTest (s : State) : Option ((Word × Word × Word × Word × Word) × List Byte) :=
  (next? (exec .encDone s)).map fun t => ((t.offs, t.endOffs, t.rem, t.ext, t.error), buf8 t)
/-- The state of V-DONE-10: a stream of one byte, whose low seven bits take the leftover bits. -/
def tight : State :=
  { encoder 1#32 (bench [] 0xEE#8) with
    rng := 0x40000000#32, val := 0x40000000#32, endWindow := 0x7F#32, nendBits := 7#32, nbitsTotal := 40#32 }
/-- V-DONE-10: the leftover raw bits share the last range byte. -/
theorem test_encDone_shared :
    doneTest tight =
    some ((1#32, 0#32, 0#32, 0#32, 0#32), 0xFF#8 :: List.replicate 7 0xEE#8) := by decide
/-- V-DONE-9, from the state after ENC_BITS 0xAB, 8 and ENC_BITS 1, 1: the leftover bit has no byte (EC4). -/
theorem test_encDone_noByte :
    doneTest { encoder 1#32 (bench [] 0xEE#8) with endWindow := 0x1AB#32, nendBits := 9#32, nbitsTotal := 42#32 } =
    some ((0#32, 1#32, 0xFFFFFFFF#32, 0#32, 0xFFFFFFFF#32), 0xAB#8 :: List.replicate 7 0xEE#8) := by decide

/-! ### Decoder (2.8) -/

/-- V-DEC-1. -/
theorem test_decInit : next? (exec (.decInit 5#32) bench1) = some dec1 := by decide
/-- V-DEC-3: past the size a read gives 0, whatever BUF holds there. -/
theorem test_decInit_short : reader (.decInit 2#32) (bench [0xFF#8, 0xFF#8, 0x77#8]) =
    some (0#32, 0x80000000#32, 0x7FFF#32, 0#32, 0#32, 2#32, 33#32) := by decide
/-- V-DEC-5. -/
theorem test_decode : reader (.decode 3#32) dec1 =
    some (0#32, 0x80000000#32, 0x76E5D4C3#32, 0x2AAAAAAA#32, 120#32, 4#32, 33#32) := by decide
/-- V-DEC-7. -/
theorem test_decodeBin : reader (.decodeBin 4#32) dec1 =
    some (1#32, 0x80000000#32, 0x76E5D4C3#32, 0x08000000#32, 120#32, 4#32, 33#32) := by decide
/-- V-DEC-6: the bottom symbol takes the slack. -/
theorem test_decUpdate_bottom : reader (.decUpdate 0#32 1#32 3#32) { dec1 with ext := 0x2AAAAAAA#32, probe := some 3 } =
    some (0#32, 0x2AAAAAAC#32, 0x21907F6F#32, 0x2AAAAAAA#32, 120#32, 4#32, 33#32) := by decide
/-- V-DEC-8. -/
theorem test_decUpdate_inner :
    reader (.decUpdate 1#32 2#32 16#32) { dec1 with ext := 0x08000000#32, probe := some 16, result := 1#32 } =
    some (1#32, 0x08000000#32, 0x06E5D4C3#32, 0x08000000#32, 120#32, 4#32, 33#32) := by decide
/-- V-DEC-10. -/
theorem test_decBitLogp_zero : reader (.decBitLogp 3#32) dec1 =
    some (0#32, 0x70000000#32, 0x66E5D4C3#32, 0#32, 120#32, 4#32, 33#32) := by decide
/-- V-DEC-12: the state after DEC_INIT 8 on A0 00 ... is 7FFFFFFF less A0 << 23 (R100). -/
theorem test_decBitLogp_one : reader (.decBitLogp 1#32) (decoder 8#32 0x2FFFFFFF#32 0#32 4#32 (bench [0xA0#8])) =
    some (1#32, 0x40000000#32, 0x2FFFFFFF#32, 0#32, 0#32, 4#32, 33#32) := by decide
/-- V-DEC-15, from DEC_INIT 8 on 80 00 .... -/
theorem test_decIcdf_symbol2 : reader (.decIcdf 2#32 0#16) (decoder 8#32 0x3FFFFFFF#32 0#32 4#32 (bench [0x80#8])) =
    some (2#32, 0x20000000#32, 0x1FFFFFFF#32, 0#32, 0#32, 4#32, 33#32) := by decide
/-- V-DEC-16. -/
theorem test_decIcdf_first : reader (.decIcdf 8#32 16#16) dec1 =
    some (0#32, 0x1C000000#32, 0x12E5D4C3#32, 0#32, 120#32, 4#32, 33#32) := by decide

/-- RESULT, val, end_offs, nend_bits, nbits_total, error after a command. -/
def rawReader (i : Instr) (s : State) : Option (Word × Word × Word × Word × Word × Word) :=
  (next? (exec i s)).map fun t => (t.result, t.val, t.endOffs, t.nendBits, t.nbitsTotal, t.error)
/-- V-DEC-17: a value that is not below its total (DC1). -/
theorem test_decUint_over :
    rawReader (.decUint 257#32) (decoder 4#32 0#32 255#32 4#32 (bench [0xFF#8, 0xFF#8, 0xFF#8, 0xFF#8])) =
    some (256#32, 0#32, 4#32, 31#32, 34#32, 1#32) := by decide
/-- V-DEC-19: its neighbour. -/
theorem test_decUint_fits :
    rawReader (.decUint 257#32) (decoder 4#32 0#32 254#32 4#32 (bench [0xFF#8, 0xFF#8, 0xFF#8, 0xFE#8])) =
    some (256#32, 0#32, 4#32, 31#32, 34#32, 0#32) := by decide
/-- V-DEC-21: back bytes past the start are 0. -/
theorem test_decBits_short : rawReader (.decBits 25#32) (decoder 1#32 0#32 0#32 1#32 (bench [0xA5#8])) =
    some (165#32, 0#32, 1#32, 7#32, 58#32, 0#32) := by decide
/-- V-DEC-22, from V-DEC-21's registers. -/
theorem test_decBits_refill :
    rawReader (.decBits 8#32) { decoder 1#32 0#32 0#32 1#32 (bench [0xA5#8]) with
      endOffs := 1#32, nendBits := 7#32, nbitsTotal := 58#32 } =
    some (0#32, 0#32, 1#32, 23#32, 66#32, 0#32) := by decide

/-! ### Shared commands (2.9) -/

/-- RESULT of a command in an encoder state with this width and count. -/
def countOf (i : Instr) (rng total : Word) : Option Word :=
  (next? (exec i { encoder 8#32 with rng := rng, nbitsTotal := total })).map (·.result)
/-- V-TELL-1, 5, 8, 11. -/
theorem test_tell : countOf .tell 0x80000000#32 33#32 = some 1#32 ∧ countOf .tell 0x00800001#32 57#32 = some 33#32 ∧
    countOf .tell 0x18000000#32 57#32 = some 28#32 ∧ countOf .tell 0x47000000#32 41#32 = some 10#32 := by decide
/-- V-TELL-2, 3, 5, 7 to 12. -/
theorem test_tellFrac : countOf .tellFrac 0x40000000#32 33#32 = some 16#32 ∧
    countOf .tellFrac 0x5A827999#32 33#32 = some 13#32 ∧ countOf .tellFrac 0x00800001#32 57#32 = some 264#32 ∧
    countOf .tellFrac 0x2AAAAAAA#32 33#32 = some 21#32 ∧ countOf .tellFrac 0x18000000#32 57#32 = some 220#32 ∧
    countOf .tellFrac 0x7FFF8000#32 33#32 = some 9#32 ∧ countOf .tellFrac 0x00FFFFFF#32 57#32 = some 257#32 ∧
    countOf .tellFrac 0x47000000#32 41#32 = some 79#32 ∧ countOf .tellFrac 0x4D000000#32 41#32 = some 78#32 := by decide
/-- The CORR table of 2.9: at each breakpoint r and at r + 1, rng = r << 15 and nbits_total = 33. -/
theorem test_tellFrac_breakpoints :
    [35733, 38967, 42495, 46340, 50535, 55109, 60097, 65535].map
      (fun r => countOf .tellFrac (BitVec.ofNat 32 r <<< 15) 33#32) =
      [16#32, 15#32, 14#32, 13#32, 12#32, 11#32, 10#32, 9#32].map some ∧
    [35734, 38968, 42496, 46341, 50536, 55110, 60098].map
      (fun r => countOf .tellFrac (BitVec.ofNat 32 r <<< 15) 33#32) =
      [15#32, 14#32, 13#32, 12#32, 11#32, 10#32, 9#32].map some := by decide
/-- V-REF-30. -/
theorem test_release : next? (exec .release { dec1 with probe := some 3 }) = some { dec1 with mode := .idle } := by decide

/-! ### Refusals (2.10) -/

/-- V-REF-1 to V-REF-4. -/
theorem test_refuse_packet :
    refusedBy (issue (ofWords 0x102#32 0#32 1#32 2#32) (encoder 8#32)) (encoder 8#32) .reservedBits ∧
    refusedBy (issue (ofWords 0#32 0#32 0#32 0#32) (bench [])) (bench []) .illegalOpcode ∧
    refusedBy (issue (ofWords 0xB#32 0#32 0#32 0#32) (encoder 8#32)) (encoder 8#32) .illegalOpcode ∧
    refusedBy (issue (ofWords 0x1FF#32 0#32 0#32 0#32) (bench [])) (bench []) .reservedBits := by decide
/-- V-REF-5 to V-REF-9. -/
theorem test_refuse_mode :
    refusedBy (exec (.encode 0#32 1#32 2#32) (bench [])) (bench []) .wrongMode ∧
    refusedBy (exec .tell (bench [])) (bench []) .wrongMode ∧
    refusedBy (exec (.decode 2#32) (encoder 8#32)) (encoder 8#32) .wrongMode ∧
    refusedBy (exec (.encBits 1#32 1#32) { encoder 8#32 with mode := .done }) { encoder 8#32 with mode := .done } .wrongMode ∧
    refusedBy (exec (.encPatch 1#32 1#32) dec1) dec1 .wrongMode := by decide
/-- V-REF-10 to V-REF-20, in the state after ENC_INIT 8 (V-REF-18 with this bench's BUF_CAP = 16). -/
theorem test_refuse_encoder :
    (∀ i ∈ [Instr.encode 1#32 1#32 3#32, .encode 0#32 1#32 65537#32, .encodeBin 0#32 5#32 2#32, .encBitLogp 1#32 17#32,
      .encBitLogp 1#32 0#32, .encUint 5#32 5#32, .encUint 0#32 1#32, .encBits 1#32 26#32, .encBits 0#32 0#32,
      .encPatch 2#32 1#32, .encPatch 0#32 9#32, .encShrink 9#32, .encInit 17#32, .decInit 17#32, .encIcdf 4#32 2#32 0#16],
      refusedBy (exec i (encoder 8#32)) (encoder 8#32) .badOperand) ∧
    refusedBy (exec (.encIcdf 0#32 2#32 16#16) (encoder 8#32)) (encoder 8#32) .badTable := by decide
/-- dec1 with the table 03 02 at 40, which has no zero before TBL_SIZE = 42. -/
def openTable : State := { dec1 with tbl := tables ++ bytes 40 [3#8, 2#8] }
/-- dec1 after DECODE 3. -/
def probed : State := { dec1 with ext := 0x2AAAAAAA#32, probe := some 3 }
/-- V-REF-21 to V-REF-24, V-REF-27. -/
theorem test_refuse_decoder :
    refusedBy (exec (.decIcdf 9#32 0#16) dec1) dec1 .badTable ∧
    refusedBy (exec (.decIcdf 2#32 40#16) openTable) openTable .badTable ∧
    refusedBy (exec (.decUpdate 0#32 1#32 2#32) dec1) dec1 .noProbe ∧
    refusedBy (exec (.decUpdate 0#32 1#32 4#32) probed) probed .noProbe ∧
    refusedBy (exec (.decUpdate 2#32 1#32 3#32) probed) probed .badOperand := by decide
/-- V-REF-28, V-REF-29. -/
theorem test_host_write :
    refusedBy (hostWriteBuf 0 7#8 (encoder 8#32)) (encoder 8#32) .hostBufWrite ∧
    (next? (hostWriteBuf 0 7#8 { encoder 8#32 with mode := .done })).map (·.bufByte 0) = some 7#8 := by decide

/-- The first step after reset runs the placed word (log entry 11): ENC_INIT with size 0. -/
theorem test_withFetchWord : (next? (step (State.reset.withFetchWord 16 1))).map (fun t => (t.mode, t.rng, t.nbitsTotal)) =
    some (.enc, 0x80000000#32, 33#32) := by decide

/-! ### Witnesses: states and operands that meet the hypotheses of each statement -/

/-- An answer that can be evaluated to a next state with `p` is a next state with `p`. -/
theorem answers {o : Host.Outcome State Fault Refusal} (p : State → Bool) (h : (next? o).any p = true) :
    ∃ t, o = .next t ∧ p t = true := by
  cases o with
  | next t => exact ⟨t, rfl, by simpa [next?] using h⟩
  | fault f => simp [next?] at h
  | refused r => simp [next?] at h

/-- An encoder state in mid-stream: bytes out at both ends, a byte in rem, one pending byte, raw bits in the window. -/
def enc : State :=
  { encoder 16#32 (bench [0x12#8, 0x34#8]) with
    offs := 2#32, endOffs := 3#32, rng := 0x00900000#32, val := 0x7F800000#32, ext := 1#32, rem := 0xFE#32
    endWindow := 0x1F#32, nendBits := 29#32 }
/-- The same with nothing out and no byte in rem. -/
def encEarly : State := { enc with offs := 0#32, ext := 0#32, rem := 0xFFFFFFFF#32, val := 0#32 }
/-- Log entry 9 before its second patch: a first patch and a symbol have left a carry pending in val. -/
def patchedOnce : State := { encEarly with val := 0x80F00000#32 }
/-- A decoder state with a probe in force. -/
def dec : State := { probed with nendBits := 5#32, endWindow := 0x1F#32, endOffs := 2#32 }

theorem bench_inv : (bench []).Inv :=
  ⟨by decide, by decide, by decide, by decide, by decide, by decide, ⟨by decide, by decide⟩⟩
theorem enc_inv : enc.Inv :=
  ⟨by decide, by decide, by decide, by decide, by decide, by decide,
    ⟨by decide, by decide, by decide, by decide, by decide, by decide, by decide⟩⟩
theorem encEarly_inv : encEarly.Inv :=
  ⟨by decide, by decide, by decide, by decide, by decide, by decide,
    ⟨by decide, by decide, by decide, by decide, by decide, by decide, by decide⟩⟩
theorem patchedOnce_inv : patchedOnce.Inv :=
  ⟨by decide, by decide, by decide, by decide, by decide, by decide,
    ⟨by decide, by decide, by decide, by decide, by decide, by decide, by decide⟩⟩
theorem dec_inv : dec.Inv :=
  ⟨by decide, by decide, by decide, by decide, by decide, by decide,
    ⟨by decide, by decide, by decide, by decide, by decide, by decide,
      fun ft h => by have : ft = 3 := by simpa [dec, probed] using h.symm
                     subst this; decide⟩⟩

theorem test_meets_BadPacketsRefusedInOrder :
    ({ enc with port := [.command (ofWords 0x1FF#32 0#32 0#32 0#32)] }).port =
      .command (ofWords 0x1FF#32 0#32 0#32 0#32) :: [] ∧
    (ofWords 0x1FF#32 0#32 0#32 0#32).extractLsb' 8 8 ≠ 0#8 ∧ (ofWords 0x0B#32 0#32 0#32 0#32).extractLsb' 8 8 = 0#8 ∧
    (ofWords 0x0B#32 0#32 0#32 0#32).extractLsb' 0 8 = 0x0B#8 := by decide
theorem test_meets_StepRunsDecodedCommand :
    ({ enc with port := [.command (ofWords 0x20#32 0#32 0#32 0#32)] }).port = .command (ofWords 0x20#32 0#32 0#32 0#32) :: [] ∧
    decode (ofWords 0x20#32 0#32 0#32 0#32) = .ok .tell ∧ decodeTableWord 16 0x20 = some .tell ∧ enc.port = [] :=
  ⟨rfl, rfl, by decide, rfl⟩
theorem test_meets_HostWritesByOwnership :
    15 < enc.params.bufCap ∧ 41 < enc.params.tblSize ∧ enc.mode = .enc ∧ dec.mode = .dec ∧
    ({ enc with mode := .done }).mode = .done ∧ (bench []).mode = .idle := by decide
theorem test_meets_HardwareResetFromAnyState :
    ({ dec with port := [.hardwareReset, .writeBuf 0 1#8] }).port = .hardwareReset :: [.writeBuf 0 1#8] := by decide
theorem test_meets_WrongModeRefused :
    (admittedIn .tell (bench []).mode = false ∧ admittedIn .encDone dec.mode = false) ∧
    admittedIn .tell dec.mode = true ∧ dec.refusal = none ∧ ∃ t, exec .tell dec = .next t ∧ decide (t.mode = .dec) = true :=
  ⟨by decide, by decide, rfl, answers _ (by decide)⟩
theorem test_meets_RefusedCommandChangesOnlyMark :
    (∃ t, exec .encDone dec = .next t ∧ decide (t.refusal ≠ dec.refusal) = true) ∧
    ∃ t, exec .tell dec = .next t ∧ decide (t.refusal = dec.refusal) = true :=
  ⟨answers _ (by decide), answers _ (by decide)⟩
theorem test_meets_RefusedStaysUntilReset :
    let s : State := { dec with refusal := some .noProbe, port := [.command (ofWords 0x20#32 0#32 0#32 0#32)] }
    s.refused = true ∧ (∀ rest, s.port ≠ .hardwareReset :: rest) ∧ ∃ t, step s = .next t ∧ t.refused = true := by
  refine ⟨rfl, ?_, answers (fun t => t.refused) (by decide)⟩
  intro rest h
  cases h
theorem test_meets_OperandsOutsideLimitsRefused :
    (admittedIn (.encode 1#32 1#32 3#32) enc.mode = true ∧ (Instr.encode 1#32 1#32 3#32).wf = false) ∧
    (admittedIn (.encIcdf 0#32 9#32 0#16) enc.mode = true ∧ (Instr.encIcdf 0#32 9#32 0#16).wf = false) ∧
    admittedIn (.decUint 1#32) dec.mode = true ∧ (Instr.decUint 1#32).wf = false := by decide
/-- The 2-bit table at 0 has four symbols, and the 8-bit one at 16. -/
theorem table2 : IcdfTable enc 0#16 2#32 4 := by unfold IcdfTable; decide
theorem table8 : IcdfTable dec 16#16 8#32 4 := by unfold IcdfTable; decide
theorem noTable : ∀ n, ¬ IcdfTable enc 16#16 2#32 n := by
  intro n h
  have := (h.2.2 0 h.2.1).2.1
  exact absurd this (by decide)
theorem test_meets_TableCheckIsWellFormedness : enc.tableLength 0#16 2#32 = some 4 ∧ IcdfTable enc 0#16 2#32 4 :=
  ⟨by decide, table2⟩
theorem test_meets_IlogIsBitLength : 1#32 ≠ 0#32 ∧ 0xFFFFFFFF#32 ≠ 0#32 := by decide
theorem test_meets_EncInitStartsStream : (16#32).toNat ≤ enc.params.bufCap ∧ (0#32).toNat ≤ enc.params.bufCap ∧
    enc.params.bufCap < (17#32).toNat := by decide
theorem test_meets_CarryOutResolvesPendingBytes :
    ((0#32).toNat < 512 ∧ (0#32).toNat ≠ 255) ∧ ((254#32).toNat < 512 ∧ (254#32).toNat ≠ 255) ∧
    ((256#32).toNat < 512 ∧ (256#32).toNat ≠ 255) ∧ ((511#32).toNat < 512 ∧ (511#32).toNat ≠ 255) ∧
    ((255#32).toNat < 512 ∧ (255#32).toNat = 255) := by decide
theorem test_meets_EncodeNarrowsInterval : enc.Inv ∧ enc.mode = .enc ∧ encodeOk 0#32 1#32 65536#32 ∧
    encodeOk 65535#32 65536#32 65536#32 ∧ encodeOk 0#32 1#32 1#32 ∧
    (65536 < (65537#32).toNat ∧ (3#32).toNat ≤ (3#32).toNat ∧ (3#32).toNat < (4#32).toNat) := ⟨enc_inv, by decide⟩
theorem test_meets_EncodeBinNarrowsInterval : enc.Inv ∧ enc.mode = .enc ∧ encodeBinOk 0#32 1#32 0#32 ∧
    encodeBinOk 65535#32 65536#32 16#32 ∧ (16 < (17#32).toNat ∧ 2 ^ (2#32).toNat < (5#32).toNat) := ⟨enc_inv, by decide⟩
theorem test_meets_EncBitLogpSplitsInterval : enc.Inv ∧ enc.mode = .enc ∧ logpOk 1#32 ∧ logpOk 16#32 ∧ 7#32 ≠ 0#32 ∧
    (0#32).toNat = 0 ∧ 16 < (17#32).toNat :=
  ⟨enc_inv, by decide⟩
theorem test_meets_EncIcdfNarrowsByTable : enc.Inv ∧ enc.mode = .enc ∧ IcdfTable enc 0#16 2#32 4 ∧
    (0#32).toNat < 4 ∧ (3#32).toNat < 4 ∧ 4 ≤ (4#32).toNat ∧ ∀ n, ¬ IcdfTable enc 16#16 2#32 n :=
  ⟨enc_inv, rfl, table2, by decide, by decide, by decide, noTable⟩
theorem test_meets_EncUintIsEncodeThenBits : enc.Inv ∧ enc.mode = .enc ∧ encUintOk 255#32 256#32 ∧
    encUintOk 0#32 257#32 ∧ 256 < (257#32).toNat ∧ ((1#32).toNat < 2 ∧ (5#32).toNat ≤ (5#32).toNat) := ⟨enc_inv, by decide⟩
theorem test_meets_EncBitsAppendsField : enc.Inv ∧ enc.mode = .enc ∧ rawOk 1#32 ∧ rawOk 25#32 ∧
    25 < (26#32).toNat := ⟨enc_inv, by decide⟩
theorem test_meets_EncPatchReplacesFirstBits :
    (enc.Inv ∧ enc.mode = .enc ∧ patchOk 255#32 8#32 ∧ 0 < enc.offs.toNat) ∧
    (({ encEarly with rem := 0#32 }).offs.toNat = 0 ∧ 0 ≤ ({ encEarly with rem := 0#32 }).rem.toInt) ∧
    (encEarly.Inv ∧ encEarly.offs.toNat = 0 ∧ encEarly.rem.toInt < 0) ∧
    encEarly.rng.toNat ≤ 2 ^ (31 - 1) ∧ 2 ^ (31 - 8) < encEarly.rng.toNat ∧ 8 < (9#32).toNat ∧
    2 ^ (1#32).toNat ≤ (2#32).toNat :=
  ⟨⟨enc_inv, by decide⟩, by decide, ⟨encEarly_inv, by decide⟩, by decide⟩
theorem test_meets_EncShrinkMovesTail : enc.Inv ∧ enc.mode = .enc ∧ shrinkOk 5#32 enc ∧ shrinkOk 16#32 enc ∧
    (4#32).toNat < enc.offs.toNat + enc.endOffs.toNat ∧ enc.storage.toNat < (17#32).toNat :=
  ⟨enc_inv, by decide⟩
theorem tight_inv : tight.Inv :=
  ⟨by decide, by decide, by decide, by decide, by decide, by decide,
    ⟨by decide, by decide, by decide, by decide, by decide, by decide, by decide⟩⟩
/-- What fits and what does not, at the edges: one range byte in a stream of one byte or none (EC1), one raw byte beside
it (EC2), a leftover bit with no byte at all (EC4, V-DONE-9), and eight code bits that leave the leftover bits no room
(EC5). -/
theorem test_meets_EncDoneCompletes :
    (enc.Inv ∧ enc.mode = .enc ∧ enc.ext.toNat < 2 ^ 32 - 3 ∧ enc.doneFits) ∧
    (tight.Inv ∧ tight.mode = .enc ∧ tight.ext.toNat < 2 ^ 32 - 3 ∧ tight.doneFits) ∧
    ({ enc with error := encFault }).error ≠ 0#32 ∧
    ¬ ({ tight with storage := 0#32 }).doneFits ∧ ¬ ({ tight with nendBits := 8#32 }).doneFits ∧
    ¬ ({ encoder 1#32 with endWindow := 0x1AB#32, nendBits := 9#32 }).doneFits ∧
    ¬ ({ tight with rng := 0x00900000#32 }).doneFits := by
  refine ⟨⟨enc_inv, ?_⟩, ⟨tight_inv, ?_⟩, ?_⟩
  · decide
  · decide
  · decide
/-- With raw bits left over in a gap, with none, and with no gap. -/
theorem test_meets_EncDoneLaysOutStream : enc.Inv ∧ enc.mode = .enc ∧ enc.nendBits.toNat % 8 ≠ 0 ∧
    (∃ t, exec .encDone enc = .next t ∧
      decide (t.error = 0#32 ∧ t.offs.toNat + 1 < enc.storage.toNat - t.endOffs.toNat) = true) ∧
    (∃ t, exec .encDone { enc with nendBits := 24#32 } = .next t ∧ decide (t.error = 0#32) = true) ∧
    tight.Inv ∧ 0 < tight.nendBits.toNat % 8 ∧ ∃ t, exec .encDone tight = .next t ∧
      decide (t.error = 0#32 ∧ t.offs.toNat + t.endOffs.toNat = tight.storage.toNat) = true :=
  ⟨enc_inv, rfl, by decide, answers _ (by decide), answers _ (by decide), tight_inv, by decide, answers _ (by decide)⟩
/-- V-DONE-10 by the numbers of the statement: the code's byte is 80, its low seven bits are free. -/
theorem test_doneCode_shared : tight.doneCodeBytes = 1 ∧ tight.doneFree = 7 ∧
    tight.doneCode.2 / 2 ^ (31 - 8 * tight.doneCodeBytes) % 256 = 0x80 := by decide
theorem test_meets_EncDoneCodeIsShortest : enc.rngOk ∧ enc.valRngOk ∧ enc.codeValue.1 ≠ 0 := by decide
theorem test_meets_NoCarryLostWithoutPatch :
    enc.Inv ∧ enc.mode = .enc ∧ enc.carrySafe ∧
    ∃ t, exec (.encode 0#32 1#32 65536#32) enc = .next t ∧ decide (t.mode = .enc) = true :=
  ⟨enc_inv, rfl, by decide, answers _ (by decide)⟩
/-- A patch of the bits in val with no carry pending, the patch of log entry 9 over a carry, and one more bit than has
settled there. -/
theorem test_meets_OnlyPatchOverCarryBreaksValPlusRng :
    (encEarly.Inv ∧ encEarly.mode = .enc ∧ encEarly.valRngOk ∧ encEarly.carrySafe ∧
      ∃ t, exec (.encPatch 1#32 1#32) encEarly = .next t ∧ decide (t.mode = .enc ∧ t.valRngOk) = true) ∧
    (patchedOnce.Inv ∧ patchedOnce.mode = .enc ∧ patchedOnce.valRngOk ∧
      PatchesOverCarry (.encPatch 127#32 7#32) patchedOnce ∧ ¬ PatchesOverCarry (.encPatch 255#32 8#32) patchedOnce ∧
      ∃ t, exec (.encPatch 127#32 7#32) patchedOnce = .next t ∧
        decide (t.refusal = patchedOnce.refusal ∧ ¬ t.valRngOk ∧ t.firstByteInVal) = true) :=
  ⟨⟨encEarly_inv, rfl, by decide, by decide, answers _ (by decide)⟩,
    patchedOnce_inv, rfl, by decide, ⟨127#32, 7#32, rfl, by decide⟩,
    fun ⟨_, _, h, h'⟩ => by cases h; exact absurd h' (by decide), answers _ (by decide)⟩
/-- A width that is due for a pass, with a carry in val. -/
theorem test_meets_EncNormalizeKeepsLowEnd :
    let s : State := { enc with rng := 0x700000#32, val := 0x80000000#32 }
    (0 < s.rng.toNat ∧ s.rng.toNat ≤ 2 ^ 31 ∧ s.rem.toNat ≤ 255 ∧ s.carrySafe ∧ s.ext.toNat < 2 ^ 32 - 3 ∧
      s.error = 0#32) ∧ s.encNormalize = .ok (State.encPasses 3 s) ∧ (State.encPasses 3 s).error = 0#32 := by
  refine ⟨by decide, ?_, by decide⟩
  simp only [State.encNormalize]
  rw [if_neg (by decide)]
theorem test_meets_EncodeStaysInsideInterval :
    enc.Inv ∧ enc.mode = .enc ∧ enc.carrySafe ∧ enc.ext.toNat < 2 ^ 32 - 3 ∧ encodeOk 1#32 2#32 300#32 ∧ enc.error = 0#32 ∧
    ∃ t, exec (.encode 1#32 2#32 300#32) enc = .next t ∧ decide (t.error = 0#32) = true :=
  ⟨enc_inv, rfl, by decide, by decide, by decide, rfl, answers _ (by decide)⟩
/-- In mid-stream, and with the low end at 0: its one code byte lies below 0x80, at the scale of one byte. -/
theorem test_meets_EncDoneNamesFinalInterval :
    (enc.Inv ∧ enc.mode = .enc ∧ enc.carrySafe ∧ enc.ext.toNat < 2 ^ 32 - 3 ∧
      enc.endWindow.toNat < 2 ^ enc.nendBits.toNat ∧ enc.error = 0#32 ∧
      ∃ t, exec .encDone enc = .next t ∧ decide (t.error = 0#32) = true) ∧
    let s : State := { encEarly with rng := 0x40000000#32 }
    s.lowEnd = 0 ∧ s.doneCodeBytes = 1 ∧ s.carrySafe ∧ s.endWindow.toNat < 2 ^ s.nendBits.toNat ∧
    ∃ t, exec .encDone s = .next t ∧ decide (t.error = 0#32 ∧ t.offs = 1#32 ∧ (t.bufByte 0).toNat < 0x80) = true :=
  ⟨⟨enc_inv, rfl, by decide, by decide, by decide, rfl, answers _ (by decide)⟩,
    by decide, by decide, by decide, by decide, answers _ (by decide)⟩
theorem test_meets_DecInitPrimesRegisters : (16#32).toNat ≤ dec.params.bufCap ∧ (3#32).toNat ≤ dec.params.bufCap ∧
    dec.params.bufCap < (17#32).toNat := by decide
theorem test_meets_DecodeFindsPart : dec.Inv ∧ dec.mode = .dec ∧ probeOk 1#32 ∧ probeOk 65536#32 ∧
    65536 < (65537#32).toNat := ⟨dec_inv, by decide⟩
theorem test_meets_DecodeBinIsDecode : dec.Inv ∧ dec.mode = .dec ∧ probeBinOk 0#32 ∧ probeBinOk 16#32 ∧
    16 < (17#32).toNat := ⟨dec_inv, by decide⟩
theorem test_meets_DecUpdateCommits : dec.Inv ∧ dec.mode = .dec ∧ dec.probe = some (3#32).toNat ∧
    updateOk 0#32 1#32 3#32 ∧ updateOk 2#32 3#32 3#32 ∧ dec.probe ≠ some (4#32).toNat ∧ (3#32).toNat < (4#32).toNat :=
  ⟨dec_inv, by decide⟩
theorem test_meets_DecBitLogpDecides : dec.Inv ∧ dec.mode = .dec ∧ logpOk 1#32 ∧ logpOk 16#32 ∧
    16 < (17#32).toNat := ⟨dec_inv, by decide⟩
theorem test_meets_DecIcdfFindsSymbol : dec.Inv ∧ dec.mode = .dec ∧ IcdfTable dec 16#16 8#32 4 ∧
    ∀ n, ¬ IcdfTable dec 16#16 9#32 n := ⟨dec_inv, rfl, table8, fun _ h => absurd h.1 (by decide)⟩
theorem test_meets_DecUintIsProbeCommitBits : dec.Inv ∧ dec.mode = .dec ∧ 2 ≤ (2#32).toNat ∧ (256#32).toNat ≤ 256 ∧
    256 < (0xFFFFFFFF#32).toNat ∧ (1#32).toNat < 2 := ⟨dec_inv, by decide⟩
theorem test_meets_DecBitsReadsField : dec.Inv ∧ dec.mode = .dec ∧ rawOk 5#32 ∧ rawOk 25#32 ∧
    25 < (26#32).toNat := ⟨dec_inv, by decide⟩
theorem test_meets_DecoderKeepsValBelowRng :
    dec.Inv ∧ dec.val.toNat < dec.rng.toNat ∧
    (let x := (3#32).toNat - min (dec.val.toNat / dec.ext.toNat + 1) (3#32).toNat;
      (0#32).toNat ≤ x ∧ x < (1#32).toNat) ∧
    ∃ t, exec (.decUpdate 0#32 1#32 3#32) dec = .next t ∧ decide (t.mode = .dec) = true :=
  ⟨dec_inv, by decide, by decide, answers _ (by decide)⟩
/-- Two symbols from the bench, over 8 bytes; the last needs two passes. -/
theorem test_meets_RangeCodedRoundTrip :
    (bench []).Inv ∧ (∀ x ∈ [Symbol.mk 1#32 2#32 3#32, Symbol.mk 65535#32 65536#32 65536#32], encodeOk x.fl x.fh x.ft) ∧
    (8#32).toNat ≤ (bench []).params.bufCap ∧ exec (.encInit 8#32) (bench []) = .next (encoder 8#32) ∧
    ∃ e, (encoder 8#32).encodeAll [Symbol.mk 1#32 2#32 3#32, Symbol.mk 65535#32 65536#32 65536#32] = some e ∧
      ∃ d, exec .encDone e = .next d ∧ decide (d.error = 0#32) = true :=
  ⟨bench_inv, by decide, by decide, rfl, _, rfl, answers _ (by decide)⟩
/-- Fields of 25 and 12 bits. -/
theorem test_meets_RawBitsRoundTrip :
    (bench []).Inv ∧ (∀ x ∈ [RawField.mk 0x1234567#32 25#32, RawField.mk 0xABC#32 12#32],
      rawOk x.nbits ∧ x.value.toNat < 2 ^ x.nbits.toNat) ∧
    (8#32).toNat ≤ (bench []).params.bufCap ∧ exec (.encInit 8#32) (bench []) = .next (encoder 8#32) ∧
    ∃ e, (encoder 8#32).appendAll [RawField.mk 0x1234567#32 25#32, RawField.mk 0xABC#32 12#32] = some e ∧
      ∃ d, exec .encDone e = .next d ∧ decide (d.error = 0#32) = true :=
  ⟨bench_inv, by decide, by decide, rfl, _, rfl, answers _ (by decide)⟩
theorem test_meets_TellCountsBits : enc.mode ≠ .idle ∧ dec.mode ≠ .idle ∧ (bench []).mode = .idle := by decide
theorem test_meets_TellFracFollowsTable : (enc.Inv ∧ enc.mode ≠ .idle) ∧ (bench []).Inv ∧ (bench []).mode = .idle :=
  ⟨⟨enc_inv, by decide⟩, bench_inv, rfl⟩
theorem test_meets_TellFracEqualsSquaring : 2 ^ 23 < (0x800001#32).toNat ∧ (0x800001#32).toNat ≤ 2 ^ 31 ∧
    (0x80000000#32).toNat ≤ 2 ^ 31 := by decide
theorem test_meets_TellFracIsMonotonic : 2 ^ 23 < (0x800001#32).toNat ∧ (0x800001#32).toNat ≤ (0x80000000#32).toNat ∧
    (0x80000000#32).toNat ≤ 2 ^ 31 := by decide
theorem test_meets_InvariantAtReset : ({ bufCap := 1, tblSize := 1 } : Params).ok ∧ Config.largest.ok := by decide
theorem test_meets_StepKeepsInvariant : enc.Inv ∧
    ∃ t, step { enc with port := [.command (ofWords 0x0A#32 0#32 0#32 0#32)] } = .next t ∧ decide (t.mode = .done) = true :=
  ⟨enc_inv, answers _ (by decide)⟩
theorem test_meets_EveryCommandAnswers : enc.Inv ∧ encEarly.Inv ∧ dec.Inv := ⟨enc_inv, encEarly_inv, dec_inv⟩
theorem test_meets_ErrorIsSticky : ({ dec with error := 1#32 }).error ≠ 0#32 ∧
    ∃ t, exec (.decUint 3#32) { dec with error := 1#32 } = .next t ∧ decide (t.error ≠ 0#32) = true :=
  ⟨by decide, answers _ (by decide)⟩
/-- A full encoder and one with no room for its raw bytes; a patch too early; V-DONE-9 and V-DEC-17. -/
theorem test_meets_ErrorCausesAreThoseListed :
    let full : State := { enc with storage := 5#32 }
    let tooBig : State := decoder 4#32 0#32 255#32 4#32 (bench [0xFF#8, 0xFF#8, 0xFF#8, 0xFF#8])
    let noByte : State := { encoder 1#32 with endWindow := 0x1AB#32, nendBits := 9#32 }
    (full.Inv ∧ (∃ t, exec (.encode 0#32 1#32 65536#32) full = .next t ∧ decide (t.error ≠ full.error) = true) ∧
      ∃ t, exec (.encBits 1#32 25#32) full = .next t ∧ decide (t.error ≠ full.error) = true) ∧
    (encEarly.Inv ∧ ∃ t, exec (.encPatch 0#32 8#32) encEarly = .next t ∧ decide (t.error ≠ encEarly.error) = true) ∧
    (noByte.Inv ∧ noByte.ext.toNat < 2 ^ 32 - 3 ∧
      ∃ t, exec .encDone noByte = .next t ∧ decide (t.error ≠ noByte.error) = true) ∧
    tooBig.Inv ∧ ∃ t, exec (.decUint 257#32) tooBig = .next t ∧ decide (t.error ≠ tooBig.error) = true := by
  refine ⟨⟨?_, answers _ (by decide), answers _ (by decide)⟩, ⟨encEarly_inv, answers _ (by decide)⟩,
    ⟨?_, by decide, answers _ (by decide)⟩, ?_, answers _ (by decide)⟩
  · exact ⟨by decide, by decide, by decide, by decide, by decide, by decide,
      ⟨by decide, by decide, by decide, by decide, by decide, by decide, by decide⟩⟩
  · exact ⟨by decide, by decide, by decide, by decide, by decide, by decide,
      ⟨by decide, by decide, by decide, by decide, by decide, by decide, by decide⟩⟩
  · exact ⟨by decide, by decide, by decide, by decide, by decide, by decide,
      ⟨by decide, by decide, by decide, by decide, by decide, by decide, fun _ h => by cases h⟩⟩
theorem test_meets_UnitWritesOnlyBelowStorage :
    (enc.Inv ∧ ∃ t, exec (.encBits 1#32 25#32) enc = .next t ∧ decide (t.buf ≠ enc.buf) = true) ∧
    dec.mode ≠ .enc ∧ ∃ t, exec (.decInit 3#32) enc = .next t ∧ decide (t.mode = .dec ∧ t.offs = 3#32) = true :=
  ⟨⟨enc_inv, answers _ (by decide)⟩, by decide, answers _ (by decide)⟩
theorem test_meets_FullBufferIsNotWritten :
    let s : State := { enc with storage := 5#32 }
    s.storage.toNat ≤ s.offs.toNat + s.endOffs.toNat ∧
    ∃ t, exec (.encode 0#32 1#32 65536#32) s = .next t ∧ decide (t.error = encFault) = true :=
  ⟨by decide, answers _ (by decide)⟩
theorem test_meets_ModeChangesAsListed : ∃ t, exec .encDone enc = .next t ∧ decide (t.mode ≠ enc.mode) = true :=
  answers _ (by decide)
theorem test_meets_ProbeFollowsCommands : dec.Inv ∧ dec.refusal = none ∧
    ∃ t, exec .tell dec = .next t ∧ decide (t.refusal = none) = true := ⟨dec_inv, rfl, answers _ (by decide)⟩
theorem test_meets_OnlyReturningCommandsWriteResult :
    ∃ t, exec (.decBits 5#32) dec = .next t ∧ decide (t.result ≠ dec.result) = true := answers _ (by decide)
/-- Two states that differ in MODE, the coder registers and PROBE only. -/
theorem test_meets_InitForgetsOldStream :
    let u : State := { dec with mode := .idle, rng := 0#32, val := 1#32, probe := none, endWindow := 7#32 }
    u ≠ dec ∧ u.params = dec.params ∧ u.buf = dec.buf ∧ u.tbl = dec.tbl ∧ u.resets = dec.resets ∧ u.port = dec.port ∧
    u.result = dec.result ∧ u.refusal = dec.refusal ∧ (16#32).toNat ≤ dec.params.bufCap := by decide

end Sys2Proof.Tests
end

section
/-! PROOFS. The statements of 00_scope.md: the operand limits of R4, the bit length of R5, and the invariant at reset for
every pair of parameters that R4 allows. -/

namespace Sys2Proof.Proofs

open Sys2Proof.Machine

/-! ### A command refused by its contract (R4, R54) -/

theorem refusedAs_of_contract {i : Instr} {s : State} {r : RefuseReason} (hm : admittedIn i s.mode = true)
    (hc : contractOf i s = some r) : RefusedAs i s r := by
  unfold RefusedAs
  rw [exec_eq_command, hc]
  exact command_refused hm r _

theorem tableLength_of_not_ftbOk {ftb : Word} (h : ¬ ftbOk ftb) (s : State) (table : TblAddr) :
    s.tableLength table ftb = none := if_neg h

theorem encIcdfContract_of_tableLength_none {s : State} {ftb : Word} {table : TblAddr}
    (h : s.tableLength table ftb = none) (sym : Word) : encIcdfContract sym ftb table s = some .badTable := by
  simp [encIcdfContract, h]

theorem decIcdfContract_of_tableLength_none {s : State} {ftb : Word} {table : TblAddr}
    (h : s.tableLength table ftb = none) : decIcdfContract ftb table s = some .badTable := by
  simp [decIcdfContract, h]

/-- Settles O13: `wf` is the contract itself for the commands whose contract reads no state. A table command with
ftb > 8 has no well-formed table. A command without a static contract is always well formed. -/
theorem operandsOutsideLimitsRefused : Obligations.OperandsOutsideLimitsRefused := by
  intro i s hm hwf hne
  refine refusedAs_of_contract hm ?_
  cases i with
  | encIcdf sym ftb table =>
    exact encIcdfContract_of_tableLength_none (tableLength_of_not_ftbOk (of_decide_eq_false hwf) s table) sym
  | decIcdf ftb table =>
    exact decIcdfContract_of_tableLength_none (tableLength_of_not_ftbOk (of_decide_eq_false hwf) s table)
  | decUpdate fl fh ft => exact absurd rfl (hne fl fh ft)
  | encode | encodeBin | encBitLogp | encUint | encBits | encPatch | decode | decodeBin | decBitLogp | decUint | decBits =>
    exact operands_some (of_decide_eq_false hwf)
  | encInit | encShrink | encDone | decInit | tell | tellFrac | release => cases hwf

/-! ### The bit length (R5) -/

theorem ilog_of_ne_zero {x : Word} (h : x ≠ 0#32) : ilog x = Nat.log2 x.toNat + 1 := if_neg h

theorem two_pow_pred_ilog_le {x : Word} (h : x ≠ 0#32) : 2 ^ (ilog x - 1) ≤ x.toNat := by
  rw [ilog_of_ne_zero h, Nat.add_sub_cancel]
  exact Nat.log2_self_le (by simpa [BitVec.toNat_eq] using h)

theorem lt_two_pow_ilog {x : Word} (h : x ≠ 0#32) : x.toNat < 2 ^ ilog x := by
  rw [ilog_of_ne_zero h]
  exact Nat.lt_log2_self

theorem ilog_pos {x : Word} (h : x ≠ 0#32) : 1 ≤ ilog x := by
  rw [ilog_of_ne_zero h]
  exact Nat.le_add_left 1 _

/-- Settles O15, from the two bounds of `Nat.log2`. -/
theorem ilogIsBitLength : Obligations.IlogIsBitLength :=
  ⟨rfl, fun _ h => ⟨two_pow_pred_ilog_le h, lt_two_pow_ilog h, ilog_pos h⟩⟩

/-! ### The invariant at reset (R19, R20, R160) -/

theorem afterReset_idleInv (p : Params) (n : Nat) (q : List Transaction) : (State.afterReset p n q).IdleInv where
  error := .inl rfl
  probe := rfl

theorem afterReset_inv {p : Params} (h : p.ok) (n : Nat) (q : List Transaction) : (State.afterReset p n q).Inv where
  params := h
  storage := Nat.zero_le _
  bufWf := .nil
  tblWf := .nil
  bufBelow := by simp
  tblBelow := by simp
  mode := afterReset_idleInv p n q

/-- Settles O50: after reset the mode is IDLE, both memories are empty and no stream takes a byte of BUF. -/
theorem invariantAtReset : Obligations.InvariantAtReset :=
  ⟨afterReset_inv (by decide) 0 [], fun _ n q h => afterReset_inv h n q⟩

end Sys2Proof.Proofs
end

section
/-! PROOFS. What each command's rule does, taken apart once, and what it may write, in any state (41_encoder.md,
42_decoder.md). -/

namespace Sys2Proof.Machine

/-! ### What an encoder rule may write (41_encoder.md) -/

/-- `t` comes from `s` by an encoder rule: it may write the stream's registers and BUF, and error ends as it was or at
-1 (R141). MODE, RESULT, PROBE, the REFUSED mark and everything outside the stream stay. -/
structure EncWrites (s t : State) : Prop where
  frame : t = { s with
    storage := t.storage, offs := t.offs, endOffs := t.endOffs, rng := t.rng, val := t.val, ext := t.ext, rem := t.rem
    endWindow := t.endWindow, nendBits := t.nendBits, nbitsTotal := t.nbitsTotal, error := t.error, buf := t.buf }
  error : t.error = s.error ∨ t.error = encFault

theorem EncWrites.trans {s t u : State} (h : EncWrites s t) (k : EncWrites t u) : EncWrites s u where
  frame := by rw [k.frame, h.frame]
  error := by
    rcases k.error with e | e
    · rw [e]; exact h.error
    · exact .inr e

theorem Emits.writes {s t : State} (h : Emits s t) : EncWrites s t := ⟨by rw [h.frame], h.error⟩

theorem Backs.writes {s t : State} (h : Backs s t) : EncWrites s t := ⟨by rw [h.frame], h.error⟩

section
variable {s t : State} (h : EncWrites s t)
include h

theorem EncWrites.mode : t.mode = s.mode := by rw [h.frame]
theorem EncWrites.result : t.result = s.result := by rw [h.frame]
theorem EncWrites.probe : t.probe = s.probe := by rw [h.frame]
theorem EncWrites.refusal : t.refusal = s.refusal := by rw [h.frame]

theorem EncWrites.error_ne_zero (hs : s.error ≠ 0#32) : t.error ≠ 0#32 := by
  rcases h.error with e | e
  · rw [e]; exact hs
  · rw [e]; decide

end

theorem encNormalize_emits {s t : State} (h : s.encNormalize = .ok t) : Emits s t := by
  unfold State.encNormalize at h
  split at h
  · cases h
  · injection h with h; subst h; exact encPasses_emits 3 s

/-- A change of val and rng alone. -/
theorem emits_interval (s : State) (v g : Word) : Emits s { s with val := v, rng := g } :=
  Emits.regs s s.ext g v s.nbitsTotal (.inl rfl)

theorem narrow_emits (s : State) (r : Word) (first : Bool) (above left : Word) : Emits s (s.narrow r first above left) := by
  unfold State.narrow
  split
  · exact emits_interval s s.val _
  · exact emits_interval s _ _

section
variable {s t : State}

theorem encodeRule_emits {fl fh ft : Word} (h : encodeRule fl fh ft s = .ok t) : Emits s t :=
  (narrow_emits _ _ _ _ _).trans (encNormalize_emits h)

theorem encodeBinRule_emits {fl fh bits : Word} (h : encodeBinRule fl fh bits s = .ok t) : Emits s t :=
  (narrow_emits _ _ _ _ _).trans (encNormalize_emits h)

theorem encBitLogpRule_emits {bit : Bool} {logp : Word} (h : encBitLogpRule bit logp s = .ok t) : Emits s t := by
  refine Emits.trans ?_ (encNormalize_emits h)
  split
  · exact emits_interval s _ _
  · exact emits_interval s s.val _

theorem encIcdfRule_emits {sym ftb : Word} {table : TblAddr} (h : encIcdfRule sym ftb table s = .ok t) : Emits s t :=
  (narrow_emits _ _ _ _ _).trans (encNormalize_emits h)

/-- nend_bits as a count (R11). -/
theorem bitCount_ok {n : Nat} (h : s.bitCount = .ok n) : n = s.nendBits.toNat := by
  unfold State.bitCount at h
  split at h
  · cases h
  · injection h with h; exact h.symm

theorem makeRoom_backs (used nbits : Nat) (s : State) : Backs s (makeRoom used nbits s).2 := by
  unfold makeRoom
  split
  · exact flushWindow_backs _ _ _
  · exact Backs.refl s

/-- What ENC_BITS leaves (R80): the room made, and the three registers of the window. -/
theorem encBitsRule_ok {value nbits : Word} (h : encBitsRule value nbits s = .ok t) :
    let m := makeRoom s.nendBits.toNat nbits.toNat s
    t = { m.2 with
      endWindow := m.1.bits ||| (value <<< m.1.count)
      nendBits := BitVec.ofNat 32 (m.1.count + nbits.toNat)
      nbitsTotal := m.2.nbitsTotal + nbits } := by
  unfold encBitsRule at h
  split at h
  · cases h
  · rename_i hb
    rw [bitCount_ok hb] at h
    injection h with h; exact h.symm

theorem encBitsRule_writes {value nbits : Word} (h : encBitsRule value nbits s = .ok t) : EncWrites s t := by
  refine (Backs.writes (makeRoom_backs s.nendBits.toNat nbits.toNat s)).trans ?_
  rw [encBitsRule_ok h]
  exact ⟨rfl, .inl rfl⟩

/-- What ENC_UINT is (R79): an ENCODE alone, or an ENCODE of the high part and then an ENC_BITS of the rest. -/
theorem encUintRule_ok {value total : Word} (h : encUintRule value total s = .ok t) :
    let x := extraBits total
    (x = 0 ∧ encodeRule value (value + 1#32) total s = .ok t) ∨
    (x ≠ 0 ∧ ∃ u, encodeRule (value >>> x) (value >>> x + 1#32) ((total - 1#32) >>> x + 1#32) s = .ok u ∧
      encBitsRule (value &&& (1#32 <<< x - 1#32)) (BitVec.ofNat 32 x) u = .ok t) := by
  unfold encUintRule at h
  dsimp only at h
  split at h
  · exact .inl ⟨‹_›, h⟩
  · split at h
    · cases h
    · exact .inr ⟨‹_›, _, ‹_›, h⟩

theorem encUintRule_writes {value total : Word} (h : encUintRule value total s = .ok t) : EncWrites s t := by
  rcases encUintRule_ok h with ⟨-, h⟩ | ⟨-, u, hu, h⟩
  · exact (encodeRule_emits h).writes
  · exact (encodeRule_emits hu).writes.trans (encBitsRule_writes h)

/-- What ENC_PATCH does (R81): it finds the first byte in BUF, in rem, or in val, or it is too early. -/
theorem encPatchRule_ok {value nbits : Word} (h : encPatchRule value nbits s = .ok t) :
    let n := nbits.toNat
    (0 < s.offs.toNat ∧ ∃ b, t = s.bufWrite 0 b) ∨
    (s.offs = 0#32 ∧ s.remIsByte = true ∧ t = { s with rem := patched s.rem value n }) ∨
    (s.offs = 0#32 ∧ s.remIsByte = false ∧ s.rng ≤ codeTop >>> n ∧
      t = { s with val := (s.val &&& ~~~(patchMask n <<< codeShift)) ||| (value <<< (codeShift + (symBits - n))) }) ∨
    (s.offs = 0#32 ∧ s.remIsByte = false ∧ ¬ s.rng ≤ codeTop >>> n ∧ t = s.forceError encFault) := by
  unfold encPatchRule at h
  dsimp only at h
  split at h
  · injection h with h; exact .inl ⟨‹_›, _, h.symm⟩
  have ho : s.offs = 0#32 := by
    have : ¬ 0 < s.offs.toNat := ‹_›
    exact BitVec.eq_of_toNat_eq (by simp; omega)
  split at h
  · injection h with h; exact .inr (.inl ⟨ho, ‹_›, h.symm⟩)
  have hr : s.remIsByte = false := by simpa using ‹¬ s.remIsByte = true›
  split at h
  · injection h with h; exact .inr (.inr (.inl ⟨ho, hr, ‹_›, h.symm⟩))
  · injection h with h; exact .inr (.inr (.inr ⟨ho, hr, ‹_›, h.symm⟩))

theorem encPatchRule_writes {value nbits : Word} (h : encPatchRule value nbits s = .ok t) : EncWrites s t := by
  rcases encPatchRule_ok h with ⟨-, b, rfl⟩ | ⟨-, -, rfl⟩ | ⟨-, -, -, rfl⟩ | ⟨-, -, -, rfl⟩
  · exact ⟨rfl, .inl rfl⟩
  · exact ⟨rfl, .inl rfl⟩
  · exact ⟨rfl, .inl rfl⟩
  · exact ⟨rfl, .inr rfl⟩

theorem encShrinkRule_ok {size : Word} (h : encShrinkRule size s = .ok t) :
    t = { s.bufWriteAll (size.toNat - s.endOffs.toNat) s.tail with storage := size } := by
  injection h with h; exact h.symm

theorem encShrinkRule_writes {size : Word} (h : encShrinkRule size s = .ok t) : EncWrites s t := by
  rw [encShrinkRule_ok h, bufWriteAll_frame]
  exact ⟨rfl, .inl rfl⟩

/-- Steps 1 to 4 of R83 put out front bytes, then back bytes. -/
theorem flushAll_emits_backs (s : State) (used : Nat) : ∃ u, Emits s u ∧ Backs u (s.flushAll used).2.2 :=
  ⟨_, (emitCode_emits _ _ _ s).trans (flushCarry_emits _), flushWindow_backs _ _ _⟩

/-- Step 5 of R83: the zero fill and the merge, where no error stands. -/
def finishGap (w : Window) (free : Nat) (s : State) : State :=
  if s.error = 0#32 then s.zeroGap.mergeLeftover w free else s

theorem encDoneRule_ok (h : encDoneRule s = .ok t) :
    let f := s.flushAll s.nendBits.toNat
    t = { finishGap f.1 f.2.1 f.2.2 with mode := .done } := by
  unfold encDoneRule at h
  split at h
  · cases h
  · rename_i hb
    rw [bitCount_ok hb] at h
    injection h with h; exact h.symm

theorem zeroGap_error (s : State) : s.zeroGap.error = s.error := by rw [zeroGap_frame]

theorem finishGap_writes (w : Window) (free : Nat) (s : State) : EncWrites s (finishGap w free s) := by
  unfold finishGap
  split
  · refine ⟨?_, ?_⟩
    · rw [mergeLeftover_frame, zeroGap_frame]
    · rw [← zeroGap_error s]; exact mergeLeftover_error _ w free
  · exact ⟨rfl, .inl rfl⟩

theorem encDoneRule_writes (h : encDoneRule s = .ok t) : ∃ u, EncWrites s u ∧ t = { u with mode := .done } := by
  obtain ⟨u, hu, hb⟩ := flushAll_emits_backs s s.nendBits.toNat
  exact ⟨_, (hu.writes.trans hb.writes).trans (finishGap_writes _ _ _), encDoneRule_ok h⟩

end

/-! ### What a decoder rule may write (42_decoder.md) -/

/-- `t` comes from `s` by a decoder rule: it may write the stream's registers, RESULT and PROBE; no memory, no error. -/
def DecWrites (s t : State) : Prop :=
  t = { s with
    offs := t.offs, endOffs := t.endOffs, rng := t.rng, val := t.val, ext := t.ext, rem := t.rem
    endWindow := t.endWindow, nendBits := t.nendBits, nbitsTotal := t.nbitsTotal, result := t.result, probe := t.probe }

theorem DecWrites.trans {s t u : State} (h : DecWrites s t) (k : DecWrites t u) : DecWrites s u := by
  unfold DecWrites at *
  rw [k, h]

section
variable {s t : State} (h : DecWrites s t)
include h

theorem DecWrites.mode : t.mode = s.mode := by rw [h]
theorem DecWrites.error : t.error = s.error := by rw [h]
theorem DecWrites.refusal : t.refusal = s.refusal := by rw [h]

end

theorem readFront_reads (s : State) : Reads s s.readFront.2 where
  frame := by rw [readFront_frame s]
  front h := by rw [(readFront_offs h).2]; exact Nat.min_le_right _ _

theorem Reads.storage {s t : State} (h : Reads s t) : t.storage = s.storage := by rw [h.frame]

theorem Reads.trans {s t u : State} (h : Reads s t) (k : Reads t u) : Reads s u where
  frame := by rw [k.frame, h.frame]
  front hs := by
    have := k.front (by rw [h.storage]; exact h.front hs)
    rwa [h.storage] at this

/-- A change of rng, val, rem and nbits_total alone. -/
theorem Reads.regs (s : State) (g v r n : Word) : Reads s { s with rng := g, val := v, rem := r, nbitsTotal := n } :=
  ⟨rfl, id⟩

theorem decPass_reads (s : State) : Reads s s.decPass := (readFront_reads s).trans (Reads.regs _ _ _ _ _)

theorem decPasses_reads (n : Nat) (s : State) : Reads s (State.decPasses n s) := by
  induction n generalizing s with
  | zero => exact ⟨rfl, id⟩
  | succ n ih =>
    simp only [State.decPasses]
    split
    · exact (decPass_reads s).trans (ih _)
    · exact ⟨rfl, id⟩

theorem decNormalize_reads {s t : State} (h : s.decNormalize = .ok t) : Reads s t := by
  unfold State.decNormalize at h
  split at h
  · cases h
  · injection h with h; subst h; exact decPasses_reads 3 s

theorem Reads.writes {s t : State} (h : Reads s t) : DecWrites s t := by unfold DecWrites; rw [h.frame]
theorem Reads.mode {s t : State} (h : Reads s t) : t.mode = s.mode := by rw [h.frame]
theorem Reads.error {s t : State} (h : Reads s t) : t.error = s.error := by rw [h.frame]
theorem Reads.refusal {s t : State} (h : Reads s t) : t.refusal = s.refusal := by rw [h.frame]
theorem Reads.result {s t : State} (h : Reads s t) : t.result = s.result := by rw [h.frame]
theorem Reads.probe {s t : State} (h : Reads s t) : t.probe = s.probe := by rw [h.frame]

section
variable {s t : State}

/-- The registers of R100 after its first read, before its normalization. -/
def decInitPrimed (size : Word) (s : State) : State :=
  let byte := (s.decInitRegs size).readFront.1.setWidth 32
  { (s.decInitRegs size).readFront.2 with rem := byte, val := 128#32 - 1#32 - byte >>> (symBits - codeExtra) }

theorem decInitPrimed_reads (size : Word) (s : State) : Reads (s.decInitRegs size) (decInitPrimed size s) :=
  (readFront_reads _).trans (Reads.regs _ (s.decInitRegs size).readFront.2.rng _ _ _)

theorem decInitRule_reads {size : Word} (h : decInitRule size s = .ok t) : Reads (s.decInitRegs size) t :=
  (decInitPrimed_reads size s).trans (decNormalize_reads h)

/-- What a probe leaves (R104, R105). -/
theorem probeWith_eq {e : Word} {n : Nat} (h : s.probeWith e n = .ok t) :
    t = { s with ext := e, result := BitVec.ofNat 32 (scaledValue s.val e n), probe := some n } := by
  unfold State.probeWith at h
  split at h
  · cases h
  · injection h with h; exact h.symm

theorem decUpdateRule_reads {fl fh ft : Word} (h : decUpdateRule fl fh ft s = .ok t) : Reads (s.commit fl fh ft) t :=
  decNormalize_reads h

/-- What DEC_BIT_LOGP leaves (R107): its decision, normalized, with RESULT. -/
theorem decBitLogpRule_ok {logp : Word} (h : decBitLogpRule logp s = .ok t) :
    ∃ u, (s.decideBit logp).2.decNormalize = .ok u ∧
      t = { u with result := if (s.decideBit logp).1 then 1#32 else 0#32 } := by
  unfold decBitLogpRule at h
  dsimp only at h
  split at h
  · cases h
  · injection h with h; exact ⟨_, ‹_›, h.symm⟩

theorem decideBit_frame (s : State) (logp : Word) :
    (s.decideBit logp).2 =
      { s with val := (s.decideBit logp).2.val, rng := (s.decideBit logp).2.rng, probe := none } := by
  unfold State.decideBit
  dsimp only
  split <;> rfl

theorem decBitLogpRule_writes {logp : Word} (h : decBitLogpRule logp s = .ok t) : DecWrites s t ∧ t.probe = none := by
  obtain ⟨u, hu, rfl⟩ := decBitLogpRule_ok h
  have hr := decNormalize_reads hu
  rw [decideBit_frame] at hr
  rw [hr.frame]
  exact ⟨rfl, rfl⟩

/-- The part of the interval that the walk of R108 finds, before its normalization. -/
def icdfPart (ftb : Word) (table : TblAddr) (s : State) : State :=
  let w := s.icdfWalk (s.rng >>> ftb.toNat) table (2 ^ ftb.toNat) 0 s.rng
  { s with val := s.val - w.2.2, rng := w.2.1 - w.2.2, probe := none }

theorem decIcdfRule_ok {ftb : Word} {table : TblAddr} (h : decIcdfRule ftb table s = .ok t) :
    ∃ u r, (icdfPart ftb table s).decNormalize = .ok u ∧ t = { u with result := r } := by
  unfold decIcdfRule at h
  dsimp only at h
  split at h
  · cases h
  · injection h with h; exact ⟨_, _, ‹_›, h.symm⟩

theorem decIcdfRule_writes {ftb : Word} {table : TblAddr} (h : decIcdfRule ftb table s = .ok t) :
    DecWrites s t ∧ t.probe = none := by
  obtain ⟨u, r, hu, rfl⟩ := decIcdfRule_ok h
  rw [(decNormalize_reads hu).frame]
  exact ⟨rfl, rfl⟩

theorem refill_reads (avail nbits : Nat) (s : State) : ReadsBack s (refill avail nbits s).2 := by
  unfold refill
  split
  · exact refillWindow_reads _ _ _
  · exact ⟨rfl, id⟩

/-- What DEC_BITS leaves (R110). -/
theorem decBitsRule_ok {nbits : Word} (h : decBitsRule nbits s = .ok t) :
    let f := refill s.nendBits.toNat nbits.toNat s
    t = { f.2 with
      result := f.1.bits &&& (1#32 <<< nbits.toNat - 1#32)
      endWindow := f.1.bits >>> nbits.toNat
      nendBits := BitVec.ofNat 32 (f.1.count - nbits.toNat)
      nbitsTotal := f.2.nbitsTotal + nbits
      probe := none } := by
  unfold decBitsRule at h
  split at h
  · cases h
  · rename_i hb
    rw [bitCount_ok hb] at h
    injection h with h; exact h.symm

theorem decBitsRule_writes {nbits : Word} (h : decBitsRule nbits s = .ok t) : DecWrites s t ∧ t.probe = none := by
  rw [decBitsRule_ok h, (refill_reads _ _ s).frame]
  exact ⟨rfl, rfl⟩

/-- What the probe and commit of R109 are: the probe with its scaled value, and the commit of that part. -/
theorem decodeSymbol_ok {ft : Word} (h : decodeSymbol ft s = .ok t) :
    ∃ u, decodeRule ft s = .ok u ∧ decUpdateRule u.result (u.result + 1#32) ft u = .ok t := by
  unfold decodeSymbol at h
  split at h
  · cases h
  · exact ⟨_, ‹_›, h⟩

theorem decodeRule_writes {ft : Word} (h : decodeRule ft s = .ok t) : DecWrites s t := by
  rw [probeWith_eq h]; rfl

theorem decodeBinRule_writes {bits : Word} (h : decodeBinRule bits s = .ok t) : DecWrites s t := by
  rw [probeWith_eq h]; rfl

theorem commit_writes (s : State) (fl fh ft : Word) : DecWrites s (s.commit fl fh ft) := rfl

theorem decUpdateRule_writes {fl fh ft : Word} (h : decUpdateRule fl fh ft s = .ok t) :
    DecWrites s t ∧ t.probe = none ∧ t.result = s.result := by
  have hr := decUpdateRule_reads h
  exact ⟨(commit_writes s fl fh ft).trans hr.writes, hr.probe, hr.result⟩

theorem decodeSymbol_writes {ft : Word} (h : decodeSymbol ft s = .ok t) : DecWrites s t ∧ t.probe = none := by
  obtain ⟨u, hu, h⟩ := decodeSymbol_ok h
  obtain ⟨hw, hp, -⟩ := decUpdateRule_writes h
  exact ⟨(decodeRule_writes hu).trans hw, hp⟩

/-- What DEC_UINT is (R109): a probe and commit alone, or one of the high part, a DEC_BITS, and the check. -/
theorem decUintRule_ok {total : Word} (h : decUintRule total s = .ok t) :
    let x := extraBits total
    (x = 0 ∧ decodeSymbol total s = .ok t) ∨
    (x ≠ 0 ∧ ∃ u v, decodeSymbol ((total - 1#32) >>> x + 1#32) s = .ok u ∧
      decBitsRule (BitVec.ofNat 32 x) u = .ok v ∧
      t = v.checkUint (u.result <<< x ||| v.result) (total - 1#32)) := by
  unfold decUintRule at h
  dsimp only at h
  split at h
  · exact .inl ⟨‹_›, h⟩
  · split at h
    · cases h
    · split at h
      · cases h
      · injection h with h
        exact .inr ⟨‹_›, _, _, ‹_›, ‹_›, h.symm⟩

/-- The check of R109: the value fits, or RESULT is total - 1 and error is 1 (DC1). -/
theorem checkUint_cases (s : State) (v t : Word) :
    (v ≤ t ∧ s.checkUint v t = { s with result := v, probe := none }) ∨
    (¬ v ≤ t ∧ s.checkUint v t = { s with error := decFault, result := t, probe := none }) := by
  unfold State.checkUint
  split
  · exact .inl ⟨‹_›, rfl⟩
  · exact .inr ⟨‹_›, rfl⟩

theorem decUintRule_writes {total : Word} (h : decUintRule total s = .ok t) :
    DecWrites { s with error := t.error } t ∧ (t.error = s.error ∨ t.error = decFault) ∧ t.probe = none := by
  rcases decUintRule_ok h with ⟨-, h⟩ | ⟨-, u, v, hu, hv, rfl⟩
  · obtain ⟨hw, hp⟩ := decodeSymbol_writes h
    rw [hw.error]
    exact ⟨hw, .inl rfl, hp⟩
  · have hw : DecWrites s v := (decodeSymbol_writes hu).1.trans (decBitsRule_writes hv).1
    rcases checkUint_cases v (u.result <<< extraBits total ||| v.result) (total - 1#32) with ⟨-, e⟩ | ⟨-, e⟩
    · rw [e, hw]; exact ⟨rfl, .inl rfl, rfl⟩
    · rw [e, hw]; exact ⟨rfl, .inr rfl, rfl⟩

end

/-! ### What every command may write -/

/-- What the rule of each command may write; the two INITs and RELEASE write MODE, and so does ENC_DONE. -/
def RuleWrites (i : Instr) (s t : State) : Prop :=
  match i with
  | .encInit size => encInitRule size s = .ok t
  | .encDone => ∃ u, EncWrites { s with probe := none } u ∧ t = { u with mode := .done }
  | .decInit size => Reads (s.decInitRegs size) t
  | .decode ft => decodeRule ft s = .ok t
  | .decodeBin bits => decodeBinRule bits s = .ok t
  | .decUpdate .. => DecWrites s t ∧ t.probe = none ∧ t.result = s.result
  | .decBitLogp _ => DecWrites s t ∧ t.probe = none
  | .decIcdf .. => DecWrites s t ∧ t.probe = none
  | .decBits _ => DecWrites s t ∧ t.probe = none
  | .decUint _ => DecWrites { s with error := t.error } t ∧ (t.error = s.error ∨ t.error = decFault) ∧ t.probe = none
  | .tell => t = { s with result := t.result }
  | .tellFrac => t = { s with result := t.result }
  | .release => t = { s with mode := .idle, probe := none }
  | _ => EncWrites { s with probe := none } t

theorem ruleOf_writes {i : Instr} {s t : State} (h : ruleOf i s = .ok t) : RuleWrites i s t := by
  cases i with
  | encInit | decode | decodeBin => exact h
  | encode => exact (encodeRule_emits (encoderRule_ok h).2).writes
  | encodeBin => exact (encodeBinRule_emits (encoderRule_ok h).2).writes
  | encBitLogp => exact (encBitLogpRule_emits (encoderRule_ok h).2).writes
  | encIcdf => exact (encIcdfRule_emits (encoderRule_ok h).2).writes
  | encUint => exact encUintRule_writes (encoderRule_ok h).2
  | encBits => exact encBitsRule_writes (encoderRule_ok h).2
  | encPatch => exact encPatchRule_writes (encoderRule_ok h).2
  | encShrink => exact encShrinkRule_writes (encoderRule_ok h).2
  | encDone => exact encDoneRule_writes (encoderRule_ok h).2
  | decInit => exact decInitRule_reads h
  | decUpdate => exact decUpdateRule_writes (onStream_ok h).2
  | decBitLogp => exact decBitLogpRule_writes (onStream_ok h).2
  | decIcdf => exact decIcdfRule_writes (onStream_ok h).2
  | decUint => exact decUintRule_writes (onStream_ok h).2
  | decBits => exact decBitsRule_writes (onStream_ok h).2
  | tell => cases h; rfl
  | tellFrac =>
    simp only [ruleOf, tellFracRule] at h
    split at h
    · cases h
    · cases h; rfl
  | release => cases h; rfl

end Sys2Proof.Machine
end

section
/-! PROOFS. The statements of 10_state.md that hold in every state: O6, O8, O12, O53, O57, O58, O59. -/

namespace Sys2Proof.Proofs

open Sys2Proof.Machine

/-! ### Steps and the status interface (R17, R18, R54) -/

theorem step_command {s : State} {p : Packet} {rest : List Transaction} {i : Instr} (hs : s.port = .command p :: rest)
    (hp : decode p = .ok i) : step s = exec i { s with port := rest } := by
  unfold step
  rw [hs]
  simp only [serve, issue, hp]

theorem decode_of_decodeTableWord {nbits w : Nat} {i : Instr} (h : decodeTableWord nbits w = some i) :
    decode (tablePacket nbits w) = .ok i := by
  unfold decodeTableWord at h
  cases hd : decode (tablePacket nbits w) with
  | error r => rw [hd] at h; cases h
  | ok j => rw [hd] at h; injection h with h; rw [h]

theorem step_idle {s : State} (h : s.port = []) : step s = .next s := by
  unfold step
  rw [h]

/-- Settles O6: a step takes the packet off the port, and its decoding is all that `issue` looks at before `exec`. -/
theorem stepRunsDecodedCommand : Obligations.StepRunsDecodedCommand :=
  ⟨fun _ _ _ _ hs hp => step_command hs hp,
    fun _ _ _ _ h => step_command rfl (decode_of_decodeTableWord h),
    fun _ h => step_idle h⟩

/-- Settles O8: `status` copies the registers, and the mode's code is R10's in each mode. -/
theorem statusShowsRegisters : Obligations.StatusShowsRegisters := by
  intro s
  refine ⟨?_, rfl, rfl, rfl, rfl⟩
  unfold State.status
  cases s.mode <;> rfl

/-! ### The REFUSED mark (R21) -/

theorem ruleWrites_refusal {i : Instr} {s t : State} (h : RuleWrites i s t) : t.refusal = s.refusal := by
  cases i with
  | encInit => cases h; rfl
  | encode | encodeBin | encBitLogp | encIcdf | encUint | encBits | encPatch | encShrink => exact (EncWrites.refusal h :)
  | encDone => obtain ⟨u, hu, rfl⟩ := h; exact (EncWrites.refusal hu :)
  | decInit => exact (Reads.refusal h :)
  | decode | decodeBin => rw [probeWith_eq h]
  | decUpdate | decBitLogp | decIcdf | decBits => exact (DecWrites.refusal h.1 :)
  | decUint => exact (DecWrites.refusal h.1 :)
  | tell | tellFrac | release => rw [show t = _ from h]

theorem exec_keeps_refused {i : Instr} {s t : State} (hs : s.refused = true) (h : exec i s = .next t) :
    t.refused = true := by
  rcases exec_next h with ⟨x, rfl⟩ | ⟨-, -, h⟩
  · rfl
  · unfold State.refused
    rw [ruleWrites_refusal (ruleOf_writes h)]
    exact hs

theorem issue_keeps_refused {p : Packet} {s t : State} (hs : s.refused = true) (h : issue p s = .next t) :
    t.refused = true := by
  unfold issue at h
  split at h
  · injection h with h; subst h; rfl
  · exact exec_keeps_refused hs h

theorem hostWriteBuf_next {a : Nat} {v : Byte} {s t : State} (h : hostWriteBuf a v s = .next t) :
    (a < s.params.bufCap ∧ t = s.bufWrite a v) ∨ t = s.refuse .hostBufWrite := by
  unfold hostWriteBuf at h
  split at h
  · split at h
    · injection h with h; exact .inl ⟨‹_›, h.symm⟩
    · cases h
  · injection h with h; exact .inr h.symm

theorem hostWriteTbl_next {a : Nat} {v : Byte} {s t : State} (h : hostWriteTbl a v s = .next t) :
    a < s.params.tblSize ∧ t = { s with tbl := s.tbl.write a v } := by
  unfold hostWriteTbl at h
  split at h
  · injection h with h; exact ⟨‹_›, h.symm⟩
  · cases h

/-- Settles O12: a refused command sets the mark, and no other transaction but a hardware reset writes it. -/
theorem refusedStaysUntilReset : Obligations.RefusedStaysUntilReset := by
  intro s t hs hne h
  unfold step at h
  split at h
  · injection h with h; rwa [← h]
  · rename_i x rest hport
    cases x with
    | command p => exact issue_keeps_refused (s := { s with port := rest }) hs h
    | writeBuf a v =>
      rcases hostWriteBuf_next h with ⟨-, rfl⟩ | rfl
      · exact hs
      · rfl
    | writeTbl a v =>
      obtain ⟨-, rfl⟩ := hostWriteTbl_next h
      exact hs
    | hardwareReset => exact absurd hport (hne rest)

/-! ### MODE, RESULT, PROBE and error (R10, R14 to R16) -/

/-- Settles O57: of the rules only the INITs, ENC_DONE and RELEASE write MODE. -/
theorem modeChangesAsListed : Obligations.ModeChangesAsListed := by
  intro i s t h hne
  rcases exec_next h with ⟨x, rfl⟩ | ⟨hm, -, h⟩
  · exact absurd rfl hne
  have hw := ruleOf_writes h
  cases i with
  | encInit => cases hw; rfl
  | encode | encodeBin | encBitLogp | encIcdf | encUint | encBits | encPatch | encShrink =>
    exact absurd (EncWrites.mode hw :) hne
  | encDone =>
    obtain ⟨u, -, rfl⟩ := hw
    exact ⟨by simpa [admittedIn] using hm, rfl⟩
  | decInit => exact (Reads.mode hw :)
  | decode | decodeBin => exact hne (by rw [probeWith_eq hw])
  | decUpdate | decBitLogp | decIcdf | decUint | decBits => exact hne (DecWrites.mode hw.1 :)
  | tell | tellFrac => exact hne (by rw [show t = _ from hw])
  | release => rw [show t = _ from hw]

/-- Settles O59: the rule of no other command writes RESULT, and a refused command writes the mark alone. -/
theorem onlyReturningCommandsWriteResult : Obligations.OnlyReturningCommandsWriteResult := by
  intro i s t h hne
  rcases exec_next h with ⟨x, rfl⟩ | ⟨-, -, h⟩
  · exact absurd rfl hne
  have hw := ruleOf_writes h
  cases i with
  | decode | decodeBin | decBitLogp | decIcdf | decUint | decBits | tell | tellFrac => trivial
  | encInit => exact hne (by cases hw; rfl)
  | encode | encodeBin | encBitLogp | encIcdf | encUint | encBits | encPatch | encShrink =>
    exact hne (EncWrites.result hw :)
  | encDone =>
    obtain ⟨u, hu, rfl⟩ := hw
    exact hne (EncWrites.result hu :)
  | decInit => exact hne (Reads.result hw :)
  | decUpdate =>
    obtain ⟨-, -, hr⟩ := hw
    exact hne hr
  | release => exact hne (by rw [show t = _ from hw])

/-- Settles O58: an encoder rule starts from PROBE = none and leaves it; a commit, a decision and raw bits clear it. -/
theorem probeFollowsCommands : Obligations.ProbeFollowsCommands := by
  intro i s t _ h _ ht
  rcases exec_next h with ⟨x, rfl⟩ | ⟨-, -, h⟩
  · cases ht
  have hw := ruleOf_writes h
  cases i with
  | encInit => cases hw; rfl
  | encode | encodeBin | encBitLogp | encIcdf | encUint | encBits | encPatch | encShrink => exact (EncWrites.probe hw :)
  | encDone =>
    obtain ⟨u, hu, rfl⟩ := hw
    exact (EncWrites.probe hu :)
  | decInit => exact (Reads.probe hw :)
  | decode | decodeBin => rw [probeWith_eq hw]
  | decUpdate =>
    obtain ⟨-, hp, -⟩ := hw
    exact hp
  | decBitLogp | decIcdf | decBits => exact hw.2
  | decUint =>
    obtain ⟨-, -, hp⟩ := hw
    exact hp
  | tell | tellFrac | release => rw [show t = _ from hw]

/-- Settles O53: an encoder rule leaves error or makes it -1, DEC_UINT leaves it or makes it 1, and no other rule but the
INITs' writes it. -/
theorem errorIsSticky : Obligations.ErrorIsSticky := by
  intro i s t h hs hne hnd
  rcases exec_next h with ⟨x, rfl⟩ | ⟨-, -, h⟩
  · exact hs
  have hw := ruleOf_writes h
  cases i with
  | encInit size => exact absurd rfl (hne size)
  | decInit size => exact absurd rfl (hnd size)
  | encode | encodeBin | encBitLogp | encIcdf | encUint | encBits | encPatch | encShrink =>
    exact (EncWrites.error_ne_zero hw hs :)
  | encDone =>
    obtain ⟨u, hu, rfl⟩ := hw
    exact (EncWrites.error_ne_zero hu hs :)
  | decode | decodeBin => rw [probeWith_eq hw]; exact hs
  | decUpdate | decBitLogp | decIcdf | decBits => rw [DecWrites.error hw.1]; exact hs
  | decUint =>
    obtain ⟨-, he | he, -⟩ := hw
    · rw [he]; exact hs
    · rw [he]; decide
  | tell | tellFrac | release => rw [show t = _ from hw]; exact hs

end Sys2Proof.Proofs
end

section
/-! PROOFS. The invariant taken apart (10_state.md R19, R20): what it says of the memories, of an encoder's registers and
of a decoder's, and which shared operations keep each part. -/

namespace Sys2Proof.Machine

/-! ### The parts of the invariant -/

/-- The part of the invariant that no mode changes: the parameters, the stream inside BUF, and both memories. -/
structure MemOk (s : State) : Prop where
  params   : s.params.ok
  storage  : s.storage.toNat ≤ s.params.bufCap
  bufWf    : s.buf.wf
  tblWf    : s.tbl.wf
  bufBelow : s.buf.below s.params.bufCap
  tblBelow : s.tbl.below s.params.tblSize

theorem inv_iff (s : State) : s.Inv ↔ MemOk s ∧ s.ModeInv :=
  ⟨fun h => ⟨⟨h.params, h.storage, h.bufWf, h.tblWf, h.bufBelow, h.tblBelow⟩, h.mode⟩,
    fun ⟨h, hm⟩ => ⟨h.params, h.storage, h.bufWf, h.tblWf, h.bufBelow, h.tblBelow, hm⟩⟩

/-- R19 but for its clause (b): what ENC and DONE have in common. -/
structure EncRegsOk (s : State) : Prop where
  rng      : s.rngOk
  cursors  : s.offs.toNat + s.endOffs.toNat ≤ s.storage.toNat
  rem      : s.rem = 0xFFFFFFFF#32 ∨ s.rem.toNat ≤ 255
  nendBits : s.nendBits.toNat ≤ 32
  error    : s.error = 0#32 ∨ s.error = encFault
  probe    : s.probe = none

/-- R19 (b) as far as R81 lets it hold (log entry 9). -/
def SumOk (s : State) : Prop := s.valRngOk ∨ s.firstByteInVal ∧ 2 ^ 31 ≤ s.val.toNat

theorem encInv_iff (s : State) : s.EncInv ↔ EncRegsOk s ∧ (s.mode = .enc → SumOk s) :=
  ⟨fun h => ⟨⟨h.rng, h.cursors, h.rem, h.nendBits, h.error, h.probe⟩, h.valRng⟩,
    fun ⟨h, hs⟩ => ⟨h.rng, hs, h.cursors, h.rem, h.nendBits, h.error, h.probe⟩⟩

/-- R20 but for its clause on PROBE. -/
structure DecRegsOk (s : State) : Prop where
  rng      : s.rngOk
  front    : s.offs.toNat ≤ s.storage.toNat
  back     : s.endOffs.toNat ≤ s.storage.toNat
  rem      : s.rem.toNat ≤ 255
  nendBits : s.nendBits.toNat ≤ 31
  error    : s.error = 0#32 ∨ s.error = decFault

/-- While PROBE holds a total, ext is the quotient of that total's probe (R15). -/
def ProbeOk (s : State) : Prop := ∀ ft, s.probe = some ft → (1 ≤ ft ∧ ft ≤ totalMax) ∧ s.ext.toNat = s.rng.toNat / ft

theorem decInv_iff (s : State) : s.DecInv ↔ DecRegsOk s ∧ ProbeOk s :=
  ⟨fun h => ⟨⟨h.rng, h.front, h.back, h.rem, h.nendBits, h.error⟩, h.probe⟩,
    fun ⟨h, hp⟩ => ⟨h.rng, h.front, h.back, h.rem, h.nendBits, h.error, hp⟩⟩

theorem probeOk_of_none {s : State} (h : s.probe = none) : ProbeOk s := by
  intro ft hft
  rw [h] at hft
  cases hft

theorem modeInv_of_enc {s : State} (hm : s.mode = .enc) : s.ModeInv ↔ EncRegsOk s ∧ SumOk s := by
  have e : s.ModeInv ↔ s.EncInv := by unfold State.ModeInv; rw [hm]
  rw [e, encInv_iff]
  simp [hm]

theorem modeInv_of_done {s : State} (hm : s.mode = .done) : s.ModeInv ↔ EncRegsOk s := by
  have e : s.ModeInv ↔ s.EncInv := by unfold State.ModeInv; rw [hm]
  rw [e, encInv_iff]
  simp [hm]

theorem modeInv_of_dec {s : State} (hm : s.mode = .dec) : s.ModeInv ↔ DecRegsOk s ∧ ProbeOk s := by
  have e : s.ModeInv ↔ s.DecInv := by unfold State.ModeInv; rw [hm]
  rw [e, decInv_iff]

theorem modeInv_of_idle {s : State} (hm : s.mode = .idle) : s.ModeInv ↔ s.IdleInv := by
  unfold State.ModeInv; rw [hm]

/-- The invariant of the mode does not see RESULT, the REFUSED mark, the memories or the port. -/
theorem modeInv_congr {s t : State}
    (h : t = { s with
      nbitsTotal := t.nbitsTotal, result := t.result, refusal := t.refusal, buf := t.buf, tbl := t.tbl, port := t.port })
    (hs : s.ModeInv) : t.ModeInv := by
  have hm : t.mode = s.mode := by rw [h]
  cases hms : s.mode with
  | idle =>
    rw [modeInv_of_idle hms] at hs
    rw [modeInv_of_idle (hm.trans hms), h]
    exact ⟨hs.error, hs.probe⟩
  | enc =>
    obtain ⟨r, hsum⟩ := (modeInv_of_enc hms).mp hs
    rw [modeInv_of_enc (hm.trans hms), h]
    exact ⟨⟨r.rng, r.cursors, r.rem, r.nendBits, r.error, r.probe⟩, hsum⟩
  | dec =>
    obtain ⟨r, hp⟩ := (modeInv_of_dec hms).mp hs
    rw [modeInv_of_dec (hm.trans hms), h]
    exact ⟨⟨r.rng, r.front, r.back, r.rem, r.nendBits, r.error⟩, hp⟩
  | done =>
    have r := (modeInv_of_done hms).mp hs
    rw [modeInv_of_done (hm.trans hms), h]
    exact ⟨r.rng, r.cursors, r.rem, r.nendBits, r.error, r.probe⟩

/-- In every mode error is 0, -1 or 1 (R14, R141). -/
theorem modeInv_error {s : State} (h : s.ModeInv) : s.error = 0#32 ∨ s.error = encFault ∨ s.error = decFault := by
  cases hm : s.mode with
  | idle => exact ((modeInv_of_idle hm).mp h).error
  | enc => exact ((modeInv_of_enc hm).mp h).1.error.imp_right .inl
  | dec => exact ((modeInv_of_dec hm).mp h).1.error.imp_right .inr
  | done => exact ((modeInv_of_done hm).mp h).error.imp_right .inl

/-! ### Which operations keep the memories -/

theorem MemOk.bufWrite {s : State} (h : MemOk s) {a : Nat} (ha : a < s.storage.toNat) (v : Byte) :
    MemOk (s.bufWrite a v) where
  params := h.params
  storage := h.storage
  bufWf := Memory.write_wf h.bufWf a v
  tblWf := h.tblWf
  bufBelow := Memory.write_below h.bufBelow (Nat.lt_of_lt_of_le ha h.storage) v
  tblBelow := h.tblBelow

theorem MemOk.bufWriteAll {s : State} (h : MemOk s) {a : Nat} {vs : List Byte} (ha : a + vs.length ≤ s.storage.toNat) :
    MemOk (s.bufWriteAll a vs) := by
  have hw := bufWriteAll_wf vs h.bufWf a
  have hb := bufWriteAll_below vs h.bufBelow (Nat.le_trans ha h.storage)
  rw [bufWriteAll_frame]
  exact ⟨h.params, h.storage, hw, h.tblWf, hb, h.tblBelow⟩

theorem MemOk.emits {s t : State} (h : MemOk s) (he : Emits s t) : MemOk t := by
  have hw := he.wf h.bufWf
  have hb := he.below _ h.storage h.bufBelow
  rw [he.frame]
  exact ⟨h.params, h.storage, hw, h.tblWf, hb, h.tblBelow⟩

theorem MemOk.backs {s t : State} (h : MemOk s) (hk : Backs s t) : MemOk t := by
  have hw := hk.wf h.bufWf
  have hb := hk.below _ h.storage h.bufBelow
  rw [hk.frame]
  exact ⟨h.params, h.storage, hw, h.tblWf, hb, h.tblBelow⟩

theorem MemOk.decWrites {s t : State} (h : MemOk s) (hw : DecWrites s t) : MemOk t := by
  rw [hw]
  exact ⟨h.params, h.storage, h.bufWf, h.tblWf, h.bufBelow, h.tblBelow⟩

/-! ### Which operations keep an encoder's registers -/

theorem EncRegsOk.emits {s t : State} (h : EncRegsOk s) (he : Emits s t) (hr : t.rngOk) : EncRegsOk t where
  rng := hr
  cursors := by rw [he.storage, he.endOffs]; exact he.room h.cursors
  rem := by
    rcases he.rem with e | e
    · rw [e]; exact h.rem
    · exact .inr e
  nendBits := by rw [he.frame]; exact h.nendBits
  error := by
    rcases he.error with e | e
    · rw [e]; exact h.error
    · exact .inr e
  probe := by rw [he.frame]; exact h.probe

theorem EncRegsOk.backs {s t : State} (h : EncRegsOk s) (hk : Backs s t) : EncRegsOk t where
  rng := by rw [hk.frame]; exact h.rng
  cursors := by rw [hk.storage, hk.offs]; exact hk.room h.cursors
  rem := by rw [hk.frame]; exact h.rem
  nendBits := by rw [hk.frame]; exact h.nendBits
  error := by
    rcases hk.error with e | e
    · rw [e]; exact h.error
    · exact .inr e
  probe := by rw [hk.frame]; exact h.probe

end Sys2Proof.Machine
end

section
/-! PROOFS. What the ten encoder commands (41_encoder.md) keep of the invariant. -/

namespace Sys2Proof.Machine

/-! ### A narrowing and its normalization (R74 to R78) -/

/-- `u` is `s` with the interval narrowed to a part of it that is not empty: the low end goes up by `d`. -/
structure Narrows (s u : State) : Prop where
  frame : u = { s with val := u.val, rng := u.rng }
  pos   : 0 < u.rng.toNat
  part  : ∃ d, u.val.toNat = (s.val.toNat + d) % 2 ^ 32 ∧ d + u.rng.toNat ≤ s.rng.toNat

theorem Narrows.emits {s u : State} (h : Narrows s u) : Emits s u := by
  rw [h.frame]; exact emits_interval s _ _

theorem Narrows.rng_le {s u : State} (h : Narrows s u) : u.rng.toNat ≤ s.rng.toNat := by
  obtain ⟨d, -, hd⟩ := h.part
  omega

theorem Narrows.valRngOk {s u : State} (h : Narrows s u) (hs : s.valRngOk) : u.valRngOk := by
  obtain ⟨d, hv, hd⟩ := h.part
  unfold State.valRngOk at *
  omega

/-- Where the low end wraps, it lands below the old one; where it does not, a set bit 31 stays set. -/
theorem Narrows.sumOk {s u : State} (h : Narrows s u) (hr : s.rng.toNat ≤ 2 ^ 31) (hs : SumOk s) : SumOk u := by
  rcases hs with hs | ⟨hf, hv⟩
  · exact .inl (h.valRngOk hs)
  obtain ⟨d, hd, hle⟩ := h.part
  by_cases hw : s.val.toNat + d < 2 ^ 32
  · refine .inr ⟨by rw [h.frame]; exact hf, ?_⟩
    omega
  · refine .inl ?_
    have := s.val.isLt
    have := h.pos
    unfold State.valRngOk
    omega

/-- No pass is due above CODE_BOT (R74). -/
theorem encNormalize_of_gt {s : State} (h : 2 ^ 23 < s.rng.toNat) : s.encNormalize = .ok s := by
  have h0 : s.rng ≠ 0#32 := by intro e; simp [e] at h
  simp only [State.encNormalize, State.encPasses, le_codeBot_iff]
  rw [if_neg h0, if_neg (by omega)]

/-- A pass leaves val below CODE_TOP (R74). -/
theorem encNormalize_valRngOk {s t : State} (h0 : 0 < s.rng.toNat) (h : s.rng.toNat ≤ 2 ^ 23)
    (ht : s.encNormalize = .ok t) : t.valRngOk := by
  obtain ⟨u, k, hu, -, hp, -, hg, hv, -⟩ := encNormalize_ok h0 (by omega)
  obtain rfl : u = t := by rw [hu] at ht; injection ht
  have hk : k ≠ 0 := by
    rintro rfl
    have := passes_zero hp
    omega
  have := hp.2
  unfold State.valRngOk
  rw [hv, hg, shiftedVal, if_neg hk]
  omega

theorem encNormalize_rngOk {s t : State} (h0 : 0 < s.rng.toNat) (h : s.rng.toNat ≤ 2 ^ 31)
    (ht : s.encNormalize = .ok t) : t.rngOk := by
  obtain ⟨u, k, hu, -, hp, -, hg, -⟩ := encNormalize_ok h0 h
  obtain rfl : u = t := by rw [hu] at ht; injection ht
  unfold State.rngOk
  rw [hg]
  exact hp

/-- From `s`, which meets an encoder's invariant, to `t`: the memories and the registers meet it again, and R19 (b) is
kept, both as far as R81 lets it hold and exactly. -/
structure KeepsEnc (s t : State) : Prop where
  mem   : MemOk t
  regs  : EncRegsOk t
  sum   : SumOk s → SumOk t
  exact : s.valRngOk → t.valRngOk

theorem KeepsEnc.trans {s t u : State} (h : KeepsEnc s t) (k : KeepsEnc t u) : KeepsEnc s u :=
  ⟨k.mem, k.regs, k.sum ∘ h.sum, k.exact ∘ h.exact⟩

section
variable {s t : State} (hm : MemOk s) (hr : EncRegsOk s)
include hm hr

/-- A narrowing and its normalization: with no pass due the sum is the narrowed one, and a pass leaves val below
CODE_TOP. -/
theorem narrows_keeps {u : State} (hn : Narrows s u) (h : u.encNormalize = .ok t) : KeepsEnc s t := by
  have hle : u.rng.toNat ≤ 2 ^ 31 := Nat.le_trans hn.rng_le hr.rng.2
  have he := hn.emits.trans (encNormalize_emits h)
  have hb : (SumOk s → SumOk t) ∧ (s.valRngOk → t.valRngOk) := by
    rcases Nat.lt_or_ge (2 ^ 23) u.rng.toNat with hg | hg
    · obtain rfl : u = t := by rw [encNormalize_of_gt hg] at h; injection h
      exact ⟨hn.sumOk hr.rng.2, hn.valRngOk⟩
    · have hv := encNormalize_valRngOk hn.pos hg h
      exact ⟨fun _ => .inl hv, fun _ => hv⟩
  exact ⟨hm.emits he, hr.emits he (encNormalize_rngOk hn.pos hle h), hb.1, hb.2⟩

end

/-! ### The parts of the total -/

theorem toNat_ushiftRight_div (x : Word) (n : Nat) : (x >>> n).toNat = x.toNat / 2 ^ n := by
  rw [BitVec.toNat_ushiftRight, Nat.shiftRight_eq_div_pow]

theorem toNat_one_shl {n : Nat} (h : n ≤ 31) : (1#32 <<< n).toNat = 2 ^ n := by
  have : 2 ^ n < 2 ^ 32 := Nat.pow_lt_pow_right (by decide) (by omega)
  rw [BitVec.toNat_shiftLeft, Nat.shiftLeft_eq]
  simpa using this

theorem two_pow_le_total {n : Nat} (h : n ≤ 16) : 2 ^ n ≤ 65536 := Nat.pow_le_pow_right (by decide) h

/-- The narrowing step: `above` and `left` count the parts, of width `r`, above the symbol's two bounds. The first symbol
keeps the low end. -/
theorem narrow_narrows {s : State} {r above left : Word} {first : Bool} (hr : 0 < r.toNat)
    (hf : first = true → r.toNat * left.toNat < s.rng.toNat)
    (ho : first = false → left.toNat < above.toNat ∧ r.toNat * above.toNat ≤ s.rng.toNat) :
    Narrows s (s.narrow r first above left) := by
  have hg := s.rng.isLt
  cases first with
  | true =>
    have hl := hf rfl
    have e : (r * left).toNat = r.toNat * left.toNat := BitVec.toNat_mul_of_lt (by omega)
    have er : (s.rng - r * left).toNat = s.rng.toNat - r.toNat * left.toNat := by
      rw [BitVec.toNat_sub_of_le (by rw [BitVec.le_def, e]; omega), e]
    refine ⟨rfl, ?_, 0, ?_, ?_⟩
    · show 0 < (s.rng - r * left).toNat
      omega
    · exact (Nat.mod_eq_of_lt s.val.isLt).symm
    · show 0 + (s.rng - r * left).toNat ≤ _
      omega
  | false =>
    obtain ⟨hla, hle⟩ := ho rfl
    have hlt : r.toNat * left.toNat < r.toNat * above.toNat := Nat.mul_lt_mul_of_pos_left hla hr
    have ea : (r * above).toNat = r.toNat * above.toNat := BitVec.toNat_mul_of_lt (by omega)
    have es : (above - left).toNat = above.toNat - left.toNat := BitVec.toNat_sub_of_le (by rw [BitVec.le_def]; omega)
    have ew : (r * (above - left)).toNat = r.toNat * above.toNat - r.toNat * left.toNat := by
      rw [BitVec.toNat_mul_of_lt, es, Nat.mul_sub]
      rw [es, Nat.mul_sub]; omega
    refine ⟨rfl, ?_, s.rng.toNat - r.toNat * above.toNat, ?_, ?_⟩
    · show 0 < (r * (above - left)).toNat
      omega
    · show (s.val + s.rng - r * above).toNat = _
      rw [BitVec.toNat_sub, BitVec.toNat_add, ea]
      omega
    · show _ + (r * (above - left)).toNat ≤ _
      omega

/-- The narrowing of R75 and R76: the total `n` has parts of width `r`, and the symbol's lie from `fl` to `fh`. -/
theorem narrow_narrows_parts {s : State} {r fl fh n : Word} (hr : 0 < r.toNat) (hn : r.toNat * n.toNat ≤ s.rng.toNat)
    (hl : fl.toNat < fh.toNat) (hh : fh.toNat ≤ n.toNat) :
    Narrows s (s.narrow r (fl == 0#32) (n - fl) (n - fh)) := by
  have ea : (n - fl).toNat = n.toNat - fl.toNat := BitVec.toNat_sub_of_le (by rw [BitVec.le_def]; omega)
  have el : (n - fh).toNat = n.toNat - fh.toNat := BitVec.toNat_sub_of_le (by rw [BitVec.le_def]; omega)
  refine narrow_narrows hr (fun _ => ?_) (fun _ => ⟨by omega, ?_⟩)
  · rw [el]
    exact Nat.lt_of_lt_of_le (Nat.mul_lt_mul_of_pos_left (by omega) hr) hn
  · rw [ea]
    exact Nat.le_trans (Nat.mul_le_mul_left _ (Nat.sub_le _ _)) hn

section
variable {s : State} (hr : s.rngOk)
include hr

/-- A part of at most 2^16 parts of the interval is not empty (R112). -/
theorem part_pos {n : Nat} (hn : n ≤ 65536) (h0 : 0 < n) : 0 < s.rng.toNat / n :=
  Nat.lt_of_lt_of_le (by decide) (quotient_ge hr.1 h0 hn)

theorem encode_narrows {fl fh ft : Word} (hc : encodeOk fl fh ft) :
    Narrows s (s.narrow (s.rng / ft) (fl == 0#32) (ft - fl) (ft - fh)) := by
  obtain ⟨h1, hmax, hl, hh⟩ := hc
  refine narrow_narrows_parts ?_ ?_ hl hh
  · rw [BitVec.toNat_udiv]; exact part_pos hr hmax h1
  · rw [BitVec.toNat_udiv]; exact Nat.div_mul_le_self _ _

theorem shift_part_pos {n : Nat} (h : n ≤ 16) : 0 < (s.rng >>> n).toNat := by
  rw [toNat_ushiftRight_div]
  exact part_pos hr (two_pow_le_total h) (Nat.two_pow_pos n)

theorem encodeBin_narrows {fl fh bits : Word} (hc : encodeBinOk fl fh bits) :
    Narrows s (s.narrow (s.rng >>> bits.toNat) (fl == 0#32) (1#32 <<< bits.toNat - fl) (1#32 <<< bits.toNat - fh)) := by
  obtain ⟨hb, hl, hh⟩ := hc
  have hb : bits.toNat ≤ 16 := hb
  have hp := toNat_one_shl (n := bits.toNat) (by omega)
  refine narrow_narrows_parts (shift_part_pos hr hb) ?_ hl (by rw [hp]; exact hh)
  rw [hp, toNat_ushiftRight_div]
  exact Nat.div_mul_le_self _ _

/-- The two parts of R77 and R107: the top rng >> logp, and what lies below it. -/
theorem split_pos {n : Nat} (h1 : 1 ≤ n) (h : n ≤ 16) :
    0 < (s.rng >>> n).toNat ∧ 0 < (s.rng - s.rng >>> n).toNat ∧
    (s.rng - s.rng >>> n).toNat = s.rng.toNat - (s.rng >>> n).toNat ∧ (s.rng >>> n).toNat ≤ s.rng.toNat := by
  have hp := shift_part_pos hr h
  have hlt : (s.rng >>> n).toNat < s.rng.toNat := by
    rw [toNat_ushiftRight_div]
    have := hr.1
    exact Nat.div_lt_self (by omega) (Nat.one_lt_two_pow (by omega))
  have e : (s.rng - s.rng >>> n).toNat = s.rng.toNat - (s.rng >>> n).toNat :=
    BitVec.toNat_sub_of_le (by rw [BitVec.le_def]; omega)
  exact ⟨hp, by omega, e, by omega⟩

theorem encBitLogp_narrows {logp : Word} (hc : logpOk logp) (bit : Bool) :
    let one := s.rng >>> logp.toNat
    let zero := s.rng - one
    Narrows s (if bit then { s with val := s.val + zero, rng := one } else { s with rng := zero }) := by
  obtain ⟨hp1, hp0, e, hle⟩ := split_pos hr hc.1 hc.2
  cases bit with
  | true => exact ⟨rfl, hp1, (s.rng - s.rng >>> logp.toNat).toNat, BitVec.toNat_add _ _, by
      show _ + (s.rng >>> logp.toNat).toNat ≤ _; omega⟩
  | false => exact ⟨rfl, hp0, 0, (Nat.mod_eq_of_lt s.val.isLt).symm, by
      show 0 + (s.rng - s.rng >>> logp.toNat).toNat ≤ _; omega⟩

end

/-! ### Inverse-CDF tables (R32) -/

/-- The entries of a well-formed table fall: each is below the bound, and below the entry before it. -/
theorem tableFrom_falls {s : State} {m a prev n : Nat} (h : s.tableFrom m a prev = some n) {k : Nat} (hk : k < n) :
    (s.tblByte (a + k)).toNat < prev ∧ (0 < k → (s.tblByte (a + k)).toNat < (s.tblByte (a + k - 1)).toNat) := by
  induction m generalizing a prev n k with
  | zero => cases h
  | succ m ih =>
    obtain ⟨-, -, hlt⟩ := tableFrom_some h
    simp only [State.tableFrom] at h
    split at h
    · cases h
    split at h
    · cases h
    cases k with
    | zero => exact ⟨hlt, fun h0 => absurd h0 (Nat.lt_irrefl 0)⟩
    | succ k =>
      split at h
      · injection h with h; omega
      obtain ⟨l, hl, rfl⟩ := Option.map_eq_some_iff.mp h
      obtain ⟨h1, h2⟩ := ih hl (k := k) (by omega)
      have e : a + (k + 1) = a + 1 + k := by omega
      rw [e]
      refine ⟨by omega, fun _ => ?_⟩
      cases k with
      | zero => exact h1
      | succ k => exact h2 (Nat.succ_pos k)

theorem toNat_icdf (s : State) (t : TblAddr) (k : Nat) : (s.icdf t k).toNat = (s.tblByte (t.toNat + k)).toNat := by
  have := (s.tblByte (t.toNat + k)).isLt
  rw [State.icdf, BitVec.toNat_setWidth]
  omega

theorem tableLength_some {s : State} {t : TblAddr} {ftb : Word} {n : Nat} (h : s.tableLength t ftb = some n) :
    ftb.toNat ≤ 8 ∧ s.tableFrom (2 ^ ftb.toNat) t.toNat (2 ^ ftb.toNat) = some n := by
  unfold State.tableLength at h
  split at h
  · exact ⟨‹_›, h⟩
  · cases h

theorem encIcdf_narrows {s : State} (hr : s.rngOk) {sym ftb : Word} {table : TblAddr} {n : Nat}
    (ht : s.tableLength table ftb = some n) (hs : sym.toNat < n) :
    Narrows s (s.narrow (s.rng >>> ftb.toNat) (sym == 0#32) (s.icdf table (sym.toNat - 1)) (s.icdf table sym.toNat)) := by
  obtain ⟨hftb, hf⟩ := tableLength_some ht
  have hp : 0 < (s.rng >>> ftb.toNat).toNat := shift_part_pos hr (by omega)
  have hle : (s.rng >>> ftb.toNat).toNat * 2 ^ ftb.toNat ≤ s.rng.toNat := by
    rw [toNat_ushiftRight_div]; exact Nat.div_mul_le_self _ _
  have hsym := tableFrom_falls hf hs
  refine narrow_narrows hp (fun _ => ?_) (fun h0 => ?_)
  · rw [toNat_icdf]
    exact Nat.lt_of_lt_of_le (Nat.mul_lt_mul_of_pos_left hsym.1 hp) hle
  · have h0 : 0 < sym.toNat := by
      refine Nat.pos_of_ne_zero fun e => ?_
      have : sym = 0#32 := BitVec.eq_of_toNat_eq (by simpa using e)
      simp [this] at h0
    have hprev := (tableFrom_falls hf (k := sym.toNat - 1) (by omega)).1
    rw [toNat_icdf, toNat_icdf, ← Nat.add_sub_assoc h0]
    rw [← Nat.add_sub_assoc h0] at hprev
    exact ⟨hsym.2 h0, Nat.le_trans (Nat.mul_le_mul_left _ hprev.le) hle⟩

/-! ### The narrowing commands -/

section
variable {s t : State} (hm : MemOk s) (hr : EncRegsOk s)
include hm hr

theorem encodeRule_keeps {fl fh ft : Word} (hc : encodeOk fl fh ft) (h : encodeRule fl fh ft s = .ok t) :
    KeepsEnc s t := narrows_keeps hm hr (encode_narrows hr.rng hc) h

theorem encodeBinRule_keeps {fl fh bits : Word} (hc : encodeBinOk fl fh bits) (h : encodeBinRule fl fh bits s = .ok t) :
    KeepsEnc s t := narrows_keeps hm hr (encodeBin_narrows hr.rng hc) h

theorem encBitLogpRule_keeps {bit : Bool} {logp : Word} (hc : logpOk logp) (h : encBitLogpRule bit logp s = .ok t) :
    KeepsEnc s t := narrows_keeps hm hr (encBitLogp_narrows hr.rng hc bit) h

theorem encIcdfRule_keeps {sym ftb : Word} {table : TblAddr} {n : Nat} (ht : s.tableLength table ftb = some n)
    (hs : sym.toNat < n) (h : encIcdfRule sym ftb table s = .ok t) : KeepsEnc s t :=
  narrows_keeps hm hr (encIcdf_narrows hr.rng ht hs) h

end

/-! ### Raw bits (R80) -/

/-- The room made leaves at most 32 bits with the new field. -/
theorem makeRoom_count {used nbits : Nat} (hn : nbits ≤ 25) (s : State) :
    (makeRoom used nbits s).1.count + nbits ≤ 32 := by
  unfold makeRoom
  split
  · rw [(flushWindow_window (by simp only [State.window]; omega) s).1]
    simp only [State.window]; omega
  · simp only [State.window, windowSize] at *; omega

theorem encBitsRule_keeps {s t : State} (hm : MemOk s) (hr : EncRegsOk s) {value nbits : Word} (hc : rawOk nbits)
    (h : encBitsRule value nbits s = .ok t) : KeepsEnc s t := by
  have hb := makeRoom_backs s.nendBits.toNat nbits.toNat s
  have hcount := makeRoom_count (used := s.nendBits.toNat) (nbits := nbits.toNat) hc.2 s
  have hm' := hm.backs hb
  have hr' := hr.backs hb
  have ht := encBitsRule_ok h
  refine ⟨?_, ?_, ?_, ?_⟩
  · rw [ht]; exact ⟨hm'.params, hm'.storage, hm'.bufWf, hm'.tblWf, hm'.bufBelow, hm'.tblBelow⟩
  · rw [ht]
    refine ⟨hr'.rng, hr'.cursors, hr'.rem, ?_, hr'.error, hr'.probe⟩
    simp only [BitVec.toNat_ofNat]
    omega
  · rw [ht, hb.frame]; exact id
  · rw [ht, hb.frame]; exact id

/-! ### Uniform integers (R79, R109) -/

/-- The total of the high part of a uniform integer below `total`: `total` itself where it is not split. -/
def splitTotal (total : Word) : Word := (total - 1#32) >>> extraBits total + 1#32

theorem toNat_pred {x : Word} (h : 1 ≤ x.toNat) : (x - 1#32).toNat = x.toNat - 1 :=
  BitVec.toNat_sub_of_le (by rw [BitVec.le_def]; simpa using h)

theorem ilog_le (x : Word) : ilog x ≤ 32 := by
  by_cases h : x = 0#32
  · simp [ilog, h]
  · have := Nat.lt_of_le_of_lt (Proofs.two_pow_pred_ilog_le h) x.isLt
    have := (Nat.pow_lt_pow_iff_right (by decide)).mp this
    omega

theorem extraBits_le (total : Word) : extraBits total ≤ 24 := by
  have := ilog_le (total - 1#32)
  unfold extraBits uintBits
  omega

/-- The high part of total - 1 has at most 8 bits. -/
theorem high_lt {total : Word} (h : 2 ≤ total.toNat) : (total.toNat - 1) / 2 ^ extraBits total < 256 := by
  have e := toNat_pred (x := total) (by omega)
  have h0 : total - 1#32 ≠ 0#32 := by
    intro h0
    rw [h0] at e
    simp at e; omega
  have hl := Proofs.lt_two_pow_ilog h0
  rw [e] at hl
  have hp : 2 ^ ilog (total - 1#32) ≤ 2 ^ (8 + extraBits total) :=
    Nat.pow_le_pow_right (by decide) (by unfold extraBits uintBits; omega)
  rw [Nat.div_lt_iff_lt_mul (Nat.two_pow_pos _)]
  rw [Nat.pow_add] at hp
  omega

theorem toNat_splitTotal {total : Word} (h : 2 ≤ total.toNat) :
    (splitTotal total).toNat = (total.toNat - 1) / 2 ^ extraBits total + 1 := by
  have := high_lt h
  have e : ((total - 1#32) >>> extraBits total).toNat = (total.toNat - 1) / 2 ^ extraBits total := by
    rw [toNat_ushiftRight_div, toNat_pred (by omega)]
  rw [splitTotal, BitVec.toNat_add_of_lt, e]
  · rfl
  · rw [e]; simp; omega

theorem splitTotal_of_unsplit {total : Word} (h : extraBits total = 0) : splitTotal total = total := by
  unfold splitTotal
  rw [h, BitVec.ushiftRight_zero, BitVec.sub_add_cancel]

/-- The high part of a uniform integer meets the contract of ENCODE. -/
theorem encodeOk_high {value total : Word} (hc : encUintOk value total) :
    encodeOk (value >>> extraBits total) (value >>> extraBits total + 1#32) (splitTotal total) := by
  obtain ⟨h2, hv⟩ := hc
  have h2 : 2 ≤ total.toNat := h2
  have hlt := high_lt h2
  have hle : value.toNat / 2 ^ extraBits total ≤ (total.toNat - 1) / 2 ^ extraBits total :=
    Nat.div_le_div_right (by omega)
  have e := toNat_ushiftRight_div value (extraBits total)
  have e1 : (value >>> extraBits total + 1#32).toNat = value.toNat / 2 ^ extraBits total + 1 := by
    rw [toNat_succ (n := 256) (by omega) (by decide), e]
  unfold encodeOk totalMax
  rw [toNat_splitTotal h2, e, e1]
  omega

theorem toNat_ofNat_extraBits (total : Word) : (BitVec.ofNat 32 (extraBits total)).toNat = extraBits total := by
  have := extraBits_le total
  rw [BitVec.toNat_ofNat]
  omega

theorem rawOk_extraBits {total : Word} (h : extraBits total ≠ 0) : rawOk (BitVec.ofNat 32 (extraBits total)) := by
  have := extraBits_le total
  unfold rawOk rawMax
  rw [toNat_ofNat_extraBits]
  omega

theorem encUintRule_keeps {s t : State} (hm : MemOk s) (hr : EncRegsOk s) {value total : Word}
    (hc : encUintOk value total) (h : encUintRule value total s = .ok t) : KeepsEnc s t := by
  have he := encodeOk_high hc
  rcases encUintRule_ok h with ⟨hx, h⟩ | ⟨hx, u, hu, h⟩
  · rw [splitTotal_of_unsplit hx, hx, BitVec.ushiftRight_zero] at he
    exact encodeRule_keeps hm hr he h
  · have hk := encodeRule_keeps hm hr he hu
    exact hk.trans (encBitsRule_keeps hk.mem hk.regs (rawOk_extraBits hx) h)

/-! ### Patch and shrink (R81, R82) -/

theorem remIsByte_eq (s : State) : s.remIsByte = decide (s.rem.toNat < 2 ^ 31) := by
  unfold State.remIsByte
  rw [BitVec.msb_eq_decide, ← decide_not]
  simp

/-- rem holds a byte or -1 (R19 (d)). -/
theorem rem_of_not_byte {s : State} (h : s.rem = 0xFFFFFFFF#32 ∨ s.rem.toNat ≤ 255) (hb : s.remIsByte = false) :
    s.rem = 0xFFFFFFFF#32 := by
  rw [remIsByte_eq] at hb
  rcases h with h | h
  · exact h
  · simp at hb; omega

theorem rem_of_byte {s : State} (h : s.rem = 0xFFFFFFFF#32 ∨ s.rem.toNat ≤ 255) (hb : s.remIsByte = true) :
    s.rem.toNat ≤ 255 := by
  rcases h with h | h
  · rw [remIsByte_eq, h] at hb; cases hb
  · exact h

theorem toNat_shl_of_lt {x : Word} {n m : Nat} (hx : x.toNat < 2 ^ n) :
    (x <<< m).toNat < 2 ^ (n + m) := by
  have h1 : x.toNat * 2 ^ m < 2 ^ (n + m) := by
    rw [Nat.pow_add]; exact Nat.mul_lt_mul_of_pos_right hx (Nat.two_pow_pos m)
  rw [BitVec.toNat_shiftLeft, Nat.shiftLeft_eq]
  exact Nat.lt_of_le_of_lt (Nat.mod_le _ _) h1

theorem patched_le {old value : Word} {n : Nat} (ho : old.toNat ≤ 255) (hn : n ≤ 8) (hv : value.toNat < 2 ^ n) :
    (patched old value n).toNat ≤ 255 := by
  have hl : (old &&& ~~~patchMask n).toNat < 2 ^ 8 := by
    rw [BitVec.toNat_and]
    exact Nat.lt_of_le_of_lt Nat.and_le_left (by omega)
  have hr := toNat_shl_of_lt (m := symBits - n) hv
  rw [show n + (symBits - n) = 8 by unfold symBits; omega] at hr
  have := Nat.or_lt_two_pow hl hr
  rw [patched, BitVec.toNat_or]
  omega

theorem msb_of_lt {x : Word} (h : x.toNat < 2 ^ 31) : x.msb = false := by
  rw [BitVec.msb_eq_decide]
  exact decide_eq_false (Nat.not_le.mpr h)

theorem patchMask_val_msb {n : Nat} (hn : n ≤ 8) : (patchMask n <<< codeShift).msb = false := by
  interval_cases n <;> rfl

/-- A patch of val leaves bit 31, the pending carry, as it is. -/
theorem patchVal_msb (x value : Word) {n : Nat} (hn : n ≤ 8) (hv : value.toNat < 2 ^ n) :
    ((x &&& ~~~(patchMask n <<< codeShift)) ||| (value <<< (codeShift + (symBits - n)))).msb = x.msb := by
  have hs := toNat_shl_of_lt (m := codeShift + (symBits - n)) hv
  rw [show n + (codeShift + (symBits - n)) = 31 by unfold codeShift symBits; omega] at hs
  rw [BitVec.msb_or, BitVec.msb_and, BitVec.msb_not, patchMask_val_msb hn, msb_of_lt hs]
  simp

theorem msb_iff (x : Word) : x.msb = true ↔ 2 ^ 31 ≤ x.toNat := by
  rw [BitVec.msb_eq_decide, decide_eq_true_iff]

theorem valRngOk_of_lt {s : State} (hv : s.val.toNat < 2 ^ 31) (hg : s.rng.toNat ≤ 2 ^ 31) : s.valRngOk :=
  Nat.lt_of_lt_of_le (Nat.add_lt_add_of_lt_of_le hv hg) (by decide)

/-- The bits of val are settled: rng ≤ CODE_TOP >> nbits (R81). -/
theorem le_settled_iff (x : Word) {n : Nat} (hn : n ≤ 31) : x ≤ codeTop >>> n ↔ x.toNat ≤ 2 ^ (31 - n) := by
  rw [BitVec.le_def, toNat_ushiftRight_div]
  show _ ≤ 2 ^ 31 / 2 ^ n ↔ _
  rw [Nat.pow_div hn (by decide)]

theorem encPatchRule_keeps_mem {s t : State} (hm : MemOk s) (hr : EncRegsOk s) {value nbits : Word}
    (h : encPatchRule value nbits s = .ok t) : MemOk t := by
  rcases encPatchRule_ok h with ⟨ho, b, rfl⟩ | ⟨-, -, rfl⟩ | ⟨-, -, -, rfl⟩ | ⟨-, -, -, rfl⟩
  · exact hm.bufWrite (by have := hr.cursors; omega) b
  · exact ⟨hm.params, hm.storage, hm.bufWf, hm.tblWf, hm.bufBelow, hm.tblBelow⟩
  · exact ⟨hm.params, hm.storage, hm.bufWf, hm.tblWf, hm.bufBelow, hm.tblBelow⟩
  · exact ⟨hm.params, hm.storage, hm.bufWf, hm.tblWf, hm.bufBelow, hm.tblBelow⟩

section
variable {s t : State} (hr : EncRegsOk s) {value nbits : Word} (hc : patchOk value nbits)
include hr hc

theorem encPatchRule_keeps_regs (h : encPatchRule value nbits s = .ok t) : EncRegsOk t := by
  rcases encPatchRule_ok h with ⟨ho, b, rfl⟩ | ⟨-, hb, rfl⟩ | ⟨-, -, -, rfl⟩ | ⟨-, -, -, rfl⟩
  · exact ⟨hr.rng, hr.cursors, hr.rem, hr.nendBits, hr.error, hr.probe⟩
  · exact ⟨hr.rng, hr.cursors, .inr (patched_le (rem_of_byte hr.rem hb) hc.1.2 hc.2), hr.nendBits, hr.error, hr.probe⟩
  · exact ⟨hr.rng, hr.cursors, hr.rem, hr.nendBits, hr.error, hr.probe⟩
  · exact ⟨hr.rng, hr.cursors, hr.rem, hr.nendBits, .inr rfl, hr.probe⟩

/-- What a patch makes of val + rng: without a carry pending in val, or where the first byte is not in val, it stays
below 2^32; with one, bit 31 stays set (log entry 9). -/
theorem encPatchRule_sum (h : encPatchRule value nbits s = .ok t) :
    (s.valRngOk → ¬ PatchesOverCarry (.encPatch value nbits) s → t.valRngOk) ∧ (SumOk s → SumOk t) := by
  have hn : nbits.toNat ≤ 8 := hc.1.2
  rcases encPatchRule_ok h with ⟨ho, b, rfl⟩ | ⟨ho, hb, rfl⟩ | ⟨ho, hb, hg, rfl⟩ | ⟨-, -, -, rfl⟩
  · exact ⟨fun hs _ => hs, id⟩
  · refine ⟨fun hs _ => hs, fun hs => ?_⟩
    rcases hs with hs | ⟨⟨-, hrem⟩, -⟩
    · exact .inl hs
    · rw [remIsByte_eq, hrem] at hb; cases hb
  · have hf : s.firstByteInVal := ⟨ho, rem_of_not_byte hr.rem hb⟩
    have hmsb := patchVal_msb s.val value hn hc.2
    by_cases hv : 2 ^ 31 ≤ s.val.toNat
    · have hg' := (le_settled_iff s.rng (n := nbits.toNat) (by omega)).mp hg
      rw [(msb_iff _).mpr hv, msb_iff] at hmsb
      exact ⟨fun _ hno => absurd ⟨value, nbits, rfl, hc, hf, hg', hv⟩ hno, fun _ => .inr ⟨hf, hmsb⟩⟩
    · have hv' : ¬ 2 ^ 31 ≤ _ := fun e => hv ((msb_iff _).mp (hmsb ▸ (msb_iff _).mpr e))
      have hlt := Nat.not_le.mp hv'
      exact ⟨fun _ _ => valRngOk_of_lt hlt hr.rng.2, fun _ => .inl (valRngOk_of_lt hlt hr.rng.2)⟩
  · exact ⟨fun hs _ => hs, id⟩

end

theorem tail_length (s : State) : s.tail.length = s.endOffs.toNat := by simp [State.tail]

theorem encShrinkRule_keeps {s t : State} (hm : MemOk s) (hr : EncRegsOk s) {size : Word} (hc : shrinkOk size s)
    (h : encShrinkRule size s = .ok t) : KeepsEnc s t := by
  obtain ⟨hlo, hhi⟩ := hc
  have hm' := hm.bufWriteAll (a := size.toNat - s.endOffs.toNat) (vs := s.tail) (by rw [tail_length]; omega)
  rw [bufWriteAll_frame] at hm'
  rw [encShrinkRule_ok h, bufWriteAll_frame]
  exact ⟨⟨hm'.params, Nat.le_trans hhi hm'.storage, hm'.bufWf, hm'.tblWf, hm'.bufBelow, hm'.tblBelow⟩,
    ⟨hr.rng, hlo, hr.rem, hr.nendBits, hr.error, hr.probe⟩, id, id⟩

/-! ### ENC_DONE (R83) -/

/-- A front write leaves the interval. -/
theorem putFront_frame (s : State) (v : Byte) :
    s.putFront v = { s with
      offs := (s.putFront v).offs, buf := (s.putFront v).buf, error := (s.putFront v).error } := by
  rcases Nat.lt_or_ge (s.offs.toNat + s.endOffs.toNat) s.storage.toNat with h | h
  · rw [State.putFront_fits h]
  · rw [State.putFront_full h]

theorem putFront_rng (s : State) (v : Byte) : (s.putFront v).rng = s.rng := by rw [putFront_frame]

theorem flushPending_rng (n : Nat) (v : Byte) (s : State) : (State.flushPending n v s).rng = s.rng := by
  induction n generalizing s with
  | zero => rfl
  | succ n ih => rw [State.flushPending, ih]; exact putFront_rng s v

theorem flushRem_rng (s : State) (c : Word) : (s.flushRem c).rng = s.rng := by
  unfold State.flushRem
  split
  · exact putFront_rng s _
  · rfl

@[simp] theorem carryOut_rng (s : State) (c : Word) : (s.carryOut c).rng = s.rng := by
  by_cases h : c = symMax
  · subst h; rw [carryOut_ff]
  · rw [carryOut_other s h]
    exact (flushPending_rng _ _ _).trans (flushRem_rng s _)

theorem emitCode_rng (n : Nat) (l : Int) (e : Word) (s : State) : (State.emitCode n l e s).2.rng = s.rng := by
  induction n generalizing l e s with
  | zero => rfl
  | succ n ih =>
    rw [State.emitCode]
    split
    · rw [ih, carryOut_rng]
    · rfl

theorem flushCarry_rng (s : State) : s.flushCarry.rng = s.rng := by
  unfold State.flushCarry
  split
  · exact carryOut_rng s _
  · rfl

theorem flushAll_keeps {s : State} (hm : MemOk s) (hr : EncRegsOk s) (used : Nat) :
    MemOk (s.flushAll used).2.2 ∧ EncRegsOk (s.flushAll used).2.2 := by
  have he := (emitCode_emits s.codeValue.1 s.codeValue.1 s.codeValue.2 s).trans (flushCarry_emits _)
  have hk := flushWindow_backs used (s.window used)
    (State.emitCode s.codeValue.1 s.codeValue.1 s.codeValue.2 s).2.flushCarry
  refine ⟨(hm.emits he).backs hk, (hr.emits he ?_).backs hk⟩
  unfold State.rngOk
  rw [flushCarry_rng, emitCode_rng]
  exact hr.rng

theorem MemOk.mergeByte {s : State} (hm : MemOk s) (h : s.endOffs.toNat < s.storage.toNat) (b : Word) :
    MemOk (s.mergeByte b) := hm.bufWrite (by omega) _

theorem MemOk.forceError {s : State} (hm : MemOk s) (v : Word) : MemOk (s.forceError v) :=
  ⟨hm.params, hm.storage, hm.bufWf, hm.tblWf, hm.bufBelow, hm.tblBelow⟩

theorem MemOk.mergeLeftover {s : State} (hm : MemOk s) (w : Window) (free : Nat) : MemOk (s.mergeLeftover w free) := by
  unfold State.mergeLeftover
  split
  · exact hm
  · split
    · exact hm.forceError _
    · split
      · exact (hm.forceError encFault).mergeByte (Nat.not_le.mp ‹¬ s.storage.toNat ≤ s.endOffs.toNat›) _
      · exact hm.mergeByte (Nat.not_le.mp ‹¬ s.storage.toNat ≤ s.endOffs.toNat›) _

theorem MemOk.finishGap {s : State} (hm : MemOk s) (hc : s.offs.toNat + s.endOffs.toNat ≤ s.storage.toNat) (w : Window)
    (free : Nat) : MemOk (finishGap w free s) := by
  unfold Machine.finishGap
  split
  · exact (hm.bufWriteAll (by rw [List.length_replicate]; omega)).mergeLeftover w free
  · exact hm

theorem finishGap_frame (w : Window) (free : Nat) (s : State) :
    finishGap w free s = { s with buf := (finishGap w free s).buf, error := (finishGap w free s).error } := by
  unfold finishGap
  split
  · rw [mergeLeftover_frame, zeroGap_frame]
  · rfl

theorem encDoneRule_keeps {s t : State} (hm : MemOk s) (hr : EncRegsOk s) (h : encDoneRule s = .ok t) :
    MemOk t ∧ EncRegsOk t := by
  obtain ⟨hm', hr'⟩ := flushAll_keeps hm hr s.nendBits.toNat
  have hg := hm'.finishGap hr'.cursors (s.flushAll s.nendBits.toNat).1 (s.flushAll s.nendBits.toNat).2.1
  have he := (finishGap_writes (s.flushAll s.nendBits.toNat).1 (s.flushAll s.nendBits.toNat).2.1
    (s.flushAll s.nendBits.toNat).2.2).error
  rw [encDoneRule_ok h]
  refine ⟨⟨hg.params, hg.storage, hg.bufWf, hg.tblWf, hg.bufBelow, hg.tblBelow⟩, ?_⟩
  dsimp only
  rw [finishGap_frame]
  refine ⟨hr'.rng, hr'.cursors, hr'.rem, hr'.nendBits, ?_, hr'.probe⟩
  rcases he with e | e
  · dsimp only; rw [e]; exact hr'.error
  · exact .inr e

end Sys2Proof.Machine
end

section
/-! PROOFS. What the eight decoder commands (42_decoder.md) keep of the invariant, and of val < rng (R20 (e)). -/

namespace Sys2Proof.Machine

/-! ### The normalizer (R103) -/

theorem refilledVal_lt {s : State} {v g k : Nat} (hv : v < g) (hp : Passes g k) : refilledVal s v k < g * 2 ^ (8 * k) := by
  unfold refilledVal
  split
  · subst k; simpa using hv
  · have hpos := Nat.two_pow_pos (8 * k)
    have hmul : (v + 1) * 2 ^ (8 * k) ≤ g * 2 ^ (8 * k) := Nat.mul_le_mul_right _ hv
    rw [Nat.add_mul, Nat.one_mul] at hmul
    refine Nat.lt_of_le_of_lt (Nat.mod_le _ _) ?_
    omega

section
variable {s t : State} (hg : 0 < s.rng.toNat ∧ s.rng.toNat ≤ 2 ^ 31) (ho : s.offs.toNat ≤ s.storage.toNat)
  (h : s.decNormalize = .ok t)
include hg ho h

theorem decNormalize_rngOk : t.rngOk := by
  obtain ⟨u, k, hu, -, hp, -, hr, -⟩ := decNormalize_ok hg.1 hg.2 ho
  obtain rfl : u = t := by rw [hu] at h; injection h
  unfold State.rngOk
  rw [hr]
  exact hp

theorem decNormalize_rem (hr : s.rem.toNat ≤ 255) : t.rem.toNat ≤ 255 := by
  obtain ⟨u, k, hu, -, -, -, -, -, -, -, hrem⟩ := decNormalize_ok hg.1 hg.2 ho
  obtain rfl : u = t := by rw [hu] at h; injection h
  rw [hrem]
  split
  · exact hr
  · exact Nat.le_of_lt_succ (frontByte_lt s _)

theorem decNormalize_val_lt (hv : s.val.toNat < s.rng.toNat) : t.val.toNat < t.rng.toNat := by
  obtain ⟨u, k, hu, -, hp, -, hr, hval, -⟩ := decNormalize_ok hg.1 hg.2 ho
  obtain rfl : u = t := by rw [hu] at h; injection h
  rw [hr, hval]
  exact refilledVal_lt hv hp

end

/-! ### A narrowing and its normalization (R106 to R108) -/

/-- `u` is `s` with val and rng taken to a part of the interval that is not empty. -/
structure DecNarrows (s u : State) : Prop where
  frame : u = { s with val := u.val, rng := u.rng, probe := none }
  pos   : 0 < u.rng.toNat
  le    : u.rng.toNat ≤ s.rng.toNat

section
variable {s t u : State} (hr : DecRegsOk s) (hn : DecNarrows s u) (h : u.decNormalize = .ok t)
include hr hn

theorem DecNarrows.rng_le : 0 < u.rng.toNat ∧ u.rng.toNat ≤ 2 ^ 31 := ⟨hn.pos, Nat.le_trans hn.le hr.rng.2⟩

theorem DecNarrows.front : u.offs.toNat ≤ u.storage.toNat := by rw [hn.frame]; exact hr.front

include h

theorem decNarrows_keeps : DecRegsOk t := by
  have hd := decNormalize_reads h
  have hrem := decNormalize_rem (DecNarrows.rng_le hr hn) (DecNarrows.front hr hn) h (by rw [hn.frame]; exact hr.rem)
  have hf := hd.front (DecNarrows.front hr hn)
  have hg := decNormalize_rngOk (DecNarrows.rng_le hr hn) (DecNarrows.front hr hn) h
  have e : t = { s with offs := t.offs, rng := t.rng, val := t.val, rem := t.rem, nbitsTotal := t.nbitsTotal
                        probe := t.probe } := by rw [hd.frame, hn.frame]
  have hst : u.storage = s.storage := by rw [hn.frame]
  refine ⟨hg, ?_, ?_, hrem, ?_, ?_⟩
  · rw [hd.storage]; exact hf
  · rw [e]; exact hr.back
  · rw [e]; exact hr.nendBits
  · rw [e]; exact hr.error

theorem decNarrows_val_lt (hv : u.val.toNat < u.rng.toNat) : t.val.toNat < t.rng.toNat :=
  decNormalize_val_lt (DecNarrows.rng_le hr hn) (DecNarrows.front hr hn) h hv

end

/-! ### DEC_INIT (R100) -/

theorem decInitPrimed_rng (size : Word) (s : State) : (decInitPrimed size s).rng = 128#32 := by
  unfold decInitPrimed
  dsimp only
  rw [readFront_frame]
  rfl

theorem decInitPrimed_front (size : Word) (s : State) :
    (decInitPrimed size s).offs.toNat ≤ (decInitPrimed size s).storage.toNat := by
  have h := decInitPrimed_reads size s
  rw [h.storage]
  exact h.front (by simp)

theorem toNat_readFront_byte (s : State) : (s.readFront.1.setWidth 32 : Word).toNat ≤ 255 := by
  have := s.readFront.1.isLt
  rw [BitVec.toNat_setWidth]
  omega

/-- The first byte's top 7 bits are at most 127 (R100). -/
theorem decInitPrimed_val_lt (size : Word) (s : State) : (decInitPrimed size s).val.toNat < 128 := by
  have hb := toNat_readFront_byte (s.decInitRegs size)
  show (128#32 - 1#32 - ((s.decInitRegs size).readFront.1.setWidth 32) >>> (symBits - codeExtra)).toNat < 128
  have hs := toNat_ushiftRight_div ((s.decInitRegs size).readFront.1.setWidth 32) (symBits - codeExtra)
  rw [show symBits - codeExtra = 1 from rfl] at *
  rw [BitVec.toNat_sub, hs]
  simp only [BitVec.reduceSub, BitVec.toNat_ofNat]
  omega

section
variable {s t : State} {size : Word} (h : decInitRule size s = .ok t)
include h

theorem decInitRule_val_lt : t.val.toNat < t.rng.toNat := by
  have hg := decInitPrimed_rng size s
  exact decNormalize_val_lt (s := decInitPrimed size s) (by rw [hg]; decide) (decInitPrimed_front size s) h
    (by rw [hg]; exact decInitPrimed_val_lt size s)

theorem decInitRule_keeps (hm : MemOk s) (hc : size.toNat ≤ s.params.bufCap) : MemOk t ∧ DecRegsOk t := by
  have hd := decInitRule_reads h
  have hg : 0 < (decInitPrimed size s).rng.toNat ∧ (decInitPrimed size s).rng.toNat ≤ 2 ^ 31 := by
    rw [decInitPrimed_rng]; decide
  have hf := decInitPrimed_front size s
  have hrem := decNormalize_rem hg hf h (toNat_readFront_byte (s.decInitRegs size))
  have hrng := decNormalize_rngOk hg hf h
  have hfront := hd.front (Nat.zero_le _)
  refine ⟨?_, hrng, ?_, ?_, hrem, ?_, ?_⟩
  · rw [hd.frame]; exact ⟨hm.params, hc, hm.bufWf, hm.tblWf, hm.bufBelow, hm.tblBelow⟩
  · rw [hd.storage]; exact hfront
  · rw [hd.frame]; exact Nat.zero_le _
  · rw [hd.frame]; exact Nat.zero_le _
  · rw [hd.error]; exact .inl rfl

end

/-! ### Probe and commit (R104 to R106) -/

section
variable {s t : State} (hr : DecRegsOk s)
include hr

theorem probe_keeps {e : Word} {n : Nat} (hn : 1 ≤ n ∧ n ≤ totalMax) (he : e.toNat = s.rng.toNat / n)
    (h : s.probeWith e n = .ok t) : DecRegsOk t ∧ ProbeOk t := by
  rw [probeWith_eq h]
  refine ⟨⟨hr.rng, hr.front, hr.back, hr.rem, hr.nendBits, hr.error⟩, fun ft hft => ?_⟩
  injection hft with hft
  subst hft
  exact ⟨hn, he⟩

theorem decodeRule_keeps {ft : Word} (hc : probeOk ft) (h : decodeRule ft s = .ok t) : DecRegsOk t ∧ ProbeOk t :=
  probe_keeps hr hc BitVec.toNat_udiv h

theorem decodeBinRule_keeps {bits : Word} (hc : probeBinOk bits) (h : decodeBinRule bits s = .ok t) :
    DecRegsOk t ∧ ProbeOk t :=
  probe_keeps hr ⟨Nat.two_pow_pos _, two_pow_le_total hc⟩ (toNat_ushiftRight_div _ _) h

variable {fl fh ft : Word} (hft : 1 ≤ ft.toNat ∧ ft.toNat ≤ totalMax) (hext : s.ext.toNat = s.rng.toNat / ft.toNat)
  (hc : updateOk fl fh ft)
include hft hext hc

/-- The products of R106 do not wrap: ext parts of width rng / ft lie inside rng. -/
theorem commit_products :
    0 < s.ext.toNat ∧ s.ext.toNat * ft.toNat ≤ s.rng.toNat ∧
    (s.ext * (ft - fh)).toNat = s.ext.toNat * (ft.toNat - fh.toNat) ∧
    (s.ext * (fh - fl)).toNat = s.ext.toNat * (fh.toNat - fl.toNat) := by
  obtain ⟨hl, hh⟩ := hc
  have hg := s.rng.isLt
  have hpos : 0 < s.ext.toNat := by rw [hext]; exact part_pos hr.rng hft.2 hft.1
  have hle : s.ext.toNat * ft.toNat ≤ s.rng.toNat := by rw [hext]; exact Nat.div_mul_le_self _ _
  have e1 : (ft - fh).toNat = ft.toNat - fh.toNat := BitVec.toNat_sub_of_le (by rw [BitVec.le_def]; omega)
  have e2 : (fh - fl).toNat = fh.toNat - fl.toNat := BitVec.toNat_sub_of_le (by rw [BitVec.le_def]; omega)
  have h1 : s.ext.toNat * (ft.toNat - fh.toNat) ≤ s.ext.toNat * ft.toNat := Nat.mul_le_mul_left _ (Nat.sub_le _ _)
  have h2 : s.ext.toNat * (fh.toNat - fl.toNat) ≤ s.ext.toNat * ft.toNat := Nat.mul_le_mul_left _ (by omega)
  refine ⟨hpos, hle, ?_, ?_⟩
  · rw [BitVec.toNat_mul_of_lt (by rw [e1]; omega), e1]
  · rw [BitVec.toNat_mul_of_lt (by rw [e2]; omega), e2]

theorem toNat_commit_rng :
    (s.commit fl fh ft).rng.toNat =
      if 0 < fl.toNat then s.ext.toNat * (fh.toNat - fl.toNat)
      else s.rng.toNat - s.ext.toNat * (ft.toNat - fh.toNat) := by
  obtain ⟨hpos, hle, e1, e2⟩ := commit_products hr hft hext hc
  rw [State.commit_rng]
  by_cases h0 : 0 < fl.toNat
  · rw [if_pos h0, if_pos (by simpa [BitVec.lt_def] using h0), e2]
  · have h1 : s.ext.toNat * (ft.toNat - fh.toNat) ≤ s.ext.toNat * ft.toNat := Nat.mul_le_mul_left _ (Nat.sub_le _ _)
    rw [if_neg h0, if_neg (by simpa [BitVec.lt_def] using h0), BitVec.toNat_sub_of_le, e1]
    rw [BitVec.le_def, e1]; omega

theorem commit_narrows : DecNarrows s (s.commit fl fh ft) := by
  obtain ⟨hpos, hle, -, -⟩ := commit_products hr hft hext hc
  have e := toNat_commit_rng hr hft hext hc
  obtain ⟨hl, hh⟩ := hc
  have h1 : s.ext.toNat * (ft.toNat - fh.toNat) < s.ext.toNat * ft.toNat := Nat.mul_lt_mul_of_pos_left (by omega) hpos
  have h2 : s.ext.toNat * (fh.toNat - fl.toNat) ≤ s.ext.toNat * ft.toNat := Nat.mul_le_mul_left _ (by omega)
  have h3 : 0 < s.ext.toNat * (fh.toNat - fl.toNat) := Nat.mul_pos hpos (by omega)
  refine ⟨rfl, ?_, ?_⟩ <;> rw [e] <;> split <;> omega

/-- The part committed holds val, where it holds the scaled value of the probe (R20 (e)). -/
theorem commit_val_lt (hv : s.val.toNat < s.rng.toNat) (hx : fl.toNat ≤ scaledValue s.val s.ext ft.toNat)
    (hx' : scaledValue s.val s.ext ft.toNat < fh.toNat) :
    (s.commit fl fh ft).val.toNat < (s.commit fl fh ft).rng.toNat := by
  obtain ⟨hpos, hle, e1, -⟩ := commit_products hr hft hext hc
  have e := toNat_commit_rng hr hft hext hc
  obtain ⟨hl, hh⟩ := hc
  unfold scaledValue at hx hx'
  have hlow : s.ext.toNat * (ft.toNat - fh.toNat) ≤ s.val.toNat := by
    rw [Nat.mul_comm, ← Nat.le_div_iff_mul_le hpos]
    omega
  rw [e, State.commit_val, BitVec.toNat_sub_of_le (by rw [BitVec.le_def, e1]; exact hlow), e1]
  split
  · have hhigh : s.val.toNat < (ft.toNat - fl.toNat) * s.ext.toNat := by
      rw [← Nat.div_lt_iff_lt_mul hpos]
      omega
    have : (ft.toNat - fl.toNat) * s.ext.toNat =
        s.ext.toNat * (ft.toNat - fh.toNat) + s.ext.toNat * (fh.toNat - fl.toNat) := by
      rw [Nat.mul_comm, ← Nat.mul_add]; congr 1; omega
    omega
  · omega

theorem decUpdateRule_keeps (h : decUpdateRule fl fh ft s = .ok t) : DecRegsOk t :=
  decNarrows_keeps hr (commit_narrows hr hft hext hc) h

theorem decUpdateRule_val_lt (hv : s.val.toNat < s.rng.toNat) (hx : fl.toNat ≤ scaledValue s.val s.ext ft.toNat)
    (hx' : scaledValue s.val s.ext ft.toNat < fh.toNat) (h : decUpdateRule fl fh ft s = .ok t) :
    t.val.toNat < t.rng.toNat :=
  decNarrows_val_lt hr (commit_narrows hr hft hext hc) h (commit_val_lt hr hft hext hc hv hx hx')

end

/-! ### Fused probe and commit (R107, R108) -/

section
variable {s t : State} (hr : DecRegsOk s)
include hr

theorem decideBit_narrows {logp : Word} (hc : logpOk logp) : DecNarrows s (s.decideBit logp).2 := by
  obtain ⟨hp1, hp0, e, hle⟩ := split_pos hr.rng hc.1 hc.2
  unfold State.decideBit
  dsimp only
  split
  · exact ⟨rfl, hp1, hle⟩
  · exact ⟨rfl, hp0, by dsimp only; omega⟩

theorem decideBit_val_lt {logp : Word} (hc : logpOk logp) (hv : s.val.toNat < s.rng.toNat) :
    (s.decideBit logp).2.val.toNat < (s.decideBit logp).2.rng.toNat := by
  obtain ⟨-, -, e, hle⟩ := split_pos hr.rng hc.1 hc.2
  unfold State.decideBit
  dsimp only
  split
  · rename_i h; exact h
  · rename_i h
    have h : (s.rng >>> logp.toNat).toNat ≤ s.val.toNat := Nat.not_lt.mp h
    dsimp only
    rw [e, BitVec.toNat_sub_of_le h]
    omega

theorem decBitLogpRule_keeps {logp : Word} (hc : logpOk logp) (h : decBitLogpRule logp s = .ok t) : DecRegsOk t := by
  obtain ⟨u, hu, rfl⟩ := decBitLogpRule_ok h
  have k := decNarrows_keeps hr (decideBit_narrows hr hc) hu
  exact ⟨k.rng, k.front, k.back, k.rem, k.nendBits, k.error⟩

theorem decBitLogpRule_val_lt {logp : Word} (hc : logpOk logp) (hv : s.val.toNat < s.rng.toNat)
    (h : decBitLogpRule logp s = .ok t) : t.val.toNat < t.rng.toNat := by
  obtain ⟨u, hu, rfl⟩ := decBitLogpRule_ok h
  have k := decNarrows_val_lt hr (decideBit_narrows hr hc) hu (decideBit_val_lt hr hc hv)
  exact k

end

/-- An entry that is not the last: the rest is a table that falls from it. -/
theorem tableFrom_tail {s : State} {m a prev n : Nat} (h : s.tableFrom m a prev = some n)
    (h0 : 0 < (s.tblByte a).toNat) : ∃ m' n', s.tableFrom m' (a + 1) (s.tblByte a).toNat = some n' := by
  cases m with
  | zero => cases h
  | succ m =>
    simp only [State.tableFrom] at h
    split at h
    · cases h
    split at h
    · cases h
    split at h
    · rename_i hz; rw [hz] at h0; cases h0
    obtain ⟨l, hl, -⟩ := Option.map_eq_some_iff.mp h
    exact ⟨m, l, hl⟩

/-- The bound at an entry of a well-formed table does not wrap, and lies below the bound before it. -/
theorem icdf_bound {s : State} {r top : Word} {t : TblAddr} {k m prev l : Nat} (hr : 0 < r.toNat)
    (hle : r.toNat * prev ≤ top.toNat) (ht : s.tableFrom m (t.toNat + k) prev = some l) :
    (r * s.icdf t k).toNat = r.toNat * (s.tblByte (t.toNat + k)).toNat ∧ (r * s.icdf t k).toNat < top.toNat := by
  have hmul : r.toNat * (s.tblByte (t.toNat + k)).toNat < r.toNat * prev :=
    Nat.mul_lt_mul_of_pos_left (tableFrom_some ht).2.2 hr
  have := top.isLt
  have e : (r * s.icdf t k).toNat = r.toNat * (s.tblByte (t.toNat + k)).toNat := by
    rw [BitVec.toNat_mul_of_lt (by rw [toNat_icdf]; omega), toNat_icdf]
  exact ⟨e, by omega⟩

/-- The bounds that the walk of R108 finds, from entry `k` of a well-formed table: they fall, so their part is not
empty, and it holds val where val lies below `top`. -/
theorem icdfWalk_bounds {s : State} {r : Word} {t : TblAddr} {n k m prev l : Nat} {top : Word} (hr : 0 < r.toNat)
    (hle : r.toNat * prev ≤ top.toNat) (ht : s.tableFrom m (t.toNat + k) prev = some l) :
    let w := s.icdfWalk r t n k top
    w.2.2.toNat < w.2.1.toNat ∧ w.2.1.toNat ≤ top.toNat ∧
    (s.val.toNat < top.toNat → w.2.2.toNat ≤ s.val.toNat ∧ s.val.toNat < w.2.1.toNat) := by
  induction n generalizing k m prev l top with
  | zero =>
    have := (icdf_bound hr hle ht).2
    exact ⟨Nat.zero_lt_of_lt this, Nat.le_refl _, fun h => ⟨Nat.zero_le _, h⟩⟩
  | succ n ih =>
    obtain ⟨e, hlt⟩ := icdf_bound hr hle ht
    simp only [State.icdfWalk]
    split
    · rename_i hv
      have hv : s.val.toNat < (r * s.icdf t k).toNat := hv
      have h0 : 0 < (s.tblByte (t.toNat + k)).toNat := Nat.pos_of_ne_zero fun h0 => by rw [e, h0] at hv; simp at hv
      obtain ⟨m', n', ht'⟩ := tableFrom_tail ht h0
      obtain ⟨i1, i2, i3⟩ := ih (k := k + 1) (top := r * s.icdf t k) (Nat.le_of_eq e.symm) ht'
      exact ⟨i1, by omega, fun _ => i3 hv⟩
    · rename_i hv
      exact ⟨hlt, Nat.le_refl _, fun h => ⟨Nat.not_lt.mp hv, h⟩⟩

section
variable {s t : State} (hr : DecRegsOk s) {ftb : Word} {table : TblAddr}
  (hc : (s.tableLength table ftb).isSome = true)
include hr hc

theorem icdfPart_bounds :
    (icdfPart ftb table s).rng.toNat ≤ s.rng.toNat ∧ 0 < (icdfPart ftb table s).rng.toNat ∧
    (s.val.toNat < s.rng.toNat → (icdfPart ftb table s).val.toNat < (icdfPart ftb table s).rng.toNat) := by
  obtain ⟨l, hl⟩ := Option.isSome_iff_exists.mp hc
  obtain ⟨hftb, hf⟩ := tableLength_some hl
  have hle : (s.rng >>> ftb.toNat).toNat * 2 ^ ftb.toNat ≤ s.rng.toNat := by
    rw [toNat_ushiftRight_div]; exact Nat.div_mul_le_self _ _
  obtain ⟨h1, h2, h3⟩ := icdfWalk_bounds (n := 2 ^ ftb.toNat) (k := 0) (shift_part_pos hr.rng (by omega)) hle hf
  unfold icdfPart
  dsimp only
  generalize s.icdfWalk (s.rng >>> ftb.toNat) table (2 ^ ftb.toNat) 0 s.rng = w at *
  have e : (w.2.1 - w.2.2).toNat = w.2.1.toNat - w.2.2.toNat := BitVec.toNat_sub_of_le (by rw [BitVec.le_def]; omega)
  rw [e]
  refine ⟨by omega, by omega, fun hv => ?_⟩
  obtain ⟨h4, h5⟩ := h3 hv
  rw [BitVec.toNat_sub_of_le h4]
  omega

theorem icdfPart_narrows : DecNarrows s (icdfPart ftb table s) := by
  obtain ⟨hle, hpos, -⟩ := icdfPart_bounds hr hc
  exact ⟨rfl, hpos, hle⟩

theorem decIcdfRule_keeps (h : decIcdfRule ftb table s = .ok t) : DecRegsOk t := by
  obtain ⟨u, r, hu, rfl⟩ := decIcdfRule_ok h
  have k := decNarrows_keeps hr (icdfPart_narrows hr hc) hu
  exact ⟨k.rng, k.front, k.back, k.rem, k.nendBits, k.error⟩

theorem decIcdfRule_val_lt (hv : s.val.toNat < s.rng.toNat) (h : decIcdfRule ftb table s = .ok t) :
    t.val.toNat < t.rng.toNat := by
  obtain ⟨u, r, hu, rfl⟩ := decIcdfRule_ok h
  obtain ⟨-, -, hpart⟩ := icdfPart_bounds hr hc
  have k := decNarrows_val_lt hr (icdfPart_narrows hr hc) hu (hpart hv)
  exact k

end

/-! ### Raw bits (R110) -/

/-- After the refill at least the field's bits are valid, and at most 31 are left once it is taken. -/
theorem refill_count {avail nbits : Nat} (ha : avail ≤ 31) (hc : 1 ≤ nbits ∧ nbits ≤ 25) (s : State) :
    (refill avail nbits s).1.count - nbits ≤ 31 := by
  unfold refill
  split
  · have hw : (s.window avail).count = avail := rfl
    rw [refillWindow_count (by omega) (by omega), hw]
    omega
  · simp only [State.window]; omega

theorem decBitsRule_keeps {s t : State} (hr : DecRegsOk s) {nbits : Word} (hc : rawOk nbits)
    (h : decBitsRule nbits s = .ok t) : DecRegsOk t := by
  have hcount := refill_count hr.nendBits hc s
  have hb := refill_reads s.nendBits.toNat nbits.toNat s
  rw [decBitsRule_ok h, hb.frame]
  refine ⟨hr.rng, hr.front, hb.back hr.back, hr.rem, ?_, hr.error⟩
  rw [BitVec.toNat_ofNat]
  omega

theorem decBitsRule_interval {s t : State} {nbits : Word} (h : decBitsRule nbits s = .ok t) :
    t.val = s.val ∧ t.rng = s.rng := by
  rw [decBitsRule_ok h, (refill_reads _ _ s).frame]
  exact ⟨rfl, rfl⟩

/-! ### Uniform integers (R109) -/

theorem scaledValue_lt (val ext : Word) {n : Nat} (h : 1 ≤ n) : scaledValue val ext n < n := by
  unfold scaledValue
  exact Nat.sub_lt h (Nat.lt_min.mpr ⟨Nat.succ_pos _, h⟩)

theorem probeOk_splitTotal {total : Word} (h : 2 ≤ total.toNat) : probeOk (splitTotal total) := by
  have := high_lt h
  unfold probeOk totalMax
  rw [toNat_splitTotal h]
  exact ⟨Nat.succ_pos _, by omega⟩

section
variable {s u : State} {ft : Word} (hc : probeOk ft) (h : decodeRule ft s = .ok u)
include hc h

/-- The RESULT of a probe is its scaled value, and the part it names is one of the total's. -/
theorem decodeRule_result :
    u.result.toNat = scaledValue u.val u.ext ft.toNat ∧ updateOk u.result (u.result + 1#32) ft := by
  have hlt := scaledValue_lt s.val (s.rng / ft) hc.1
  have hmax : ft.toNat ≤ 65536 := hc.2
  have e : u.result.toNat = scaledValue s.val (s.rng / ft) ft.toNat := by
    rw [probeWith_eq h, BitVec.toNat_ofNat]
    omega
  have e1 : (u.result + 1#32).toNat = u.result.toNat + 1 := toNat_succ (n := 65536) (by omega) (by decide)
  refine ⟨?_, ?_⟩
  · rw [e, probeWith_eq h]
  · unfold updateOk
    omega

theorem decodeRule_ext (hr : DecRegsOk s) : u.ext.toNat = u.rng.toNat / ft.toNat := by
  obtain ⟨-, hp⟩ := decodeRule_keeps hr hc h
  exact (hp ft.toNat (by rw [probeWith_eq h])).2

end

section
variable {s t : State} (hr : DecRegsOk s)
include hr

theorem decodeSymbol_keeps {ft : Word} (hc : probeOk ft) (h : decodeSymbol ft s = .ok t) : DecRegsOk t := by
  obtain ⟨u, hu, h⟩ := decodeSymbol_ok h
  obtain ⟨hru, -⟩ := decodeRule_keeps hr hc hu
  exact decUpdateRule_keeps hru hc (decodeRule_ext hc hu hr) (decodeRule_result hc hu).2 h

theorem decodeSymbol_val_lt {ft : Word} (hc : probeOk ft) (hv : s.val.toNat < s.rng.toNat)
    (h : decodeSymbol ft s = .ok t) : t.val.toNat < t.rng.toNat := by
  obtain ⟨u, hu, h⟩ := decodeSymbol_ok h
  obtain ⟨hru, -⟩ := decodeRule_keeps hr hc hu
  obtain ⟨e, hok⟩ := decodeRule_result hc hu
  have hv' : u.val.toNat < u.rng.toNat := by rw [probeWith_eq hu]; exact hv
  exact decUpdateRule_val_lt hru hc (decodeRule_ext hc hu hr) hok hv' (Nat.le_of_eq e) (by rw [← e]; exact hok.1) h

variable {total : Word} (hc : uintTotalOk total)
include hc

theorem decUintRule_keeps (h : decUintRule total s = .ok t) : DecRegsOk t := by
  have hp := probeOk_splitTotal hc
  rcases decUintRule_ok h with ⟨hx, h⟩ | ⟨hx, u, v, hu, hv, rfl⟩
  · rw [splitTotal_of_unsplit hx] at hp
    exact decodeSymbol_keeps hr hp h
  · have k := decBitsRule_keeps (decodeSymbol_keeps hr hp hu) (rawOk_extraBits hx) hv
    rcases checkUint_cases v (u.result <<< extraBits total ||| v.result) (total - 1#32) with ⟨-, e⟩ | ⟨-, e⟩
    · rw [e]; exact ⟨k.rng, k.front, k.back, k.rem, k.nendBits, k.error⟩
    · rw [e]; exact ⟨k.rng, k.front, k.back, k.rem, k.nendBits, .inr rfl⟩

theorem decUintRule_val_lt (hv : s.val.toNat < s.rng.toNat) (h : decUintRule total s = .ok t) :
    t.val.toNat < t.rng.toNat := by
  have hp := probeOk_splitTotal hc
  rcases decUintRule_ok h with ⟨hx, h⟩ | ⟨hx, u, v, hu, hb, rfl⟩
  · rw [splitTotal_of_unsplit hx] at hp
    exact decodeSymbol_val_lt hr hp hv h
  · obtain ⟨ev, eg⟩ := decBitsRule_interval hb
    have k := decodeSymbol_val_lt hr hp hv hu
    rw [← ev, ← eg] at k
    rcases checkUint_cases v (u.result <<< extraBits total ||| v.result) (total - 1#32) with ⟨-, e⟩ | ⟨-, e⟩
    · rw [e]; exact k
    · rw [e]; exact k

end

end Sys2Proof.Machine
end

section
/-! PROOFS. The invariant over every step (O51), val + rng in the encoder (O30) and val < rng in the decoder (O42). -/

namespace Sys2Proof.Proofs

open Sys2Proof.Machine

/-! ### The commands that keep R19 (b) -/

/-- The encoder commands that narrow the interval, append raw bits or shrink the stream. -/
def narrowsOrAppends : Instr → Bool
  | .encode .. => true
  | .encodeBin .. => true
  | .encBitLogp .. => true
  | .encIcdf .. => true
  | .encUint .. => true
  | .encBits .. => true
  | .encShrink .. => true
  | _ => false

/-- What the invariant says in ENC. -/
theorem inv_enc {s : State} (hs : s.Inv) (hm : s.mode = .enc) : MemOk s ∧ EncRegsOk s ∧ SumOk s :=
  let ⟨hmem, hmode⟩ := (inv_iff s).mp hs
  ⟨hmem, (modeInv_of_enc hm).mp hmode⟩

/-- What the invariant says in DEC. -/
theorem inv_dec {s : State} (hs : s.Inv) (hm : s.mode = .dec) : MemOk s ∧ DecRegsOk s ∧ ProbeOk s :=
  let ⟨hmem, hmode⟩ := (inv_iff s).mp hs
  ⟨hmem, (modeInv_of_dec hm).mp hmode⟩

/-- An encoder's PROBE is none already. -/
theorem encoderRule_at {s t : State} {r : State → Except Fault State} (hp : s.probe = none)
    (h : encoderRule r s = .ok t) : r s = .ok t := by
  have e : { s with probe := none } = s := by rw [← hp]
  have h := (encoderRule_ok h).2
  rwa [e] at h

theorem encIcdfContract_none {s : State} {sym ftb : Word} {table : TblAddr} (h : encIcdfContract sym ftb table s = none) :
    ∃ n, s.tableLength table ftb = some n ∧ sym.toNat < n := by
  unfold encIcdfContract at h
  split at h
  · cases h
  · exact ⟨_, ‹_›, operands_none.mp h⟩

theorem decIcdfContract_none {s : State} {ftb : Word} {table : TblAddr} (h : decIcdfContract ftb table s = none) :
    (s.tableLength table ftb).isSome = true := by
  unfold decIcdfContract at h
  split at h
  · assumption
  · cases h

theorem decUpdateContract_none {s : State} {fl fh ft : Word} (h : decUpdateContract fl fh ft s = none) :
    s.probe = some ft.toNat ∧ updateOk fl fh ft := by
  unfold decUpdateContract at h
  split at h
  · exact ⟨‹_›, operands_none.mp h⟩
  · cases h

theorem ruleOf_keepsEnc {i : Instr} {s t : State} (hi : narrowsOrAppends i = true) (hm : MemOk s) (hr : EncRegsOk s)
    (hc : contractOf i s = none) (h : ruleOf i s = .ok t) : KeepsEnc s t := by
  cases i with
  | encode => exact encodeRule_keeps hm hr (operands_none.mp hc) (encoderRule_at hr.probe h)
  | encodeBin => exact encodeBinRule_keeps hm hr (operands_none.mp hc) (encoderRule_at hr.probe h)
  | encBitLogp => exact encBitLogpRule_keeps hm hr (operands_none.mp hc) (encoderRule_at hr.probe h)
  | encIcdf =>
    obtain ⟨n, hn, hs⟩ := encIcdfContract_none hc
    exact encIcdfRule_keeps hm hr hn hs (encoderRule_at hr.probe h)
  | encUint => exact encUintRule_keeps hm hr (operands_none.mp hc) (encoderRule_at hr.probe h)
  | encBits => exact encBitsRule_keeps hm hr (operands_none.mp hc) (encoderRule_at hr.probe h)
  | encShrink => exact encShrinkRule_keeps hm hr (operands_none.mp hc) (encoderRule_at hr.probe h)
  | encPatch | encDone | encInit | decInit | decode | decodeBin | decUpdate | decBitLogp | decIcdf | decUint
  | decBits | tell | tellFrac | release => cases hi

theorem narrowsOrAppends_mode {i : Instr} {s t : State} (hi : narrowsOrAppends i = true)
    (ha : admittedIn i s.mode = true) (h : ruleOf i s = .ok t) : s.mode = .enc ∧ t.mode = .enc := by
  have hw := ruleOf_writes h
  cases i with
  | encode | encodeBin | encBitLogp | encIcdf | encUint | encBits | encShrink =>
    have hm : s.mode = .enc := by simpa [admittedIn] using ha
    exact ⟨hm, (EncWrites.mode hw :).trans hm⟩
  | encPatch | encDone | encInit | decInit | decode | decodeBin | decUpdate | decBitLogp | decIcdf | decUint
  | decBits | tell | tellFrac | release => cases hi

/-! ### The commands that take a part of a decoder's interval, or raw bits -/

/-- The decoder commands that narrow the interval or read raw bits. -/
def commitsOrReads : Instr → Bool
  | .decUpdate .. => true
  | .decBitLogp _ => true
  | .decIcdf .. => true
  | .decUint _ => true
  | .decBits _ => true
  | _ => false

theorem ruleOf_keepsDec {i : Instr} {s t : State} (hi : commitsOrReads i = true) (hr : DecRegsOk s) (hp : ProbeOk s)
    (hc : contractOf i s = none) (h : ruleOf i s = .ok t) : DecRegsOk t := by
  cases i with
  | decUpdate =>
    obtain ⟨hprobe, hok⟩ := decUpdateContract_none hc
    obtain ⟨hft, hext⟩ := hp _ hprobe
    exact decUpdateRule_keeps hr hft hext hok (onStream_ok h).2
  | decBitLogp => exact decBitLogpRule_keeps hr (operands_none.mp hc) (onStream_ok h).2
  | decIcdf => exact decIcdfRule_keeps hr (decIcdfContract_none hc) (onStream_ok h).2
  | decUint => exact decUintRule_keeps hr (operands_none.mp hc) (onStream_ok h).2
  | decBits => exact decBitsRule_keeps hr (operands_none.mp hc) (onStream_ok h).2
  | encInit | encode | encodeBin | encBitLogp | encIcdf | encUint | encBits | encPatch | encShrink | encDone | decInit
  | decode | decodeBin | tell | tellFrac | release => cases hi

theorem commitsOrReads_writes {i : Instr} {s t : State} (hi : commitsOrReads i = true) (h : ruleOf i s = .ok t) :
    DecWrites { s with error := t.error } t ∧ t.probe = none := by
  have hw := ruleOf_writes h
  cases i with
  | decUpdate =>
    obtain ⟨hw, hp, -⟩ := hw
    rw [hw.error]; exact ⟨hw, hp⟩
  | decBitLogp | decIcdf | decBits =>
    obtain ⟨hw, hp⟩ := hw
    rw [hw.error]; exact ⟨hw, hp⟩
  | decUint =>
    obtain ⟨hw, -, hp⟩ := hw
    exact ⟨hw, hp⟩
  | encInit | encode | encodeBin | encBitLogp | encIcdf | encUint | encBits | encPatch | encShrink | encDone | decInit
  | decode | decodeBin | tell | tellFrac | release => cases hi

/-! ### The invariant over every command -/

theorem refuse_inv {s : State} (hs : s.Inv) (r : RefuseReason) : (s.refuse r).Inv := by
  obtain ⟨hm, hmode⟩ := (inv_iff s).mp hs
  exact (inv_iff _).mpr ⟨⟨hm.params, hm.storage, hm.bufWf, hm.tblWf, hm.bufBelow, hm.tblBelow⟩, modeInv_congr rfl hmode⟩

theorem encInit_inv {s t : State} {size : Word} (hs : s.Inv) (hc : size.toNat ≤ s.params.bufCap)
    (h : encInitRule size s = .ok t) : t.Inv ∧ t.valRngOk := by
  obtain ⟨hm, -⟩ := (inv_iff s).mp hs
  injection h with h
  have hv : t.valRngOk := by
    rw [← h]
    exact valRngOk_of_lt (Nat.two_pow_pos 31) (Nat.le_refl _)
  subst h
  exact ⟨(inv_iff _).mpr ⟨⟨hm.params, hc, hm.bufWf, hm.tblWf, hm.bufBelow, hm.tblBelow⟩,
    (modeInv_of_enc rfl).mpr ⟨⟨⟨show 2 ^ 23 < codeTop.toNat by decide, Nat.le_refl _⟩, Nat.zero_le _, .inl rfl, Nat.zero_le _,
      .inl rfl, rfl⟩, .inl hv⟩⟩, hv⟩

/-- A command that writes RESULT alone. -/
theorem result_inv {s t : State} (hs : s.Inv) (h : t = { s with result := t.result }) : t.Inv := by
  obtain ⟨hm, hmode⟩ := (inv_iff s).mp hs
  refine (inv_iff t).mpr ⟨?_, modeInv_congr (by rw [h]) hmode⟩
  rw [h]
  exact ⟨hm.params, hm.storage, hm.bufWf, hm.tblWf, hm.bufBelow, hm.tblBelow⟩

theorem exec_keeps_inv {i : Instr} {s t : State} (hs : s.Inv) (h : exec i s = .next t) : t.Inv := by
  rcases exec_next h with ⟨x, rfl⟩ | ⟨ha, hc, h⟩
  · exact refuse_inv hs x
  have hw := ruleOf_writes h
  obtain ⟨hmem, hmode⟩ := (inv_iff s).mp hs
  cases i with
  | encInit => exact (encInit_inv hs (operands_none.mp hc) h).1
  | encode | encodeBin | encBitLogp | encIcdf | encUint | encBits | encShrink =>
    obtain ⟨hm, hm'⟩ := narrowsOrAppends_mode rfl ha h
    obtain ⟨-, hr, hsum⟩ := inv_enc hs hm
    have k := ruleOf_keepsEnc rfl hmem hr hc h
    exact (inv_iff t).mpr ⟨k.mem, (modeInv_of_enc hm').mpr ⟨k.regs, k.sum hsum⟩⟩
  | encPatch =>
    have hm : s.mode = .enc := by simpa [admittedIn] using ha
    obtain ⟨-, hr, hsum⟩ := inv_enc hs hm
    have hc := operands_none.mp hc
    have h := encoderRule_at hr.probe h
    exact (inv_iff t).mpr ⟨encPatchRule_keeps_mem hmem hr h, (modeInv_of_enc ((EncWrites.mode hw :).trans hm)).mpr
      ⟨encPatchRule_keeps_regs hr hc h, (encPatchRule_sum hr hc h).2 hsum⟩⟩
  | encDone =>
    have hm : s.mode = .enc := by simpa [admittedIn] using ha
    obtain ⟨-, hr, -⟩ := inv_enc hs hm
    obtain ⟨hmem', hr'⟩ := encDoneRule_keeps hmem hr (encoderRule_at hr.probe h)
    obtain ⟨u, -, rfl⟩ := hw
    exact (inv_iff _).mpr ⟨hmem', (modeInv_of_done rfl).mpr hr'⟩
  | decInit =>
    obtain ⟨hmem', hr'⟩ := decInitRule_keeps h hmem (operands_none.mp hc)
    exact (inv_iff t).mpr ⟨hmem', (modeInv_of_dec (Reads.mode hw :)).mpr ⟨hr', probeOk_of_none (Reads.probe hw :)⟩⟩
  | decode =>
    have hm : s.mode = .dec := by simpa [admittedIn] using ha
    obtain ⟨-, hr, -⟩ := inv_dec hs hm
    have hw := decodeRule_writes hw
    exact (inv_iff t).mpr ⟨hmem.decWrites hw, (modeInv_of_dec (hw.mode.trans hm)).mpr
      (decodeRule_keeps hr (operands_none.mp hc) h)⟩
  | decodeBin =>
    have hm : s.mode = .dec := by simpa [admittedIn] using ha
    obtain ⟨-, hr, -⟩ := inv_dec hs hm
    have hw := decodeBinRule_writes hw
    exact (inv_iff t).mpr ⟨hmem.decWrites hw, (modeInv_of_dec (hw.mode.trans hm)).mpr
      (decodeBinRule_keeps hr (operands_none.mp hc) h)⟩
  | decUpdate | decBitLogp | decIcdf | decUint | decBits =>
    have hm : s.mode = .dec := by simpa [admittedIn] using ha
    obtain ⟨-, hr, hp⟩ := inv_dec hs hm
    obtain ⟨hwrites, hprobe⟩ := commitsOrReads_writes rfl h
    have hmem' : MemOk { s with error := t.error } :=
      ⟨hmem.params, hmem.storage, hmem.bufWf, hmem.tblWf, hmem.bufBelow, hmem.tblBelow⟩
    exact (inv_iff t).mpr ⟨hmem'.decWrites hwrites, (modeInv_of_dec (hwrites.mode.trans hm)).mpr
      ⟨ruleOf_keepsDec rfl hr hp hc h, probeOk_of_none hprobe⟩⟩
  | tell | tellFrac => exact result_inv hs hw
  | release =>
    rw [show t = _ from hw]
    exact (inv_iff _).mpr ⟨⟨hmem.params, hmem.storage, hmem.bufWf, hmem.tblWf, hmem.bufBelow, hmem.tblBelow⟩,
      (modeInv_of_idle rfl).mpr ⟨modeInv_error (s := s) hmode, rfl⟩⟩

/-! ### The invariant over every step -/

/-- The invariant does not see the port. -/
theorem port_inv {s : State} (hs : s.Inv) (q : List Transaction) : ({ s with port := q } : State).Inv := by
  obtain ⟨hm, hmode⟩ := (inv_iff s).mp hs
  exact (inv_iff _).mpr ⟨⟨hm.params, hm.storage, hm.bufWf, hm.tblWf, hm.bufBelow, hm.tblBelow⟩, modeInv_congr rfl hmode⟩

theorem issue_keeps_inv {p : Packet} {s t : State} (hs : s.Inv) (h : issue p s = .next t) : t.Inv := by
  unfold issue at h
  split at h
  · injection h with h; rw [← h]; exact refuse_inv hs _
  · exact exec_keeps_inv hs h

theorem hostWriteBuf_keeps_inv {a : Nat} {v : Byte} {s t : State} (hs : s.Inv) (h : hostWriteBuf a v s = .next t) :
    t.Inv := by
  rcases hostWriteBuf_next h with ⟨ha, rfl⟩ | rfl
  · obtain ⟨hm, hmode⟩ := (inv_iff s).mp hs
    exact (inv_iff _).mpr ⟨⟨hm.params, hm.storage, Memory.write_wf hm.bufWf a v, hm.tblWf,
      Memory.write_below hm.bufBelow ha v, hm.tblBelow⟩, modeInv_congr rfl hmode⟩
  · exact refuse_inv hs _

theorem hostWriteTbl_keeps_inv {a : Nat} {v : Byte} {s t : State} (hs : s.Inv) (h : hostWriteTbl a v s = .next t) :
    t.Inv := by
  obtain ⟨ha, rfl⟩ := hostWriteTbl_next h
  obtain ⟨hm, hmode⟩ := (inv_iff s).mp hs
  exact (inv_iff _).mpr ⟨⟨hm.params, hm.storage, hm.bufWf, Memory.write_wf hm.tblWf a v, hm.bufBelow,
    Memory.write_below hm.tblBelow ha v⟩, modeInv_congr rfl hmode⟩

/-- Settles O51: every transaction keeps the invariant, the commands by their own lemmas, a host write because it stays
inside its memory, a hardware reset because it gives the state after reset. -/
theorem stepKeepsInvariant : Obligations.StepKeepsInvariant := by
  intro s t hs h
  unfold step at h
  split at h
  · injection h with h; rwa [← h]
  · rename_i x rest hport
    have hs' := port_inv hs rest
    cases x with
    | command p => exact issue_keeps_inv hs' h
    | writeBuf a v => exact hostWriteBuf_keeps_inv hs' h
    | writeTbl a v => exact hostWriteTbl_keeps_inv hs' h
    | hardwareReset =>
      injection h with h
      rw [← h]
      exact afterReset_inv hs.params _ _

/-! ### val + rng in the encoder (R19 (b), R81, R84) -/

theorem exec_keeps_valRngOk {i : Instr} {s t : State} (hs : s.Inv) (h : exec i s = .next t) (ht : t.mode = .enc)
    (hv : s.mode = .enc → s.valRngOk ∧ ¬ PatchesOverCarry i s) : t.valRngOk := by
  rcases exec_next h with ⟨x, rfl⟩ | ⟨ha, hc, h⟩
  · exact (hv ht).1
  have hw := ruleOf_writes h
  cases i with
  | encInit => exact (encInit_inv hs (operands_none.mp hc) h).2
  | encode | encodeBin | encBitLogp | encIcdf | encUint | encBits | encShrink =>
    obtain ⟨hm, -⟩ := narrowsOrAppends_mode rfl ha h
    obtain ⟨hmem, hr, -⟩ := inv_enc hs hm
    exact (ruleOf_keepsEnc rfl hmem hr hc h).exact (hv hm).1
  | encPatch =>
    have hm : s.mode = .enc := by simpa [admittedIn] using ha
    obtain ⟨-, hr, -⟩ := inv_enc hs hm
    obtain ⟨hsum, hno⟩ := hv hm
    exact (encPatchRule_sum hr (operands_none.mp hc) (encoderRule_at hr.probe h)).1 hsum hno
  | encDone =>
    obtain ⟨u, -, rfl⟩ := hw
    cases ht
  | decInit => rw [(Reads.mode hw :)] at ht; cases ht
  | decode | decodeBin =>
    have hm : s.mode = .dec := by simpa [admittedIn] using ha
    rw [probeWith_eq hw] at ht
    cases hm.symm.trans ht
  | decUpdate | decBitLogp | decIcdf | decUint | decBits =>
    have hm : s.mode = .dec := by simpa [admittedIn] using ha
    have e : t.mode = s.mode := (DecWrites.mode hw.1 :)
    cases hm.symm.trans (e.symm.trans ht)
  | tell | tellFrac =>
    have e : t = { s with result := t.result } := hw
    rw [e] at ht ⊢
    exact (hv ht).1
  | release => rw [show t = _ from hw] at ht; cases ht

/-- With a carry pending in val and nothing out, val + rng lies above CODE_TOP, and rem holds no byte. -/
theorem not_patchesOverCarry_of_carrySafe {i : Instr} {s : State} (hr : s.rngOk) (hc : s.carrySafe) :
    ¬ PatchesOverCarry i s := by
  rintro ⟨value, nbits, -, -, ⟨-, hrem⟩, -, hv⟩
  rcases hc.2 with h | h
  · have := hr.1
    omega
  · rw [hrem] at h
    exact absurd h (by decide)

/-- Log entry 9: nothing is out, and a first patch and a symbol have left a carry pending in val. -/
def overCarry : State :=
  { State.afterReset { bufCap := 16, tblSize := 16 } 0 [] with
    mode := .enc, storage := 16#32, rng := 0x00900000#32, val := 0x80F00000#32, rem := 0xFFFFFFFF#32 }

theorem overCarry_inv : overCarry.Inv :=
  (inv_iff _).mpr ⟨⟨by decide, by decide, by decide, by decide, by decide, by decide⟩, (modeInv_of_enc rfl).mpr
    ⟨⟨by decide, by decide, by decide, by decide, by decide, rfl⟩, .inl (by decide)⟩⟩

/-- A patch of seven ones over the carry makes val + rng 2^32 + 2^23. -/
theorem overCarry_patch : exec (.encPatch 127#32 7#32) overCarry = .next { overCarry with val := 0xFFF00000#32 } := rfl

/-- Settles O30: only a patch of val over a pending carry is left out, `carrySafe` leaves no such patch, and
`overCarry` is a state where one breaks R19 (b). -/
theorem onlyPatchOverCarryBreaksValPlusRng : Obligations.OnlyPatchOverCarryBreaksValPlusRng :=
  ⟨fun _ _ _ hs h ht hv => exec_keeps_valRngOk hs h ht hv,
    fun _ _ hr hc => not_patchesOverCarry_of_carrySafe hr hc,
    overCarry, _, 127#32, 7#32, overCarry_inv, rfl, by decide, ⟨127#32, 7#32, rfl, by decide⟩, overCarry_patch, rfl,
    by decide⟩

/-! ### val < rng in the decoder (R20 (e)) -/

/-- Settles O42: each narrowing takes the part of the interval that holds val, and a normalizer pass moves val and rng
up by one byte each. -/
theorem decoderKeepsValBelowRng : Obligations.DecoderKeepsValBelowRng := by
  intro i s t hs h ht hv hx
  rcases exec_next h with ⟨x, rfl⟩ | ⟨ha, hc, h⟩
  · exact hv ht
  have hw := ruleOf_writes h
  cases i with
  | encInit => cases h; cases ht
  | encode | encodeBin | encBitLogp | encIcdf | encUint | encBits | encPatch | encShrink =>
    have hm : s.mode = .enc := by simpa [admittedIn] using ha
    rw [(EncWrites.mode hw :), hm] at ht
    cases ht
  | encDone =>
    obtain ⟨u, -, rfl⟩ := hw
    cases ht
  | decInit => exact decInitRule_val_lt h
  | decode | decodeBin =>
    have hm : s.mode = .dec := by simpa [admittedIn] using ha
    rw [probeWith_eq hw]
    exact hv hm
  | decUpdate fl fh ft =>
    have hm : s.mode = .dec := by simpa [admittedIn] using ha
    obtain ⟨-, hr, hp⟩ := inv_dec hs hm
    obtain ⟨hprobe, hok⟩ := decUpdateContract_none hc
    obtain ⟨hft, hext⟩ := hp _ hprobe
    obtain ⟨hlo, hhi⟩ := hx fl fh ft rfl
    exact decUpdateRule_val_lt hr hft hext hok (hv hm) hlo hhi (onStream_ok h).2
  | decBitLogp =>
    have hm : s.mode = .dec := by simpa [admittedIn] using ha
    obtain ⟨-, hr, -⟩ := inv_dec hs hm
    exact decBitLogpRule_val_lt hr (operands_none.mp hc) (hv hm) (onStream_ok h).2
  | decIcdf =>
    have hm : s.mode = .dec := by simpa [admittedIn] using ha
    obtain ⟨-, hr, -⟩ := inv_dec hs hm
    exact decIcdfRule_val_lt hr (decIcdfContract_none hc) (hv hm) (onStream_ok h).2
  | decUint =>
    have hm : s.mode = .dec := by simpa [admittedIn] using ha
    obtain ⟨-, hr, -⟩ := inv_dec hs hm
    exact decUintRule_val_lt hr (operands_none.mp hc) (hv hm) (onStream_ok h).2
  | decBits =>
    have hm : s.mode = .dec := by simpa [admittedIn] using ha
    obtain ⟨ev, eg⟩ := decBitsRule_interval (onStream_ok h).2
    rw [ev, eg]
    exact hv hm
  | tell | tellFrac =>
    have e : t = { s with result := t.result } := hw
    rw [e] at ht ⊢
    exact hv ht
  | release => rw [show t = _ from hw] at ht; cases ht

end Sys2Proof.Proofs
end

section
/-! PROOFS. The front bytes as a number (20_memory.md R35), and the carry-out exactly (41_encoder.md R73): how many bytes
it puts out, whether they all fit, and what number they and the bytes still held stand for. -/

namespace Sys2Proof.Machine

/-! ### The bytes of a front as one number -/

theorem bufNumber_congr {s t : State} {n : Nat} (h : ∀ a, a < n → t.bufByte a = s.bufByte a) :
    t.bufNumber n = s.bufNumber n := by
  induction n with
  | zero => rfl
  | succ n ih =>
    rw [State.bufNumber, State.bufNumber, ih fun a ha => h a (by omega), h n (Nat.lt_succ_self n)]

/-- The bytes put out at the front so far. -/
def State.frontOut (s : State) : Nat := s.bufNumber s.offs.toNat

/-- The number that `n` bytes `v` stand for. -/
def byteRun (v : Nat) : Nat → Nat
  | 0 => 0
  | n + 1 => v * 256 ^ n + byteRun v n

theorem byteRun_ff (n : Nat) : byteRun 255 n = 256 ^ n - 1 := by
  induction n with
  | zero => rfl
  | succ n ih =>
    have := Nat.pow_pos (n := n) (show 0 < 256 by decide)
    rw [byteRun, ih, Nat.pow_succ]
    omega

theorem byteRun_zero (n : Nat) : byteRun 0 n = 0 := by
  induction n with
  | zero => rfl
  | succ n ih => rw [byteRun, ih, Nat.zero_mul]

/-- `t` is `s` with `n` more front bytes, which stand for the number `x`, and none of them lost. -/
structure Puts (n x : Nat) (s t : State) : Prop where
  emits : Emits s t
  offs  : t.offs.toNat = s.offs.toNat + n
  out   : t.frontOut = s.frontOut * 256 ^ n + x
  error : t.error = s.error

theorem Puts.refl (s : State) : Puts 0 0 s s := ⟨Emits.refl s, rfl, by simp, rfl⟩

theorem Puts.trans {n m x y : Nat} {s t u : State} (h : Puts n x s t) (k : Puts m y t u) :
    Puts (n + m) (x * 256 ^ m + y) s u where
  emits := h.emits.trans k.emits
  offs := by rw [k.offs, h.offs, Nat.add_assoc]
  out := by rw [k.out, h.out, Nat.pow_add]; ring
  error := by rw [k.error, h.error]

/-- `n` bytes, if there are any, fit between the cursors. -/
def State.fits (s : State) (n : Nat) : Prop := n = 0 ∨ s.offs.toNat + s.endOffs.toNat + n ≤ s.storage.toNat

/-- A front writer that puts out `n` bytes: they all fit and are there, or one was lost and error is -1 (EC1). -/
def PutsOrFails (n x : Nat) (s t : State) : Prop :=
  s.fits n ∧ Puts n x s t ∨ ¬ s.fits n ∧ t.error = encFault

theorem Emits.error_encFault {s t : State} (h : Emits s t) (hs : s.error = encFault) : t.error = encFault := by
  rcases h.error with e | e
  · rw [e]; exact hs
  · exact e

theorem PutsOrFails.trans {n m x y : Nat} {s t u : State} (h : PutsOrFails n x s t) (he : Emits t u)
    (k : PutsOrFails m y t u) : PutsOrFails (n + m) (x * 256 ^ m + y) s u := by
  unfold PutsOrFails State.fits at *
  rcases h with ⟨hf, h⟩ | ⟨hf, h⟩
  · rw [h.emits.storage, h.emits.endOffs, h.offs] at k
    rcases k with ⟨kf, k⟩ | ⟨kf, k⟩
    · exact .inl ⟨by omega, h.trans k⟩
    · exact .inr ⟨by omega, k⟩
  · exact .inr ⟨by omega, he.error_encFault h⟩

theorem PutsOrFails.puts_of_error {n x : Nat} {s t : State} (h : PutsOrFails n x s t) (ht : t.error = 0#32) :
    Puts n x s t := by
  rcases h with ⟨-, h⟩ | ⟨-, h⟩
  · exact h
  · rw [ht] at h; cases h

theorem PutsOrFails.puts_of_fits {n x : Nat} {s t : State} (h : PutsOrFails n x s t) (hs : s.fits n) : Puts n x s t := by
  rcases h with ⟨-, h⟩ | ⟨h, -⟩
  · exact h
  · exact absurd hs h

/-! ### The front writers -/

theorem putFront_putsOrFails (s : State) (v : Byte) : PutsOrFails 1 v.toNat s (s.putFront v) := by
  rcases Nat.lt_or_ge (s.offs.toNat + s.endOffs.toNat) s.storage.toNat with h | h
  · refine .inl ⟨.inr h, putFront_emits s v, ?_, ?_, ?_⟩
    · rw [State.putFront_fits h]
      exact toNat_succ (n := s.storage.toNat) (by omega) s.storage.isLt
    · rw [State.putFront_fits h]
      have ho := toNat_succ (x := s.offs) (n := s.storage.toNat) (by omega) s.storage.isLt
      unfold State.frontOut
      dsimp only
      rw [ho, State.bufNumber]
      have hb : ∀ x, State.bufByte { s with offs := s.offs + 1#32, buf := s.buf.write s.offs.toNat v } x =
          if x = s.offs.toNat then v else s.bufByte x := fun x => State.bufByte_bufWrite s s.offs.toNat x v
      rw [hb, if_pos rfl, Nat.pow_one]
      congr 2
      exact bufNumber_congr fun a ha => by rw [hb, if_neg (by omega)]
    · rw [State.putFront_fits h]
  · refine .inr ⟨by unfold State.fits; omega, ?_⟩
    rw [State.putFront_full h]

theorem PutsOrFails.refl (s : State) : PutsOrFails 0 0 s s := .inl ⟨.inl rfl, Puts.refl s⟩

/-- A change of rem and ext alone puts out nothing. -/
theorem putsOrFails_regs (s : State) {r : Word} (e : Word) (hr : r = s.rem ∨ r.toNat ≤ 255) :
    PutsOrFails 0 0 s { s with rem := r, ext := e } :=
  .inl ⟨.inl rfl, Emits.regs s e s.rng s.val s.nbitsTotal hr, rfl, by
    rw [Nat.pow_zero, Nat.mul_one]; exact bufNumber_congr fun _ _ => rfl, rfl⟩

theorem flushPending_putsOrFails (n : Nat) (v : Byte) (s : State) :
    PutsOrFails n (byteRun v.toNat n) s (State.flushPending n v s) := by
  induction n generalizing s with
  | zero => exact PutsOrFails.refl s
  | succ n ih =>
    have hput := (putFront_putsOrFails s v).trans (Emits.regs _ _ _ _ _ (.inl rfl))
      (putsOrFails_regs (s.putFront v) (s.ext - 1#32) (.inl rfl))
    have h := hput.trans (flushPending_emits n v _) (ih _)
    rw [Nat.pow_zero, Nat.mul_one, Nat.add_zero, Nat.add_zero, Nat.add_comm 1 n] at h
    exact h

/-- How many bytes R73 and R83 still hold back: the buffered one and the pending ones. -/
def State.held (s : State) : Nat := (if s.remIsByte then 1 else 0) + s.ext.toNat

/-- The number that the held bytes stand for, once a carry of 0 or 1 has come in. -/
def State.heldNumber (s : State) (carry : Nat) : Nat :=
  (if s.remIsByte then (s.rem.toNat + carry) % 256 * 256 ^ s.ext.toNat else 0) + byteRun ((255 + carry) % 256) s.ext.toNat

theorem flushRem_putsOrFails (s : State) (carry : Word) :
    PutsOrFails (if s.remIsByte then 1 else 0) (if s.remIsByte then (s.rem.toNat + carry.toNat) % 256 else 0) s
      (s.flushRem carry) := by
  unfold State.flushRem
  split
  · have h := putFront_putsOrFails s ((s.rem + carry).setWidth 8)
    rw [show ((s.rem + carry).setWidth 8).toNat = (s.rem.toNat + carry.toNat) % 256 by
      rw [BitVec.toNat_setWidth, BitVec.toNat_add]; omega] at h
    exact h
  · exact PutsOrFails.refl s

/-- CarryOut puts out the held bytes, with the carry (R73). -/
theorem carryFlush_putsOrFails (s : State) (c : Word) :
    PutsOrFails s.held (s.heldNumber (c.toNat / 256)) s (carryFlush s c) := by
  have hc := toNat_ushiftRight_div c symBits
  have hp := flushPending_putsOrFails s.ext.toNat ((symMax + c >>> symBits).setWidth 8) (s.flushRem (c >>> symBits))
  have hv : ((symMax + c >>> symBits).setWidth 8).toNat = (255 + c.toNat / 256) % 256 := by
    rw [BitVec.toNat_setWidth, BitVec.toNat_add, hc]
    show (255 + c.toNat / 256) % 2 ^ 32 % 256 = _
    omega
  have h := (flushRem_putsOrFails s (c >>> symBits)).trans (flushPending_emits _ _ _) hp
  rw [hv, hc] at h
  unfold State.held State.heldNumber
  split at h <;> rename_i hb
  · rw [if_pos hb, if_pos hb]; exact h
  · rw [if_neg hb, if_neg hb]; rw [Nat.zero_mul] at h; exact h

theorem flushPending_ext {n : Nat} {v : Byte} {s : State} (h : n ≤ s.ext.toNat) :
    (State.flushPending n v s).ext.toNat = s.ext.toNat - n := by
  induction n generalizing s with
  | zero => rfl
  | succ n ih =>
    have e : (s.ext - 1#32).toNat = s.ext.toNat - 1 := toNat_pred (by omega)
    rw [State.flushPending, ih (by show n ≤ (s.ext - 1#32).toNat; omega)]
    show (s.ext - 1#32).toNat - n = _
    omega

theorem flushRem_ext (s : State) (c : Word) : (s.flushRem c).ext = s.ext := by
  unfold State.flushRem
  split
  · rw [putFront_frame]
  · rfl

/-- CarryOut leaves no byte pending (R73). -/
theorem carryFlush_ext (s : State) (c : Word) : (carryFlush s c).ext = 0#32 := by
  refine BitVec.eq_of_toNat_eq ?_
  rw [carryFlush, flushPending_ext (by rw [flushRem_ext]), flushRem_ext]
  simp

theorem remIsByte_carryOut_other (s : State) {c : Word} (h : c ≠ symMax) : (s.carryOut c).remIsByte = true := by
  have := and_symMax_le c
  rw [carryOut_other s h, remIsByte_eq]
  exact decide_eq_true (by dsimp only; omega)

theorem ext_carryOut_other (s : State) {c : Word} (h : c ≠ symMax) : (s.carryOut c).ext = 0#32 := by
  rw [carryOut_other s h]
  exact carryFlush_ext s c

theorem toNat_ext_carryOut_ff {s : State} (h : s.ext.toNat + 1 < 2 ^ 32) :
    (s.carryOut symMax).ext.toNat = s.ext.toNat + 1 := by
  rw [carryOut_ff]
  exact toNat_succ (n := 2 ^ 32 - 1) (by omega) (by decide)

/-- The pending count goes up by one at most (R73). -/
theorem ext_carryOut_le {s : State} (h : s.ext.toNat + 1 < 2 ^ 32) (c : Word) :
    (s.carryOut c).ext.toNat ≤ s.ext.toNat + 1 := by
  by_cases hc : c = symMax
  · subst hc; exact Nat.le_of_eq (toNat_ext_carryOut_ff h)
  · rw [ext_carryOut_other s hc]; exact Nat.zero_le _

theorem held_carryOut_ff {s : State} (h : s.ext.toNat + 1 < 2 ^ 32) : (s.carryOut symMax).held = s.held + 1 := by
  have e := toNat_ext_carryOut_ff h
  unfold State.held
  rw [e]
  rfl

theorem held_carryOut_other (s : State) {c : Word} (h : c ≠ symMax) : (s.carryOut c).held = 1 := by
  unfold State.held
  rw [remIsByte_carryOut_other s h, ext_carryOut_other s h]
  rfl

/-- One symbol out: with room for the bytes held, nothing is lost, and the bytes out and held are one more. -/
theorem carryOut_of_fits {s : State} (hf : s.fits s.held) (hx : s.ext.toNat + 1 < 2 ^ 32) (c : Word) :
    (s.carryOut c).error = s.error ∧ (s.carryOut c).offs.toNat + (s.carryOut c).held = s.offs.toNat + s.held + 1 := by
  by_cases hc : c = symMax
  · subst hc
    rw [held_carryOut_ff hx, carryOut_ff]
    exact ⟨rfl, rfl⟩
  · have h := (carryFlush_putsOrFails s c).puts_of_fits hf
    rw [held_carryOut_other s hc, carryOut_other s hc]
    exact ⟨h.error, congrArg (· + 1) h.offs⟩

/-! ### The number out and held -/

theorem bufNumber_ext (s : State) (e : Word) (n : Nat) : ({ s with ext := e } : State).bufNumber n = s.bufNumber n :=
  bufNumber_congr fun _ _ => rfl

section
variable {s : State} (hr : s.rem = 0xFFFFFFFF#32 ∨ s.rem.toNat ≤ 255)
include hr

theorem heldNumber_zero :
    s.heldNumber 0 = (if s.remIsByte then s.rem.toNat * 256 ^ s.ext.toNat else 0) + (256 ^ s.ext.toNat - 1) := by
  unfold State.heldNumber
  rw [byteRun_ff]
  split
  · have := rem_of_byte hr ‹_›
    rw [Nat.add_zero, Nat.mod_eq_of_lt (by omega)]
  · rfl

/-- Without a carry the bytes out and held stand for the same number, whether they are out or not. -/
theorem outNumber_eq : s.outNumber = s.frontOut * 256 ^ s.held + s.heldNumber 0 := by
  rw [heldNumber_zero hr]
  unfold State.outNumber State.held State.frontOut
  split
  · rw [Nat.pow_add]; ring
  · rw [Nat.zero_add, Nat.zero_add]

end

/-- A carry raises the number held by one, where a byte that is not 0xFF can take it (R84). -/
theorem heldNumber_carry {s : State} (h : s.rem.toNat ≤ 254) : s.heldNumber 1 = s.heldNumber 0 + 1 := by
  have hb : s.remIsByte = true := by rw [remIsByte_eq]; exact decide_eq_true (by omega)
  have hp := Nat.pow_pos (n := s.ext.toNat) (show 0 < 256 by decide)
  rw [heldNumber_zero (.inr (by omega))]
  unfold State.heldNumber
  rw [if_pos hb, if_pos hb, show byteRun ((255 + 1) % 256) s.ext.toNat = 0 from byteRun_zero _,
    Nat.mod_eq_of_lt (by omega), Nat.add_mul]
  omega

theorem heldNumber_carryOut_ff {s : State} (hr : s.rem = 0xFFFFFFFF#32 ∨ s.rem.toNat ≤ 255)
    (hx : s.ext.toNat + 1 < 2 ^ 32) : (s.carryOut symMax).heldNumber 0 = s.heldNumber 0 * 256 + 255 := by
  have e := toNat_ext_carryOut_ff hx
  have hb : (s.carryOut symMax).remIsByte = s.remIsByte := by rw [carryOut_ff]; rfl
  have hrem : (s.carryOut symMax).rem = s.rem := by rw [carryOut_ff]
  have hp := Nat.pow_pos (n := s.ext.toNat) (show 0 < 256 by decide)
  rw [heldNumber_zero hr, heldNumber_zero (by rw [hrem]; exact hr), hb, hrem, e, Nat.pow_succ, ← Nat.mul_assoc]
  split <;> omega

/-- One symbol out, exactly: the number goes up one byte and takes the symbol's 9 bits, where no write is dropped and a
carry finds a byte that takes it. -/
theorem outNumber_carryOut {s : State} {c : Word} (hr : s.rem = 0xFFFFFFFF#32 ∨ s.rem.toNat ≤ 255)
    (hc : c.toNat < 512) (hcarry : 256 ≤ c.toNat → s.rem.toNat ≤ 254) (hx : s.ext.toNat + 1 < 2 ^ 32)
    (he : (s.carryOut c).error = 0#32) : (s.carryOut c).outNumber = s.outNumber * 256 + c.toNat := by
  by_cases h : c = symMax
  · subst h
    have hn : (s.carryOut symMax).frontOut = s.frontOut := by rw [carryOut_ff]; exact bufNumber_ext s _ _
    rw [outNumber_eq hr, outNumber_eq (by rw [carryOut_ff]; exact hr), held_carryOut_ff hx, hn,
      heldNumber_carryOut_ff hr hx, Nat.pow_succ, show symMax.toNat = 255 from rfl]
    ring
  · have hflush : (carryFlush s c).error = 0#32 := by rw [carryOut_other s h] at he; exact he
    have hout := ((carryFlush_putsOrFails s c).puts_of_error hflush).out
    have hcn : s.heldNumber (c.toNat / 256) = s.heldNumber 0 + c.toNat / 256 := by
      rcases Nat.lt_or_ge c.toNat 256 with hlt | hge
      · rw [Nat.div_eq_of_lt hlt]; rfl
      · rw [show c.toNat / 256 = 1 by omega]; exact heldNumber_carry (hcarry hge)
    have hrem : (s.carryOut c).rem.toNat = c.toNat % 256 := by
      rw [carryOut_other s h]; exact toNat_and_symMax c
    have hfront : (s.carryOut c).frontOut = (carryFlush s c).frontOut := by
      rw [carryOut_other s h]; exact bufNumber_congr fun _ _ => rfl
    have hheld : (s.carryOut c).heldNumber 0 = c.toNat % 256 := by
      rw [heldNumber_zero (.inr (by omega)), ext_carryOut_other s h, remIsByte_carryOut_other s h, hrem]
      simp
    rw [outNumber_eq hr, outNumber_eq (s := s.carryOut c) (.inr (by omega)), held_carryOut_other s h, hheld, hfront,
      hout, hcn, Nat.pow_one]
    omega

end Sys2Proof.Machine
end

section
/-! PROOFS. The encoder's normalizer exactly (41_encoder.md R74, R84): O31. -/

namespace Sys2Proof.Machine

theorem outNumber_interval (s : State) (v g n : Word) :
    ({ s with val := v, rng := g, nbitsTotal := n } : State).outNumber = s.outNumber := by
  have h : ∀ k, ({ s with val := v, rng := g, nbitsTotal := n } : State).bufNumber k = s.bufNumber k :=
    fun _ => bufNumber_congr fun _ _ => rfl
  unfold State.outNumber
  rw [h]
  rfl

/-- The symbol of a pass: bits 31..23 of val (R74). -/
theorem toNat_passSymbol (x : Word) : (x >>> codeShift).toNat = x.toNat / 2 ^ 23 := toNat_ushiftRight_div x codeShift

theorem toNat_encPass_val (s : State) : s.encPass.val.toNat = s.val.toNat * 256 % 2 ^ 31 := by
  rw [encPass_val, toNat_shl8_lowMask]

theorem rem_encPass_ff {s : State} (h : s.val.toNat / 2 ^ 23 = 255) : s.encPass.rem = s.rem := by
  have hc : s.val >>> codeShift = symMax := BitVec.eq_of_toNat_eq (by rw [toNat_passSymbol, h]; rfl)
  show (s.carryOut (s.val >>> codeShift)).rem = s.rem
  rw [hc, carryOut_ff]

theorem rem_encPass_other {s : State} (h : s.val.toNat / 2 ^ 23 ≠ 255) :
    s.encPass.rem.toNat = s.val.toNat / 2 ^ 23 % 256 := by
  have hc : s.val >>> codeShift ≠ symMax := fun e => h (by rw [← toNat_passSymbol, e]; rfl)
  show (s.carryOut (s.val >>> codeShift)).rem.toNat = _
  rw [carryOut_other s hc, ← toNat_passSymbol]
  exact toNat_and_symMax _

section
variable {s : State} (h0 : 0 < s.rng.toNat) (hg : s.rng.toNat ≤ 2 ^ 23) (hc : s.carrySafe)
include h0 hg hc

/-- One pass is exact (R74): its symbol goes out, and val keeps the bits below it, one byte up. -/
theorem lowEnd_encPass (hr : s.rem = 0xFFFFFFFF#32 ∨ s.rem.toNat ≤ 255) (hx : s.ext.toNat + 1 < 2 ^ 32)
    (he : s.encPass.error = 0#32) : s.encPass.lowEnd = s.lowEnd * 256 := by
  obtain ⟨-, hcarry⟩ := hc
  have hv := s.val.isLt
  have hsym := toNat_passSymbol s.val
  have hout : s.encPass.outNumber = s.outNumber * 256 + s.val.toNat / 2 ^ 23 := by
    rw [← hsym, ← outNumber_carryOut hr (by omega) (fun hge => ?_) hx he]
    · exact outNumber_interval _ _ _ _
    · rcases hcarry with h | h
      · omega
      · exact h
  unfold State.lowEnd
  rw [hout, toNat_encPass_val]
  omega

/-- A pass keeps `carrySafe` (R84): the byte it leaves in rem is 0xFF only where no carry can come any more. -/
theorem carrySafe_encPass : s.encPass.carrySafe := by
  obtain ⟨hsum, hcarry⟩ := hc
  have hsum : s.val.toNat + s.rng.toNat < 2 ^ 32 := hsum
  have hrng : s.encPass.rng.toNat = s.rng.toNat * 256 := toNat_shl8_of_le hg
  unfold State.carrySafe State.valRngOk
  rw [toNat_encPass_val, hrng]
  refine ⟨by omega, ?_⟩
  by_cases h : s.val.toNat / 2 ^ 23 = 255
  · rw [rem_encPass_ff h]
    omega
  · rw [rem_encPass_other h]
    omega

end

/-- The loop of R74 is exact. -/
theorem lowEnd_encPasses {n : Nat} {s : State} (h0 : 0 < s.rng.toNat)
    (hr : s.rem = 0xFFFFFFFF#32 ∨ s.rem.toNat ≤ 255) (hc : s.carrySafe) (hx : s.ext.toNat + n < 2 ^ 32)
    (he : (State.encPasses n s).error = 0#32) :
    ∃ k, k ≤ n ∧ (State.encPasses n s).lowEnd = s.lowEnd * 256 ^ k ∧
      (State.encPasses n s).rng.toNat = s.rng.toNat * 256 ^ k ∧ (State.encPasses n s).carrySafe := by
  induction n generalizing s with
  | zero => exact ⟨0, Nat.le_refl 0, by simp [State.encPasses], by simp [State.encPasses], hc⟩
  | succ n ih =>
    unfold State.encPasses at he ⊢
    split
    · rename_i hle
      have hg : s.rng.toNat ≤ 2 ^ 23 := hle
      rw [if_pos hle] at he
      have hpass : s.encPass.error = 0#32 := by
        by_contra hne
        exact (encPasses_emits n s.encPass).writes.error_ne_zero hne he
      have hrng : s.encPass.rng.toNat = s.rng.toNat * 256 := toNat_shl8_of_le hg
      have hrem : s.encPass.rem = 0xFFFFFFFF#32 ∨ s.encPass.rem.toNat ≤ 255 := by
        rcases (encPass_emits s).rem with e | e
        · rw [e]; exact hr
        · exact .inr e
      have hext : s.encPass.ext.toNat ≤ s.ext.toNat + 1 := ext_carryOut_le (by omega) _
      obtain ⟨k, hk, hlow, hw, hsafe⟩ := ih (by omega) hrem (carrySafe_encPass h0 hg hc) (by omega) he
      refine ⟨k + 1, by omega, ?_, ?_, hsafe⟩
      · rw [hlow, lowEnd_encPass h0 hg hc hr (by omega) hpass, Nat.pow_succ]; ring
      · rw [hw, hrng, Nat.pow_succ]; ring
    · exact ⟨0, Nat.zero_le _, by simp, by simp, hc⟩

end Sys2Proof.Machine

namespace Sys2Proof.Proofs

open Sys2Proof.Machine

/-- Settles O31: each pass moves the low end up one byte exactly, and keeps what the next pass needs. -/
theorem encNormalizeKeepsLowEnd : Obligations.EncNormalizeKeepsLowEnd := by
  intro s t h0 _ hr hc hx h _ ht
  unfold State.encNormalize at h
  split at h
  · cases h
  · injection h with h
    subst h
    exact lowEnd_encPasses h0 hr hc (by omega) ht

end Sys2Proof.Proofs
end

section
/-! PROOFS. The causes of error (60_exceptions.md R141): O54. -/

namespace Sys2Proof.Machine

/-! ### A byte that did not fit (EC1, EC2) -/

/-- Error changes from `s` to `t` only to -1, and only where the buffer is full at the end; a full buffer stays full. -/
structure Fills (s t : State) : Prop where
  error : t.error = s.error ∨ t.error = encFault
  full  : s.storage.toNat ≤ s.offs.toNat + s.endOffs.toNat → t.storage.toNat ≤ t.offs.toNat + t.endOffs.toNat
  lost  : t.error ≠ s.error → t.storage.toNat ≤ t.offs.toNat + t.endOffs.toNat

theorem Fills.trans {s t u : State} (h : Fills s t) (k : Fills t u) : Fills s u where
  error := by
    rcases k.error with e | e
    · rw [e]; exact h.error
    · exact .inr e
  full := k.full ∘ h.full
  lost hne := by
    by_cases e : t.error = s.error
    · exact k.lost (by rw [e]; exact hne)
    · exact k.full (h.lost e)

theorem Emits.fills {s t : State} (h : Emits s t) : Fills s t where
  error := h.error
  full hs := by rw [h.storage, h.endOffs, (h.full hs).1]; exact hs
  lost hne := by rw [h.storage, h.endOffs]; exact h.lost hne

theorem Backs.fills {s t : State} (h : Backs s t) : Fills s t where
  error := h.error
  full hs := by rw [h.storage, h.offs, (h.full hs).1]; exact hs
  lost hne := by rw [h.storage, h.offs]; exact h.lost hne

theorem encBitsRule_fills {s t : State} {value nbits : Word} (h : encBitsRule value nbits s = .ok t) : Fills s t := by
  have hb := (makeRoom_backs s.nendBits.toNat nbits.toNat s).fills
  rw [encBitsRule_ok h]
  exact ⟨hb.error, hb.full, hb.lost⟩

theorem encUintRule_fills {s t : State} {value total : Word} (h : encUintRule value total s = .ok t) : Fills s t := by
  rcases encUintRule_ok h with ⟨-, h⟩ | ⟨-, u, hu, h⟩
  · exact (encodeRule_emits h).fills
  · exact (encodeRule_emits hu).fills.trans (encBitsRule_fills h)

theorem encShrinkRule_error {s t : State} {size : Word} (h : encShrinkRule size s = .ok t) : t.error = s.error := by
  rw [encShrinkRule_ok h, bufWriteAll_frame]

theorem encShrinkRule_fills {s t : State} {size : Word} (hc : shrinkOk size s) (h : encShrinkRule size s = .ok t) :
    Fills s t where
  error := .inl (encShrinkRule_error h)
  full hs := by
    rw [encShrinkRule_ok h, bufWriteAll_frame]
    exact Nat.le_trans hc.2 hs
  lost hne := absurd (encShrinkRule_error h) hne

/-! ### The window's whole bytes (R80, R83) -/

/-- The whole bytes of a window go back: all of them fit and are there, or one was lost and error is -1 (EC2). -/
theorem flushWindow_fits_or_fails {n : Nat} {w : Window} (hn : w.count / 8 ≤ n) (s : State) :
    let t := (State.flushWindow n w s).2
    t.error = s.error ∧ t.endOffs.toNat = s.endOffs.toNat + w.count / 8 ∨
    s.storage.toNat < s.offs.toNat + s.endOffs.toNat + w.count / 8 ∧ t.error = encFault := by
  induction n generalizing w s with
  | zero =>
    have : w.count / 8 = 0 := by omega
    exact .inl ⟨rfl, by rw [this]; rfl⟩
  | succ n ih =>
    simp only [State.flushWindow, symBits]
    split
    · have hcount : (w.count - 8) / 8 + 1 = w.count / 8 := by omega
      have hstep := ih (w := { bits := w.bits >>> 8, count := w.count - 8 }) (by dsimp only; omega)
        (s.putBack ((w.bits &&& symMax).setWidth 8))
      rcases Nat.lt_or_ge (s.offs.toNat + s.endOffs.toNat) s.storage.toNat with h | h
      · have hone := toNat_succ (x := s.endOffs) (n := s.storage.toNat) (by omega) s.storage.isLt
        rw [State.putBack_fits h] at hstep ⊢
        simp only [hone] at hstep
        rcases hstep with ⟨he, hb⟩ | ⟨hlt, he⟩
        · exact .inl ⟨he, by omega⟩
        · exact .inr ⟨by omega, he⟩
      · refine .inr ⟨by omega, ?_⟩
        have hk := (flushWindow_backs n { bits := w.bits >>> 8, count := w.count - 8 }
          (s.putBack ((w.bits &&& symMax).setWidth 8))).error
        rw [State.putBack_full h] at hk ⊢
        rcases hk with e | e
        · exact e
        · exact e
    · have : w.count / 8 = 0 := by omega
      exact .inl ⟨rfl, by rw [this]; rfl⟩

/-- ENC_BITS loses a byte only where it had to make room, for more whole bytes than there was room (R80). -/
theorem encBitsRule_error {s t : State} {value nbits : Word} (h : encBitsRule value nbits s = .ok t)
    (hne : t.error ≠ s.error) :
    32 < s.nendBits.toNat + nbits.toNat ∧
      s.storage.toNat < s.offs.toNat + s.endOffs.toNat + s.nendBits.toNat / 8 := by
  rw [encBitsRule_ok h] at hne
  have hne : (makeRoom s.nendBits.toNat nbits.toNat s).2.error ≠ s.error := hne
  unfold makeRoom at hne
  split at hne
  · have hn : (s.window s.nendBits.toNat).count / 8 ≤ s.nendBits.toNat := Nat.div_le_self _ _
    rcases flushWindow_fits_or_fails hn s with ⟨he, -⟩ | ⟨hlt, -⟩
    · exact absurd he hne
    · exact ⟨‹_›, hlt⟩
  · exact absurd rfl hne

/-! ### A patch too early (EC3) -/

theorem encPatchRule_error {s t : State} (hr : s.rem = 0xFFFFFFFF#32 ∨ s.rem.toNat ≤ 255) {value nbits : Word}
    (hc : patchOk value nbits) (h : encPatchRule value nbits s = .ok t) (hne : t.error ≠ s.error) :
    t.error = encFault ∧ s.offs.toNat = 0 ∧ s.rem.toInt < 0 ∧ 2 ^ (31 - nbits.toNat) < s.rng.toNat := by
  have hn : nbits.toNat ≤ 8 := hc.1.2
  rcases encPatchRule_ok h with ⟨-, b, rfl⟩ | ⟨-, -, rfl⟩ | ⟨-, -, -, rfl⟩ | ⟨ho, hb, hg, rfl⟩
  · exact absurd rfl hne
  · exact absurd rfl hne
  · exact absurd rfl hne
  · rw [le_settled_iff s.rng (n := nbits.toNat) (by omega)] at hg
    exact ⟨rfl, by rw [ho]; rfl, by rw [rem_of_not_byte hr hb]; decide, Nat.not_le.mp hg⟩

/-! ### What did not fit at the end (EC1, EC2, EC4, EC5) -/

/-- Step 2 of R83 for `l` code bits makes the `m` passes that hold them, and ends at l - 8 m. -/
theorem emitCode_rest {m n : Nat} {l : Int} (hn : m ≤ n) (hl : l ≤ 8 * m) (hl' : 8 * m < l + 8) (e : Word) (s : State) :
    (State.emitCode n l e s).1 = l - 8 * m := by
  induction m generalizing n l e s with
  | zero =>
    cases n with
    | zero => simp [State.emitCode]
    | succ n => rw [State.emitCode, if_neg (by omega)]; simp
  | succ m ih =>
    obtain ⟨n, rfl⟩ : ∃ k, n = k + 1 := ⟨n - 1, by omega⟩
    rw [State.emitCode, if_pos (by omega), ih (by omega) (by simp only [symBits]; omega) (by simp only [symBits]; omega)]
    simp only [symBits]
    omega

/-- With room for the bytes held and those of the code, step 2 of R83 loses none. -/
theorem emitCode_of_fits {m n : Nat} {l : Int} (hn : m ≤ n) (hl : l ≤ 8 * m) (hl' : 8 * m < l + 8) (e : Word) {s : State}
    (hf : s.fits (s.held + m)) :
    (State.emitCode n l e s).2.error = s.error ∧
    (State.emitCode n l e s).2.offs.toNat + (State.emitCode n l e s).2.held = s.offs.toNat + s.held + m := by
  induction m generalizing n l e s with
  | zero =>
    cases n with
    | zero => exact ⟨rfl, rfl⟩
    | succ n => rw [State.emitCode, if_neg (by omega)]; exact ⟨rfl, rfl⟩
  | succ m ih =>
    obtain ⟨n, rfl⟩ : ∃ k, n = k + 1 := ⟨n - 1, by omega⟩
    have hst := s.storage.isLt
    have hroom : s.offs.toNat + s.endOffs.toNat + (s.held + (m + 1)) ≤ s.storage.toNat := hf.resolve_left (by omega)
    have hheld : s.ext.toNat ≤ s.held := Nat.le_add_left _ _
    have hemit := carryOut_emits s (e >>> codeShift)
    obtain ⟨he, ho⟩ := carryOut_of_fits (s := s) (.inr (by omega)) (by omega) (e >>> codeShift)
    have hnext : (s.carryOut (e >>> codeShift)).fits ((s.carryOut (e >>> codeShift)).held + m) := by
      refine .inr ?_
      rw [hemit.storage, hemit.endOffs]
      omega
    rw [State.emitCode, if_pos (by omega)]
    obtain ⟨ie, io⟩ := ih (n := n) (l := l - symBits) (by omega) (by simp only [symBits]; omega)
      (by simp only [symBits]; omega) ((e <<< symBits) &&& lowMask) hnext
    exact ⟨ie.trans he, by omega⟩

/-- Step 3 of R83 puts out the bytes held. -/
theorem flushCarry_of_fits {s : State} (hf : s.fits s.held) :
    s.flushCarry.error = s.error ∧ s.flushCarry.offs.toNat = s.offs.toNat + s.held := by
  unfold State.flushCarry
  split
  · have h := (carryFlush_putsOrFails s 0#32).puts_of_fits hf
    rw [carryOut_other s (by decide)]
    exact ⟨h.error, h.offs⟩
  · rename_i hno
    simp only [Bool.or_eq_true, decide_eq_true_eq, not_or] at hno
    obtain ⟨hb, hx⟩ := hno
    have hx : ¬ 0 < s.ext.toNat := hx
    have : s.held = 0 := by
      unfold State.held
      rw [if_neg hb]
      omega
    exact ⟨rfl, by rw [this]; rfl⟩

/-- A merge that finds no bits left over, or a byte before the raw bytes with room for them, leaves error (R83). -/
theorem mergeLeftover_error_of_fits {s : State} {w : Window} {free : Nat}
    (h : w.count = 0 ∨ s.endOffs.toNat < s.storage.toNat ∧
      (s.offs.toNat + s.endOffs.toNat < s.storage.toNat ∨ w.count ≤ free)) :
    (s.mergeLeftover w free).error = s.error := by
  unfold State.mergeLeftover
  split
  · rfl
  · rcases h with h | ⟨h1, h2⟩
    · exact absurd h ‹_›
    · rw [if_neg (by omega), if_neg (by omega)]
      rfl

theorem finishGap_error_of_fits {s : State} {w : Window} {free : Nat}
    (h : w.count = 0 ∨ s.endOffs.toNat < s.storage.toNat ∧
      (s.offs.toNat + s.endOffs.toNat < s.storage.toNat ∨ w.count ≤ free)) :
    (finishGap w free s).error = s.error := by
  unfold finishGap
  split
  · have hz : s.zeroGap.endOffs = s.endOffs ∧ s.zeroGap.storage = s.storage ∧ s.zeroGap.offs = s.offs := by
      rw [zeroGap_frame]; exact ⟨rfl, rfl, rfl⟩
    obtain ⟨h1, h2, h3⟩ := hz
    rw [mergeLeftover_error_of_fits (by rw [h1, h2, h3]; exact h), zeroGap_error]
  · rfl

section
variable {s : State} (hr : EncRegsOk s) (hfit : s.doneFits)
include hr

theorem doneCode_fst : s.doneCode.1 = s.codeValue.1 := by rw [doneCode_eq hr.rng]

/-- The passes of step 2 of R83 hold the code bits. -/
theorem doneCodeBytes_bounds :
    s.doneCodeBytes ≤ s.codeValue.1 ∧ (s.codeValue.1 : Int) ≤ 8 * s.doneCodeBytes ∧
    8 * (s.doneCodeBytes : Int) < s.codeValue.1 + 8 := by
  rw [State.doneCodeBytes, doneCode_fst hr]
  omega

theorem flushAll_window :
    (s.flushAll s.nendBits.toNat).1.count = s.nendBits.toNat % 8 ∧ (s.flushAll s.nendBits.toNat).2.1 = s.doneFree := by
  have hw : (s.window s.nendBits.toNat).count / 8 ≤ s.nendBits.toNat := Nat.div_le_self _ _
  obtain ⟨hn, hl, hl'⟩ := doneCodeBytes_bounds hr
  refine ⟨(flushWindow_window hw _).1, ?_⟩
  show (-(State.emitCode s.codeValue.1 s.codeValue.1 s.codeValue.2 s).1).toNat = _
  rw [emitCode_rest hn hl hl', State.doneFree, doneCode_fst hr]
  omega

include hfit

/-- Where everything fits, steps 1 to 4 of R83 put out what `doneFront` and the whole raw bytes say, and lose nothing. -/
theorem flushAll_of_fits :
    (s.flushAll s.nendBits.toNat).2.2.error = s.error ∧
    (s.flushAll s.nendBits.toNat).2.2.storage = s.storage ∧
    (s.flushAll s.nendBits.toNat).2.2.offs.toNat = s.offs.toNat + s.doneFront ∧
    (s.flushAll s.nendBits.toNat).2.2.endOffs.toNat = s.endOffs.toNat + s.nendBits.toNat / 8 := by
  obtain ⟨hn, hl, hl'⟩ := doneCodeBytes_bounds hr
  have hfront : s.doneFront = s.held + s.doneCodeBytes := rfl
  have hroom : s.offs.toNat + s.endOffs.toNat + (s.held + s.doneCodeBytes) + s.nendBits.toNat / 8 ≤ s.storage.toNat := by
    have h1 : s.doneFront + s.nendBits.toNat / 8 ≤ s.storage.toNat - (s.offs.toNat + s.endOffs.toNat) := hfit.1
    have h2 := hr.cursors
    omega
  have hec := emitCode_emits s.codeValue.1 s.codeValue.1 s.codeValue.2 s
  obtain ⟨ce, co⟩ := emitCode_of_fits hn hl hl' s.codeValue.2 (.inr (by omega) : s.fits (s.held + s.doneCodeBytes))
  obtain ⟨fe, fo⟩ := flushCarry_of_fits (s := (State.emitCode s.codeValue.1 s.codeValue.1 s.codeValue.2 s).2)
    (.inr (by rw [hec.storage, hec.endOffs]; omega))
  have heu := hec.trans (flushCarry_emits _)
  have hback := flushWindow_backs s.nendBits.toNat (s.window s.nendBits.toNat)
    (State.emitCode s.codeValue.1 s.codeValue.1 s.codeValue.2 s).2.flushCarry
  have hw : (s.window s.nendBits.toNat).count / 8 ≤ s.nendBits.toNat := Nat.div_le_self _ _
  rcases flushWindow_fits_or_fails hw (State.emitCode s.codeValue.1 s.codeValue.1 s.codeValue.2 s).2.flushCarry with
    ⟨we, wb⟩ | ⟨hlt, -⟩
  · refine ⟨we.trans (fe.trans ce), hback.storage.trans heu.storage, ?_, ?_⟩
    · rw [show (s.flushAll s.nendBits.toNat).2.2.offs = _ from hback.offs]
      omega
    · rw [heu.endOffs] at wb
      exact wb
  · rw [heu.storage, heu.endOffs] at hlt
    have hcount : (s.window s.nendBits.toNat).count = s.nendBits.toNat := rfl
    omega

/-- Where everything fits, ENC_DONE leaves error as it is (R83). -/
theorem encDoneRule_error_of_fits {t : State} (h : encDoneRule s = .ok t) : t.error = s.error := by
  obtain ⟨he, hst, ho, hb⟩ := flushAll_of_fits hr hfit
  obtain ⟨hcount, hfree⟩ := flushAll_window hr
  have hneed : s.doneFront + s.nendBits.toNat / 8 ≤ s.storage.toNat - (s.offs.toNat + s.endOffs.toNat) := hfit.1
  have hcur := hr.cursors
  have hleft : s.nendBits.toNat % 8 = 0 ∨
      s.doneFront + s.nendBits.toNat / 8 < s.storage.toNat - (s.offs.toNat + s.endOffs.toNat) ∨
      s.nendBits.toNat % 8 ≤ s.doneFree := hfit.2
  have hfront : s.doneFree ≠ 0 → 0 < s.doneFront := by
    unfold State.doneFree State.doneFront
    omega
  rw [encDoneRule_ok h]
  refine Eq.trans (finishGap_error_of_fits ?_) he
  rw [hcount, hfree, hst, ho, hb]
  omega

end

/-! ### The integer of a split DEC_UINT above total - 1 (DC1) -/

/-- The value of R109 joined from its two parts. -/
theorem toNat_joined {hi lo : Word} {x : Nat} (hx : x ≤ 24) (hhi : hi.toNat < 2 ^ 8) (hlo : lo.toNat < 2 ^ x) :
    (hi <<< x ||| lo).toNat = hi.toNat * 2 ^ x + lo.toNat := by
  have hlt : hi.toNat * 2 ^ x < 2 ^ 32 := by
    calc hi.toNat * 2 ^ x < 2 ^ 8 * 2 ^ x := Nat.mul_lt_mul_of_pos_right hhi (Nat.two_pow_pos x)
      _ = 2 ^ (8 + x) := (Nat.pow_add 2 8 x).symm
      _ ≤ 2 ^ 32 := Nat.pow_le_pow_right (by decide) (by omega)
  rw [BitVec.toNat_or, BitVec.toNat_shiftLeft, Nat.shiftLeft_eq, Nat.mod_eq_of_lt hlt, Nat.mul_comm,
    Nat.two_pow_add_eq_or_of_lt hlo]

theorem decBitsRule_result_lt {s t : State} {nbits : Word} (hc : rawOk nbits) (h : decBitsRule nbits s = .ok t) :
    t.result.toNat < 2 ^ nbits.toNat := by
  have hn : nbits.toNat ≤ 25 := hc.2
  have hp := toNat_one_shl (n := nbits.toNat) (by omega)
  have hpos := Nat.two_pow_pos nbits.toNat
  have hmask : (1#32 <<< nbits.toNat - 1#32).toNat = 2 ^ nbits.toNat - 1 := by rw [toNat_pred (by omega), hp]
  rw [decBitsRule_ok h, BitVec.toNat_and]
  refine Nat.lt_of_le_of_lt Nat.and_le_right ?_
  omega

theorem split_total_gt {total : Word} (h2 : 2 ≤ total.toNat) (hx : extraBits total ≠ 0) : 256 < total.toNat := by
  have e := toNat_pred (x := total) (by omega)
  have hl : 9 ≤ ilog (total - 1#32) := by unfold extraBits uintBits at hx; omega
  have h0 : total - 1#32 ≠ 0#32 := by
    intro h0
    rw [h0] at hl
    exact absurd hl (by decide)
  have h1 := Proofs.two_pow_pred_ilog_le h0
  have h3 : 2 ^ 8 ≤ 2 ^ (ilog (total - 1#32) - 1) := Nat.pow_le_pow_right (by decide) (by omega)
  omega

/-- A DEC_UINT that changes error was split, and its parts joined give a value above total - 1. -/
theorem decUintRule_error {s t : State} {total : Word} (hc : uintTotalOk total)
    (h : decUintRule total s = .ok t) (hne : t.error ≠ s.error) :
    extraBits total ≠ 0 ∧ t.error = decFault ∧ t.result = total - 1#32 ∧
    ∃ u v w, decodeRule (splitTotal total) s = .ok u ∧
      decUpdateRule u.result (u.result + 1#32) (splitTotal total) u = .ok v ∧
      decBitsRule (BitVec.ofNat 32 (extraBits total)) v = .ok w ∧
      total.toNat ≤ u.result.toNat * 2 ^ extraBits total + w.result.toNat := by
  have h2 : 2 ≤ total.toNat := hc
  rcases decUintRule_ok h with ⟨-, h⟩ | ⟨hx, v, w, hv, hw, rfl⟩
  · exact absurd (decodeSymbol_writes h).1.error hne
  obtain ⟨u, hu, hcommit⟩ := decodeSymbol_ok hv
  have herr : w.error = s.error := (decBitsRule_writes hw).1.error.trans (decodeSymbol_writes hv).1.error
  rcases checkUint_cases w (v.result <<< extraBits total ||| w.result) (total - 1#32) with ⟨-, e⟩ | ⟨hgt, e⟩
  · rw [e] at hne
    exact absurd herr hne
  · rw [e]
    refine ⟨hx, rfl, rfl, u, v, w, hu, hcommit, hw, ?_⟩
    have hres : v.result = u.result := (decUpdateRule_writes hcommit).2.2
    have hlo := decBitsRule_result_lt (rawOk_extraBits hx) hw
    rw [toNat_ofNat_extraBits] at hlo
    have hsplit := toNat_splitTotal h2
    have hhigh := high_lt h2
    obtain ⟨-, hlt, hle⟩ := decodeRule_result (probeOk_splitTotal h2) hu
    have hone : (u.result + 1#32).toNat ≤ (splitTotal total).toNat := hle
    have hu8 : u.result.toNat < 2 ^ 8 := by omega
    rw [hres, BitVec.le_def, toNat_joined (extraBits_le total) hu8 hlo, toNat_pred (by omega)] at hgt
    omega

end Sys2Proof.Machine

namespace Sys2Proof.Proofs

open Sys2Proof.Machine

/-- The parts of a split DEC_UINT are commands that the unit admits, one after the other. -/
theorem decodeParts_exec {s u v w : State} {ft x : Word} (hs : s.Inv) (hm : s.mode = .dec) (hc : probeOk ft)
    (hx : rawOk x) (hu : decodeRule ft s = .ok u) (hv : decUpdateRule u.result (u.result + 1#32) ft u = .ok v)
    (hw : decBitsRule x v = .ok w) :
    exec (.decode ft) s = .next u ∧ exec (.decUpdate u.result (u.result + 1#32) ft) u = .next v ∧
    exec (.decBits x) v = .next w := by
  have hst := hs.storage
  have wu := decodeRule_writes hu
  have wv := (decUpdateRule_writes hv).1
  have hmu : u.mode = .dec := wu.mode.trans hm
  have hmv : v.mode = .dec := wv.mode.trans hmu
  have hsu : u.storage.toNat ≤ u.params.bufCap := by rw [wu]; exact hst
  have hsv : v.storage.toNat ≤ v.params.bufCap := by rw [wv]; exact hsu
  have hprobe : u.probe = some ft.toNat := by rw [probeWith_eq hu]
  refine ⟨exec_ok ?_ ?_ hu, exec_ok ?_ ?_ ((onStream_of_le hsu _).trans hv),
    exec_ok ?_ ?_ ((onStream_of_le hsv _).trans hw)⟩
  · rw [hm]; rfl
  · exact operands_none.mpr hc
  · rw [hmu]; rfl
  · exact (if_pos hprobe).trans (operands_none.mpr (decodeRule_result hc hu).2)
  · rw [hmv]; rfl
  · exact operands_none.mpr hx

theorem ruleOf_fills {i : Instr} {s t : State} (hi : narrowsOrAppends i = true) (hp : s.probe = none)
    (hc : contractOf i s = none) (h : ruleOf i s = .ok t) : Fills s t := by
  cases i with
  | encode => exact (encodeRule_emits (encoderRule_at hp h)).fills
  | encodeBin => exact (encodeBinRule_emits (encoderRule_at hp h)).fills
  | encBitLogp => exact (encBitLogpRule_emits (encoderRule_at hp h)).fills
  | encIcdf => exact (encIcdfRule_emits (encoderRule_at hp h)).fills
  | encUint => exact encUintRule_fills (encoderRule_at hp h)
  | encBits => exact encBitsRule_fills (encoderRule_at hp h)
  | encShrink => exact encShrinkRule_fills (operands_none.mp hc) (encoderRule_at hp h)
  | encPatch | encDone | encInit | decInit | decode | decodeBin | decUpdate | decBitLogp | decIcdf | decUint
  | decBits | tell | tellFrac | release => cases hi

/-- A narrowing command or ENC_BITS that changes error makes it -1 and leaves the buffer full. -/
theorem isFull_of_error {i : Instr} {s t : State} (hi : narrowsOrAppends i = true) (hs : s.Inv)
    (ha : admittedIn i s.mode = true) (hc : contractOf i s = none) (h : ruleOf i s = .ok t) (hne : t.error ≠ s.error) :
    t.error = encFault ∧ t.offs.toNat + t.endOffs.toNat = t.storage.toNat := by
  obtain ⟨hmem, hr, -⟩ := inv_enc hs (narrowsOrAppends_mode hi ha h).1
  have hf := ruleOf_fills hi hr.probe hc h
  have hr' := (ruleOf_keepsEnc hi hmem hr hc h).regs
  exact ⟨hf.error.resolve_left hne, Nat.le_antisymm hr'.cursors (hf.lost hne)⟩

/-- Settles O54: a narrowing command or ENC_BITS changes error where a byte is lost, ENC_PATCH where it is too early,
ENC_DONE where not everything fits, and DEC_UINT where the joined value is above total - 1. -/
theorem errorCausesAreThoseListed : Obligations.ErrorCausesAreThoseListed := by
  intro i s t hs h hne
  rcases exec_next h with ⟨x, rfl⟩ | ⟨ha, hc, h⟩
  · exact absurd rfl hne
  have hw := ruleOf_writes h
  cases i with
  | encInit => cases h; rfl
  | decInit => exact (Reads.error hw :)
  | encode | encodeBin | encBitLogp | encIcdf | encUint => exact isFull_of_error rfl hs ha hc h hne
  | encBits =>
    obtain ⟨-, hr, -⟩ := inv_enc hs (narrowsOrAppends_mode rfl ha h).1
    obtain ⟨he, hfull⟩ := isFull_of_error rfl hs ha hc h hne
    exact ⟨he, hfull, encBitsRule_error (encoderRule_at hr.probe h) hne⟩
  | encShrink =>
    obtain ⟨-, hr, -⟩ := inv_enc hs (narrowsOrAppends_mode rfl ha h).1
    exact hne (encShrinkRule_error (encoderRule_at hr.probe h))
  | encPatch =>
    have hm : s.mode = .enc := by simpa [admittedIn] using ha
    obtain ⟨-, hr, -⟩ := inv_enc hs hm
    exact encPatchRule_error hr.rem (operands_none.mp hc) (encoderRule_at hr.probe h) hne
  | encDone =>
    have hm : s.mode = .enc := by simpa [admittedIn] using ha
    obtain ⟨-, hr, -⟩ := inv_enc hs hm
    have h := encoderRule_at hr.probe h
    obtain ⟨u, hu, rfl⟩ := hw
    exact ⟨hu.error.resolve_left hne, fun _ hfit => hne (encDoneRule_error_of_fits hr hfit h)⟩
  | decUint total =>
    have hm : s.mode = .dec := by simpa [admittedIn] using ha
    obtain ⟨-, hr, -⟩ := inv_dec hs hm
    have h2 := operands_none.mp hc
    obtain ⟨hx, he, hres, u, v, w, hu, hv, hw, hle⟩ := decUintRule_error h2 (onStream_ok h).2 hne
    obtain ⟨eu, ev, ew⟩ := decodeParts_exec hs hm (probeOk_splitTotal h2) (rawOk_extraBits hx) hu hv hw
    have hft : splitTotal total = BitVec.ofNat 32 ((total.toNat - 1) / 2 ^ extraBits total + 1) := by
      rw [← toNat_splitTotal h2, BitVec.ofNat_toNat, BitVec.setWidth_eq]
    rw [hft] at eu ev
    exact ⟨he, hres, split_total_gt h2 hx, u, v, w, eu, ev, ew, hle⟩
  | decode | decodeBin => exact hne (by rw [probeWith_eq hw])
  | decUpdate | decBitLogp | decIcdf | decBits => exact hne (DecWrites.error hw.1 :)
  | tell | tellFrac | release => exact hne (by rw [show t = _ from hw])

end Sys2Proof.Proofs
end

section
/-! PROOFS. Who writes the memories (20_memory.md R30 to R33, R38, R39): the host's writes (O7), and what a command
leaves of BUF, TBL and the parameters (O55). -/

namespace Sys2Proof.Machine

/-! ### The host's writes (R39) -/

theorem bufByte_write_self (s : State) (a : Nat) (v : Byte) : (s.bufWrite a v).bufByte a = v := by
  rw [State.bufByte_bufWrite, if_pos rfl]

theorem bufByte_write_other (s : State) {a x : Nat} (v : Byte) (h : x ≠ a) :
    (s.bufWrite a v).bufByte x = s.bufByte x := by
  rw [State.bufByte_bufWrite, if_neg h]

theorem tblByte_write (s : State) (a x : Nat) (v : Byte) :
    ({ s with tbl := s.tbl.write a v } : State).tblByte x = if x = a then v else s.tblByte x := by
  unfold State.tblByte
  rw [Memory.read?_write]
  split <;> rfl

theorem step_writeBuf {s : State} {a : Nat} {v : Byte} {rest : List Transaction}
    (h : s.port = .writeBuf a v :: rest) :
    step s = hostWriteBuf a v { s with port := rest } := by
  unfold step
  rw [h]
  rfl

theorem step_writeTbl {s : State} {a : Nat} {v : Byte} {rest : List Transaction}
    (h : s.port = .writeTbl a v :: rest) :
    step s = hostWriteTbl a v { s with port := rest } := by
  unfold step
  rw [h]
  rfl

theorem hostWriteBuf_owned {s : State} {a : Nat} (v : Byte) (hm : s.mode.hostOwnsBuf = true)
    (ha : a < s.params.bufCap) : hostWriteBuf a v s = .next (s.bufWrite a v) := by
  unfold hostWriteBuf
  rw [if_pos hm, if_pos ha]

theorem hostWriteBuf_refused {s : State} (a : Nat) (v : Byte) (hm : s.mode.hostOwnsBuf = false) :
    hostWriteBuf a v s = .next (s.refuse .hostBufWrite) := by
  unfold hostWriteBuf
  rw [if_neg (by rw [hm]; decide)]

theorem hostWriteTbl_inside {s : State} {a : Nat} (v : Byte) (ha : a < s.params.tblSize) :
    hostWriteTbl a v s = .next { s with tbl := s.tbl.write a v } := if_pos ha

/-! ### BUF at or above storage (R30, R38) -/

/-- From `s` to `t` storage does not grow, the cursors stay apart, and BUF at or above the old storage is kept. -/
structure WritesInside (s t : State) : Prop where
  storage : t.storage.toNat ≤ s.storage.toNat
  cursors : t.offs.toNat + t.endOffs.toNat ≤ t.storage.toNat
  above   : ∀ a, s.storage.toNat ≤ a → t.bufByte a = s.bufByte a

theorem WritesInside.trans {s t u : State} (h : WritesInside s t) (k : WritesInside t u) : WritesInside s u where
  storage := Nat.le_trans k.storage h.storage
  cursors := k.cursors
  above a ha := (k.above a (Nat.le_trans h.storage ha)).trans (h.above a ha)

theorem bufByte_of_read? {s t : State} {a : Nat} (h : t.buf.read? a = s.buf.read? a) (hr : t.resets = s.resets) :
    t.bufByte a = s.bufByte a := by
  unfold State.bufByte
  rw [h, hr]

theorem Emits.bufByte {s t : State} (h : Emits s t) {a : Nat} (ha : a < s.offs.toNat ∨ t.offs.toNat ≤ a) :
    t.bufByte a = s.bufByte a := bufByte_of_read? (h.bytes a ha) (by rw [h.frame])

theorem Backs.bufByte {s t : State} (h : Backs s t) {a : Nat}
    (ha : a < s.storage.toNat - t.endOffs.toNat ∨ s.storage.toNat - s.endOffs.toNat ≤ a) :
    t.bufByte a = s.bufByte a := bufByte_of_read? (h.bytes a ha) (by rw [h.frame])

theorem encShrinkRule_writesInside {s t : State} {size : Word} (hs : shrinkOk size s)
    (h : encShrinkRule size s = .ok t) : WritesInside s t := by
  obtain ⟨hlo, hhi⟩ := hs
  have hb := bufByte_bufWriteAll s.tail s (size.toNat - s.endOffs.toNat)
  rw [tail_length] at hb
  have hcur : ({ s.bufWriteAll (size.toNat - s.endOffs.toNat) s.tail with storage := size } : State).offs = s.offs ∧
      ({ s.bufWriteAll (size.toNat - s.endOffs.toNat) s.tail with storage := size } : State).endOffs = s.endOffs := by
    rw [bufWriteAll_frame]; exact ⟨rfl, rfl⟩
  rw [encShrinkRule_ok h]
  exact ⟨hhi, by rw [hcur.1, hcur.2]; exact hlo, fun a ha => (hb a).trans (if_neg (by omega))⟩

/-- Step 5 of R83 keeps the bytes outside the gap, but for the one before the raw bytes. -/
theorem finishGap_bufByte {s : State} (w : Window) (free : Nat) {a : Nat}
    (ha : a < s.offs.toNat ∨ s.storage.toNat - s.endOffs.toNat ≤ a)
    (hlast : a + 1 ≠ s.storage.toNat - s.endOffs.toNat) : (finishGap w free s).bufByte a = s.bufByte a := by
  unfold finishGap
  split
  · rw [mergeLeftover_bufByte _ _ _ (by rw [zeroGap_frame]; exact hlast), zeroGap_bufByte, if_neg (by omega)]
  · rfl

section
variable {s t : State} (hc : s.offs.toNat + s.endOffs.toNat ≤ s.storage.toNat)
include hc

theorem Emits.writesInside (h : Emits s t) : WritesInside s t where
  storage := by rw [h.storage]
  cursors := by rw [h.storage, h.endOffs]; exact h.room hc
  above a ha := h.bufByte (.inr (by have := h.room hc; omega))

theorem Backs.writesInside (h : Backs s t) : WritesInside s t where
  storage := by rw [h.storage]
  cursors := by rw [h.storage, h.offs]; exact h.room hc
  above a ha := h.bufByte (.inr (by omega))

theorem encBitsRule_writesInside {value nbits : Word} (h : encBitsRule value nbits s = .ok t) : WritesInside s t := by
  have k := (makeRoom_backs s.nendBits.toNat nbits.toNat s).writesInside hc
  rw [encBitsRule_ok h]
  exact ⟨k.storage, k.cursors, k.above⟩

theorem encUintRule_writesInside {value total : Word} (h : encUintRule value total s = .ok t) : WritesInside s t := by
  rcases encUintRule_ok h with ⟨-, h⟩ | ⟨-, u, hu, h⟩
  · exact (encodeRule_emits h).writesInside hc
  · have k := (encodeRule_emits hu).writesInside hc
    exact k.trans (encBitsRule_writesInside k.cursors h)

theorem encPatchRule_writesInside {value nbits : Word} (h : encPatchRule value nbits s = .ok t) : WritesInside s t := by
  rcases encPatchRule_ok h with ⟨ho, b, rfl⟩ | ⟨-, -, rfl⟩ | ⟨-, -, -, rfl⟩ | ⟨-, -, -, rfl⟩
  · exact ⟨Nat.le_refl _, hc, fun a ha => bufByte_write_other s b (by omega)⟩
  · exact ⟨Nat.le_refl _, hc, fun _ _ => rfl⟩
  · exact ⟨Nat.le_refl _, hc, fun _ _ => rfl⟩
  · exact ⟨Nat.le_refl _, hc, fun _ _ => rfl⟩

theorem finishGap_writesInside (w : Window) (free : Nat) : WritesInside s (finishGap w free s) where
  storage := by rw [finishGap_frame]
  cursors := by rw [finishGap_frame]; exact hc
  above a ha := finishGap_bufByte w free (.inr (by omega)) (by omega)

theorem encDoneRule_writesInside (h : encDoneRule s = .ok t) : WritesInside s t := by
  obtain ⟨u, hu, hb⟩ := flushAll_emits_backs s s.nendBits.toNat
  have ku := hu.writesInside hc
  have kb := hb.writesInside ku.cursors
  have k := (ku.trans kb).trans (finishGap_writesInside kb.cursors (s.flushAll s.nendBits.toNat).1
    (s.flushAll s.nendBits.toNat).2.1)
  rw [encDoneRule_ok h]
  exact ⟨k.storage, k.cursors, k.above⟩

end

/-! ### What a rule leaves beside the stream -/

/-- What no command writes: TBL, the parameters, the draw and the port. -/
def KeepsOutside (s t : State) : Prop := t.tbl = s.tbl ∧ t.params = s.params ∧ t.resets = s.resets ∧ t.port = s.port

theorem EncWrites.keepsOutside {s t : State} (h : EncWrites s t) : KeepsOutside s t := by
  rw [h.frame]; exact ⟨rfl, rfl, rfl, rfl⟩

/-- A decoder rule also leaves BUF. -/
theorem DecWrites.keepsMemories {s t : State} (h : DecWrites s t) : KeepsOutside s t ∧ t.buf = s.buf := by
  rw [h]; exact ⟨⟨rfl, rfl, rfl, rfl⟩, rfl⟩

theorem Reads.keepsMemories {s t : State} (h : Reads s t) : KeepsOutside s t ∧ t.buf = s.buf := by
  rw [h.frame]; exact ⟨⟨rfl, rfl, rfl, rfl⟩, rfl⟩

/-- The commands that may write BUF: the encoder's, but for ENC_INIT. -/
def mayWriteBuf : Instr → Bool
  | .encode .. => true
  | .encodeBin .. => true
  | .encBitLogp .. => true
  | .encIcdf .. => true
  | .encUint .. => true
  | .encBits .. => true
  | .encPatch .. => true
  | .encShrink .. => true
  | .encDone => true
  | _ => false

theorem ruleOf_keepsOutside {i : Instr} {s t : State} (h : ruleOf i s = .ok t) : KeepsOutside s t := by
  have hw := ruleOf_writes h
  cases i with
  | encInit => cases hw; exact ⟨rfl, rfl, rfl, rfl⟩
  | encode | encodeBin | encBitLogp | encIcdf | encUint | encBits | encPatch | encShrink =>
    exact (EncWrites.keepsOutside hw :)
  | encDone =>
    obtain ⟨u, hu, rfl⟩ := hw
    exact (EncWrites.keepsOutside hu :)
  | decInit => exact (Reads.keepsMemories hw).1
  | decode | decodeBin => rw [probeWith_eq hw]; exact ⟨rfl, rfl, rfl, rfl⟩
  | decUpdate | decBitLogp | decIcdf | decBits | decUint => exact (DecWrites.keepsMemories hw.1 :).1
  | tell | tellFrac | release => rw [show t = _ from hw]; exact ⟨rfl, rfl, rfl, rfl⟩

theorem ruleOf_keepsBuf {i : Instr} {s t : State} (hi : mayWriteBuf i = false) (h : ruleOf i s = .ok t) :
    t.buf = s.buf := by
  have hw := ruleOf_writes h
  cases i with
  | encInit => cases hw; rfl
  | encode | encodeBin | encBitLogp | encIcdf | encUint | encBits | encPatch | encShrink | encDone => cases hi
  | decInit => exact (Reads.keepsMemories hw).2
  | decode | decodeBin => rw [probeWith_eq hw]
  | decUpdate | decBitLogp | decIcdf | decBits | decUint => exact (DecWrites.keepsMemories hw.1 :).2
  | tell | tellFrac | release => rw [show t = _ from hw]

end Sys2Proof.Machine

namespace Sys2Proof.Proofs

open Sys2Proof.Machine

/-- Settles O7: the host owns BUF in IDLE and DONE only, and TBL in every mode. -/
theorem hostWritesByOwnership : Obligations.HostWritesByOwnership := by
  intro s a v rest
  refine ⟨fun hport ha => ⟨fun hm => ?_, fun hm => ?_⟩, fun hport ha => ?_⟩
  · have hown : s.mode.hostOwnsBuf = true := by rcases hm with hm | hm <;> rw [hm] <;> rfl
    refine ⟨_, (step_writeBuf hport).trans (hostWriteBuf_owned v hown ha), rfl, ?_, fun x hx => ?_⟩
    · exact bufByte_write_self _ a v
    · exact bufByte_write_other _ v hx
  · have hown : s.mode.hostOwnsBuf = false := by rcases hm with hm | hm <;> rw [hm] <;> rfl
    exact (step_writeBuf hport).trans (hostWriteBuf_refused a v hown)
  · refine ⟨_, (step_writeTbl hport).trans (hostWriteTbl_inside v ha), rfl, ?_, fun x hx => ?_⟩
    · exact (tblByte_write _ a a v).trans (if_pos rfl)
    · exact (tblByte_write _ a x v).trans (if_neg hx)

/-- The encoder's writes stay below storage, since its cursors stay apart (R19 (c)). -/
theorem ruleOf_writesInside {i : Instr} {s t : State} (hi : mayWriteBuf i = true) (hr : EncRegsOk s)
    (hc : contractOf i s = none) (h : ruleOf i s = .ok t) : WritesInside s t := by
  have hcur := hr.cursors
  cases i with
  | encode => exact (encodeRule_emits (encoderRule_at hr.probe h)).writesInside hcur
  | encodeBin => exact (encodeBinRule_emits (encoderRule_at hr.probe h)).writesInside hcur
  | encBitLogp => exact (encBitLogpRule_emits (encoderRule_at hr.probe h)).writesInside hcur
  | encIcdf => exact (encIcdfRule_emits (encoderRule_at hr.probe h)).writesInside hcur
  | encUint => exact encUintRule_writesInside hcur (encoderRule_at hr.probe h)
  | encBits => exact encBitsRule_writesInside hcur (encoderRule_at hr.probe h)
  | encPatch => exact encPatchRule_writesInside hcur (encoderRule_at hr.probe h)
  | encShrink => exact encShrinkRule_writesInside (operands_none.mp hc) (encoderRule_at hr.probe h)
  | encDone => exact encDoneRule_writesInside hcur (encoderRule_at hr.probe h)
  | encInit | decInit | decode | decodeBin | decUpdate | decBitLogp | decIcdf | decUint | decBits | tell | tellFrac
  | release => cases hi

theorem mode_of_mayWriteBuf {i : Instr} {s : State} (hi : mayWriteBuf i = true) (ha : admittedIn i s.mode = true) :
    s.mode = .enc := by
  cases i with
  | encode | encodeBin | encBitLogp | encIcdf | encUint | encBits | encPatch | encShrink | encDone =>
    simpa [admittedIn] using ha
  | encInit | decInit | decode | decodeBin | decUpdate | decBitLogp | decIcdf | decUint | decBits | tell | tellFrac
  | release => cases hi

/-- What a command leaves of BUF: all of it, or it is one of the encoder's in ENC and stays below storage. -/
theorem exec_buf {i : Instr} {s t : State} (hs : s.Inv) (h : exec i s = .next t) :
    t.buf = s.buf ∧ t.resets = s.resets ∨ mayWriteBuf i = true ∧ s.mode = .enc ∧ WritesInside s t := by
  rcases exec_next h with ⟨x, rfl⟩ | ⟨ha, hc, h⟩
  · exact .inl ⟨rfl, rfl⟩
  cases hi : mayWriteBuf i with
  | true =>
    have hm := mode_of_mayWriteBuf hi ha
    obtain ⟨-, hr, -⟩ := inv_enc hs hm
    exact .inr ⟨rfl, hm, ruleOf_writesInside hi hr hc h⟩
  | false => exact .inl ⟨ruleOf_keepsBuf hi h, (ruleOf_keepsOutside h).2.2.1⟩

theorem exec_keepsOutside {i : Instr} {s t : State} (h : exec i s = .next t) : KeepsOutside s t := by
  rcases exec_next h with ⟨x, rfl⟩ | ⟨-, -, h⟩
  · exact ⟨rfl, rfl, rfl, rfl⟩
  · exact ruleOf_keepsOutside h

/-- Settles O55: only an encoder command in ENC writes BUF, and its writes lie between the cursors, below BUF[size] of
a shrunk stream, or before the raw bytes. -/
theorem unitWritesOnlyBelowStorage : Obligations.UnitWritesOnlyBelowStorage := by
  intro i s t hs h
  obtain ⟨htbl, hparams, hresets, hport⟩ := exec_keepsOutside h
  refine ⟨htbl, hparams, hresets, hport, fun a ha => ?_, fun hm => ?_, ?_⟩
  · rcases exec_buf hs h with ⟨hb, -⟩ | ⟨-, -, k⟩
    · exact bufByte_of_read? (by rw [hb]) hresets
    · exact k.above a ha
  · rcases exec_buf hs h with ⟨hb, -⟩ | ⟨-, hm', -⟩
    · exact hb
    · exact absurd hm' hm
  · have hkeep : mayWriteBuf i = false → t.buf = s.buf := fun hi => by
      rcases exec_buf hs h with ⟨hb, -⟩ | ⟨hi', -⟩
      · exact hb
      · rw [hi] at hi'; cases hi'
    cases i with
    | encode | encodeBin | encBitLogp | encIcdf | encUint | encBits | encPatch | encShrink | encDone => trivial
    | encInit | decInit | decode | decodeBin | decUpdate | decBitLogp | decIcdf | decUint | decBits | tell | tellFrac
    | release => exact hkeep rfl

end Sys2Proof.Proofs
end

section
/-! PROOFS. Inverse-CDF tables (20_memory.md R32): the table walk (O14), and the symbol that DEC_ICDF finds by it
(42_decoder.md R108, O39). -/

namespace Sys2Proof.Machine

/-! ### The table walk (R32) -/

/-- The `n` entries from address `a` on are those of a well-formed table whose entries lie below `bound`: in TBL, each
below the one before it, and the last one the only zero. -/
def TableAt (s : State) (a bound n : Nat) : Prop :=
  0 < n ∧ ∀ k, k < n → a + k < s.params.tblSize ∧
    (s.tblByte (a + k)).toNat < (if k = 0 then bound else (s.tblByte (a + k - 1)).toNat) ∧
    ((s.tblByte (a + k)).toNat = 0 ↔ k = n - 1)

theorem icdfTable_iff (s : State) (t : TblAddr) (ftb : Word) (n : Nat) :
    IcdfTable s t ftb n ↔ ftb.toNat ≤ 8 ∧ TableAt s t.toNat (2 ^ ftb.toNat) n := Iff.rfl

section
variable {s : State} {a bound n : Nat}

theorem TableAt.head (h : TableAt s a bound n) : a < s.params.tblSize ∧ (s.tblByte a).toNat < bound := by
  obtain ⟨hin, hlt, -⟩ := h.2 0 h.1
  exact ⟨hin, hlt⟩

/-- A table whose first entry is zero is that entry alone. -/
theorem tableAt_of_zero (hz : (s.tblByte a).toNat = 0) (hin : a < s.params.tblSize)
    (hlt : (s.tblByte a).toNat < bound) : TableAt s a bound n ↔ n = 1 := by
  constructor
  · intro ⟨h0, h⟩
    obtain ⟨-, -, hlast⟩ := h 0 h0
    have := hlast.mp hz
    omega
  · rintro rfl
    refine ⟨Nat.one_pos, fun k hk => ?_⟩
    obtain rfl : k = 0 := by omega
    exact ⟨hin, hlt, fun _ => rfl, fun _ => hz⟩

/-- The entries after one that is not zero are a table below it. -/
theorem tableAt_succ (hz : (s.tblByte a).toNat ≠ 0) (hin : a < s.params.tblSize) (hlt : (s.tblByte a).toNat < bound) :
    TableAt s a bound (n + 1) ↔ TableAt s (a + 1) (s.tblByte a).toNat n := by
  have e : ∀ k, a + 1 + k = a + (k + 1) := fun k => by omega
  constructor
  · intro ⟨_, h⟩
    have hn : n ≠ 0 := fun h0 => hz ((h 0 (Nat.succ_pos n)).2.2.mpr (by omega))
    refine ⟨Nat.pos_of_ne_zero hn, fun k hk => ?_⟩
    obtain ⟨hin', hlt', hlast'⟩ := h (k + 1) (by omega)
    rw [e]
    refine ⟨hin', ?_, hlast'.trans (by omega)⟩
    cases k with
    | zero => exact hlt'
    | succ k => exact hlt'
  · intro ⟨h0, h⟩
    refine ⟨Nat.succ_pos n, fun k hk => ?_⟩
    cases k with
    | zero => exact ⟨hin, hlt, fun h => absurd h hz, fun h => by omega⟩
    | succ k =>
      obtain ⟨hin', hlt', hlast'⟩ := h k (by omega)
      rw [e] at hin' hlt' hlast'
      refine ⟨hin', ?_, hlast'.trans (by omega)⟩
      cases k with
      | zero => exact hlt'
      | succ k => exact hlt'

end

/-- The walk, with as many passes as its bound allows entries, accepts exactly the tables below the bound. -/
theorem tableFrom_iff {s : State} {p a bound n : Nat} (hp : bound ≤ p) :
    s.tableFrom p a bound = some n ↔ TableAt s a bound n := by
  induction p generalizing a bound n with
  | zero =>
    refine ⟨nofun, fun h => ?_⟩
    have := h.head.2
    omega
  | succ p ih =>
    rw [State.tableFrom]
    split
    · rename_i hout
      exact ⟨nofun, fun h => absurd h.head.1 (Nat.not_lt.mpr hout)⟩
    split
    · rename_i hge
      exact ⟨nofun, fun h => absurd h.head.2 (Nat.not_lt.mpr hge)⟩
    rename_i hin hlt
    have hin := Nat.not_le.mp hin
    have hlt := Nat.not_le.mp hlt
    split
    · rename_i hz
      rw [tableAt_of_zero (by rw [hz]; rfl) hin hlt, Option.some_inj, eq_comm]
    · rename_i hz
      have hz : (s.tblByte a).toNat ≠ 0 := fun h0 => hz (BitVec.eq_of_toNat_eq h0)
      have hrest := fun m => ih (a := a + 1) (bound := (s.tblByte a).toNat) (n := m) (by omega)
      constructor
      · intro h
        obtain ⟨m, hm, rfl⟩ := Option.map_eq_some_iff.mp h
        exact (tableAt_succ hz hin hlt).mpr ((hrest m).mp hm)
      · intro h
        obtain ⟨m, rfl⟩ : ∃ m, n = m + 1 := ⟨n - 1, by have := h.1; omega⟩
        exact Option.map_eq_some_iff.mpr ⟨m, (hrest m).mpr ((tableAt_succ hz hin hlt).mp h), rfl⟩

theorem tableLength_iff (s : State) (t : TblAddr) (ftb : Word) (n : Nat) :
    s.tableLength t ftb = some n ↔ IcdfTable s t ftb n := by
  rw [icdfTable_iff, State.tableLength]
  split
  · rename_i hftb
    rw [tableFrom_iff (Nat.le_refl _)]
    exact ⟨fun h => ⟨hftb, h⟩, fun h => h.2⟩
  · rename_i hftb
    exact ⟨nofun, fun h => absurd h.1 hftb⟩

/-- The entries of a table fall, so it has no more of them than its bound allows. -/
theorem TableAt.length_le {s : State} {a bound n : Nat} (h : TableAt s a bound n) : n ≤ bound := by
  induction n generalizing a bound with
  | zero => exact Nat.zero_le _
  | succ n ih =>
    obtain ⟨hin, hlt⟩ := h.head
    by_cases hz : (s.tblByte a).toNat = 0
    · have := (tableAt_of_zero hz hin hlt).mp h
      omega
    · have := ih ((tableAt_succ hz hin hlt).mp h)
      omega

/-! ### The walk of DEC_ICDF (R108) -/

/-- The walk stops at the first entry whose bound is not above val. -/
theorem icdfWalk_eq {s : State} {r : Word} {t : TblAddr} {n k j : Nat} {top : Word} (hj : j < n)
    (hgo : ∀ i, i < j → s.val < r * s.icdf t (k + i)) (hstop : ¬ s.val < r * s.icdf t (k + j)) :
    s.icdfWalk r t n k top = (k + j, if j = 0 then top else r * s.icdf t (k + j - 1), r * s.icdf t (k + j)) := by
  induction j generalizing n k top with
  | zero =>
    obtain ⟨n, rfl⟩ : ∃ m, n = m + 1 := ⟨n - 1, by omega⟩
    have hstop : ¬ s.val < r * s.icdf t k := hstop
    rw [State.icdfWalk, if_neg hstop]
    rfl
  | succ j ih =>
    obtain ⟨n, rfl⟩ : ∃ m, n = m + 1 := ⟨n - 1, by omega⟩
    have e : ∀ i, k + 1 + i = k + (i + 1) := fun i => by omega
    have hfirst : s.val < r * s.icdf t k := hgo 0 (Nat.succ_pos j)
    rw [State.icdfWalk, if_pos hfirst,
      ih (by omega) (fun i hi => by rw [e]; exact hgo (i + 1) (by omega)) (by rw [e]; exact hstop), e,
      if_neg (Nat.succ_ne_zero j)]
    cases j with
    | zero => rfl
    | succ j => rfl

/-- `k` is the first entry of the table whose bound is not above val (R108). -/
def FirstEntry (s : State) (ftb : Word) (table : TblAddr) (k : Nat) : Prop :=
  let bound (j : Nat) := (s.rng.toNat >>> ftb.toNat) * (s.tblByte (table.toNat + j)).toNat
  bound k ≤ s.val.toNat ∧ ∀ j, j < k → s.val.toNat < bound j

/-- The last entry, zero, is never above val, so a first such entry exists. -/
theorem exists_firstEntry {s : State} {ftb : Word} {table : TblAddr} {n : Nat} (h : IcdfTable s table ftb n) :
    ∃ k, k < n ∧ FirstEntry s ftb table k := by
  obtain ⟨-, h0, hentry⟩ := h
  let p (k : Nat) : Prop := (s.rng.toNat >>> ftb.toNat) * (s.tblByte (table.toNat + k)).toNat ≤ s.val.toNat
  have hlast : p (n - 1) := by
    have hz := (hentry (n - 1) (by omega)).2.2.mpr rfl
    show _ * (s.tblByte (table.toNat + (n - 1))).toNat ≤ _
    rw [hz]
    exact Nat.zero_le _
  have hex : ∃ k, p k := ⟨n - 1, hlast⟩
  refine ⟨Nat.find hex, ?_, Nat.find_spec hex, fun j hj => Nat.not_le.mp (Nat.find_min hex hj)⟩
  have := Nat.find_min' hex hlast
  omega

/-- Every entry of a well-formed table lies below 2^ftb, so its bound does not wrap. -/
theorem toNat_icdfBound {s : State} {ftb : Word} {table : TblAddr} {n : Nat} (h : IcdfTable s table ftb n) {k : Nat}
    (hk : k < n) :
    ((s.rng >>> ftb.toNat) * s.icdf table k).toNat =
      (s.rng.toNat >>> ftb.toNat) * (s.tblByte (table.toNat + k)).toNat := by
  obtain ⟨-, hf⟩ := tableLength_some ((tableLength_iff s table ftb n).mpr h)
  have hlt := (tableFrom_falls hf hk).1
  have hrng := s.rng.isLt
  have hle : s.rng.toNat / 2 ^ ftb.toNat * (s.tblByte (table.toNat + k)).toNat ≤ s.rng.toNat :=
    Nat.le_trans (Nat.mul_le_mul_left _ (Nat.le_of_lt hlt)) (Nat.div_mul_le_self _ _)
  rw [BitVec.toNat_mul_of_lt, toNat_icdf, BitVec.toNat_ushiftRight]
  rw [toNat_icdf, BitVec.toNat_ushiftRight, Nat.shiftRight_eq_div_pow]
  omega

section
variable {s : State} {ftb : Word} {table : TblAddr} {n k : Nat} (h : IcdfTable s table ftb n) (hk : k < n)
  (hf : FirstEntry s ftb table k)
include h hk hf

/-- On a well-formed table the walk finds the first entry, with the bounds of its part. -/
theorem icdfWalk_of_firstEntry :
    s.icdfWalk (s.rng >>> ftb.toNat) table (2 ^ ftb.toNat) 0 s.rng =
      (k, if k = 0 then s.rng else (s.rng >>> ftb.toNat) * s.icdf table (k - 1),
        (s.rng >>> ftb.toNat) * s.icdf table k) := by
  obtain ⟨hle, hmin⟩ := hf
  have hlen : n ≤ 2 ^ ftb.toNat := ((icdfTable_iff s table ftb n).mp h).2.length_le
  have hw := icdfWalk_eq (s := s) (r := s.rng >>> ftb.toNat) (t := table) (k := 0) (top := s.rng)
    (Nat.lt_of_lt_of_le hk hlen)
    (fun i hi => by rw [Nat.zero_add, BitVec.lt_def, toNat_icdfBound h (by omega)]; exact hmin i hi)
    (by rw [Nat.zero_add, BitVec.lt_def, toNat_icdfBound h hk]; exact Nat.not_lt.mpr hle)
  rw [Nat.zero_add] at hw
  exact hw

theorem icdfPart_of_firstEntry (hr : DecRegsOk s) :
    let bound (j : Nat) := (s.rng.toNat >>> ftb.toNat) * (s.tblByte (table.toNat + j)).toNat
    (icdfPart ftb table s).val.toNat = s.val.toNat - bound k ∧
    (icdfPart ftb table s).rng.toNat = (if k = 0 then s.rng.toNat else bound (k - 1)) - bound k := by
  have hw := icdfWalk_of_firstEntry h hk hf
  have hb := toNat_icdfBound h hk
  obtain ⟨hftb, htab⟩ := tableLength_some ((tableLength_iff s table ftb n).mpr h)
  have hlt := (icdfWalk_bounds (n := 2 ^ ftb.toNat) (k := 0) (top := s.rng)
    (shift_part_pos (n := ftb.toNat) hr.rng (by omega))
    (by rw [toNat_ushiftRight_div]; exact Nat.div_mul_le_self _ _) htab).1
  unfold icdfPart
  dsimp only
  rw [hw] at hlt ⊢
  dsimp only at hlt ⊢
  refine ⟨?_, ?_⟩
  · rw [BitVec.toNat_sub_of_le (by rw [BitVec.le_def, hb]; exact hf.1), hb]
  · rw [BitVec.toNat_sub_of_le (by rw [BitVec.le_def]; omega), hb]
    split
    · rfl
    · rw [toNat_icdfBound h (by omega)]

end

/-! ### A decoder's narrowing, normalized (R103) -/

theorem frontNumber_congr {s u : State} (h : ∀ k, u.frontByte k = s.frontByte k) (k : Nat) :
    u.frontNumber k = s.frontNumber k := by
  induction k with
  | zero => rfl
  | succ k ih => rw [State.frontNumber, State.frontNumber, ih, h]

/-- A narrowing that is normalized leaves what the claims say of one, whatever RESULT becomes. -/
theorem decNarrowedTo_of_narrows {s u t : State} (hr : DecRegsOk s) (hn : DecNarrows s u) (h : u.decNormalize = .ok t)
    (r : Word) : DecNarrowedTo s { t with result := r } u.val.toNat u.rng.toNat := by
  obtain ⟨hpos, hle⟩ := DecNarrows.rng_le hr hn
  obtain ⟨t', k, ht', hk, hp, hd, hrng, hval, htotal, hoffs, hrem⟩ :=
    decNormalize_ok hpos hle (DecNarrows.front hr hn)
  obtain rfl : t' = t := by rw [ht'] at h; injection h
  have hbyte : ∀ k, u.frontByte k = s.frontByte k := fun k => by rw [hn.frame]; rfl
  have hframe := hd.frame
  refine ⟨k, hk, hp, hrng, ?_, ?_, ?_, ?_⟩
  · rw [hval]
    unfold refilledVal
    rw [frontNumber_congr hbyte, hn.frame]
  · rw [hrem, hbyte, hn.frame]
  · rw [hoffs, hn.frame]
  · rw [← show t'.nbitsTotal = s.nbitsTotal + BitVec.ofNat 32 (8 * k) by rw [htotal, hn.frame], hframe, hn.frame]

end Sys2Proof.Machine

namespace Sys2Proof.Proofs

open Sys2Proof.Machine

/-- Settles O14: the entries of a table fall from 2^ftb, so the walk has passes enough to reach the zero. -/
theorem tableCheckIsWellFormedness : Obligations.TableCheckIsWellFormedness := tableLength_iff

theorem decIcdfRule_of_decNormalize {s u : State} {ftb : Word} {table : TblAddr}
    (h : (icdfPart ftb table s).decNormalize = .ok u) :
    decIcdfRule ftb table s = .ok { u with
      result := BitVec.ofNat 32 (s.icdfWalk (s.rng >>> ftb.toNat) table (2 ^ ftb.toNat) 0 s.rng).1 } := by
  unfold icdfPart at h
  unfold decIcdfRule
  dsimp only at h ⊢
  rw [h]

/-- Settles O39: the walk stops at the first entry at or below val, which exists since the last entry is zero, and the
part between its two bounds is not empty. -/
theorem decIcdfFindsSymbol : Obligations.DecIcdfFindsSymbol := by
  intro s ftb table hs hm
  obtain ⟨hmem, hr, -⟩ := inv_dec hs hm
  refine ⟨fun hno => ?_, fun n htab => ?_⟩
  · have hnone : s.tableLength table ftb = none :=
      Option.eq_none_iff_forall_ne_some.mpr fun n hn => hno n ((tableLength_iff s table ftb n).mp hn)
    exact refusedAs_of_contract (by rw [hm]; rfl) (decIcdfContract_of_tableLength_none hnone)
  · have hsome : (s.tableLength table ftb).isSome = true :=
      Option.isSome_iff_exists.mpr ⟨n, (tableLength_iff s table ftb n).mpr htab⟩
    obtain ⟨k, hk, hfirst⟩ := exists_firstEntry htab
    have hn := icdfPart_narrows hr hsome
    obtain ⟨hpos, hle⟩ := DecNarrows.rng_le hr hn
    obtain ⟨u, -, hu, -⟩ := decNormalize_ok hpos hle (DecNarrows.front hr hn)
    obtain ⟨hval, hrng⟩ := icdfPart_of_firstEntry htab hk hfirst hr
    have hrule := decIcdfRule_of_decNormalize hu
    rw [icdfWalk_of_firstEntry htab hk hfirst] at hrule
    refine ⟨_, k, exec_ok (by rw [hm]; rfl) (if_pos hsome) ((onStream_of_le hmem.storage _).trans hrule), hk, rfl,
      hfirst.1, hfirst.2, ?_⟩
    rw [← hval, ← hrng]
    exact decNarrowedTo_of_narrows hr hn hu _

end Sys2Proof.Proofs
end

section
/-! PROOFS. The back bytes as a number (20_memory.md R36), and the stream that ENC_DONE leaves (20_memory.md R34,
41_encoder.md R83): O27. -/

namespace Sys2Proof.Machine

/-! ### The bytes of a back as one number -/

theorem pow_256 (n : Nat) : 256 ^ n = 2 ^ (8 * n) := (Nat.pow_mul 2 8 n).symm

theorem backByte_lt (s : State) (k : Nat) : s.backByte k < 256 := by
  unfold State.backByte
  split
  · exact (s.bufByte _).isLt
  · decide

theorem backNumber_lt (s : State) (n : Nat) : s.backNumber n < 256 ^ n := by
  induction n with
  | zero => exact Nat.one_pos
  | succ n ih =>
    have h : s.backByte n * 256 ^ n ≤ 255 * 256 ^ n := Nat.mul_le_mul_right _ (Nat.le_of_lt_succ (backByte_lt s n))
    rw [State.backNumber, Nat.pow_succ]
    omega

theorem backNumber_congr {s t : State} {n : Nat} (h : ∀ j, j < n → t.backByte j = s.backByte j) :
    t.backNumber n = s.backNumber n := by
  induction n with
  | zero => rfl
  | succ n ih => rw [State.backNumber, State.backNumber, ih fun j hj => h j (by omega), h n (Nat.lt_succ_self n)]

/-- The first `n` of `n + k` bytes are the low ones, and the others follow above them. -/
theorem backNumber_add {s t : State} {n : Nat} (h : ∀ j, t.backByte j = s.backByte (n + j)) (k : Nat) :
    s.backNumber (n + k) = s.backNumber n + t.backNumber k * 256 ^ n := by
  induction k with
  | zero => simp [State.backNumber]
  | succ k ih =>
    rw [← Nat.add_assoc, State.backNumber, ih, State.backNumber, h k, Nat.pow_add]
    ring

theorem backNumber_mod {s : State} {n k : Nat} (h : n ≤ k) : s.backNumber k % 256 ^ n = s.backNumber n := by
  induction k, h using Nat.le_induction with
  | base => exact Nat.mod_eq_of_lt (backNumber_lt s n)
  | succ k hk ih =>
    obtain ⟨d, rfl⟩ := Nat.exists_eq_add_of_le hk
    rw [State.backNumber, Nat.pow_add, Nat.mul_comm (256 ^ n), ← Nat.mul_assoc, Nat.add_mul_mod_self_right, ih]

theorem backNumber_byte {s : State} {j n : Nat} (h : j < n) : s.backNumber n / 256 ^ j % 256 = s.backByte j := by
  have hmod := backNumber_mod (s := s) (show j + 1 ≤ n from h)
  rw [← Nat.mod_mul_right_div_self, ← Nat.pow_succ, hmod, State.backNumber,
    Nat.add_mul_div_right _ _ (Nat.pow_pos (by decide)), Nat.div_eq_of_lt (backNumber_lt s j), Nat.zero_add]

/-- A byte of a number is also that of its low part. -/
theorem byte_mod {x j n : Nat} (h : j < n) : x % 256 ^ n / 256 ^ j % 256 = x / 256 ^ j % 256 := by
  rw [← Nat.mod_mul_right_div_self, ← Nat.pow_succ, Nat.mod_mod_of_dvd _ (Nat.pow_dvd_pow 256 h), Nat.pow_succ,
    Nat.mod_mul_right_div_self]

/-! ### The bytes an encoder has put out at the back -/

/-- The bytes from the end of the stream down, as the back readers of a new decoder find them. -/
def State.fromEnd (s : State) : State := { s with endOffs := 0#32 }

/-- The bytes put out at the back so far (R36). -/
def State.backOut (s : State) : Nat := s.fromEnd.backNumber s.endOffs.toNat

theorem fromEnd_backByte {s : State} {j : Nat} (h : j < s.storage.toNat) :
    s.fromEnd.backByte j = (s.bufByte (s.storage.toNat - 1 - j)).toNat := by
  unfold State.backByte
  rw [if_pos (by show 0 + j < s.storage.toNat; omega)]
  show (s.bufByte (s.storage.toNat - 0 - j - 1)).toNat = _
  congr 2
  omega

theorem backOut_lt (s : State) : s.backOut < 256 ^ s.endOffs.toNat := backNumber_lt _ _

/-- The number does not see a change of the bytes below the back cursor. -/
theorem backOut_congr {s t : State} (hst : t.storage = s.storage) (he : t.endOffs = s.endOffs)
    (hle : s.endOffs.toNat ≤ s.storage.toNat)
    (hb : ∀ a, s.storage.toNat - s.endOffs.toNat ≤ a → t.bufByte a = s.bufByte a) : t.backOut = s.backOut := by
  unfold State.backOut
  rw [he]
  refine backNumber_congr fun j hj => ?_
  rw [fromEnd_backByte (by rw [hst]; omega), fromEnd_backByte (by omega), hst, hb _ (by omega)]

/-- Each byte that `n` more back bytes, standing for `x`, have put before the old back cursor. -/
theorem bufByte_of_backOut {s t : State} {n x : Nat} (hst : t.storage = s.storage)
    (he : t.endOffs.toNat = s.endOffs.toNat + n) (hle : t.endOffs.toNat ≤ s.storage.toNat)
    (hout : t.backOut = s.backOut + x * 256 ^ s.endOffs.toNat) {j : Nat} (hj : j < n) :
    (t.bufByte (s.storage.toNat - s.endOffs.toNat - 1 - j)).toNat = x / 256 ^ j % 256 := by
  have hbyte := backNumber_byte (s := t.fromEnd) (j := s.endOffs.toNat + j) (n := t.endOffs.toNat) (by omega)
  rw [show t.fromEnd.backNumber t.endOffs.toNat = _ from hout, Nat.pow_add, ← Nat.div_div_eq_div_mul,
    Nat.add_mul_div_right _ _ (Nat.pow_pos (by decide)), Nat.div_eq_of_lt (backOut_lt s), Nat.zero_add,
    fromEnd_backByte (by rw [hst]; omega), hst] at hbyte
  rw [hbyte]
  congr 2
  omega

/-- `t` is `s` with `n` more back bytes, which stand for the number `x`, and none of them lost. -/
structure PutsBack (n x : Nat) (s t : State) : Prop where
  backs   : Backs s t
  endOffs : t.endOffs.toNat = s.endOffs.toNat + n
  out     : t.backOut = s.backOut + x * 256 ^ s.endOffs.toNat

theorem PutsBack.refl (s : State) : PutsBack 0 0 s s := ⟨Backs.refl s, rfl, by simp⟩

theorem PutsBack.trans {n m x y : Nat} {s t u : State} (h : PutsBack n x s t) (k : PutsBack m y t u) :
    PutsBack (n + m) (x + y * 256 ^ n) s u where
  backs := h.backs.trans k.backs
  endOffs := by rw [k.endOffs, h.endOffs, Nat.add_assoc]
  out := by rw [k.out, h.out, h.endOffs, Nat.pow_add]; ring

theorem EncWrites.error_eq_zero {s t : State} (h : EncWrites s t) (ht : t.error = 0#32) : s.error = 0#32 := by
  by_contra hne
  exact h.error_ne_zero hne ht

theorem putBack_putsBack {s : State} {v : Byte} (he : (s.putBack v).error = 0#32) :
    PutsBack 1 v.toNat s (s.putBack v) := by
  rcases Nat.lt_or_ge (s.offs.toNat + s.endOffs.toNat) s.storage.toNat with h | h
  · have ho := toNat_succ (x := s.endOffs) (n := s.storage.toNat) (by omega) s.storage.isLt
    have hb : ∀ x, (s.putBack v).bufByte x =
        if x = s.storage.toNat - (s.endOffs.toNat + 1) then v else s.bufByte x := by
      rw [State.putBack_fits h]
      exact fun x => State.bufByte_bufWrite s _ x v
    have hend : (s.putBack v).endOffs.toNat = s.endOffs.toNat + 1 := by rw [State.putBack_fits h]; exact ho
    have hst := (putBack_backs s v).storage
    refine ⟨putBack_backs s v, hend, ?_⟩
    unfold State.backOut
    rw [hend, State.backNumber]
    congr 1
    · refine backNumber_congr fun j hj => ?_
      rw [fromEnd_backByte (by rw [hst]; omega), fromEnd_backByte (by omega), hst, hb, if_neg (by omega)]
    · rw [fromEnd_backByte (by rw [hst]; omega), hst, hb, if_pos (by omega)]
  · rw [State.putBack_full h] at he
    cases he

/-- The whole bytes of a window go back, where none of them is lost (R80, R83). -/
theorem flushWindow_putsBack {n : Nat} {w : Window} {s : State} (hn : w.count / 8 ≤ n)
    (he : (State.flushWindow n w s).2.error = 0#32) :
    PutsBack (w.count / 8) (w.bits.toNat % 256 ^ (w.count / 8)) s (State.flushWindow n w s).2 := by
  induction n generalizing w s with
  | zero =>
    rw [show w.count / 8 = 0 by omega, Nat.pow_zero, Nat.mod_one]
    exact PutsBack.refl s
  | succ n ih =>
    unfold State.flushWindow at he ⊢
    split
    · rename_i h8
      have h8 : 8 ≤ w.count := h8
      rw [if_pos h8] at he
      have hput := putBack_putsBack ((flushWindow_backs n _ _).writes.error_eq_zero he)
      have hrest := ih (by dsimp only [symBits]; omega) he
      have h := hput.trans hrest
      have hbyte : ((w.bits &&& symMax).setWidth 8).toNat = w.bits.toNat % 256 := by
        rw [BitVec.toNat_setWidth, toNat_and_symMax]; omega
      rw [hbyte, toNat_ushiftRight_div] at h
      obtain ⟨m, hm⟩ : ∃ m, w.count / 8 = m + 1 := ⟨w.count / 8 - 1, by omega⟩
      have hm' : (w.count - symBits) / 8 = m := by dsimp only [symBits]; omega
      rw [hm'] at h
      rw [hm, Nat.pow_succ, Nat.mul_comm (256 ^ m), Nat.mod_mul, Nat.mul_comm 256, Nat.add_comm m]
      exact h
    · rename_i h8
      have h8 : ¬ 8 ≤ w.count := h8
      rw [show w.count / 8 = 0 by omega, Nat.pow_zero, Nat.mod_one]
      exact PutsBack.refl s

/-! ### The code of step 1 of R83 in its bytes -/

theorem ilog_ge_of_rngOk {s : State} (hr : s.rngOk) : 24 ≤ ilog s.rng := by
  have h0 : s.rng ≠ 0#32 := by
    intro e
    rw [State.rngOk, e] at hr
    exact absurd hr.1 (by decide)
  have hlt : 2 ^ 23 < 2 ^ ilog s.rng := Nat.lt_trans hr.1 (Proofs.lt_two_pow_ilog h0)
  exact (Nat.pow_lt_pow_iff_right (by decide)).mp hlt

theorem doneCode_fst_le {s : State} (hr : s.rngOk) : s.doneCode.1 ≤ 9 := by
  have h := ilog_ge_of_rngOk hr
  unfold State.doneCode
  dsimp only
  split
  · dsimp only; omega
  · dsimp only; omega

theorem doneCodeBytes_le {s : State} (hr : s.rngOk) : s.doneCodeBytes ≤ 2 := by
  have h := doneCode_fst_le hr
  unfold State.doneCodeBytes
  omega

/-- The code value has no bit below its l code bits. -/
theorem doneCode_dvd (s : State) : 2 ^ (31 - s.doneCode.1) ∣ s.doneCode.2 := by
  unfold State.doneCode
  dsimp only
  split
  · exact Nat.dvd_mul_left _ _
  · exact Nat.dvd_mul_left _ _

/-- The byte that holds the last code bits (step 2 of R83). -/
def State.lastCodeByte (s : State) : Nat := s.doneCode.2 / 2 ^ (31 - 8 * s.doneCodeBytes) % 256

/-- The code leaves the low bits of its last byte free. -/
theorem lastCodeByte_mod {s : State} (hr : s.rngOk) : s.lastCodeByte % 2 ^ s.doneFree = 0 := by
  have h9 := doneCode_fst_le hr
  obtain ⟨y, hy⟩ := doneCode_dvd s
  have hfree : s.doneFree ≤ 8 ∧ 31 - s.doneCode.1 = 31 - 8 * s.doneCodeBytes + s.doneFree := by
    unfold State.doneFree State.doneCodeBytes
    omega
  have hdiv : s.doneCode.2 / 2 ^ (31 - 8 * s.doneCodeBytes) = 2 ^ s.doneFree * y := by
    rw [hy, hfree.2, Nat.pow_add, Nat.mul_assoc, Nat.mul_div_cancel_left _ (Nat.two_pow_pos _)]
  rw [State.lastCodeByte, hdiv, Nat.mod_mod_of_dvd _ (Nat.pow_dvd_pow 2 hfree.1), Nat.mul_mod_right]

/-- The last symbol of step 2 of R83, for `l` code bits in `m + 1` bytes. -/
theorem emitCode_last {m n : Nat} {l : Int} {e : Word} {s : State} (hn : m + 1 ≤ n) (hl : l ≤ 8 * (m + 1))
    (hl' : 8 * (m + 1) < l + 8) (hm : m ≤ 1) :
    ∃ (u : State) (c : Word), (State.emitCode n l e s).2 = u.carryOut c ∧
      c.toNat % 256 = e.toNat / 2 ^ (31 - 8 * (m + 1)) % 256 := by
  obtain ⟨n, rfl⟩ : ∃ k, n = k + 1 := ⟨n - 1, by omega⟩
  induction m generalizing n l e s with
  | zero =>
    have hend : ∀ t, (State.emitCode n (l - symBits) ((e <<< symBits) &&& lowMask) t).2 = t := fun t => by
      cases n with
      | zero => rfl
      | succ n => rw [State.emitCode, if_neg (by simp only [symBits]; omega)]
    refine ⟨s, e >>> codeShift, ?_, by rw [toNat_ushiftRight_div]⟩
    rw [State.emitCode, if_pos (by omega), hend]
  | succ m ih =>
    obtain ⟨n, rfl⟩ : ∃ k, n = k + 1 := ⟨n - 1, by omega⟩
    obtain ⟨u, c, hu, hc⟩ := ih (l := l - symBits) (e := (e <<< symBits) &&& lowMask)
      (s := s.carryOut (e >>> codeShift))
      (by simp only [symBits]; omega) (by simp only [symBits]; omega) (by omega) n (by omega)
    refine ⟨u, c, ?_, ?_⟩
    · rw [State.emitCode, if_pos (by omega)]
      exact hu
    · obtain rfl : m = 0 := by omega
      rw [hc, toNat_shl8_lowMask]
      omega

/-- Steps 2 and 3 of R83: the code and then everything held goes to the front. -/
def State.flushFront (s : State) : State :=
  (State.emitCode s.codeValue.1 s.codeValue.1 s.codeValue.2 s).2.flushCarry

theorem flushFront_emits (s : State) : Emits s s.flushFront :=
  (emitCode_emits _ _ _ s).trans (flushCarry_emits _)

theorem putFront_last {s : State} {v : Byte} (he : (s.putFront v).error = 0#32) :
    (s.putFront v).offs.toNat = s.offs.toNat + 1 ∧ (s.putFront v).bufByte s.offs.toNat = v := by
  rcases Nat.lt_or_ge (s.offs.toNat + s.endOffs.toNat) s.storage.toNat with h | h
  · rw [State.putFront_fits h]
    exact ⟨toNat_succ (n := s.storage.toNat) (by omega) s.storage.isLt, bufByte_write_self s s.offs.toNat v⟩
  · rw [State.putFront_full h] at he
    cases he

/-- With nothing pending, step 3 of R83 puts out the buffered byte. -/
theorem flushCarry_of_buffered {s : State} (hb : s.remIsByte = true) (hx : s.ext = 0#32) :
    s.flushCarry = { s.putFront (s.rem.setWidth 8) with rem := 0#32 } := by
  have hflush : carryFlush s 0#32 = s.putFront (s.rem.setWidth 8) := by
    unfold carryFlush State.flushRem
    rw [hx, if_pos hb, show 0#32 >>> symBits = 0#32 from rfl, BitVec.add_zero s.rem]
    rfl
  unfold State.flushCarry
  rw [hb, Bool.true_or, if_pos rfl, carryOut_other s (by decide), hflush]
  rfl

/-- Where the last code byte has free bits, it is no 0xFF, so it is buffered and goes out last. -/
theorem flushFront_last {s : State} (hr : EncRegsOk s) (hfree : s.doneFree ≠ 0) (he : s.flushFront.error = 0#32) :
    0 < s.flushFront.offs.toNat ∧ (s.flushFront.bufByte (s.flushFront.offs.toNat - 1)).toNat = s.lastCodeByte := by
  obtain ⟨hn, hl, hl'⟩ := doneCodeBytes_bounds hr
  have h2 := doneCodeBytes_le hr.rng
  obtain ⟨m, hm⟩ : ∃ m, s.doneCodeBytes = m + 1 := ⟨s.doneCodeBytes - 1, by unfold State.doneFree at hfree; omega⟩
  rw [hm] at hn hl hl'
  obtain ⟨u, c, hu, hc⟩ := emitCode_last (s := s) (e := s.codeValue.2) hn hl hl' (by omega)
  have hcode : c.toNat % 256 = s.lastCodeByte := by
    rw [hc, State.lastCodeByte, hm, doneCode_eq hr.rng]
  have heven : s.lastCodeByte % 2 = 0 := by
    have hdvd : 2 ∣ 2 ^ s.doneFree := dvd_pow_self 2 hfree
    rw [← Nat.mod_mod_of_dvd _ hdvd, lastCodeByte_mod hr.rng]
  have hne : c ≠ symMax := by
    rintro rfl
    have : symMax.toNat = 255 := rfl
    omega
  have hrem : (u.carryOut c).rem.toNat = c.toNat % 256 := by
    rw [carryOut_other u hne]
    exact toNat_and_symMax c
  have hflush := flushCarry_of_buffered (remIsByte_carryOut_other u hne) (ext_carryOut_other u hne)
  have hfront : s.flushFront = (u.carryOut c).flushCarry := by unfold State.flushFront; rw [hu]
  rw [hfront, hflush] at he ⊢
  obtain ⟨ho, hbyte⟩ := putFront_last he
  refine ⟨by show 0 < ((u.carryOut c).putFront _).offs.toNat; omega, ?_⟩
  show (((u.carryOut c).putFront _).bufByte (((u.carryOut c).putFront _).offs.toNat - 1)).toNat = _
  rw [ho, Nat.add_sub_cancel, hbyte, BitVec.toNat_setWidth, hrem, hcode]
  exact Nat.mod_eq_of_lt (Nat.mod_lt _ (by decide))

/-! ### The gap and the leftover bits (step 5 of R83) -/

/-- A merge that leaves error = 0: no bits were left over, or they went into the byte before the raw bytes, which lies
in the gap or has room for them. -/
theorem mergeLeftover_ok {s : State} {w : Window} {free : Nat} (he : (s.mergeLeftover w free).error = 0#32) :
    w.count = 0 ∧ s.mergeLeftover w free = s ∨
    w.count ≠ 0 ∧ s.endOffs.toNat < s.storage.toNat ∧
      (s.offs.toNat + s.endOffs.toNat < s.storage.toNat ∨ w.count ≤ free) ∧
      s.mergeLeftover w free = s.mergeByte w.bits := by
  unfold State.mergeLeftover at he ⊢
  split
  · exact .inl ⟨‹_›, rfl⟩
  rename_i hcount
  rw [if_neg hcount] at he
  split
  · rename_i hfull
    rw [if_pos hfull] at he
    cases he
  rename_i hroom
  rw [if_neg hroom] at he
  split
  · rename_i hbad
    rw [if_pos hbad] at he
    cases he
  · exact .inr ⟨hcount, by omega, by omega, rfl⟩

theorem mergeByte_bufByte (s : State) (b : Word) :
    ((s.mergeByte b).bufByte (s.storage.toNat - s.endOffs.toNat - 1)).toNat =
      (s.bufByte (s.storage.toNat - s.endOffs.toNat - 1)).toNat ||| b.toNat % 256 := by
  unfold State.mergeByte
  rw [bufByte_write_self, BitVec.toNat_or, BitVec.toNat_setWidth]

theorem zeroGap_offs (s : State) : s.zeroGap.offs = s.offs := by rw [zeroGap_frame]
theorem zeroGap_endOffs (s : State) : s.zeroGap.endOffs = s.endOffs := by rw [zeroGap_frame]
theorem zeroGap_storage (s : State) : s.zeroGap.storage = s.storage := by rw [zeroGap_frame]

section
variable {s : State} {w : Window} {free : Nat} (hs : s.error = 0#32)
include hs

theorem finishGap_of_error : finishGap w free s = s.zeroGap.mergeLeftover w free := by
  unfold finishGap
  rw [if_pos hs]

theorem finishGap_zero {a : Nat} (h : s.offs.toNat ≤ a) (h' : a + 1 < s.storage.toNat - s.endOffs.toNat) :
    (finishGap w free s).bufByte a = 0#8 := by
  rw [finishGap_of_error hs, mergeLeftover_bufByte _ _ _ (by rw [zeroGap_storage, zeroGap_endOffs]; omega),
    zeroGap_bufByte, if_pos (by omega)]

variable (he : (finishGap w free s).error = 0#32)
include he

/-- The byte before the raw bytes: its old bits, or the fill's zero, under the leftover bits. -/
theorem finishGap_last :
    ((finishGap w free s).bufByte (s.storage.toNat - s.endOffs.toNat - 1)).toNat =
      (s.zeroGap.bufByte (s.storage.toNat - s.endOffs.toNat - 1)).toNat |||
        (if w.count = 0 then 0 else w.bits.toNat % 256) := by
  have hm := mergeByte_bufByte s.zeroGap w.bits
  rw [zeroGap_storage, zeroGap_endOffs] at hm
  rw [finishGap_of_error hs] at he ⊢
  rcases mergeLeftover_ok he with ⟨hcount, e⟩ | ⟨hcount, -, -, e⟩
  · rw [e, if_pos hcount, Nat.or_zero]
  · rw [e, if_neg hcount]
    exact hm

theorem finishGap_room (hcount : w.count ≠ 0) :
    s.endOffs.toNat < s.storage.toNat ∧ (s.offs.toNat + s.endOffs.toNat < s.storage.toNat ∨ w.count ≤ free) := by
  rw [finishGap_of_error hs] at he
  rcases mergeLeftover_ok he with ⟨h0, -⟩ | ⟨-, hend, hroom, -⟩
  · exact absurd h0 hcount
  · rw [zeroGap_storage, zeroGap_endOffs] at hend hroom
    rw [zeroGap_offs] at hroom
    exact ⟨hend, hroom⟩

end

/-! ### ENC_DONE without an error (R83) -/

/-- What an ENC_DONE that ends with error = 0 has done, from `s` to `t`: the front went out and then the whole raw
bytes, which left `v` and the window `w`; then the gap was filled and the leftover bits merged. -/
structure DoneOk (s t v : State) (w : Window) : Prop where
  front      : s.flushFront.error = 0#32
  back       : PutsBack (s.nendBits.toNat / 8) (s.endWindow.toNat % 256 ^ (s.nendBits.toNat / 8)) s.flushFront v
  error      : v.error = 0#32
  count      : w.count = s.nendBits.toNat % 8
  bits       : w.bits.toNat = s.endWindow.toNat / 2 ^ (8 * (s.nendBits.toNat / 8))
  finish     : t = { finishGap w s.doneFree v with mode := .done }
  finishOk   : (finishGap w s.doneFree v).error = 0#32

theorem encDoneRule_doneOk {s t : State} (hr : EncRegsOk s) (h : encDoneRule s = .ok t) (he : t.error = 0#32) :
    ∃ v w, DoneOk s t v w := by
  have ht := encDoneRule_ok h
  obtain ⟨hcount, hfree⟩ := flushAll_window hr
  have hn : (s.window s.nendBits.toNat).count / 8 ≤ s.nendBits.toNat := Nat.div_le_self _ _
  dsimp only at ht
  rw [hfree] at ht
  have hfin :
      (finishGap (s.flushAll s.nendBits.toNat).1 s.doneFree (s.flushAll s.nendBits.toNat).2.2).error = 0#32 := by
    rw [ht] at he; exact he
  have hv := (finishGap_writes _ _ _).error_eq_zero hfin
  have hfront := (flushWindow_backs s.nendBits.toNat (s.window s.nendBits.toNat) s.flushFront).writes.error_eq_zero hv
  exact ⟨_, _, hfront, flushWindow_putsBack hn hv, hv, hcount, (flushWindow_window hn s.flushFront).2, ht, hfin⟩

section
variable {s t v : State} {w : Window} (k : DoneOk s t v w)
include k

theorem DoneOk.storage : v.storage = s.storage := k.back.backs.storage.trans (flushFront_emits s).storage

/-- Outside the gap and its last byte ENC_DONE leaves what the writers put there. -/
theorem DoneOk.bufByte {a : Nat} (ha : a < v.offs.toNat ∨ v.storage.toNat - v.endOffs.toNat ≤ a)
    (hlast : a + 1 ≠ v.storage.toNat - v.endOffs.toNat) : t.bufByte a = v.bufByte a := by
  rw [k.finish]
  exact finishGap_bufByte w s.doneFree ha hlast

variable (hr : EncRegsOk s)
include hr

/-- The cursors and storage that ENC_DONE leaves. -/
theorem DoneOk.cursors :
    t.storage = s.storage ∧ t.offs = s.flushFront.offs ∧ t.endOffs = v.endOffs ∧
    v.endOffs.toNat = s.endOffs.toNat + s.nendBits.toNat / 8 ∧ t.offs.toNat + t.endOffs.toNat ≤ s.storage.toNat := by
  have hst := k.storage
  have hoffs : v.offs = s.flushFront.offs := k.back.backs.offs
  have hend := k.back.endOffs
  rw [(flushFront_emits s).endOffs] at hend
  have hroom := k.back.backs.room (by
    rw [(flushFront_emits s).storage, (flushFront_emits s).endOffs]
    exact (flushFront_emits s).room hr.cursors)
  rw [(flushFront_emits s).storage] at hroom
  rw [k.finish]
  dsimp only
  rw [finishGap_frame]
  exact ⟨hst, hoffs, rfl, hend, by rw [hoffs]; exact hroom⟩

/-- The whole raw bytes lie before those that were there (R34). -/
theorem DoneOk.backOut :
    t.backOut = s.backOut + s.endWindow.toNat % 256 ^ (s.nendBits.toNat / 8) * 256 ^ s.endOffs.toNat := by
  obtain ⟨hst, -, hend, -, hle⟩ := k.cursors hr
  have hcur := hr.cursors
  have hsv := k.storage
  have hemit := flushFront_emits s
  have htv : t.backOut = v.backOut := backOut_congr (hst.trans hsv.symm) hend (by rw [hsv, ← hend]; omega) fun a ha =>
    k.bufByte (.inr ha) (by omega)
  have hfs : s.flushFront.backOut = s.backOut := backOut_congr hemit.storage hemit.endOffs (by omega) fun a ha =>
    hemit.bufByte (.inr (by have := hemit.room hcur; omega))
  rw [htv, k.back.out, hfs, hemit.endOffs]

/-- The byte before the raw bytes: what step 5 finds there, under the leftover bits. -/
theorem DoneOk.last :
    (t.bufByte (s.storage.toNat - t.endOffs.toNat - 1)).toNat =
      (v.zeroGap.bufByte (s.storage.toNat - t.endOffs.toNat - 1)).toNat |||
        (if s.nendBits.toNat % 8 = 0 then 0 else s.endWindow.toNat / 2 ^ (8 * (s.nendBits.toNat / 8)) % 256) := by
  obtain ⟨-, -, hend, -, -⟩ := k.cursors hr
  have h := finishGap_last k.error k.finishOk
  rw [k.storage, ← hend, k.count, k.bits] at h
  rw [← h, k.finish]
  rfl

end

/-- A command whose mode and contract hold runs its rule. -/
theorem ruleOf_of_exec {i : Instr} {s t : State} (hm : admittedIn i s.mode = true) (hc : contractOf i s = none)
    (h : exec i s = .next t) : ruleOf i s = .ok t := by
  rw [exec_eq_command, hc, command, if_pos hm] at h
  split at h
  · injection h with h; rw [← h]; assumption
  · cases h

end Sys2Proof.Machine

namespace Sys2Proof.Proofs

open Sys2Proof.Machine

/-- An ENC_DONE that the unit runs in ENC. -/
theorem encDoneRule_of_exec {s t : State} (hs : s.Inv) (hm : s.mode = .enc) (h : exec .encDone s = .next t) :
    EncRegsOk s ∧ encDoneRule s = .ok t := by
  obtain ⟨-, hr, -⟩ := inv_enc hs hm
  exact ⟨hr, encoderRule_at hr.probe (ruleOf_of_exec (by rw [hm]; rfl) rfl h)⟩

/-- Settles O27: the raw bytes are those of the window, the gap is filled with zeros before the leftover bits go into
its last byte, and without a gap they go into the last code byte, which is the last byte out where it has
room for them. -/
theorem encDoneLaysOutStream : Obligations.EncDoneLaysOutStream := by
  intro s t hs hm h he
  obtain ⟨hr, h⟩ := encDoneRule_of_exec hs hm h
  obtain ⟨v, w, k⟩ := encDoneRule_doneOk hr h he
  obtain ⟨hst, hoffs, hend, hraw, hle⟩ := k.cursors hr
  have hsv := k.storage
  have hov : v.offs = t.offs := k.back.backs.offs.trans hoffs.symm
  have hlast := k.last hr
  dsimp only
  refine ⟨by rw [hend, hraw], fun j hj => ?_, fun a ha ha' => ?_, fun hgap => ?_, fun hfull hleft => ?_⟩
  · rw [bufByte_of_backOut hst (by rw [hend, hraw]) (by omega) (k.backOut hr) hj, byte_mod hj, pow_256 j]
  · rw [k.finish]
    exact finishGap_zero k.error (by rw [hov]; exact ha) (by rw [hsv, ← hend]; exact ha')
  · rw [hlast, zeroGap_bufByte, if_pos (by rw [hsv, hov, ← hend]; omega)]
    exact Nat.zero_or _
  · have hcount : w.count ≠ 0 := by rw [k.count]; omega
    obtain ⟨hroom, hfits⟩ := finishGap_room k.error k.finishOk hcount
    rw [hsv, hov, ← hend] at hfits
    rw [hsv, ← hend] at hroom
    have hfree : s.nendBits.toNat % 8 ≤ s.doneFree := by
      rw [← k.count]; exact hfits.resolve_left (by omega)
    obtain ⟨hpos, hbyte⟩ := flushFront_last hr (by omega) k.front
    rw [← hoffs] at hpos hbyte
    refine ⟨hpos, hfree, lastCodeByte_mod hr.rng, ?_⟩
    have ha : s.storage.toNat - t.endOffs.toNat - 1 = t.offs.toNat - 1 := by omega
    rw [ha, zeroGap_bufByte, if_neg (by rw [hov]; omega), if_neg (by omega)] at hlast
    rw [hlast, k.back.backs.bufByte (.inl (by rw [(flushFront_emits s).storage, ← hend]; omega)), hbyte]
    rfl

end Sys2Proof.Proofs
end

section
/-! PROOFS. Raw bits there and back (20_memory.md R36; 41_encoder.md R80; 42_decoder.md R110): what the encoder has
written as one number, what the decoder reads of it, and the round trip of R111 for raw bits (O44). -/

namespace Sys2Proof.Machine

/-! ### The decoder's refill (R110) -/

/-- The back readers of a state whose cursor has moved by `m` bytes find what the old ones find from there on. -/
theorem backByte_of_moved {s t : State} {m : Nat}
    (hframe : t.buf = s.buf ∧ t.resets = s.resets ∧ t.storage = s.storage)
    (hend : t.endOffs.toNat = min (s.endOffs.toNat + m) s.storage.toNat) (j : Nat) :
    t.backByte j = s.backByte (m + j) := by
  obtain ⟨hbuf, hres, hst⟩ := hframe
  unfold State.backByte State.bufByte
  rw [hbuf, hres, hst, hend]
  by_cases h : s.endOffs.toNat + (m + j) < s.storage.toNat
  · rw [if_pos h, if_pos (by omega)]
    congr 3 <;> omega
  · rw [if_neg h, if_neg (by omega)]

theorem readBack_moved {s : State} (hle : s.endOffs.toNat ≤ s.storage.toNat) (j : Nat) :
    s.readBack.2.backByte j = s.backByte (1 + j) := by
  have hf := readBack_frame s
  exact backByte_of_moved (by rw [hf]; exact ⟨rfl, rfl, rfl⟩) (readBack_endOffs hle) j

/-- A byte shifted in above the window's valid bits, which leave room for it. -/
theorem toNat_shl_byte (b : Byte) {c : Nat} (hc : c ≤ 24) : (b.setWidth 32 <<< c : Word).toNat = b.toNat * 2 ^ c := by
  have hb := b.isLt
  have hp : 2 ^ c ≤ 2 ^ 24 := Nat.pow_le_pow_right (by decide) hc
  have hlt : b.toNat * 2 ^ c < 2 ^ 8 * 2 ^ 24 := Nat.mul_lt_mul_of_lt_of_le hb hp (by decide)
  rw [BitVec.toNat_shiftLeft, Nat.shiftLeft_eq, BitVec.toNat_setWidth, Nat.mod_eq_of_lt (a := b.toNat) (by omega)]
  exact Nat.mod_eq_of_lt hlt

/-- The first byte read stands below those that follow it. -/
theorem backNumber_readBack {s : State} (hle : s.endOffs.toNat ≤ s.storage.toNat) (m c : Nat) :
    s.backNumber (m + 1) * 2 ^ c =
      s.readBack.1.toNat * 2 ^ c ||| s.readBack.2.backNumber m * 2 ^ (c + symBits) := by
  have hone : s.backNumber 1 = s.readBack.1.toNat := by
    rw [readBack_byte]; simp [State.backNumber]
  have hlt : s.readBack.1.toNat * 2 ^ c < 2 ^ (c + symBits) := by
    rw [Nat.pow_add, Nat.mul_comm]
    exact Nat.mul_lt_mul_of_pos_left s.readBack.1.isLt (Nat.two_pow_pos _)
  rw [Nat.or_comm, Nat.mul_comm _ (2 ^ (c + symBits)), ← Nat.two_pow_add_eq_or_of_lt hlt, Nat.add_comm m,
    backNumber_add (readBack_moved hle), hone, Nat.pow_add]
  ring

/-- The refill ORs the next whole back bytes in above the valid bits, 0 past the start (R102, R110). -/
theorem refillWindow_bits {n : Nat} {w : Window} {s : State} (hn : (32 - w.count) / 8 ≤ n) (hw : w.count ≤ 32)
    (hle : s.endOffs.toNat ≤ s.storage.toNat) :
    (State.refillWindow n w s).1.bits.toNat = w.bits.toNat ||| s.backNumber ((32 - w.count) / 8) * 2 ^ w.count ∧
    (State.refillWindow n w s).2.endOffs.toNat = min (s.endOffs.toNat + (32 - w.count) / 8) s.storage.toNat := by
  induction n generalizing w s with
  | zero =>
    rw [show (32 - w.count) / 8 = 0 by omega]
    simp only [State.refillWindow, State.backNumber, Nat.zero_mul, Nat.or_zero, Nat.add_zero, true_and]
    omega
  | succ n ih =>
    unfold State.refillWindow
    split
    · rename_i hc
      have hc : w.count ≤ 24 := hc
      have hst : s.readBack.2.storage = s.storage := by rw [readBack_frame]
      have hend := readBack_endOffs hle
      obtain ⟨hbits, hends⟩ := ih
        (w := { bits := w.bits ||| (s.readBack.1.setWidth 32 <<< w.count), count := w.count + symBits })
        (s := s.readBack.2) (by dsimp only [symBits]; omega) (by dsimp only [symBits]; omega) (by rw [hst]; omega)
      obtain ⟨m, hm⟩ : ∃ m, (32 - w.count) / 8 = m + 1 := ⟨(32 - w.count) / 8 - 1, by omega⟩
      have hm' : (32 - (w.count + symBits)) / 8 = m := by dsimp only [symBits]; omega
      dsimp only at hbits hends
      rw [hm'] at hbits hends
      refine ⟨?_, by rw [hends, hst, hend, hm]; omega⟩
      rw [hbits, BitVec.toNat_or, toNat_shl_byte _ hc, Nat.or_assoc, hm,
        backNumber_readBack hle]
    · rename_i hc
      have hc : ¬ w.count ≤ 24 := hc
      rw [show (32 - w.count) / 8 = 0 by omega]
      simp only [State.backNumber, Nat.zero_mul, Nat.or_zero, Nat.add_zero, true_and]
      omega

/-- How many bytes a DEC_BITS of `n` bits reads with `avail` bits valid (R110). -/
def refillBytes (avail n : Nat) : Nat := if avail < n then (32 - avail) / 8 else 0

theorem refill_window {avail n : Nat} {s : State} (ha : avail ≤ 31) (hle : s.endOffs.toNat ≤ s.storage.toNat) :
    (refill avail n s).1.bits.toNat = s.endWindow.toNat ||| s.backNumber (refillBytes avail n) * 2 ^ avail ∧
    (refill avail n s).1.count = avail + 8 * refillBytes avail n ∧
    (refill avail n s).2.endOffs.toNat = min (s.endOffs.toNat + refillBytes avail n) s.storage.toNat := by
  have hw : (s.window avail).count = avail := rfl
  unfold refill refillBytes
  split
  · obtain ⟨hbits, hend⟩ := refillWindow_bits (n := 4) (w := s.window avail) (by omega) (by omega) hle
    exact ⟨hbits, refillWindow_count (by omega) (by omega) s, hend⟩
  · refine ⟨?_, rfl, ?_⟩
    · rw [State.backNumber, Nat.zero_mul, Nat.or_zero]
      rfl
    · show s.endOffs.toNat = _
      omega

theorem bitCount_of_le {s : State} (h : s.nendBits.toNat ≤ 32) : s.bitCount = .ok s.nendBits.toNat := by
  unfold State.bitCount
  rw [msb_of_lt (by omega)]
  rfl

theorem decBitsRule_completes {s : State} (h : s.nendBits.toNat ≤ 32) (nbits : Word) :
    ∃ t, decBitsRule nbits s = .ok t := by
  unfold decBitsRule
  rw [bitCount_of_le h]
  exact ⟨_, rfl⟩

/-! ### Reading back (R36) -/

/-- `u` is a decoder that has read `n` back bytes since `d` and has given out the first `p` of their bits. -/
structure ReadTo (d : State) (p n : Nat) (u : State) : Prop where
  keeps   : u.buf = d.buf ∧ u.resets = d.resets ∧ u.storage = d.storage
  mode    : u.mode = .dec
  inBuf   : u.storage.toNat ≤ u.params.bufCap
  endOffs : u.endOffs.toNat = min (d.endOffs.toNat + n) d.storage.toNat
  avail   : p + u.nendBits.toNat = 8 * n
  few     : u.nendBits.toNat ≤ 31
  window  : u.endWindow.toNat = d.backNumber n / 2 ^ p

theorem low_mask (x : Word) {n : Nat} (h : n ≤ 31) : (x &&& (1#32 <<< n - 1#32)).toNat = x.toNat % 2 ^ n := by
  have hp := toNat_one_shl h
  have hpos := Nat.two_pow_pos n
  rw [BitVec.toNat_and, toNat_pred (by omega), hp]
  exact Nat.and_two_pow_sub_one_eq_mod x.toNat n

/-- `m` more bytes, ORed in above the window's valid bits, continue the number read. -/
theorem ReadTo.refilled {d u : State} {p n : Nat} (h : ReadTo d p n u) (m : Nat) :
    u.endWindow.toNat ||| u.backNumber m * 2 ^ u.nendBits.toNat = d.backNumber (n + m) / 2 ^ p := by
  have hmoved := backByte_of_moved (s := d) (t := u) h.keeps h.endOffs
  have hlt : d.backNumber n / 2 ^ p < 2 ^ u.nendBits.toNat := by
    rw [Nat.div_lt_iff_lt_mul (Nat.two_pow_pos p), ← Nat.pow_add, Nat.add_comm, h.avail, ← pow_256]
    exact backNumber_lt d n
  rw [h.window, Nat.or_comm, Nat.mul_comm, ← Nat.two_pow_add_eq_or_of_lt hlt, backNumber_add hmoved, pow_256, ← h.avail,
    Nat.pow_add, ← Nat.mul_assoc, Nat.mul_right_comm, Nat.add_mul_div_right _ _ (Nat.two_pow_pos p)]
  ring

/-- A DEC_BITS gives out the next bits of the back bytes, from any place in them. -/
theorem ReadTo.decBits {d u : State} {p n : Nat} (h : ReadTo d p n u) {nbits : Word} (hc : rawOk nbits) :
    ∃ k v, exec (.decBits nbits) u = .next v ∧ ReadTo d (p + nbits.toNat) k v ∧ p + nbits.toNat ≤ 8 * k ∧
      v.result.toNat = d.backNumber k / 2 ^ p % 2 ^ nbits.toNat ∧ v.nbitsTotal = u.nbitsTotal + nbits := by
  have hn : 1 ≤ nbits.toNat ∧ nbits.toNat ≤ 25 := hc
  have hfew := h.few
  have hst := h.keeps.2.2
  have hle : u.endOffs.toNat ≤ u.storage.toNat := by rw [hst, h.endOffs]; exact Nat.min_le_right _ _
  obtain ⟨v, hv⟩ := decBitsRule_completes (s := u) (by omega) nbits
  have hexec : exec (.decBits nbits) u = .next v :=
    exec_ok (by rw [h.mode]; rfl) (operands_none.mpr hc) ((onStream_of_le h.inBuf _).trans hv)
  obtain ⟨hbits, hcount, hend⟩ := refill_window (n := nbits.toNat) hfew hle
  have hframe := (refill_reads u.nendBits.toNat nbits.toNat u).frame
  have hvt := decBitsRule_ok hv
  dsimp only at hvt
  have henough : nbits.toNat ≤ u.nendBits.toNat + 8 * refillBytes u.nendBits.toNat nbits.toNat ∧
      u.nendBits.toNat + 8 * refillBytes u.nendBits.toNat nbits.toNat - nbits.toNat ≤ 31 := by
    unfold refillBytes
    split <;> omega
  rw [h.refilled] at hbits
  generalize refill u.nendBits.toNat nbits.toNat u = f at *
  generalize refillBytes u.nendBits.toNat nbits.toNat = m at *
  have hleft : (BitVec.ofNat 32 (f.1.count - nbits.toNat)).toNat = f.1.count - nbits.toNat := by
    rw [BitVec.toNat_ofNat]
    omega
  have havail := h.avail
  refine ⟨n + m, v, hexec, ?_, by omega, ?_, ?_⟩
  · rw [hvt, hframe]
    refine ⟨h.keeps, h.mode, h.inBuf, ?_, ?_, ?_, ?_⟩
    · show f.2.endOffs.toNat = _
      rw [hend, hst, h.endOffs]
      omega
    · show p + nbits.toNat + (BitVec.ofNat 32 (f.1.count - nbits.toNat)).toNat = _
      omega
    · show (BitVec.ofNat 32 (f.1.count - nbits.toNat)).toNat ≤ 31
      omega
    · show (f.1.bits >>> nbits.toNat).toNat = _
      rw [toNat_ushiftRight_div, hbits, Nat.div_div_eq_div_mul, ← Nat.pow_add]
  · rw [hvt]
    show (f.1.bits &&& _).toNat = _
    rw [low_mask _ (by omega), hbits]
  · rw [hvt, hframe]

/-! ### What the encoder has written (R80) -/

/-- The raw bits written so far, as one number: those put out at the back, then those in the window. -/
def State.rawOut (s : State) : Nat := s.backOut + s.endWindow.toNat * 256 ^ s.endOffs.toNat

/-- How many raw bits have been written so far. -/
def State.rawBits (s : State) : Nat := 8 * s.endOffs.toNat + s.nendBits.toNat

/-- No bit of the window lies above its valid ones, as R166 asks of raw values. -/
def WindowOk (s : State) : Prop := s.endWindow.toNat < 2 ^ s.nendBits.toNat

theorem WindowOk.rawOut_lt {s : State} (h : WindowOk s) : s.rawOut < 2 ^ s.rawBits := by
  have hb := backOut_lt s
  have hle : (s.endWindow.toNat + 1) * 256 ^ s.endOffs.toNat ≤ 2 ^ s.nendBits.toNat * 256 ^ s.endOffs.toNat :=
    Nat.mul_le_mul_right _ h
  rw [Nat.add_mul, Nat.one_mul] at hle
  rw [State.rawBits, Nat.add_comm, Nat.pow_add, ← pow_256]
  unfold State.rawOut
  omega

/-- How many whole bytes an ENC_BITS of `n` bits flushes first, with `used` bits in the window (R80). -/
def flushBytes (used n : Nat) : Nat := if windowSize < used + n then used / 8 else 0

/-- The room made, where no byte is lost: the window's low whole bytes are out, and the rest has moved down. -/
theorem makeRoom_putsBack {used n : Nat} {s : State} (he : (makeRoom used n s).2.error = 0#32) :
    PutsBack (flushBytes used n) (s.endWindow.toNat % 256 ^ flushBytes used n) s (makeRoom used n s).2 ∧
    (makeRoom used n s).1.count + 8 * flushBytes used n = used ∧
    (makeRoom used n s).1.bits.toNat = s.endWindow.toNat / 2 ^ (8 * flushBytes used n) := by
  unfold makeRoom at he ⊢
  unfold flushBytes
  split
  · rename_i hroom
    rw [if_pos hroom] at he
    have hn : (s.window used).count / 8 ≤ used := Nat.div_le_self _ _
    obtain ⟨hcount, hbits⟩ := flushWindow_window hn s
    refine ⟨flushWindow_putsBack hn he, ?_, hbits⟩
    rw [hcount]
    exact Nat.mod_add_div used 8
  · refine ⟨?_, rfl, ?_⟩
    · rw [Nat.pow_zero, Nat.mod_one]
      exact PutsBack.refl s
    · simp [State.window]

theorem toNat_shl_fits {x : Word} {c n : Nat} (hx : x.toNat < 2 ^ n) (hc : c + n ≤ 32) :
    (x <<< c).toNat = x.toNat * 2 ^ c := by
  have hlt : x.toNat * 2 ^ c < 2 ^ n * 2 ^ c := Nat.mul_lt_mul_of_pos_right hx (Nat.two_pow_pos c)
  rw [← Nat.pow_add, Nat.add_comm] at hlt
  rw [BitVec.toNat_shiftLeft, Nat.shiftLeft_eq]
  exact Nat.mod_eq_of_lt (Nat.lt_of_lt_of_le hlt (Nat.pow_le_pow_right (by decide) hc))

/-- The back and the window that ENC_BITS leaves, where no byte is lost (R80). -/
theorem encBitsRule_window {s t : State} {value nbits : Word} (hw : WindowOk s) (hc : rawOk nbits)
    (hv : value.toNat < 2 ^ nbits.toNat) (h : encBitsRule value nbits s = .ok t) (he : t.error = 0#32) :
    ∃ m c, c + 8 * m = s.nendBits.toNat ∧ s.endWindow.toNat / 256 ^ m < 2 ^ c ∧
      t.backOut = s.backOut + s.endWindow.toNat % 256 ^ m * 256 ^ s.endOffs.toNat ∧
      t.endOffs.toNat = s.endOffs.toNat + m ∧ t.nendBits.toNat = c + nbits.toNat ∧
      t.endWindow.toNat = s.endWindow.toNat / 256 ^ m + value.toNat * 2 ^ c := by
  have ht := encBitsRule_ok h
  dsimp only at ht
  obtain ⟨hput, hcount, hbits⟩ := makeRoom_putsBack (used := s.nendBits.toNat) (n := nbits.toNat) (s := s)
    (by rw [ht] at he; exact he)
  have hroom := makeRoom_count (used := s.nendBits.toNat) hc.2 s
  generalize makeRoom s.nendBits.toNat nbits.toNat s = f at *
  generalize flushBytes s.nendBits.toNat nbits.toNat = m at *
  rw [← pow_256] at hbits
  have hlow : s.endWindow.toNat / 256 ^ m < 2 ^ f.1.count := by
    rw [pow_256, Nat.div_lt_iff_lt_mul (Nat.two_pow_pos _), ← Nat.pow_add, hcount]
    exact hw
  refine ⟨m, f.1.count, hcount, hlow, ?_, ?_, ?_, ?_⟩
  · rw [← hput.out, ht]
    exact backNumber_congr fun _ _ => rfl
  · rw [ht]
    exact hput.endOffs
  · rw [ht]
    show (BitVec.ofNat 32 (f.1.count + nbits.toNat)).toNat = _
    rw [BitVec.toNat_ofNat]
    omega
  · rw [ht]
    show (f.1.bits ||| (value <<< f.1.count)).toNat = _
    rw [BitVec.toNat_or, toNat_shl_fits hv hroom, hbits, Nat.or_comm, Nat.mul_comm,
      ← Nat.two_pow_add_eq_or_of_lt hlow, Nat.add_comm]

/-- ENC_BITS appends its field above the bits written before (R36, R80), where no byte is lost. -/
theorem encBitsRule_appends {s t : State} {value nbits : Word} (hw : WindowOk s) (hc : rawOk nbits)
    (hv : value.toNat < 2 ^ nbits.toNat) (h : encBitsRule value nbits s = .ok t) (he : t.error = 0#32) :
    t.rawOut = s.rawOut + value.toNat * 2 ^ s.rawBits ∧ t.rawBits = s.rawBits + nbits.toNat ∧ WindowOk t := by
  obtain ⟨m, c, hcount, hlow, hout, hend, hnend, hwin⟩ := encBitsRule_window hw hc hv h he
  refine ⟨?_, ?_, ?_⟩
  · have hsplit := Nat.mod_add_div s.endWindow.toNat (256 ^ m)
    have hbase : s.rawBits = 8 * s.endOffs.toNat + 8 * m + c := by unfold State.rawBits; omega
    unfold State.rawOut
    rw [hout, hend, hwin, hbase, Nat.pow_add 256, Nat.pow_add 2, Nat.pow_add 2, ← pow_256, ← pow_256]
    linear_combination 256 ^ s.endOffs.toNat * hsplit
  · unfold State.rawBits
    omega
  · unfold WindowOk
    have hle : (value.toNat + 1) * 2 ^ c ≤ 2 ^ nbits.toNat * 2 ^ c := Nat.mul_le_mul_right _ hv
    rw [Nat.add_mul, Nat.one_mul] at hle
    rw [hwin, hnend, Nat.pow_add, Nat.mul_comm (2 ^ c)]
    omega

/-! ### The same bits in fewer and in more bytes -/

/-- The `n` bits of `x` from bit `p` on lie in its low `p + n` bits. -/
theorem bits_of_mod (x p n : Nat) : x / 2 ^ p % 2 ^ n = x % 2 ^ (p + n) / 2 ^ p := by
  rw [Nat.pow_add, Nat.mod_mul_right_div_self]

theorem backNumber_bits {s : State} {p n k m : Nat} (h : p + n ≤ 8 * k) (hkm : k ≤ m) :
    s.backNumber m / 2 ^ p % 2 ^ n = s.backNumber k / 2 ^ p % 2 ^ n := by
  have hdvd : 2 ^ (p + n) ∣ 256 ^ k := by rw [pow_256]; exact Nat.pow_dvd_pow 2 h
  rw [bits_of_mod, bits_of_mod, ← backNumber_mod hkm, Nat.mod_mod_of_dvd _ hdvd]

/-- Two readings that both reach the bits find the same. -/
theorem backNumber_bits_eq {s : State} {p n k m : Nat} (hk : p + n ≤ 8 * k) (hm : p + n ≤ 8 * m) :
    s.backNumber k / 2 ^ p % 2 ^ n = s.backNumber m / 2 ^ p % 2 ^ n := by
  rcases Nat.le_total k m with h | h
  · exact (backNumber_bits hk h).symm
  · exact backNumber_bits hm h

/-- A field appended above `p` bits is found there. -/
theorem bits_of_append {x y v p n : Nat} (hx : x % 2 ^ (p + n) = y + v * 2 ^ p) (hy : y < 2 ^ p) :
    x / 2 ^ p % 2 ^ n = v := by
  rw [bits_of_mod, hx, Nat.add_mul_div_right _ _ (Nat.two_pow_pos p), Nat.div_eq_of_lt hy, Nat.zero_add]

/-! ### DEC_INIT for the raw bits (R100) -/

/-- A new decoder reads the back from the end of the stream on, and counts 33 bits. -/
theorem decInitRule_starts (d : State) {size : Word} (hc : size.toNat ≤ d.params.bufCap) :
    ∃ t, decInitRule size d = .ok t ∧ ReadTo t 0 0 t ∧ t.nbitsTotal = 33#32 ∧
      (d.storage = size → ∀ j, t.backByte j = d.fromEnd.backByte j) := by
  have hg := decInitPrimed_rng size d
  obtain ⟨t, k, ht, -, hp, -, -, -, htotal, -⟩ := decNormalize_ok (s := decInitPrimed size d) (by rw [hg]; decide)
    (by rw [hg]; decide) (decInitPrimed_front size d)
  have hframe := (decInitRule_reads (size := size) (s := d) ht).frame
  have h3 : k = 3 := by
    have h1 := hp.1
    have h2 := hp.2
    rw [hg, show (128#32).toNat = 2 ^ 7 from rfl, ← Nat.pow_add] at h1 h2
    have := (Nat.pow_lt_pow_iff_right (by decide)).mp h1
    have := (Nat.pow_le_pow_iff_right (by decide)).mp h2
    omega
  refine ⟨t, ht, ?_, ?_, fun hst j => ?_⟩
  · rw [hframe]
    exact ⟨⟨rfl, rfl, rfl⟩, rfl, hc, (Nat.min_eq_left (Nat.zero_le _)).symm, rfl, Nat.zero_le _,
      (Nat.zero_div (2 ^ 0)).symm⟩
  · have h9 : (decInitPrimed size d).nbitsTotal = 9#32 := by
      unfold decInitPrimed
      dsimp only
      rw [readFront_frame]
      rfl
    rw [htotal, h9, h3]
    rfl
  · have h := backByte_of_moved (s := d.fromEnd) (t := t) (m := 0) (by rw [hframe]; exact ⟨rfl, rfl, hst.symm⟩)
      (by rw [hframe]; exact (Nat.min_eq_left (Nat.zero_le _)).symm) j
    rw [h, Nat.zero_add]

end Sys2Proof.Machine

namespace Sys2Proof.Proofs

open Sys2Proof.Machine

/-! ### A stream of raw bits -/

/-- An encoder that has appended raw bits only: its interval is that of ENC_INIT. -/
structure RawStream (s : State) : Prop where
  inv    : s.Inv
  mode   : s.mode = .enc
  window : WindowOk s
  val    : s.val = 0#32
  rng    : s.rng = codeTop

/-- ENC_INIT starts a stream with no raw bits. -/
theorem encInit_rawStream {s t : State} {size : Word} (hs : s.Inv) (hc : size.toNat ≤ s.params.bufCap)
    (h : exec (.encInit size) s = .next t) :
    RawStream t ∧ t.storage = size ∧ t.params = s.params ∧ t.rawBits = 0 ∧ t.nbitsTotal = 33#32 := by
  have hinv := exec_keeps_inv hs h
  have hrule := ruleOf_of_exec (i := .encInit size) rfl (operands_none.mpr hc) h
  cases hrule
  exact ⟨⟨hinv, rfl, Nat.one_pos, rfl, rfl⟩, rfl, rfl, rfl, rfl⟩

/-- An ENC_BITS that loses no byte appends its field. -/
theorem RawStream.encBits {s t : State} (hs : RawStream s) {value nbits : Word} (hc : rawOk nbits)
    (hv : value.toNat < 2 ^ nbits.toNat) (h : exec (.encBits value nbits) s = .next t) (he : t.error = 0#32) :
    RawStream t ∧ t.storage = s.storage ∧ t.params = s.params ∧ t.nbitsTotal = s.nbitsTotal + nbits ∧
    t.rawOut = s.rawOut + value.toNat * 2 ^ s.rawBits ∧ t.rawBits = s.rawBits + nbits.toNat := by
  obtain ⟨-, hr, -⟩ := inv_enc hs.inv hs.mode
  have hinv := exec_keeps_inv hs.inv h
  have hrule := encoderRule_at hr.probe
    (ruleOf_of_exec (i := .encBits value nbits) (by rw [hs.mode]; rfl) (operands_none.mpr hc) h)
  obtain ⟨hout, hbits, hwin⟩ := encBitsRule_appends hs.window hc hv hrule he
  have hb := (makeRoom_backs s.nendBits.toNat nbits.toNat s).frame
  have hframe : t.mode = s.mode ∧ t.val = s.val ∧ t.rng = s.rng ∧ t.storage = s.storage ∧ t.params = s.params ∧
      t.nbitsTotal = s.nbitsTotal + nbits := by
    rw [encBitsRule_ok hrule, hb]
    exact ⟨rfl, rfl, rfl, rfl, rfl, rfl⟩
  obtain ⟨fm, fv, fg, fs, fp, fn⟩ := hframe
  exact ⟨⟨hinv, fm.trans hs.mode, hwin, fv.trans hs.val, fg.trans hs.rng⟩, fs, fp, fn, hout, hbits⟩

theorem appendAll_cons {x : RawField} {xs : List RawField} {s e : State} (h : s.appendAll (x :: xs) = some e) :
    ∃ f, exec (.encBits x.value x.nbits) s = .next f ∧ f.appendAll xs = some e := by
  rw [State.appendAll] at h
  split at h
  · exact ⟨_, ‹_›, h⟩
  · cases h
  · cases h

/-- Only the INITs clear error (R14). -/
theorem error_eq_zero_of_exec {i : Instr} {s t : State} (h : exec i s = .next t) (ht : t.error = 0#32)
    (hne : ∀ n, i ≠ .encInit n) (hnd : ∀ n, i ≠ .decInit n) : s.error = 0#32 := by
  by_contra hs
  exact errorIsSticky i s t h hs hne hnd ht

/-- No field has been lost where error is 0 at the end (R14). -/
theorem appendAll_error {xs : List RawField} {s e : State} (h : s.appendAll xs = some e) (he : e.error = 0#32) :
    s.error = 0#32 := by
  induction xs generalizing s with
  | nil => cases h; exact he
  | cons x xs ih =>
    obtain ⟨f, hf, h⟩ := appendAll_cons h
    exact error_eq_zero_of_exec hf (ih h) nofun nofun

/-- Each field's width and value are inside their limits (R80, R166). -/
def FieldsOk (xs : List RawField) : Prop := ∀ x ∈ xs, rawOk x.nbits ∧ x.value.toNat < 2 ^ x.nbits.toNat

/-- Appending more fields keeps the bits written before. -/
theorem appendAll_keeps {xs : List RawField} {s e : State} (hs : RawStream s) (hxs : FieldsOk xs)
    (h : s.appendAll xs = some e) (he : e.error = 0#32) :
    RawStream e ∧ e.storage = s.storage ∧ e.params = s.params ∧ s.rawBits ≤ e.rawBits ∧
    e.rawOut % 2 ^ s.rawBits = s.rawOut := by
  induction xs generalizing s with
  | nil =>
    cases h
    exact ⟨hs, rfl, rfl, Nat.le_refl _, Nat.mod_eq_of_lt hs.window.rawOut_lt⟩
  | cons x xs ih =>
    obtain ⟨f, hf, h⟩ := appendAll_cons h
    obtain ⟨hc, hv⟩ := hxs x List.mem_cons_self
    obtain ⟨hsf, hst, hp, -, hout, hbits⟩ := hs.encBits hc hv hf (appendAll_error h he)
    obtain ⟨hse, hst', hp', hle, hmod⟩ := ih hsf (fun y hy => hxs y (List.mem_cons_of_mem x hy)) h
    refine ⟨hse, hst'.trans hst, hp'.trans hp, by omega, ?_⟩
    rw [← Nat.mod_mod_of_dvd _ (Nat.pow_dvd_pow 2 (show s.rawBits ≤ f.rawBits by omega)), hmod, hout,
      Nat.add_mul_mod_self_right, Nat.mod_eq_of_lt hs.window.rawOut_lt]

/-! ### The end of the stream (R34, R36) -/

/-- With the interval of ENC_INIT the code has no bits, and no byte of it has room for leftover bits. -/
theorem RawStream.doneFree {s : State} (hs : RawStream s) : s.doneFree = 0 := by
  unfold State.doneFree State.doneCodeBytes State.doneCode
  rw [hs.val, hs.rng]
  decide

/-- After ENC_DONE with error = 0 the bytes from the end of the stream on hold all the raw bits written. -/
theorem RawStream.done {s t : State} (hs : RawStream s) (h : exec .encDone s = .next t) (he : t.error = 0#32) :
    t.storage = s.storage ∧ t.params = s.params ∧ ∃ k, s.rawBits ≤ 8 * k ∧ t.fromEnd.backNumber k = s.rawOut := by
  obtain ⟨hend, -, -, hgap, hfull⟩ := encDoneLaysOutStream s t hs.inv hs.mode h he
  obtain ⟨hr, hrule⟩ := encDoneRule_of_exec hs.inv hs.mode h
  obtain ⟨v, w, k⟩ := encDoneRule_doneOk hr hrule he
  obtain ⟨hst, -, -, -, hle⟩ := k.cursors hr
  have hout := k.backOut hr
  have hwin := hs.window
  obtain ⟨-, hparams, -⟩ := exec_keepsOutside h
  refine ⟨hst, hparams, ?_⟩
  unfold WindowOk at hwin
  unfold State.rawBits State.rawOut
  rcases Nat.eq_zero_or_pos (s.nendBits.toNat % 8) with hleft | hleft
  · refine ⟨t.endOffs.toNat, by omega, hout.trans ?_⟩
    rw [Nat.mod_eq_of_lt]
    rw [pow_256, show 8 * (s.nendBits.toNat / 8) = s.nendBits.toNat by omega]
    exact hwin
  · have hroom : t.offs.toNat + t.endOffs.toNat < s.storage.toNat := by
      refine Nat.lt_of_le_of_ne hle fun hno => ?_
      obtain ⟨-, hfree, -⟩ := hfull hno hleft
      rw [hs.doneFree] at hfree
      omega
    have hbyte := hgap hroom
    have hhigh : s.endWindow.toNat / 2 ^ (8 * (s.nendBits.toNat / 8)) < 256 := by
      rw [Nat.div_lt_iff_lt_mul (Nat.two_pow_pos _), show 256 = 2 ^ 8 from rfl, ← Nat.pow_add]
      exact Nat.lt_of_lt_of_le hwin (Nat.pow_le_pow_right (by decide) (by omega))
    rw [if_neg (by omega), Nat.mod_eq_of_lt hhigh, Nat.sub_right_comm] at hbyte
    refine ⟨t.endOffs.toNat + 1, by omega, ?_⟩
    have hsplit := Nat.mod_add_div s.endWindow.toNat (256 ^ (s.nendBits.toNat / 8))
    rw [State.backNumber, show t.fromEnd.backNumber t.endOffs.toNat = _ from hout,
      fromEnd_backByte (by rw [hst]; omega), hst, hbyte, ← pow_256, hend, Nat.pow_add]
    linear_combination 256 ^ s.endOffs.toNat * hsplit

/-! ### The round trip (R111) -/

/-- The decoder `u` has read as many bits as the encoder `s` had written; what `s` went on to write, up to `e`, stands
in the bytes that `u` reads from `d` on. -/
theorem readsBackAll_of_appendAll {xs : List RawField} {s e d u : State} {n : Nat} (hs : RawStream s)
    (hxs : FieldsOk xs) (h : s.appendAll xs = some e) (he : e.error = 0#32)
    (hd : ∀ p m k, p + m ≤ e.rawBits → p + m ≤ 8 * k → d.backNumber k / 2 ^ p % 2 ^ m = e.rawOut / 2 ^ p % 2 ^ m)
    (hu : ReadTo d s.rawBits n u) (htotal : u.nbitsTotal = s.nbitsTotal) : ReadsBackAll xs s u := by
  induction xs generalizing s u n with
  | nil => trivial
  | cons x xs ih =>
    obtain ⟨f, hf, h⟩ := appendAll_cons h
    obtain ⟨hc, hv⟩ := hxs x List.mem_cons_self
    have hxs' : FieldsOk xs := fun y hy => hxs y (List.mem_cons_of_mem x hy)
    obtain ⟨hsf, -, -, hft, hout, hbits⟩ := hs.encBits hc hv hf (appendAll_error h he)
    obtain ⟨-, -, -, hle, hmod⟩ := appendAll_keeps hsf hxs' h he
    obtain ⟨k, v, hexec, hread, hk, hres, hvt⟩ := hu.decBits hc
    have hvf : v.nbitsTotal = f.nbitsTotal := by rw [hvt, hft, htotal]
    refine ⟨f, v, hf, hexec, BitVec.eq_of_toNat_eq ?_, hvf, ih hsf hxs' h (by rw [hbits]; exact hread) hvf⟩
    rw [hres, hd _ _ _ (by omega) hk]
    exact bits_of_append (by rw [← hbits, hmod, hout]) hs.window.rawOut_lt

/-- Settles O44: the fields stand one above the other in the number that the back bytes are, and the decoder reads that
number from its low end on. -/
theorem rawBitsRoundTrip : Obligations.RawBitsRoundTrip := by
  intro s s0 e d size xs hs hxs hc hinit happend hdone herr
  obtain ⟨hraw, hsize, hparams, hbits0, htotal0⟩ := encInit_rawStream hs hc hinit
  have heerr := error_eq_zero_of_exec hdone herr nofun nofun
  obtain ⟨hrawe, hste, hpe, -, -⟩ := appendAll_keeps hraw hxs happend heerr
  obtain ⟨hstd, hpd, k, hk, hnumber⟩ := hrawe.done hdone herr
  have hpar : d.params = s.params := hpd.trans (hpe.trans hparams)
  have hcap : size.toNat ≤ d.params.bufCap := by rw [hpar]; exact hc
  obtain ⟨t, ht, hread, htotal, hbytes⟩ := decInitRule_starts d hcap
  have hsame := hbytes (hstd.trans (hste.trans hsize))
  refine ⟨t, exec_ok rfl (operands_none.mpr hcap) ht, ?_⟩
  refine readsBackAll_of_appendAll (d := t) hraw hxs happend heerr (fun p m j hp hj => ?_) (by rw [hbits0]; exact hread)
    (htotal.trans htotal0.symm)
  rw [backNumber_bits_eq hj (Nat.le_trans hp hk), backNumber_congr fun j _ => hsame j, hnumber]

end Sys2Proof.Proofs
end

section
/-! PROOFS. The statements of 30_encoding.md: the packet and its decoder (O1 to O3), the assembler's names (O4), and the
checks of R54 that refuse a packet (O5) and a command in the wrong mode (O10). -/

namespace Sys2Proof.Proofs

open Sys2Proof.Machine

/-! ### The packet and its decoder (R50 to R52) -/

/-- With RSV = 0 the opcode map decides. -/
theorem decode_of_decodeOp {p : Packet} {i : Instr} (hr : p.rsv = 0#8) (h : decodeOp p = some i) : decode p = .ok i := by
  simp [decode, hr, h]

theorem decode_packet {op : BitVec 8} {t : TblAddr} {a b c : Word} {i : Instr}
    (h : decodeOp (packet op t a b c) = some i) : decode (packet op t a b c) = .ok i := by
  obtain ⟨-, hr, -⟩ := Laws.packet_fields op t a b c
  exact decode_of_decodeOp hr h

theorem bitOperand_eq_true_iff (a : Word) : bitOperand a = true ↔ a ≠ 0#32 := bne_iff_ne

/-- Settles O2: each row of R52 is the first that its OP meets, and its operands are the packet's fields. -/
theorem opcodeMapIgnoresUnusedFields : Obligations.OpcodeMapIgnoresUnusedFields := by
  refine ⟨fun t a b c => ?_, bitOperand_eq_true_iff⟩
  and_intros <;> exact decode_packet (by simp [decodeOp, Laws.packet_fields])

/-- Settles O1: the packet of a command is one of those that its row of the opcode map is about. -/
theorem decodeOfEncode : Obligations.DecodeOfEncode := by
  obtain ⟨rows, -⟩ := opcodeMapIgnoresUnusedFields
  intro i
  cases i <;> simp only [encode, rows]

/-- Settles O3, by running the decoder on each packet. -/
theorem writtenWordsDecode : Obligations.WrittenWordsDecode := ⟨rfl, rfl, rfl, rfl, rfl⟩

/-! ### The assembler's names (R55) -/

theorem fits_num (x : Word) : (AsmOperand.num x.toNat).fits = true := decide_eq_true x.isLt

theorem fits_addr (x : TblAddr) : (AsmOperand.addr x.toNat).fits = true := decide_eq_true x.isLt

theorem asmOperands_fit (i : Instr) : (asmOperands i).all AsmOperand.fits = true := by
  cases i <;> simp [asmOperands, fits_num, fits_addr]

/-- A number read at the width of its field is the operand it was written from. -/
theorem commandOf_mnemonic (i : Instr) : commandOf (mnemonic i) (asmOperands i) = some i := by
  cases i <;> (change some _ = some _; simp only [BitVec.ofNat_toNat, BitVec.setWidth_eq])

/-- Settles O4: the operands of a command are words and table addresses, which fit and come back as they were. -/
theorem assemblerNamesCommand : Obligations.AssemblerNamesCommand := fun i => ⟨asmOperands_fit i, commandOf_mnemonic i⟩

/-! ### A refused packet (R54) -/

theorem decode_of_rsv_ne_zero {p : Packet} (h : p.rsv ≠ 0#8) : decode p = .error .reservedBits := if_pos h

theorem decode_of_decodeOp_none {p : Packet} (hr : p.rsv = 0#8) (h : decodeOp p = none) :
    decode p = .error .illegalOpcode := by
  simp [decode, hr, h]

/-- The opcode map names no command only for an OP outside R52's table. -/
theorem decodeOp_eq_none {p : Packet}
    (h : p.op ∉ [0x01#8, 0x02#8, 0x03#8, 0x04#8, 0x05#8, 0x06#8, 0x07#8, 0x08#8, 0x09#8, 0x0A#8, 0x11#8, 0x12#8, 0x13#8,
      0x14#8, 0x15#8, 0x16#8, 0x17#8, 0x18#8, 0x20#8, 0x21#8, 0x30#8]) : decodeOp p = none := by
  simp only [List.mem_cons, not_or] at h
  simp [decodeOp, h]

theorem step_of_decode_error {s : State} {p : Packet} {rest : List Transaction} {r : RefuseReason}
    (hs : s.port = .command p :: rest) (hp : decode p = .error r) :
    step s = .next { s with port := rest, refusal := some r } := by
  unfold step
  rw [hs]
  simp only [serve, issue, hp]
  rfl

/-- Settles O5: the two checks are those of `decode`, in its order, and a packet it rejects is only marked. -/
theorem badPacketsRefusedInOrder : Obligations.BadPacketsRefusedInOrder := fun _ _ _ hs =>
  ⟨fun hr => step_of_decode_error hs (decode_of_rsv_ne_zero hr),
    fun hr hop => step_of_decode_error hs (decode_of_decodeOp_none hr (decodeOp_eq_none hop))⟩

/-! ### A command in the wrong mode (R53) -/

theorem refusedAs_wrongMode {i : Instr} {s : State} (h : admittedIn i s.mode = false) : RefusedAs i s .wrongMode := by
  unfold RefusedAs
  rw [exec_eq_command]
  exact command_wrongMode h _ _

theorem operands_ne_wrongMode (p : Prop) [Decidable p] : operands p ≠ some .wrongMode := by
  unfold operands
  split <;> nofun

/-- No contract is about the mode. -/
theorem contractOf_ne_wrongMode (i : Instr) (s : State) : contractOf i s ≠ some .wrongMode := by
  cases i with
  | encIcdf =>
    simp only [contractOf, encIcdfContract]
    split
    · nofun
    · exact operands_ne_wrongMode _
  | decUpdate =>
    simp only [contractOf, decUpdateContract]
    split
    · exact operands_ne_wrongMode _
    · nofun
  | decIcdf =>
    simp only [contractOf, decIcdfContract]
    split <;> nofun
  | encDone | tell | tellFrac | release => nofun
  | _ => exact operands_ne_wrongMode _

/-- Settles O10: the mode is looked at first. A command that passes it ends with the mark of its contract, or runs its
rule, which leaves the mark as it was. -/
theorem wrongModeRefused : Obligations.WrongModeRefused := by
  refine fun i s => ⟨refusedAs_wrongMode, fun hm hs t h => ?_⟩
  cases hc : contractOf i s with
  | none =>
    rw [ruleWrites_refusal (ruleOf_writes (ruleOf_of_exec hm hc h)), hs]
    nofun
  | some r =>
    have hr : Host.Outcome.next { s with refusal := some r } = Host.Outcome.next t :=
      (refusedAs_of_contract hm hc).symm.trans h
    injection hr with hr
    rw [← hr, ← hc]
    exact contractOf_ne_wrongMode i s

end Sys2Proof.Proofs
end

section
/-! PROOFS. What the front and the back writers store where not every byte fits (41_encoder.md R71 to R73): O17. -/

namespace Sys2Proof.Machine

/-- The error of two runs of writes, of `o` and then `p` bytes, is that of one run into the room `r` of both. -/
theorem error_of_both (o p r : Nat) (e : Word) :
    (if p ≤ r - o then if o ≤ r then e else encFault else encFault) = if o + p ≤ r then e else encFault := by
  by_cases ho : o ≤ r
  · rw [if_pos ho]
    exact if_congr (by omega) rfl rfl
  · rw [if_neg ho, ite_self, if_neg (by omega)]

theorem room_pos_iff (s : State) : 0 < s.room ↔ s.offs.toNat + s.endOffs.toNat < s.storage.toNat := by
  unfold State.room; omega

theorem room_of_full {s : State} (h : s.storage.toNat ≤ s.offs.toNat + s.endOffs.toNat) : s.room = 0 := by
  unfold State.room; omega

/-! ### A run of front bytes (R71) -/

/-- `t` comes from `s` by front writes of the bytes `out`, in their order: those that fit are stored from the front cursor
on, the others are dropped and error becomes -1. Beside the writes rem and ext may change. -/
structure StoresFront (out : List Nat) (s t : State) : Prop where
  frame   : t = { s with offs := t.offs, buf := t.buf, error := t.error, rem := t.rem, ext := t.ext }
  offs    : t.offs.toNat = s.offs.toNat + min out.length s.room
  bytes   : ∀ j, j < min out.length s.room → some (t.bufByte (s.offs.toNat + j)).toNat = out[j]?
  outside : SameBufOutside s.offs.toNat (s.offs.toNat + min out.length s.room) s t
  error   : t.error = if out.length ≤ s.room then s.error else encFault

theorem StoresFront.refl (s : State) : StoresFront [] s s :=
  ⟨rfl, by simp, by simp, fun _ _ => rfl, by simp⟩

/-- A change of rem and ext alone stores nothing. -/
theorem storesFront_regs (s : State) (r e : Word) : StoresFront [] s { s with rem := r, ext := e } :=
  ⟨rfl, by simp, by simp, fun _ _ => rfl, by simp⟩

theorem StoresFront.room {out : List Nat} {s t : State} (h : StoresFront out s t) : t.room = s.room - out.length := by
  have ho := h.offs
  have he : t.storage = s.storage ∧ t.endOffs = s.endOffs := by rw [h.frame]; exact ⟨rfl, rfl⟩
  unfold State.room at *
  rw [he.1, he.2]
  omega

theorem StoresFront.trans {o p : List Nat} {s t u : State} (h : StoresFront o s t) (k : StoresFront p t u) :
    StoresFront (o ++ p) s u := by
  have ho := h.offs
  have ko := k.offs
  have kb := k.bytes
  have kout := k.outside
  have kerr := k.error
  rw [h.room] at ko kb kout kerr
  refine ⟨by rw [k.frame, h.frame], ?_, fun j hj => ?_, fun a ha => ?_, ?_⟩
  · rw [ko, ho, List.length_append]; omega
  · rw [List.length_append] at hj
    by_cases hlt : j < o.length
    · rw [kout _ (.inl (by omega)), h.bytes j (by omega), List.getElem?_append_left hlt]
    · have hk := kb (j - o.length) (by omega)
      rw [show t.offs.toNat + (j - o.length) = s.offs.toNat + j by omega] at hk
      rw [hk, List.getElem?_append_right (by omega)]
  · rw [List.length_append] at ha
    rw [kout a (by omega), h.outside a (by omega)]
  · rw [kerr, h.error, List.length_append, error_of_both]

theorem putFront_storesFront (s : State) (v : Byte) : StoresFront [v.toNat] s (s.putFront v) := by
  rcases Nat.lt_or_ge (s.offs.toNat + s.endOffs.toNat) s.storage.toNat with h | h
  · have hroom := (room_pos_iff s).mpr h
    have hmin : min [v.toNat].length s.room = 1 := by rw [List.length_singleton]; omega
    have hb : ∀ x, (s.putFront v).bufByte x = if x = s.offs.toNat then v else s.bufByte x := by
      rw [State.putFront_fits h]; exact fun x => State.bufByte_bufWrite s s.offs.toNat x v
    refine ⟨?_, ?_, fun j hj => ?_, fun a ha => ?_, ?_⟩
    · rw [State.putFront_fits h]
    · rw [hmin, State.putFront_fits h]
      exact toNat_succ (n := s.storage.toNat) (by omega) s.storage.isLt
    · obtain rfl : j = 0 := by omega
      rw [hb, Nat.add_zero, if_pos rfl]; rfl
    · rw [hb, if_neg (by omega)]
    · rw [if_pos (by rw [List.length_singleton]; omega), State.putFront_fits h]
  · have hroom := room_of_full h
    rw [State.putFront_full h]
    refine ⟨rfl, by rw [hroom]; rfl, fun j hj => ?_, fun _ _ => rfl, ?_⟩
    · omega
    · rw [hroom]; rfl

theorem flushPending_storesFront (n : Nat) (v : Byte) (s : State) :
    StoresFront (List.replicate n v.toNat) s (State.flushPending n v s) := by
  induction n generalizing s with
  | zero => exact StoresFront.refl s
  | succ n ih =>
    have hput := (putFront_storesFront s v).trans (storesFront_regs (s.putFront v) (s.putFront v).rem (s.ext - 1#32))
    exact hput.trans (ih _)

/-- The bytes held back, in the order in which R73 puts them out with a carry of 0 or 1: the buffered one, then the
pending ones. -/
def State.heldBytes (s : State) (carry : Nat) : List Nat :=
  (if s.remIsByte then [(s.rem.toNat + carry) % 256] else []) ++ List.replicate s.ext.toNat ((255 + carry) % 256)

theorem length_heldBytes (s : State) (carry : Nat) : (s.heldBytes carry).length = s.held := by
  unfold State.heldBytes State.held
  split <;> simp [Nat.add_comm]

theorem flushRem_storesFront (s : State) (carry : Word) :
    StoresFront (if s.remIsByte then [(s.rem.toNat + carry.toNat) % 256] else []) s (s.flushRem carry) := by
  unfold State.flushRem
  split
  · have h := putFront_storesFront s ((s.rem + carry).setWidth 8)
    rwa [show ((s.rem + carry).setWidth 8).toNat = (s.rem.toNat + carry.toNat) % 256 by
      rw [BitVec.toNat_setWidth, BitVec.toNat_add]; omega] at h
  · exact StoresFront.refl s

theorem carryFlush_storesFront (s : State) (c : Word) : StoresFront (s.heldBytes (c.toNat / 256)) s (carryFlush s c) := by
  have hc : (c >>> symBits).toNat = c.toNat / 256 := toNat_ushiftRight_div c symBits
  have hv : ((symMax + c >>> symBits).setWidth 8).toNat = (255 + c.toNat / 256) % 256 := by
    rw [BitVec.toNat_setWidth, BitVec.toNat_add, hc]
    show (255 + c.toNat / 256) % 2 ^ 32 % 256 = _
    omega
  have h := (flushRem_storesFront s (c >>> symBits)).trans (flushPending_storesFront s.ext.toNat
    ((symMax + c >>> symBits).setWidth 8) _)
  rw [hv, hc] at h
  exact h

/-- CarryOut of a symbol that is not 0xFF resolves the held bytes, and the symbol's low byte is buffered (R73). -/
theorem carryOut_storesFront (s : State) {c : Word} (h : c ≠ symMax) :
    StoresFront (s.heldBytes (c.toNat / 256)) s (s.carryOut c) := by
  have k := (carryFlush_storesFront s c).trans (storesFront_regs (carryFlush s c) (c &&& symMax) (carryFlush s c).ext)
  rw [List.append_nil] at k
  rw [carryOut_other s h]
  exact k

/-! ### A run of back bytes (R72) -/

/-- `t` comes from `s` by back writes of the bytes `out`, in their order: those that fit are stored from the back cursor
down, the others are dropped and error becomes -1. -/
structure StoresBack (out : List Nat) (s t : State) : Prop where
  frame   : t = { s with endOffs := t.endOffs, buf := t.buf, error := t.error }
  endOffs : t.endOffs.toNat = s.endOffs.toNat + min out.length s.room
  bytes   : ∀ j, j < min out.length s.room →
    some (t.bufByte (s.storage.toNat - s.endOffs.toNat - 1 - j)).toNat = out[j]?
  outside : SameBufOutside (s.storage.toNat - s.endOffs.toNat - min out.length s.room)
    (s.storage.toNat - s.endOffs.toNat) s t
  error   : t.error = if out.length ≤ s.room then s.error else encFault

theorem StoresBack.refl (s : State) : StoresBack [] s s := ⟨rfl, by simp, by simp, fun _ _ => rfl, by simp⟩

theorem StoresBack.room {out : List Nat} {s t : State} (h : StoresBack out s t) : t.room = s.room - out.length := by
  have he := h.endOffs
  have hf : t.storage = s.storage ∧ t.offs = s.offs := by rw [h.frame]; exact ⟨rfl, rfl⟩
  unfold State.room at *
  rw [hf.1, hf.2]
  omega

theorem room_le (s : State) : s.room ≤ s.storage.toNat - s.endOffs.toNat := by unfold State.room; omega

theorem StoresBack.trans {o p : List Nat} {s t u : State} (h : StoresBack o s t) (k : StoresBack p t u) :
    StoresBack (o ++ p) s u := by
  have hle := room_le s
  have he := h.endOffs
  have ke := k.endOffs
  have kb := k.bytes
  have kout := k.outside
  have kerr := k.error
  have hst : t.storage = s.storage := by rw [h.frame]
  rw [h.room] at ke kb kout kerr
  rw [hst] at kb kout
  refine ⟨by rw [k.frame, h.frame], ?_, fun j hj => ?_, fun a ha => ?_, ?_⟩
  · rw [ke, he, List.length_append]; omega
  · rw [List.length_append] at hj
    by_cases hlt : j < o.length
    · rw [kout _ (.inr (by omega)), h.bytes j (by omega), List.getElem?_append_left hlt]
    · have hk := kb (j - o.length) (by omega)
      rw [show s.storage.toNat - t.endOffs.toNat - 1 - (j - o.length) = s.storage.toNat - s.endOffs.toNat - 1 - j by
        omega] at hk
      rw [hk, List.getElem?_append_right (by omega)]
  · rw [List.length_append] at ha
    rw [kout a (by omega), h.outside a (by omega)]
  · rw [kerr, h.error, List.length_append, error_of_both]

theorem putBack_storesBack (s : State) (v : Byte) : StoresBack [v.toNat] s (s.putBack v) := by
  rcases Nat.lt_or_ge (s.offs.toNat + s.endOffs.toNat) s.storage.toNat with h | h
  · have hroom := (room_pos_iff s).mpr h
    have hmin : min [v.toNat].length s.room = 1 := by rw [List.length_singleton]; omega
    have hb : ∀ x, (s.putBack v).bufByte x = if x = s.storage.toNat - (s.endOffs.toNat + 1) then v else s.bufByte x := by
      rw [State.putBack_fits h]; exact fun x => State.bufByte_bufWrite s _ x v
    refine ⟨(putBack_backs s v).frame, ?_, fun j hj => ?_, fun a ha => ?_, ?_⟩
    · rw [hmin, State.putBack_fits h]
      exact toNat_succ (n := s.storage.toNat) (by omega) s.storage.isLt
    · obtain rfl : j = 0 := by omega
      rw [hb, if_pos (by omega)]; rfl
    · rw [hb, if_neg (by omega)]
    · rw [if_pos (by rw [List.length_singleton]; omega), State.putBack_fits h]
  · have hroom := room_of_full h
    rw [State.putBack_full h]
    refine ⟨rfl, by rw [hroom]; rfl, fun j hj => ?_, fun _ _ => rfl, ?_⟩
    · omega
    · rw [hroom]; rfl

/-- The `n` low bytes of a number, least significant first. -/
def lowBytes : Nat → Nat → List Nat
  | 0, _ => []
  | n + 1, x => x % 256 :: lowBytes n (x / 256)

theorem length_lowBytes (n x : Nat) : (lowBytes n x).length = n := by
  induction n generalizing x with
  | zero => rfl
  | succ n ih => rw [lowBytes, List.length_cons, ih]

theorem getElem?_lowBytes {n j : Nat} (h : j < n) (x : Nat) : (lowBytes n x)[j]? = some (x / 2 ^ (8 * j) % 256) := by
  induction n generalizing x j with
  | zero => omega
  | succ n ih =>
    cases j with
    | zero => rw [lowBytes, List.getElem?_cons_zero, Nat.mul_zero, Nat.pow_zero, Nat.div_one]
    | succ j => rw [lowBytes, List.getElem?_cons_succ, ih (by omega), Nat.div_div_eq_div_mul, pow_succ_mul8]

/-- The whole bytes of a window go back (R80, R83). -/
theorem flushWindow_storesBack {n : Nat} {w : Window} (hn : w.count / 8 ≤ n) (s : State) :
    StoresBack (lowBytes (w.count / 8) w.bits.toNat) s (State.flushWindow n w s).2 := by
  induction n generalizing w s with
  | zero =>
    rw [show w.count / 8 = 0 by omega]
    exact StoresBack.refl s
  | succ n ih =>
    unfold State.flushWindow
    split
    · rename_i h8
      have h8 : 8 ≤ w.count := h8
      have hbyte : ((w.bits &&& symMax).setWidth 8).toNat = w.bits.toNat % 256 := by
        rw [BitVec.toNat_setWidth, toNat_and_symMax]; omega
      have h := (putBack_storesBack s ((w.bits &&& symMax).setWidth 8)).trans
        (ih (w := { bits := w.bits >>> symBits, count := w.count - symBits }) (by dsimp only [symBits]; omega) _)
      rw [hbyte, show (w.bits >>> symBits).toNat = w.bits.toNat / 256 from toNat_ushiftRight_div _ _] at h
      rw [show w.count / 8 = (w.count - symBits) / 8 + 1 by dsimp only [symBits]; omega]
      exact h
    · rename_i h8
      have h8 : ¬ 8 ≤ w.count := h8
      rw [show w.count / 8 = 0 by omega]
      exact StoresBack.refl s

end Sys2Proof.Machine

namespace Sys2Proof.Proofs

open Sys2Proof.Machine

theorem remIsByte_iff_toInt (s : State) : s.remIsByte = true ↔ 0 ≤ s.rem.toInt := by
  rw [remIsByte_eq, decide_eq_true_iff, BitVec.toInt_eq_toNat_cond]
  have := s.rem.isLt
  split <;> omega

theorem and_symMax_eq_ofNat (c : Word) : c &&& symMax = BitVec.ofNat 32 (c.toNat % 256) := by
  apply BitVec.eq_of_toNat_eq
  rw [toNat_and_symMax, BitVec.toNat_ofNat]
  omega

/-- Settles O17: 0xFF is counted; any other symbol puts out the held bytes one after the other and is buffered itself. -/
theorem carryOutResolvesPendingBytes : Obligations.CarryOutResolvesPendingBytes := by
  intro s c _
  refine ⟨fun h => ?_, fun h => ?_⟩
  · obtain rfl : c = symMax := BitVec.eq_of_toNat_eq h
    exact carryOut_ff s
  · have hne : c ≠ symMax := by rintro rfl; exact h rfl
    have k := carryOut_storesFront s hne
    have hout : s.heldBytes (c.toNat / 256) =
        (if 0 ≤ s.rem.toInt then [(s.rem.toNat + c.toNat / 256) % 256] else []) ++
          List.replicate s.ext.toNat ((255 + c.toNat / 256) % 256) := by
      unfold State.heldBytes
      simp only [remIsByte_iff_toInt]
    have hrem : (s.carryOut c).rem = BitVec.ofNat 32 (c.toNat % 256) := by
      rw [carryOut_other s hne]; exact and_symMax_eq_ofNat c
    dsimp only
    rw [← hout, ← hrem, ← ext_carryOut_other s hne]
    exact ⟨k.frame, k.offs, k.bytes, k.outside, k.error⟩

end Sys2Proof.Proofs
end

section
/-! PROOFS. The narrowing commands of the encoder (41_encoder.md R70, R74 to R79): O16, O18 to O22. -/

namespace Sys2Proof.Machine

/-! ### CarryOut does not see the interval (R73) -/

/-- `s` with another interval and bit count. -/
def State.withInterval (s : State) (v g n : Word) : State := { s with val := v, rng := g, nbitsTotal := n }

section
variable (s : State) (v g n : Word)

theorem putFront_withInterval (b : Byte) : (s.withInterval v g n).putFront b = (s.putFront b).withInterval v g n := by
  rcases Nat.lt_or_ge (s.offs.toNat + s.endOffs.toNat) s.storage.toNat with h | h
  · rw [State.putFront_fits h, State.putFront_fits (s := s.withInterval v g n) h]; rfl
  · rw [State.putFront_full h, State.putFront_full (s := s.withInterval v g n) h]; rfl

theorem flushPending_withInterval (m : Nat) (b : Byte) :
    State.flushPending m b (s.withInterval v g n) = (State.flushPending m b s).withInterval v g n := by
  induction m generalizing s with
  | zero => rfl
  | succ m ih =>
    rw [State.flushPending, State.flushPending, ← ih, putFront_withInterval]
    rfl

theorem flushRem_withInterval (c : Word) : (s.withInterval v g n).flushRem c = (s.flushRem c).withInterval v g n := by
  unfold State.flushRem
  rw [show (s.withInterval v g n).remIsByte = s.remIsByte from rfl]
  split
  · exact putFront_withInterval s v g n _
  · rfl

theorem carryOut_withInterval (c : Word) : (s.withInterval v g n).carryOut c = (s.carryOut c).withInterval v g n := by
  by_cases h : c = symMax
  · subst h; rw [carryOut_ff, carryOut_ff]; rfl
  · rw [carryOut_other s h, carryOut_other _ h, carryFlush, flushRem_withInterval, flushPending_withInterval]; rfl

theorem carryAll_withInterval (x k : Nat) :
    (s.withInterval v g n).carryAll x k = (s.carryAll x k).withInterval v g n := by
  induction k with
  | zero => rfl
  | succ k ih => rw [State.carryAll, State.carryAll, ih, carryOut_withInterval]

end

theorem carryAll_emits (s : State) (x k : Nat) : Emits s (s.carryAll x k) := by
  induction k with
  | zero => exact Emits.refl s
  | succ k ih => exact ih.trans (carryOut_emits _ _)

/-! ### The passes of EncNormalize, one after the other (R74) -/

theorem shiftedVal_succ_right (v k : Nat) : shiftedVal v (k + 1) = shiftedVal v k * 256 % 2 ^ 31 := by
  unfold shiftedVal
  rw [if_neg (Nat.succ_ne_zero k), pow_succ_mul8]
  split
  · subst k; rfl
  · rw [Nat.mod_mul_mod, Nat.mul_assoc, Nat.mul_comm 256]

/-- k passes carry out the symbols of the k values that val goes through. -/
theorem iterate_encPass (s : State) (k : Nat) :
    (State.encPass^[k] s).val.toNat = shiftedVal s.val.toNat k ∧
    ∃ v g n, State.encPass^[k] s = (s.carryAll s.val.toNat k).withInterval v g n := by
  induction k with
  | zero => exact ⟨rfl, s.val, s.rng, s.nbitsTotal, rfl⟩
  | succ k ih =>
    obtain ⟨hval, v, g, n, hk⟩ := ih
    rw [Function.iterate_succ_apply']
    refine ⟨by rw [toNat_encPass_val, hval, shiftedVal_succ_right], ?_⟩
    have hsym : (State.encPass^[k] s).val >>> codeShift = BitVec.ofNat 32 (shiftedVal s.val.toNat k / 2 ^ 23) := by
      apply BitVec.eq_of_toNat_eq
      have := (State.encPass^[k] s).val.isLt
      rw [toNat_passSymbol, hval, BitVec.toNat_ofNat]
      omega
    have hout : (State.encPass^[k] s).carryOut ((State.encPass^[k] s).val >>> codeShift) =
        (s.carryAll s.val.toNat (k + 1)).withInterval v g n := by
      rw [hsym, hk, carryOut_withInterval, State.carryAll]
    unfold State.encPass at hout ⊢
    exact ⟨_, _, _, by rw [hout]; rfl⟩

theorem encPasses_eq_iterate {n k : Nat} {s : State} (hk : k ≤ n) (h : Passes s.rng.toNat k) :
    State.encPasses n s = State.encPass^[k] s := by
  induction k generalizing n s with
  | zero =>
    have h1 := passes_zero h
    cases n with
    | zero => rfl
    | succ n => rw [State.encPasses, if_neg (by rw [le_codeBot_iff]; omega)]; rfl
  | succ k ih =>
    obtain ⟨h1, h2⟩ := passes_pred h
    obtain ⟨n, rfl⟩ : ∃ m, n = m + 1 := ⟨n - 1, by omega⟩
    have hrng : s.encPass.rng.toNat = s.rng.toNat * 256 := toNat_shl8_of_le h1
    rw [State.encPasses, if_pos ((le_codeBot_iff _).mpr h1), ih (by omega) (by rw [hrng]; exact h2), Function.iterate_succ_apply]

/-- A narrowing normalizes, and leaves what the claims say of one. -/
theorem encNarrowedTo_of_narrows {s u : State} (hr : EncRegsOk s) (hn : Narrows s u) :
    ∃ t, u.encNormalize = .ok t ∧ EncNarrowFrame s t ∧ EncNarrowedTo s t u.val.toNat u.rng.toNat := by
  obtain ⟨t, k, ht, hk, hp, hemit, hrng, hval, htotal⟩ := encNormalize_ok hn.pos (Nat.le_trans hn.rng_le hr.rng.2)
  have he := hn.emits.trans hemit
  have hframe := he.frame
  refine ⟨t, ht, ⟨by rw [← hr.probe]; exact hframe, he.grows, fun a ha => he.bufByte ha⟩, k, hk, hp, ?_⟩
  have hpass : t = State.encPass^[k] u := by
    rw [← encPasses_eq_iterate hk hp]
    unfold State.encNormalize at ht
    split at ht
    · cases ht
    · injection ht with ht; exact ht.symm
  obtain ⟨-, v, g, n, hiter⟩ := iterate_encPass u k
  have hu : u = s.withInterval u.val u.rng s.nbitsTotal := hn.frame
  have hcarry : u.carryAll u.val.toNat k = (s.carryAll u.val.toNat k).withInterval u.val u.rng s.nbitsTotal := by
    rw [← carryAll_withInterval, ← hu]
  have hprobe : (s.carryAll u.val.toNat k).probe = none := by rw [(carryAll_emits _ _ _).frame]; exact hr.probe
  rw [← show t.rng = BitVec.ofNat 32 (u.rng.toNat * 2 ^ (8 * k)) by rw [← hrng, BitVec.ofNat_toNat, BitVec.setWidth_eq],
    ← show t.val = BitVec.ofNat 32 (shiftedVal u.val.toNat k) by rw [← hval, BitVec.ofNat_toNat, BitVec.setWidth_eq],
    ← show t.nbitsTotal = s.nbitsTotal + BitVec.ofNat 32 (8 * k) by rw [htotal, hn.frame], ← hprobe]
  rw [hpass, hiter, hcarry]
  rfl

/-! ### The interval that a narrowing leaves (R75) -/

/-- The low end and the width, in numbers: the narrowing of R75 for a total of `n` parts of width `r`. -/
theorem narrow_parts {s : State} {r fl fh n : Word} (hn : r.toNat * n.toNat ≤ s.rng.toNat) (hl : fl.toNat < fh.toNat)
    (hh : fh.toNat ≤ n.toNat) :
    let u := s.narrow r (fl == 0#32) (n - fl) (n - fh)
    u.val.toNat = (if 0 < fl.toNat then (s.val.toNat + s.rng.toNat - r.toNat * (n.toNat - fl.toNat)) % 2 ^ 32
      else s.val.toNat) ∧
    u.rng.toNat = (if 0 < fl.toNat then r.toNat * (fh.toNat - fl.toNat)
      else s.rng.toNat - r.toNat * (n.toNat - fh.toNat)) := by
  have hg := s.rng.isLt
  have ea : (n - fl).toNat = n.toNat - fl.toNat := BitVec.toNat_sub_of_le (by rw [BitVec.le_def]; omega)
  have el : (n - fh).toNat = n.toNat - fh.toNat := BitVec.toNat_sub_of_le (by rw [BitVec.le_def]; omega)
  have mul_le : ∀ m, m ≤ n.toNat → r.toNat * m ≤ s.rng.toNat := fun m hm => Nat.le_trans (Nat.mul_le_mul_left _ hm) hn
  have em : ∀ x : Word, x.toNat ≤ n.toNat → (r * x).toNat = r.toNat * x.toNat := fun x hx =>
    BitVec.toNat_mul_of_lt (Nat.lt_of_le_of_lt (mul_le _ hx) hg)
  by_cases h0 : fl = 0#32
  · subst h0
    have hle := mul_le (n.toNat - fh.toNat) (Nat.sub_le _ _)
    refine ⟨rfl, ?_⟩
    show (s.rng - r * (n - fh)).toNat = s.rng.toNat - _
    have e := em (n - fh) (by omega)
    rw [el] at e
    rw [BitVec.toNat_sub_of_le (by rw [BitVec.le_def, e]; exact hle), e]
  · have hpos : 0 < fl.toNat := Nat.pos_of_ne_zero fun e => h0 (BitVec.eq_of_toNat_eq e)
    have hle := mul_le (n.toNat - fl.toNat) (Nat.sub_le _ _)
    have ew : (n - fl - (n - fh)).toNat = fh.toNat - fl.toNat := by
      rw [BitVec.toNat_sub_of_le (by rw [BitVec.le_def]; omega), ea, el]; omega
    have e := em (n - fl) (by omega)
    rw [ea] at e
    have hfirst : (fl == 0#32) = false := by simpa using h0
    dsimp only
    rw [if_pos hpos, if_pos hpos, hfirst]
    refine ⟨?_, ?_⟩
    · show (s.val + s.rng - r * (n - fl)).toNat = _
      rw [BitVec.toNat_sub, BitVec.toNat_add, e]
      omega
    · show (r * (n - fl - (n - fh))).toNat = _
      rw [em _ (by omega), ew]

theorem encode_parts {s : State} {fl fh ft : Word} (hc : encodeOk fl fh ft) :
    let u := s.narrow (s.rng / ft) (fl == 0#32) (ft - fl) (ft - fh)
    let r := s.rng.toNat / ft.toNat
    u.val.toNat = (if 0 < fl.toNat then (s.val.toNat + s.rng.toNat - r * (ft.toNat - fl.toNat)) % 2 ^ 32
      else s.val.toNat) ∧
    u.rng.toNat = (if 0 < fl.toNat then r * (fh.toNat - fl.toNat) else s.rng.toNat - r * (ft.toNat - fh.toNat)) := by
  obtain ⟨-, -, hl, hh⟩ := hc
  have h := narrow_parts (s := s) (r := s.rng / ft) (by rw [BitVec.toNat_udiv]; exact Nat.div_mul_le_self _ _) hl hh
  rw [BitVec.toNat_udiv] at h
  exact h

/-! ### Running an encoder command (R53, R54) -/

section
variable {s : State} (hm : s.mode = .enc)
include hm

/-- Two commands that the unit admits have one effect where their rules have. -/
theorem exec_congr {i j : Instr} (ha : admittedIn i .enc = true) (ha' : admittedIn j .enc = true)
    (hc : contractOf i s = none) (hc' : contractOf j s = none) (h : ruleOf i s = ruleOf j s) : exec i s = exec j s := by
  rw [exec_eq_command, exec_eq_command, hc, hc']
  unfold command
  rw [hm, if_pos ha, if_pos ha', h]

variable (hs : s.Inv)
include hs

/-- In ENC the guard of an encoder rule holds, and its PROBE step changes nothing. -/
theorem encoderRule_of_inv (r : State → Except Fault State) : encoderRule r s = r s := by
  obtain ⟨hmem, hr, -⟩ := Proofs.inv_enc hs hm
  have e : { s with probe := none } = s := by rw [← hr.probe]
  rw [encoderRule_of_le hmem.storage, e]

/-- ENCODE under its contract (R75). -/
theorem exec_encode {fl fh ft : Word} (hc : encodeOk fl fh ft) :
    ∃ t, exec (.encode fl fh ft) s = .next t ∧ encodeRule fl fh ft s = .ok t ∧ EncNarrowFrame s t ∧
      let r := s.rng.toNat / ft.toNat
      EncNarrowedTo s t
        (if 0 < fl.toNat then (s.val.toNat + s.rng.toNat - r * (ft.toNat - fl.toNat)) % 2 ^ 32 else s.val.toNat)
        (if 0 < fl.toNat then r * (fh.toNat - fl.toNat) else s.rng.toNat - r * (ft.toNat - fh.toNat)) := by
  obtain ⟨-, hr, -⟩ := Proofs.inv_enc hs hm
  obtain ⟨t, ht, hframe, hto⟩ := encNarrowedTo_of_narrows hr (encode_narrows hr.rng hc)
  obtain ⟨hval, hrng⟩ := encode_parts (s := s) hc
  rw [hval, hrng] at hto
  exact ⟨t, exec_ok (by rw [hm]; rfl) (operands_none.mpr hc) ((encoderRule_of_inv hm hs _).trans ht), ht, hframe, hto⟩

end

/-! ### The other narrowings as an ENCODE (R76 to R79) -/

theorem toNat_ofNat_total {n : Nat} (h : n ≤ 16) : (BitVec.ofNat 32 (2 ^ n)).toNat = 2 ^ n := by
  have hle := two_pow_le_total h
  rw [BitVec.toNat_ofNat]
  exact Nat.mod_eq_of_lt (Nat.lt_of_le_of_lt hle (by decide))

theorem one_shl_eq_total {n : Nat} (h : n ≤ 16) : 1#32 <<< n = BitVec.ofNat 32 (2 ^ n) :=
  BitVec.eq_of_toNat_eq (by rw [toNat_one_shl (by omega), toNat_ofNat_total h])

theorem encodeBinRule_eq_encodeRule {bits : Word} (h : bits.toNat ≤ 16) (fl fh : Word) (s : State) :
    encodeBinRule fl fh bits s = encodeRule fl fh (BitVec.ofNat 32 (2 ^ bits.toNat)) s := by
  have hdiv : s.rng >>> bits.toNat = s.rng / BitVec.ofNat 32 (2 ^ bits.toNat) := by
    apply BitVec.eq_of_toNat_eq
    rw [toNat_ushiftRight_div, BitVec.toNat_udiv, toNat_ofNat_total h]
  rw [encodeBinRule, encodeRule, hdiv, one_shl_eq_total h]

theorem encodeOk_of_encodeBinOk {fl fh bits : Word} (h : encodeBinOk fl fh bits) :
    encodeOk fl fh (BitVec.ofNat 32 (2 ^ bits.toNat)) := by
  obtain ⟨hb, hl, hh⟩ := h
  have hb : bits.toNat ≤ 16 := hb
  have := two_pow_le_total hb
  have := Nat.two_pow_pos bits.toNat
  unfold encodeOk totalMax
  rw [toNat_ofNat_total hb]
  omega

/-- ENCODE_BIN under its contract (R76). -/
theorem exec_encodeBin {s : State} (hm : s.mode = .enc) (hs : s.Inv) {fl fh bits : Word} (hc : encodeBinOk fl fh bits) :
    exec (.encodeBin fl fh bits) s = exec (.encode fl fh (BitVec.ofNat 32 (2 ^ bits.toNat))) s ∧
    ∃ t, exec (.encodeBin fl fh bits) s = .next t ∧ EncNarrowFrame s t ∧
      let r := s.rng.toNat >>> bits.toNat
      EncNarrowedTo s t
        (if 0 < fl.toNat then (s.val.toNat + s.rng.toNat - r * (2 ^ bits.toNat - fl.toNat)) % 2 ^ 32 else s.val.toNat)
        (if 0 < fl.toNat then r * (fh.toNat - fl.toNat) else s.rng.toNat - r * (2 ^ bits.toNat - fh.toNat)) := by
  have hb : bits.toNat ≤ 16 := hc.1
  have hc' := encodeOk_of_encodeBinOk hc
  have heq : exec (.encodeBin fl fh bits) s = exec (.encode fl fh (BitVec.ofNat 32 (2 ^ bits.toNat))) s := by
    refine exec_congr hm rfl rfl (operands_none.mpr hc) (operands_none.mpr hc') ?_
    rw [ruleOf, ruleOf, encoderRule_of_inv hm hs, encoderRule_of_inv hm hs, encodeBinRule_eq_encodeRule hb]
  obtain ⟨t, ht, -, hframe, hto⟩ := exec_encode hm hs hc'
  rw [toNat_ofNat_total hb, ← Nat.shiftRight_eq_div_pow] at hto
  exact ⟨heq, t, heq.trans ht, hframe, hto⟩

end Sys2Proof.Machine

namespace Sys2Proof.Proofs

open Sys2Proof.Machine

theorem refusedAs_badOperand {i : Instr} {s : State} {p : Prop} [Decidable p] (hm : admittedIn i s.mode = true)
    (hc : contractOf i s = operands p) (h : ¬ p) : RefusedAs i s .badOperand :=
  refusedAs_of_contract hm (hc.trans (operands_some h))

/-- Settles O16: ENC_INIT is admitted in every mode, and its rule writes what R70 lists. -/
theorem encInitStartsStream : Obligations.EncInitStartsStream := fun _ _ =>
  ⟨fun h => refusedAs_badOperand rfl rfl (Nat.not_le.mpr h), fun h => exec_ok rfl (operands_none.mpr h) rfl⟩

/-- Settles O18: the symbol's part of the interval is not empty, so the normalizer ends after the passes due. -/
theorem encodeNarrowsInterval : Obligations.EncodeNarrowsInterval := by
  intro s fl fh ft hs hm
  refine ⟨fun h => refusedAs_badOperand (by rw [hm]; rfl) rfl (by unfold encodeOk totalMax; omega), fun h1 h2 h3 h4 => ?_⟩
  obtain ⟨t, ht, -, hframe, hto⟩ := exec_encode hm hs (fl := fl) (fh := fh) (ft := ft) ⟨h1, h2, h3, h4⟩
  exact ⟨t, ht, hframe, hto⟩

/-- Settles O19: a shift by bits divides by 2^bits. -/
theorem encodeBinNarrowsInterval : Obligations.EncodeBinNarrowsInterval := by
  intro s fl fh bits hs hm
  exact ⟨fun h => refusedAs_badOperand (by rw [hm]; rfl) rfl (by unfold encodeBinOk bitsMax; omega),
    fun h1 h2 h3 => exec_encodeBin hm hs ⟨h1, h2, h3⟩⟩

end Sys2Proof.Proofs
end

section
/-! PROOFS. The narrowing commands that equal another command (41_encoder.md R77 to R79): O20 to O22; and the full buffer
(60_exceptions.md R144): O56. -/

namespace Sys2Proof.Machine

/-! ### ENC_BIT_LOGP (R77) -/

theorem toNat_ofNat_of_le_total {m n : Nat} (h : n ≤ 16) (hm : m ≤ 2 ^ n) : (BitVec.ofNat 32 m).toNat = m := by
  have hle := two_pow_le_total h
  rw [BitVec.toNat_ofNat]
  exact Nat.mod_eq_of_lt (Nat.lt_of_le_of_lt (Nat.le_trans hm hle) (by decide))

/-- How many parts of the total 2^n lie above `m`. -/
theorem one_shl_sub_ofNat {m n : Nat} (h : n ≤ 16) (hm : m ≤ 2 ^ n) :
    1#32 <<< n - BitVec.ofNat 32 m = BitVec.ofNat 32 (2 ^ n - m) := by
  have hp := toNat_one_shl (n := n) (by omega)
  have hv := toNat_ofNat_of_le_total h hm
  apply BitVec.eq_of_toNat_eq
  rw [BitVec.toNat_sub_of_le (by rw [BitVec.le_def, hp, hv]; exact hm), hp, hv,
    toNat_ofNat_of_le_total h (Nat.sub_le _ _)]

theorem ofNat_beq_zero {m n : Nat} (h : n ≤ 16) (hm : m ≤ 2 ^ n) : (BitVec.ofNat 32 m == 0#32) = decide (m = 0) := by
  have hv := toNat_ofNat_of_le_total h hm
  rw [Bool.eq_iff_iff, beq_iff_eq, decide_eq_true_iff]
  exact ⟨fun e => by rw [e] at hv; exact hv.symm, fun e => by rw [e]⟩

/-- The narrowing of ENCODE_BIN for the bounds `lo` and `hi`, as numbers. -/
theorem encodeBinRule_ofNat {lo hi : Nat} {bits : Word} (hb : bits.toNat ≤ 16) (hlo : lo ≤ 2 ^ bits.toNat)
    (hhi : hi ≤ 2 ^ bits.toNat) (s : State) :
    encodeBinRule (BitVec.ofNat 32 lo) (BitVec.ofNat 32 hi) bits s =
      (s.narrow (s.rng >>> bits.toNat) (decide (lo = 0)) (BitVec.ofNat 32 (2 ^ bits.toNat - lo))
        (BitVec.ofNat 32 (2 ^ bits.toNat - hi))).encNormalize := by
  rw [encodeBinRule, one_shl_sub_ofNat hb hlo, one_shl_sub_ofNat hb hhi, ofNat_beq_zero hb hlo]

/-- The two bounds of the ENCODE_BIN that R77 names: a 1 is the last of the 2^logp parts, a 0 the others. -/
def bitBounds (bit : Bool) (logp : Nat) : Nat × Nat := if bit then (2 ^ logp - 1, 2 ^ logp) else (0, 2 ^ logp - 1)

theorem encBitLogpRule_eq_encodeBinRule {logp : Word} (hc : logpOk logp) (bit : Bool) (s : State) :
    encBitLogpRule bit logp s =
      encodeBinRule (BitVec.ofNat 32 (bitBounds bit logp.toNat).1) (BitVec.ofNat 32 (bitBounds bit logp.toNat).2) logp s := by
  have h16 : logp.toNat ≤ 16 := hc.2
  have hone : 1 < 2 ^ logp.toNat := Nat.one_lt_two_pow (by have := hc.1; omega)
  have hsub : 2 ^ logp.toNat - (2 ^ logp.toNat - 1) = 1 := by omega
  cases bit with
  | true =>
    rw [bitBounds, if_pos rfl, encodeBinRule_ofNat h16 (Nat.sub_le _ _) (Nat.le_refl _), hsub, Nat.sub_self,
      decide_eq_false (by omega)]
    unfold encBitLogpRule State.narrow
    simp [add_sub_assoc]
  | false =>
    rw [bitBounds, if_neg nofun, encodeBinRule_ofNat h16 (Nat.zero_le _) (Nat.sub_le _ _), hsub]
    unfold encBitLogpRule State.narrow
    simp

theorem encodeBinOk_bitBounds {logp : Word} (hc : logpOk logp) (bit : Bool) :
    encodeBinOk (BitVec.ofNat 32 (bitBounds bit logp.toNat).1) (BitVec.ofNat 32 (bitBounds bit logp.toNat).2) logp ∧
    (BitVec.ofNat 32 (bitBounds bit logp.toNat).1).toNat = (bitBounds bit logp.toNat).1 ∧
    (BitVec.ofNat 32 (bitBounds bit logp.toNat).2).toNat = (bitBounds bit logp.toNat).2 := by
  have h16 : logp.toNat ≤ 16 := hc.2
  have hone : 1 < 2 ^ logp.toNat := Nat.one_lt_two_pow (by have := hc.1; omega)
  have hle : (bitBounds bit logp.toNat).1 < (bitBounds bit logp.toNat).2 ∧ (bitBounds bit logp.toNat).2 ≤ 2 ^ logp.toNat := by
    unfold bitBounds
    split
    · dsimp only; omega
    · dsimp only; omega
  have e1 := toNat_ofNat_of_le_total h16 (Nat.le_of_lt (Nat.lt_of_lt_of_le hle.1 hle.2))
  have e2 := toNat_ofNat_of_le_total h16 hle.2
  exact ⟨⟨h16, by rw [e1, e2]; exact hle.1, by rw [e2]; exact hle.2⟩, e1, e2⟩

/-! ### ENC_ICDF (R78) -/

section
variable {s : State} {sym ftb : Word} {table : TblAddr} {n : Nat} (ht : IcdfTable s table ftb n) (hs : sym.toNat < n)
include ht hs

/-- The interval that R32 gives a symbol: `above` and `left` parts of the total lie above its two bounds. -/
theorem icdf_bounds :
    let left := (s.tblByte (table.toNat + sym.toNat)).toNat
    let above := if sym.toNat = 0 then 2 ^ ftb.toNat else (s.tblByte (table.toNat + (sym.toNat - 1))).toNat
    left < above ∧ above ≤ 2 ^ ftb.toNat ∧ (above = 2 ^ ftb.toNat ↔ sym.toNat = 0) := by
  obtain ⟨-, hf⟩ := tableLength_some ((tableLength_iff s table ftb n).mpr ht)
  obtain ⟨hlt, hfall⟩ := tableFrom_falls hf hs
  dsimp only
  split
  · rename_i h0
    exact ⟨hlt, Nat.le_refl _, fun _ => h0, fun _ => rfl⟩
  · rename_i h0
    have hprev := (tableFrom_falls hf (k := sym.toNat - 1) (by omega)).1
    have hfall := hfall (by omega)
    rw [Nat.add_sub_assoc (by omega)] at hfall
    omega

theorem encIcdfRule_eq_encodeBinRule :
    let left := (s.tblByte (table.toNat + sym.toNat)).toNat
    let above := if sym.toNat = 0 then 2 ^ ftb.toNat else (s.tblByte (table.toNat + (sym.toNat - 1))).toNat
    encIcdfRule sym ftb table s =
      encodeBinRule (BitVec.ofNat 32 (2 ^ ftb.toNat - above)) (BitVec.ofNat 32 (2 ^ ftb.toNat - left)) ftb s := by
  obtain ⟨hlt, hle, hzero⟩ := icdf_bounds ht hs
  have h8 : ftb.toNat ≤ 8 := ht.1
  dsimp only at hlt hle hzero ⊢
  rw [encodeBinRule_ofNat (by omega) (Nat.sub_le _ _) (Nat.sub_le _ _), Nat.sub_sub_self hle,
    Nat.sub_sub_self (by omega), encIcdfRule]
  have hleft : s.icdf table sym.toNat = BitVec.ofNat 32 (s.tblByte (table.toNat + sym.toNat)).toNat := by
    rw [← toNat_icdf, BitVec.ofNat_toNat, BitVec.setWidth_eq]
  by_cases h0 : sym.toNat = 0
  · obtain rfl : sym = 0#32 := BitVec.eq_of_toNat_eq h0
    rw [if_pos h0, Nat.sub_self, hleft]
    rfl
  · have hfirst : (sym == 0#32) = false := by
      rw [beq_eq_false_iff_ne]; rintro rfl; exact h0 rfl
    rw [if_neg h0] at hle hzero ⊢
    have habove : s.icdf table (sym.toNat - 1) = BitVec.ofNat 32 (s.tblByte (table.toNat + (sym.toNat - 1))).toNat := by
      rw [← toNat_icdf, BitVec.ofNat_toNat, BitVec.setWidth_eq]
    rw [decide_eq_false (by omega), hfirst, hleft, habove]

end

/-! ### ENC_UINT (R79) -/

/-- An integer is split where its total is above 256. -/
theorem extraBits_eq_zero_iff {total : Word} (h : 2 ≤ total.toNat) : extraBits total = 0 ↔ total.toNat ≤ 256 := by
  refine ⟨fun hx => ?_, fun hle => ?_⟩
  · have := high_lt h
    rw [hx, Nat.pow_zero, Nat.div_one] at this
    omega
  · by_contra hx
    have := split_total_gt h hx
    omega

theorem ofNat_toNat_eq {x : Word} {n : Nat} (h : x.toNat = n) : BitVec.ofNat 32 n = x := by
  rw [← h, BitVec.ofNat_toNat, BitVec.setWidth_eq]

/-- The parts of a split integer as R79 writes them. -/
theorem uint_parts {value total : Word} (hc : encUintOk value total) :
    value >>> extraBits total = BitVec.ofNat 32 (value.toNat / 2 ^ extraBits total) ∧
    value >>> extraBits total + 1#32 = BitVec.ofNat 32 (value.toNat / 2 ^ extraBits total + 1) ∧
    splitTotal total = BitVec.ofNat 32 ((total.toNat - 1) / 2 ^ extraBits total + 1) ∧
    value &&& (1#32 <<< extraBits total - 1#32) = BitVec.ofNat 32 (value.toNat % 2 ^ extraBits total) := by
  obtain ⟨h2, hv⟩ := hc
  have h2 : 2 ≤ total.toNat := h2
  have hx := extraBits_le total
  have hhigh := high_lt h2
  have hle : value.toNat / 2 ^ extraBits total ≤ (total.toNat - 1) / 2 ^ extraBits total :=
    Nat.div_le_div_right (by omega)
  have e := toNat_ushiftRight_div value (extraBits total)
  refine ⟨(ofNat_toNat_eq e).symm, (ofNat_toNat_eq ?_).symm, (ofNat_toNat_eq (toNat_splitTotal h2)).symm,
    (ofNat_toNat_eq (low_mask value (by omega))).symm⟩
  rw [toNat_succ (n := 256) (by omega) (by decide), e]

theorem encUintRule_unsplit {value total : Word} (h : extraBits total = 0) (s : State) :
    encUintRule value total s = encodeRule value (value + 1#32) total s := if_pos h

theorem encUintRule_split {value total : Word} {s u : State} (h : extraBits total ≠ 0)
    (hu : encodeRule (value >>> extraBits total) (value >>> extraBits total + 1#32) (splitTotal total) s = .ok u) :
    encUintRule value total s =
      encBitsRule (value &&& (1#32 <<< extraBits total - 1#32)) (BitVec.ofNat 32 (extraBits total)) u := by
  rw [splitTotal] at hu
  unfold encUintRule
  rw [if_neg h]
  dsimp only
  rw [hu]

theorem encBitsRule_completes {s : State} (h : s.nendBits.toNat ≤ 32) (value nbits : Word) :
    ∃ t, encBitsRule value nbits s = .ok t := by
  unfold encBitsRule
  rw [bitCount_of_le h]
  exact ⟨_, rfl⟩

/-! ### A full buffer (R144) -/

/-- BUF and both cursors are left. -/
def LeavesBuffer (s t : State) : Prop := t.buf = s.buf ∧ t.offs = s.offs ∧ t.endOffs = s.endOffs

section
variable {s t : State} (h : s.storage.toNat ≤ s.offs.toNat + s.endOffs.toNat)
include h

theorem Emits.leavesBuffer (he : Emits s t) : LeavesBuffer s t :=
  ⟨(he.full h).2, (he.full h).1, he.endOffs⟩

theorem encBitsRule_leavesBuffer {value nbits : Word} (ht : encBitsRule value nbits s = .ok t) : LeavesBuffer s t := by
  have hb := makeRoom_backs s.nendBits.toNat nbits.toNat s
  rw [encBitsRule_ok ht]
  exact ⟨(hb.full h).2, hb.offs, (hb.full h).1⟩

theorem encUintRule_leavesBuffer {value total : Word} (ht : encUintRule value total s = .ok t) : LeavesBuffer s t := by
  rcases encUintRule_ok ht with ⟨-, ht⟩ | ⟨-, u, hu, ht⟩
  · exact (encodeRule_emits ht).leavesBuffer h
  · have he := encodeRule_emits hu
    obtain ⟨ub, uo, ue⟩ := he.leavesBuffer h
    obtain ⟨tb, tf, te⟩ := encBitsRule_leavesBuffer (by rw [he.storage, uo, ue]; exact h) ht
    exact ⟨tb.trans ub, tf.trans uo, te.trans ue⟩

end

end Sys2Proof.Machine

namespace Sys2Proof.Proofs

open Sys2Proof.Machine

theorem exec_encBitLogp {s : State} (hm : s.mode = .enc) (hs : s.Inv) {logp : Word} (hc : logpOk logp) (bit : Word) :
    exec (.encBitLogp bit logp) s =
      exec (.encodeBin (BitVec.ofNat 32 (bitBounds (bitOperand bit) logp.toNat).1)
        (BitVec.ofNat 32 (bitBounds (bitOperand bit) logp.toNat).2) logp) s := by
  refine exec_congr hm rfl rfl (operands_none.mpr hc) (operands_none.mpr (encodeBinOk_bitBounds hc _).1) ?_
  rw [ruleOf, ruleOf, encoderRule_of_inv hm hs, encoderRule_of_inv hm hs, encBitLogpRule_eq_encodeBinRule hc]

/-- Settles O20: a 1 is the last of 2^logp parts, a 0 the others. -/
theorem encBitLogpSplitsInterval : Obligations.EncBitLogpSplitsInterval := by
  intro s bit logp hs hm
  refine ⟨fun h => refusedAs_badOperand (by rw [hm]; rfl) rfl (by unfold logpOk logpMax; omega), fun h1 h16 => ?_⟩
  have hc : logpOk logp := ⟨h1, h16⟩
  have hone : 1 < 2 ^ logp.toNat := Nat.one_lt_two_pow (by omega)
  have hrng : s.rng.toNat >>> logp.toNat ≤ s.rng.toNat := Nat.shiftRight_le _ _
  have heq := exec_encBitLogp hm hs hc bit
  obtain ⟨hok, elo, ehi⟩ := encodeBinOk_bitBounds hc (bitOperand bit)
  obtain ⟨-, t, ht, hframe, hto⟩ := exec_encodeBin hm hs hok
  rw [elo, ehi] at hto
  by_cases hb : bit = 0#32
  · have hbit : bitBounds (bitOperand bit) logp.toNat = (0, 2 ^ logp.toNat - 1) := by subst hb; rfl
    rw [hbit] at heq ht hto
    dsimp only at hto
    rw [Nat.sub_sub_self (by omega), Nat.mul_one] at hto
    exact ⟨fun hne => absurd hb hne, fun _ => heq, t, heq.trans ht, hframe, by
      dsimp only
      rw [if_neg (show ¬ bit ≠ 0#32 from not_not.mpr hb), if_neg (show ¬ bit ≠ 0#32 from not_not.mpr hb)]
      exact hto⟩
  · have hbit : bitBounds (bitOperand bit) logp.toNat = (2 ^ logp.toNat - 1, 2 ^ logp.toNat) := by
      unfold bitBounds
      rw [(bitOperand_eq_true_iff bit).mpr hb, if_pos rfl]
    rw [hbit] at heq ht hto
    dsimp only at hto
    rw [if_pos (by omega), if_pos (by omega), Nat.sub_sub_self (by omega), Nat.mul_one, Nat.add_sub_assoc hrng] at hto
    exact ⟨fun _ => heq, fun h0 => absurd h0 hb, t, heq.trans ht, hframe, by
      dsimp only
      rw [if_pos (show bit ≠ 0#32 from hb), if_pos (show bit ≠ 0#32 from hb)]
      exact hto⟩

/-- Settles O21: the table's entries count the parts above the symbol's two bounds. -/
theorem encIcdfNarrowsByTable : Obligations.EncIcdfNarrowsByTable := by
  intro s sym ftb table hs hm
  have hadm : admittedIn (.encIcdf sym ftb table) s.mode = true := by rw [hm]; rfl
  have hcontract : ∀ n, IcdfTable s table ftb n → contractOf (.encIcdf sym ftb table) s = operands (sym.toNat < n) :=
    fun n ht => by rw [contractOf, encIcdfContract, (tableLength_iff s table ftb n).mpr ht]
  refine ⟨fun hno => ?_, fun n ht hn => ?_, fun n ht hn => ?_⟩
  · have hnone : s.tableLength table ftb = none :=
      Option.eq_none_iff_forall_ne_some.mpr fun n hn => hno n ((tableLength_iff s table ftb n).mp hn)
    exact refusedAs_of_contract hadm (encIcdfContract_of_tableLength_none hnone sym)
  · exact refusedAs_badOperand hadm (hcontract n ht) (Nat.not_lt.mpr hn)
  · obtain ⟨hlt, hle, hzero⟩ := icdf_bounds ht hn
    have hrule := encIcdfRule_eq_encodeBinRule ht hn
    have h16 : ftb.toNat ≤ 16 := Nat.le_trans ht.1 (by decide)
    dsimp only at hlt hle hzero hrule ⊢
    generalize (if sym.toNat = 0 then 2 ^ ftb.toNat else (s.tblByte (table.toNat + (sym.toNat - 1))).toNat) = above at *
    generalize (s.tblByte (table.toNat + sym.toNat)).toNat = left at *
    have elo := toNat_ofNat_of_le_total h16 (Nat.sub_le (2 ^ ftb.toNat) above)
    have ehi := toNat_ofNat_of_le_total h16 (Nat.sub_le (2 ^ ftb.toNat) left)
    have hok : encodeBinOk (BitVec.ofNat 32 (2 ^ ftb.toNat - above)) (BitVec.ofNat 32 (2 ^ ftb.toNat - left)) ftb :=
      ⟨h16, by rw [elo, ehi]; omega, by rw [ehi]; exact Nat.sub_le _ _⟩
    have heq : exec (.encIcdf sym ftb table) s =
        exec (.encodeBin (BitVec.ofNat 32 (2 ^ ftb.toNat - above)) (BitVec.ofNat 32 (2 ^ ftb.toNat - left)) ftb) s := by
      refine exec_congr hm rfl rfl ((hcontract n ht).trans (operands_none.mpr hn)) (operands_none.mpr hok) ?_
      rw [ruleOf, ruleOf, encoderRule_of_inv hm hs, encoderRule_of_inv hm hs, hrule]
    obtain ⟨-, t, hexec, hframe, hto⟩ := exec_encodeBin hm hs hok
    rw [elo, ehi, Nat.sub_sub_self hle, Nat.sub_sub_self (by omega),
      show 2 ^ ftb.toNat - left - (2 ^ ftb.toNat - above) = above - left by omega] at hto
    have hpos : 0 < 2 ^ ftb.toNat - above ↔ 0 < sym.toNat := by omega
    simp only [hpos] at hto
    exact ⟨heq, t, heq.trans hexec, hframe, hto⟩

theorem refusal_of_encNarrowFrame {s t : State} (h : EncNarrowFrame s t) : t.refusal = s.refusal := by rw [h.1]

/-- Settles O22: an integer with a total above 256 is split, and the state between its two parts is one that the unit
admits ENC_BITS in. -/
theorem encUintIsEncodeThenBits : Obligations.EncUintIsEncodeThenBits := by
  intro s value total hs hm
  have hadm : admittedIn (.encUint value total) s.mode = true := by rw [hm]; rfl
  refine ⟨fun h => refusedAs_badOperand hadm rfl (by unfold encUintOk uintTotalOk; omega), fun h2 hv h256 => ?_,
    fun h256 hv => ?_⟩
  · have hc : encUintOk value total := ⟨h2, hv⟩
    have hx := (extraBits_eq_zero_iff h2).mpr h256
    have hok := encodeOk_high hc
    rw [splitTotal_of_unsplit hx, hx, BitVec.ushiftRight_zero] at hok
    obtain ⟨t, ht, -, hframe, -⟩ := exec_encode hm hs hok
    have heq : exec (.encUint value total) s = exec (.encode value (value + 1#32) total) s := by
      refine exec_congr hm rfl rfl (operands_none.mpr hc) (operands_none.mpr hok) ?_
      rw [ruleOf, ruleOf, encoderRule_of_inv hm hs, encoderRule_of_inv hm hs, encUintRule_unsplit hx]
    exact ⟨t, heq.trans ht, refusal_of_encNarrowFrame hframe, ht⟩
  · have h2 : 2 ≤ total.toNat := by omega
    have hc : encUintOk value total := ⟨h2, hv⟩
    have hx : extraBits total ≠ 0 := fun h0 => by have := (extraBits_eq_zero_iff h2).mp h0; omega
    obtain ⟨u, hu, hurule, hframe, -⟩ := exec_encode hm hs (encodeOk_high hc)
    have hsu := exec_keeps_inv hs hu
    have hmu : u.mode = .enc := by rw [hframe.1]; exact hm
    obtain ⟨-, hru, -⟩ := inv_enc hsu hmu
    obtain ⟨t, ht⟩ := encBitsRule_completes hru.nendBits
      (value &&& (1#32 <<< extraBits total - 1#32)) (BitVec.ofNat 32 (extraBits total))
    obtain ⟨ehi, ehi', etot, elo⟩ := uint_parts hc
    have href := refusal_of_encNarrowFrame hframe
    refine ⟨u, t, exec_ok hadm (operands_none.mpr hc) ?_, href, (encBitsRule_writes ht).refusal.trans href, ?_, ?_⟩
    · exact (encoderRule_of_inv hm hs _).trans ((encUintRule_split hx hurule).trans ht)
    · rw [ehi', ehi, etot] at hu
      exact hu
    · rw [elo] at ht
      exact exec_ok (by rw [hmu]; rfl) (operands_none.mpr (rawOk_extraBits hx))
        ((encoderRule_of_inv hmu hsu _).trans ht)

/-- Settles O56: a front or a back writer finds no room, in each of the commands. -/
theorem fullBufferIsNotWritten : Obligations.FullBufferIsNotWritten := by
  intro i s t hfull h hi
  rcases exec_next h with ⟨x, rfl⟩ | ⟨-, -, h⟩
  · exact ⟨rfl, rfl, rfl⟩
  let u : State := { s with probe := none }
  have hfull : u.storage.toNat ≤ u.offs.toNat + u.endOffs.toNat := hfull
  show LeavesBuffer u t
  cases i with
  | encode => exact (encodeRule_emits (encoderRule_ok h).2).leavesBuffer hfull
  | encodeBin => exact (encodeBinRule_emits (encoderRule_ok h).2).leavesBuffer hfull
  | encBitLogp => exact (encBitLogpRule_emits (encoderRule_ok h).2).leavesBuffer hfull
  | encIcdf => exact (encIcdfRule_emits (encoderRule_ok h).2).leavesBuffer hfull
  | encUint => exact encUintRule_leavesBuffer hfull (encoderRule_ok h).2
  | encBits => exact encBitsRule_leavesBuffer hfull (encoderRule_ok h).2
  | encInit | encPatch | encShrink | encDone | decInit | decode | decodeBin | decUpdate | decBitLogp | decIcdf | decUint
  | decBits | tell | tellFrac | release => exact hi.elim

end Sys2Proof.Proofs
end

section
/-! PROOFS. Raw bits, patch and shrink (41_encoder.md R80 to R82): O23 to O25. -/

namespace Sys2Proof.Machine

/-! ### The room that ENC_BITS makes (R80) -/

theorem flushBytes_eq (used n : Nat) : flushBytes used n = if used + n ≤ 32 then 0 else used / 8 := by
  unfold flushBytes windowSize
  split
  · rw [if_neg (by omega)]
  · rw [if_pos (by omega)]

/-- The room made, whether the bytes flushed fit or not. -/
theorem makeRoom_storesBack (used n : Nat) (s : State) :
    StoresBack (lowBytes (flushBytes used n) s.endWindow.toNat) s (makeRoom used n s).2 ∧
    (makeRoom used n s).1.count = used - 8 * flushBytes used n ∧
    (makeRoom used n s).1.bits.toNat = s.endWindow.toNat / 2 ^ (8 * flushBytes used n) := by
  unfold makeRoom flushBytes
  split
  · have hn : (s.window used).count / 8 ≤ used := Nat.div_le_self _ _
    obtain ⟨hcount, hbits⟩ := flushWindow_window hn s
    refine ⟨flushWindow_storesBack hn s, ?_, hbits⟩
    rw [hcount]
    show used % 8 = _
    omega
  · exact ⟨StoresBack.refl s, rfl, by simp [State.window]⟩

/-! ### A field of a word replaced (R81) -/

/-- The `n` bits of `x` from bit `k` up, replaced by those of `v`. -/
theorem toNat_replaceBits (x : Word) {v : Word} {n k : Nat} (hv : v.toNat < 2 ^ n) (hn : n ≤ 31) (hk : n + k ≤ 32) :
    ((x &&& ~~~((1#32 <<< n - 1#32) <<< k)) ||| (v <<< k)).toNat =
      x.toNat / 2 ^ (n + k) * 2 ^ (n + k) + v.toNat * 2 ^ k + x.toNat % 2 ^ k := by
  have hform : x.toNat / 2 ^ (n + k) * 2 ^ (n + k) + v.toNat * 2 ^ k + x.toNat % 2 ^ k =
      2 ^ k * (2 ^ n * (x.toNat / 2 ^ (n + k)) + v.toNat) + x.toNat % 2 ^ k := by
    rw [Nat.pow_add]; ring
  have hmask : (1#32 <<< n - 1#32).toNat = 2 ^ n - 1 := by
    have hp := toNat_one_shl hn
    have := Nat.two_pow_pos n
    rw [toNat_pred (by omega), hp]
  have hv' : ∀ j, n ≤ j → v.getLsbD j = false := fun j hj => by
    rw [← BitVec.testBit_toNat]
    exact Nat.testBit_lt_two_pow (Nat.lt_of_lt_of_le hv (Nat.pow_le_pow_right (by decide) hj))
  rw [hform]
  apply Nat.eq_of_testBit_eq
  intro i
  rw [Nat.testBit_two_pow_mul_add _ (Nat.mod_lt _ (Nat.two_pow_pos k)), Nat.testBit_two_pow_mul_add _ hv,
    Nat.testBit_mod_two_pow, Nat.testBit_div_two_pow, BitVec.testBit_toNat, BitVec.getLsbD_or, BitVec.getLsbD_and,
    BitVec.getLsbD_not, BitVec.getLsbD_shiftLeft, BitVec.getLsbD_shiftLeft,
    ← BitVec.testBit_toNat (1#32 <<< n - 1#32), hmask, Nat.testBit_two_pow_sub_one, BitVec.testBit_toNat,
    BitVec.testBit_toNat, BitVec.testBit_toNat]
  by_cases hlow : i < k
  · have h32 : i < 32 := by omega
    simp [hlow, h32]
  · by_cases hfield : i - k < n
    · have h32 : i < 32 := by omega
      simp [hlow, hfield, h32]
    · have e : i - k - n + (n + k) = i := by omega
      rw [if_neg hlow, if_neg hfield, e, hv' (i - k) (by omega)]
      by_cases h32 : i < 32
      · simp [hlow, hfield, h32]
      · simp [h32, BitVec.getLsbD_of_ge x i (by omega)]

section
variable {value : Word} {n : Nat} (hn : n ≤ 8) (hv : value.toNat < 2 ^ n)
include hn hv

/-- The first bits of a byte, patched. -/
theorem toNat_patched {old : Word} (ho : old.toNat ≤ 255) :
    (patched old value n).toNat = value.toNat * 2 ^ (8 - n) + old.toNat % 2 ^ (8 - n) := by
  have h := toNat_replaceBits old (k := symBits - n) hv (by omega) (by unfold symBits; omega)
  rw [show n + (symBits - n) = 8 by unfold symBits; omega, Nat.div_eq_of_lt (by omega), Nat.zero_mul, Nat.zero_add] at h
  exact h

/-- The bits of val below bit 31, patched. -/
theorem toNat_patchedVal (x : Word) :
    ((x &&& ~~~(patchMask n <<< codeShift)) ||| (value <<< (codeShift + (symBits - n)))).toNat =
      x.toNat / 2 ^ 31 * 2 ^ 31 + value.toNat * 2 ^ (31 - n) + x.toNat % 2 ^ (31 - n) := by
  have hk : symBits - n + codeShift = 31 - n ∧ codeShift + (symBits - n) = 31 - n := by
    unfold symBits codeShift; omega
  rw [patchMask, ← BitVec.shiftLeft_add, hk.1, hk.2, toNat_replaceBits x hv (by omega) (by omega),
    show n + (31 - n) = 31 by omega]

end

/-! ### The four cases of R81 -/

section
variable {s : State} {value nbits : Word}

theorem encPatchRule_buf (h : 0 < s.offs.toNat) :
    encPatchRule value nbits s =
      .ok (s.bufWrite 0 ((patched ((s.bufByte 0).setWidth 32) value nbits.toNat).setWidth 8)) := if_pos h

variable (h0 : s.offs.toNat = 0)
include h0

theorem encPatchRule_rem (hb : s.remIsByte = true) :
    encPatchRule value nbits s = .ok { s with rem := patched s.rem value nbits.toNat } := by
  unfold encPatchRule
  dsimp only
  rw [if_neg (by rw [BitVec.lt_def, h0]; exact Nat.lt_irrefl 0), if_pos hb]

variable (hb : s.remIsByte = false) (hn : nbits.toNat ≤ 31)
include hb hn

theorem encPatchRule_val (hg : s.rng.toNat ≤ 2 ^ (31 - nbits.toNat)) :
    encPatchRule value nbits s = .ok { s with
      val := (s.val &&& ~~~(patchMask nbits.toNat <<< codeShift)) |||
        (value <<< (codeShift + (symBits - nbits.toNat))) } := by
  unfold encPatchRule
  dsimp only
  rw [if_neg (by rw [BitVec.lt_def, h0]; exact Nat.lt_irrefl 0), if_neg (by rw [hb]; nofun),
    if_pos ((le_settled_iff _ hn).mpr hg)]

theorem encPatchRule_early (hg : 2 ^ (31 - nbits.toNat) < s.rng.toNat) :
    encPatchRule value nbits s = .ok (s.forceError encFault) := by
  unfold encPatchRule
  dsimp only
  rw [if_neg (by rw [BitVec.lt_def, h0]; exact Nat.lt_irrefl 0), if_neg (by rw [hb]; nofun),
    if_neg fun h => Nat.not_le.mpr hg ((le_settled_iff _ hn).mp h)]

end

end Sys2Proof.Machine

namespace Sys2Proof.Proofs

open Sys2Proof.Machine

/-- An encoder command whose contract holds and whose rule answers runs in ENC. -/
theorem exec_encoder {i : Instr} {r : State → Except Fault State} {s t : State} (hm : s.mode = .enc) (hs : s.Inv)
    (hi : ruleOf i = encoderRule r) (ha : admittedIn i .enc = true) (hc : contractOf i s = none) (h : r s = .ok t) :
    exec i s = .next t :=
  exec_ok (by rw [hm]; exact ha) hc (by rw [hi]; exact (encoderRule_of_inv hm hs r).trans h)

/-- Settles O23: the whole bytes that do not fit the window go to the back first, and the field goes above what is
left. -/
theorem encBitsAppendsField : Obligations.EncBitsAppendsField := by
  intro s value nbits hs hm
  refine ⟨fun h => refusedAs_badOperand (by rw [hm]; rfl) rfl (by unfold rawOk rawMax; omega), fun h1 h25 => ?_⟩
  obtain ⟨-, hr, -⟩ := inv_enc hs hm
  have hc : rawOk nbits := ⟨h1, h25⟩
  obtain ⟨t, ht⟩ := encBitsRule_completes hr.nendBits value nbits
  refine ⟨t, exec_encoder hm hs rfl rfl (operands_none.mpr hc) ht, ?_⟩
  obtain ⟨hstore, hcount, hbits⟩ := makeRoom_storesBack s.nendBits.toNat nbits.toNat s
  have hroom := makeRoom_count (used := s.nendBits.toNat) hc.2 s
  have ht := encBitsRule_ok ht
  dsimp only at ht ⊢
  rw [← flushBytes_eq]
  generalize makeRoom s.nendBits.toNat nbits.toNat s = f at *
  generalize flushBytes s.nendBits.toNat nbits.toNat = m at *
  have hbytes := hstore.bytes
  have hframe := hstore.frame
  have hend := hstore.endOffs
  have hout := hstore.outside
  have herr := hstore.error
  rw [length_lowBytes] at hbytes hend hout herr
  have hbuf : t.buf = f.2.buf ∧ t.resets = f.2.resets := by rw [ht]; exact ⟨rfl, rfl⟩
  have hb : ∀ a, t.bufByte a = f.2.bufByte a := fun a => bufByte_of_read? (by rw [hbuf.1]) hbuf.2
  refine ⟨?_, ?_, ?_, ?_, fun j hj => ?_, fun a ha => ?_⟩
  · show t = { s with
      endWindow := t.endWindow, nendBits := t.nendBits, nbitsTotal := s.nbitsTotal + nbits, endOffs := t.endOffs
      buf := t.buf, error := if m ≤ s.room then s.error else encFault, probe := none }
    rw [← herr, ← hr.probe, ht, hframe]
  · rw [ht]
    show (f.1.bits ||| (value <<< f.1.count)).toNat = _
    rw [BitVec.toNat_or, BitVec.toNat_shiftLeft, Nat.shiftLeft_eq, hbits, hcount]
  · rw [ht]
    show (BitVec.ofNat 32 (f.1.count + nbits.toNat)).toNat = _
    rw [BitVec.toNat_ofNat, ← hcount]
    omega
  · rw [ht]
    exact hend
  · have hj' := hbytes j hj
    rw [getElem?_lowBytes (Nat.lt_of_lt_of_le hj (Nat.min_le_left _ _))] at hj'
    rw [hb]
    exact Option.some_inj.mp hj'
  · rw [hb]
    exact hout a ha

/-- Settles O24: the first byte is looked for in BUF, in rem and in val, in this order. -/
theorem encPatchReplacesFirstBits : Obligations.EncPatchReplacesFirstBits := by
  intro s value nbits hs hm
  refine ⟨fun h => refusedAs_badOperand (by rw [hm]; rfl) rfl (by unfold patchOk patchMax; omega), fun h1 h8 hv => ?_⟩
  obtain ⟨-, hr, -⟩ := inv_enc hs hm
  have hc : patchOk value nbits := ⟨⟨h1, h8⟩, hv⟩
  have hrun : ∀ {t}, encPatchRule value nbits s = .ok t → exec (.encPatch value nbits) s = .next t :=
    fun h => exec_encoder hm hs rfl rfl (operands_none.mpr hc) h
  have hneg : s.rem.toInt < 0 → s.remIsByte = false := fun h => by
    rw [Bool.eq_false_iff, ne_eq, remIsByte_iff_toInt]; omega
  dsimp only
  refine ⟨fun h0 => ⟨_, hrun (encPatchRule_buf h0), ?_, ?_, fun a ha => ?_⟩, fun h0 hrem => ?_, fun h0 hrem hg => ?_,
    fun h0 hrem hg => ?_⟩
  · rw [← hr.probe]
    rfl
  · have hbyte := (s.bufByte 0).isLt
    have e : ((s.bufByte 0).setWidth 32).toNat = (s.bufByte 0).toNat := by rw [BitVec.toNat_setWidth]; omega
    have hp := toNat_patched h8 hv (old := (s.bufByte 0).setWidth 32) (by omega)
    have hle := patched_le (old := (s.bufByte 0).setWidth 32) (by omega) h8 hv
    rw [e] at hp
    rw [bufByte_write_self, BitVec.toNat_setWidth, Nat.mod_eq_of_lt (by omega), hp]
  · exact bufByte_write_other s _ (by omega)
  · have hb := (remIsByte_iff_toInt s).mpr hrem
    rw [hrun (encPatchRule_rem h0 hb), ← ofNat_toNat_eq (toNat_patched h8 hv (rem_of_byte hr.rem hb)), ← hr.probe]
  · rw [hrun (encPatchRule_val h0 (hneg hrem) (by omega) hg), ← ofNat_toNat_eq (toNat_patchedVal h8 hv s.val), ← hr.probe]
  · rw [hrun (encPatchRule_early h0 (hneg hrem) (by omega) hg), ← hr.probe]
    rfl

/-- Settles O25: all the back bytes are read before one is written, so the two places may overlap. -/
theorem encShrinkMovesTail : Obligations.EncShrinkMovesTail := by
  intro s size hs hm
  refine ⟨fun h => refusedAs_badOperand (by rw [hm]; rfl) rfl (by unfold shrinkOk; omega), fun hlo hhi => ?_⟩
  obtain ⟨-, hr, -⟩ := inv_enc hs hm
  have hb := bufByte_bufWriteAll s.tail s (size.toNat - s.endOffs.toNat)
  rw [tail_length] at hb
  refine ⟨_, exec_encoder hm hs rfl rfl (operands_none.mpr ⟨hlo, hhi⟩) rfl, ?_, fun i hi => ?_, fun a ha => ?_⟩
  · rw [bufWriteAll_frame, ← hr.probe]
  · refine (hb _).trans ?_
    rw [if_pos (by omega), Nat.add_sub_cancel_left]
    simp [State.tail, hi]
  · exact (hb a).trans (if_neg (by omega))

end Sys2Proof.Proofs
end

section
/-! PROOFS. The carry and the exact interval (41_encoder.md R74, R75, R84 to R86): O29, O32. -/

namespace Sys2Proof.Machine

/-! ### No carry is lost (R84, R85) -/

theorem carrySafe_encPasses {n : Nat} {s : State} (h0 : 0 < s.rng.toNat) (hc : s.carrySafe) :
    (State.encPasses n s).carrySafe := by
  induction n generalizing s with
  | zero => exact hc
  | succ n ih =>
    unfold State.encPasses
    split
    · rename_i hle
      have hrng : s.encPass.rng.toNat = s.rng.toNat * 256 := toNat_shl8_of_le hle
      exact ih (by omega) (carrySafe_encPass h0 hle hc)
    · exact hc

/-- A part of the interval ends no higher than the interval. -/
theorem Narrows.carrySafe {s u : State} (hn : Narrows s u) (hc : s.carrySafe) : u.carrySafe := by
  obtain ⟨hsum, hcarry⟩ := hc
  obtain ⟨d, hval, hle⟩ := hn.part
  have hrem : u.rem = s.rem := by rw [hn.frame]
  have hpos := hn.pos
  unfold State.valRngOk at hsum
  rw [Nat.mod_eq_of_lt (by omega)] at hval
  refine ⟨hn.valRngOk hsum, ?_⟩
  rw [hrem]
  omega

theorem narrows_carrySafe {s u t : State} (hn : Narrows s u) (h : u.encNormalize = .ok t) (hc : s.carrySafe) :
    t.carrySafe := by
  unfold State.encNormalize at h
  split at h
  · cases h
  · injection h with h
    subst h
    exact carrySafe_encPasses hn.pos (hn.carrySafe hc)

/-- `carrySafe` is about val, rng and rem alone. -/
theorem carrySafe_congr {s t : State} (hv : t.val = s.val) (hg : t.rng = s.rng) (hr : t.rem = s.rem) (hc : s.carrySafe) :
    t.carrySafe := by
  unfold State.carrySafe State.valRngOk at *
  rwa [hv, hg, hr]

theorem encBitsRule_carrySafe {s t : State} {value nbits : Word} (h : encBitsRule value nbits s = .ok t)
    (hc : s.carrySafe) : t.carrySafe := by
  have hb := (makeRoom_backs s.nendBits.toNat nbits.toNat s).frame
  refine carrySafe_congr ?_ ?_ ?_ hc
  all_goals rw [encBitsRule_ok h, hb]

theorem encUintRule_carrySafe {s t : State} (hr : s.rngOk) {value total : Word} (hok : encUintOk value total)
    (h : encUintRule value total s = .ok t) (hc : s.carrySafe) : t.carrySafe := by
  have he := encodeOk_high hok
  rcases encUintRule_ok h with ⟨hx, h⟩ | ⟨-, u, hu, h⟩
  · rw [splitTotal_of_unsplit hx, hx, BitVec.ushiftRight_zero] at he
    exact narrows_carrySafe (encode_narrows hr he) h hc
  · exact encBitsRule_carrySafe h (narrows_carrySafe (encode_narrows hr he) hu hc)

theorem encShrinkRule_carrySafe {s t : State} {size : Word} (h : encShrinkRule size s = .ok t) (hc : s.carrySafe) :
    t.carrySafe := by
  refine carrySafe_congr ?_ ?_ ?_ hc
  all_goals rw [encShrinkRule_ok h, bufWriteAll_frame]

/-! ### A narrowing measured exactly (R75, R86) -/

/-- The low end of a narrowed interval, where val does not wrap. -/
theorem Narrows.lowEnd {s u : State} (hn : Narrows s u) {d : Nat} (hval : u.val.toNat = s.val.toNat + d) :
    u.lowEnd = s.lowEnd + d := by
  have hout : u.outNumber = s.outNumber := by rw [hn.frame]; exact outNumber_interval s u.val u.rng s.nbitsTotal
  unfold State.lowEnd
  rw [hout, hval, Nat.add_assoc]

theorem encNormalize_lowEnd {s t : State} (h0 : 0 < s.rng.toNat) (hr : s.rem = 0xFFFFFFFF#32 ∨ s.rem.toNat ≤ 255)
    (hc : s.carrySafe) (hx : s.ext.toNat < 2 ^ 32 - 3) (h : s.encNormalize = .ok t) (ht : t.error = 0#32) :
    ∃ k, k ≤ 3 ∧ t.lowEnd = s.lowEnd * 256 ^ k ∧ t.rng.toNat = s.rng.toNat * 256 ^ k := by
  unfold State.encNormalize at h
  split at h
  · cases h
  · injection h with h
    subst h
    obtain ⟨k, hk, hlow, hrng, -⟩ := lowEnd_encPasses h0 hr hc (by omega) ht
    exact ⟨k, hk, hlow, hrng⟩

/-- Where no carry can be lost, the low end of ENCODE's interval goes up by the parts below the symbol. -/
theorem encode_low {s : State} (hc : s.carrySafe) {fl fh ft : Word} (hok : encodeOk fl fh ft) :
    (s.narrow (s.rng / ft) (fl == 0#32) (ft - fl) (ft - fh)).val.toNat =
      s.val.toNat + if 0 < fl.toNat then s.rng.toNat - s.rng.toNat / ft.toNat * (ft.toNat - fl.toNat) else 0 := by
  obtain ⟨hval, -⟩ := encode_parts (s := s) hok
  have hsum : s.val.toNat + s.rng.toNat < 2 ^ 32 := hc.1
  have hle : s.rng.toNat / ft.toNat * (ft.toNat - fl.toNat) ≤ s.rng.toNat :=
    Nat.le_trans (Nat.mul_le_mul_left _ (Nat.sub_le _ _)) (Nat.div_mul_le_self _ _)
  rw [hval]
  split
  · rw [Nat.mod_eq_of_lt (by omega), Nat.add_sub_assoc hle]
  · rfl

end Sys2Proof.Machine

namespace Sys2Proof.Proofs

open Sys2Proof.Machine

theorem ruleOf_carrySafe {i : Instr} {s t : State} (hi : narrowsOrAppends i = true) (hr : EncRegsOk s)
    (hc : contractOf i s = none) (h : ruleOf i s = .ok t) (hsafe : s.carrySafe) : t.carrySafe := by
  cases i with
  | encode =>
    have h := encoderRule_at hr.probe h
    exact narrows_carrySafe (encode_narrows hr.rng (operands_none.mp hc)) h hsafe
  | encodeBin =>
    have h := encoderRule_at hr.probe h
    exact narrows_carrySafe (encodeBin_narrows hr.rng (operands_none.mp hc)) h hsafe
  | encBitLogp =>
    have h := encoderRule_at hr.probe h
    exact narrows_carrySafe (encBitLogp_narrows hr.rng (operands_none.mp hc) _) h hsafe
  | encIcdf =>
    obtain ⟨n, hn, hs⟩ := encIcdfContract_none hc
    have h := encoderRule_at hr.probe h
    exact narrows_carrySafe (encIcdf_narrows hr.rng hn hs) h hsafe
  | encUint => exact encUintRule_carrySafe hr.rng (operands_none.mp hc) (encoderRule_at hr.probe h) hsafe
  | encBits => exact encBitsRule_carrySafe (encoderRule_at hr.probe h) hsafe
  | encShrink => exact encShrinkRule_carrySafe (encoderRule_at hr.probe h) hsafe
  | encPatch | encDone | encInit | decInit | decode | decodeBin | decUpdate | decBitLogp | decIcdf | decUint
  | decBits | tell | tellFrac | release => cases hi

theorem encInit_carrySafe {s t : State} {size : Word} (h : encInitRule size s = .ok t) : t.carrySafe := by
  injection h with h
  rw [← h]
  exact ⟨by show 0 + 2 ^ 31 < 2 ^ 32; decide, .inl (by show 0 + 2 ^ 31 ≤ 2 ^ 31; decide)⟩

/-- Settles O29: a narrowing takes a part of the interval, a pass moves its bit 31 out as a carry that rem can take, and
the other commands leave val, rng and rem. -/
theorem noCarryLostWithoutPatch : Obligations.NoCarryLostWithoutPatch := by
  intro i s t hs hne h ht hsafe
  rcases exec_next h with ⟨x, rfl⟩ | ⟨ha, hc, h⟩
  · exact hsafe ht
  have hw := ruleOf_writes h
  cases i with
  | encInit => exact encInit_carrySafe h
  | encode | encodeBin | encBitLogp | encIcdf | encUint | encBits | encShrink =>
    obtain ⟨hm, -⟩ := narrowsOrAppends_mode rfl ha h
    obtain ⟨-, hr, -⟩ := inv_enc hs hm
    exact ruleOf_carrySafe rfl hr hc h (hsafe hm)
  | encPatch v n => exact absurd rfl (hne v n)
  | encDone =>
    obtain ⟨u, -, rfl⟩ := hw
    cases ht
  | decInit => rw [(Reads.mode hw :)] at ht; cases ht
  | decode | decodeBin =>
    have hm : s.mode = .dec := by simpa [admittedIn] using ha
    rw [probeWith_eq hw] at ht
    cases hm.symm.trans ht
  | decUpdate | decBitLogp | decIcdf | decUint | decBits =>
    have hm : s.mode = .dec := by simpa [admittedIn] using ha
    have e : t.mode = s.mode := (DecWrites.mode hw.1 :)
    cases hm.symm.trans (e.symm.trans ht)
  | tell | tellFrac =>
    have e : t = { s with result := t.result } := hw
    rw [e] at ht ⊢
    exact hsafe ht
  | release => rw [show t = _ from hw] at ht; cases ht

/-- Settles O32: without a lost carry val does not wrap, and the normalizer moves both ends up alike. -/
theorem encodeStaysInsideInterval : Obligations.EncodeStaysInsideInterval := by
  intro s t fl fh ft hs hm hc hx hok h _ ht
  obtain ⟨-, hr, -⟩ := inv_enc hs hm
  have hrule := encoderRule_at hr.probe
    (ruleOf_of_exec (i := .encode fl fh ft) (by rw [hm]; rfl) (operands_none.mpr hok) h)
  have hn := encode_narrows hr.rng hok
  have hlow := hn.lowEnd (encode_low hc hok)
  obtain ⟨-, hrng⟩ := encode_parts (s := s) hok
  have hval := encode_low hc hok
  have hframe := hn.frame
  obtain ⟨d, hd, hle⟩ := hn.part
  rw [encodeRule] at hrule
  generalize s.narrow (s.rng / ft) (fl == 0#32) (ft - fl) (ft - fh) = u at *
  obtain ⟨k, hk, hlow', hrng'⟩ := encNormalize_lowEnd hn.pos (by rw [hframe]; exact hr.rem) (hn.carrySafe hc)
    (by rw [hframe]; exact hx) hrule ht
  have hsum : s.val.toNat + s.rng.toNat < 2 ^ 32 := hc.1
  dsimp only at hrng ⊢
  refine ⟨k, hk, by rw [hlow', hlow], by rw [hrng', hrng], ?_, ?_⟩
  · rw [hlow', hlow]
    exact Nat.mul_le_mul_right _ (Nat.le_add_right _ _)
  · have hlt := u.val.isLt
    rw [hlow', hrng', ← Nat.add_mul]
    exact Nat.mul_le_mul_right _ (by omega)

end Sys2Proof.Proofs
end

section
/-! PROOFS. The code of ENC_DONE and the number it names (41_encoder.md R83, steps 1 to 3): O28, O33. -/

namespace Sys2Proof.Machine

/-! ### Step 1: the shortest code -/

/-- The low end of the first block of 2^(31 - l) values at or above val (R83, step 1). -/
def State.codeAt (s : State) (l : Nat) : Nat :=
  (s.val.toNat + 2 ^ (31 - l) - 1) % 2 ^ 32 / 2 ^ (31 - l) * 2 ^ (31 - l)

theorem doneCode_eq_codeAt (s : State) :
    s.doneCode =
      if s.val.toNat + s.rng.toNat < s.codeAt (32 - ilog s.rng) + 2 ^ (31 - (32 - ilog s.rng)) then
        (32 - ilog s.rng + 1, s.codeAt (32 - ilog s.rng + 1))
      else (32 - ilog s.rng, s.codeAt (32 - ilog s.rng)) := rfl

/-- The block at or above val starts less than a block above it, and no block at or above val starts lower. -/
theorem codeAt_spec {s : State} {l : Nat} (h : s.val.toNat + 2 ^ (31 - l) ≤ 2 ^ 32) :
    2 ^ (31 - l) ∣ s.codeAt l ∧ s.val.toNat ≤ s.codeAt l ∧ s.codeAt l < s.val.toNat + 2 ^ (31 - l) ∧
    ∀ x, 2 ^ (31 - l) ∣ x → s.val.toNat ≤ x → s.codeAt l ≤ x := by
  have hpos := Nat.two_pow_pos (31 - l)
  have hcode : s.codeAt l = (s.val.toNat + 2 ^ (31 - l) - 1) / 2 ^ (31 - l) * 2 ^ (31 - l) := by
    rw [State.codeAt, Nat.mod_eq_of_lt (by omega)]
  generalize 2 ^ (31 - l) = b at *
  have hle := Nat.div_mul_le_self (s.val.toNat + b - 1) b
  have hlt := Nat.lt_div_mul_add (a := s.val.toNat + b - 1) hpos
  rw [hcode]
  refine ⟨Nat.dvd_mul_left _ _, by omega, by omega, fun x hx hv => ?_⟩
  obtain ⟨y, rfl⟩ := hx
  have hy : (s.val.toNat + b - 1) / b ≤ y := by
    rw [← Nat.lt_succ_iff, Nat.div_lt_iff_lt_mul hpos, Nat.succ_mul, Nat.mul_comm y]
    omega
  rw [Nat.mul_comm b]
  exact Nat.mul_le_mul_right b hy

/-- With l = 32 - ilog(rng) a block of 2^(31 - l) values is at most rng, and two of them are more. -/
theorem block_bounds {s : State} (hr : s.rngOk) :
    32 - ilog s.rng ≤ 8 ∧ 2 ^ (31 - (32 - ilog s.rng)) ≤ s.rng.toNat ∧
    s.rng.toNat < 2 * 2 ^ (31 - (32 - ilog s.rng)) := by
  have h24 := ilog_ge_of_rngOk hr
  have h32 := ilog_le s.rng
  have h0 : s.rng ≠ 0#32 := by
    intro e
    rw [State.rngOk, e] at hr
    exact absurd hr.1 (by decide)
  have hlo := Proofs.two_pow_pred_ilog_le h0
  have hhi := Proofs.lt_two_pow_ilog h0
  have hsucc : 2 ^ ilog s.rng = 2 * 2 ^ (ilog s.rng - 1) := by
    rw [← Nat.pow_succ']; congr 1; omega
  rw [show 31 - (32 - ilog s.rng) = ilog s.rng - 1 by omega]
  omega

section
variable {s : State} (hr : s.rngOk) (hv : s.valRngOk)
include hr hv

/-- The code's block lies inside the interval. -/
theorem doneCode_inside :
    s.val.toNat ≤ s.doneCode.2 ∧ s.doneCode.2 + 2 ^ (31 - s.doneCode.1) ≤ s.val.toNat + s.rng.toNat := by
  obtain ⟨h8, hlo, hhi⟩ := block_bounds hr
  have hsum : s.val.toNat + s.rng.toNat < 2 ^ 32 := hv
  rw [doneCode_eq_codeAt]
  generalize 32 - ilog s.rng = l at *
  split
  · have hhalf : 2 ^ (31 - l) = 2 * 2 ^ (31 - (l + 1)) := by rw [← Nat.pow_succ']; congr 1; omega
    obtain ⟨-, hge, hlt, -⟩ := codeAt_spec (s := s) (l := l + 1) (by omega)
    exact ⟨hge, by dsimp only; omega⟩
  · obtain ⟨-, hge, -, -⟩ := codeAt_spec (s := s) (l := l) (by omega)
    exact ⟨hge, Nat.not_lt.mp ‹_›⟩

/-- A longer block at or above val passes the interval's end. -/
theorem shorter_code_passes {j x : Nat} (hj : j < s.doneCode.1) (hx : 2 ^ (31 - j) ∣ x) (hvx : s.val.toNat ≤ x) :
    s.val.toNat + s.rng.toNat < x + 2 ^ (31 - j) := by
  obtain ⟨h8, hlo, hhi⟩ := block_bounds hr
  have hsum : s.val.toNat + s.rng.toNat < 2 ^ 32 := hv
  rw [doneCode_eq_codeAt] at hj
  generalize 32 - ilog s.rng = l at *
  have hlong : j < l → s.val.toNat + s.rng.toNat < x + 2 ^ (31 - j) := fun hjl => by
    have : 2 ^ (31 - l + 1) ≤ 2 ^ (31 - j) := Nat.pow_le_pow_right (by decide) (by omega)
    rw [Nat.pow_succ] at this
    omega
  split at hj
  · rename_i hpass
    rcases Nat.lt_or_ge j l with hjl | hjl
    · exact hlong hjl
    · obtain rfl : j = l := by dsimp only at hj; omega
      have := (codeAt_spec (s := s) (l := j) (by omega)).2.2.2 x hx hvx
      omega
  · exact hlong hj

end

/-! ### Steps 2 and 3: the bytes of the code -/

/-- The passes of step 2 put out the code's top bits, exactly: bit 31 is a carry, which a byte that is not 0xFF takes. -/
theorem emitCode_outNumber {m n : Nat} {l : Int} {e : Word} {s : State} (hn : m ≤ n) (hl : l ≤ 8 * m)
    (hl' : 8 * m < l + 8) (hm : m ≤ 2) (hr : s.rem = 0xFFFFFFFF#32 ∨ s.rem.toNat ≤ 255) (hx : s.ext.toNat + m < 2 ^ 32)
    (hcarry : 2 ^ 31 ≤ e.toNat → 0 < m ∧ s.rem.toNat ≤ 254) (he : (State.emitCode n l e s).2.error = 0#32) :
    (State.emitCode n l e s).2.outNumber = s.outNumber * 256 ^ m + e.toNat / 2 ^ (31 - 8 * m) := by
  have hlt := e.isLt
  induction m generalizing n l e s with
  | zero =>
    have hend : (State.emitCode n l e s).2 = s := by
      cases n with
      | zero => rfl
      | succ n => rw [State.emitCode, if_neg (by omega)]
    rw [hend]
    omega
  | succ m ih =>
    obtain ⟨n, rfl⟩ : ∃ k, n = k + 1 := ⟨n - 1, by omega⟩
    rw [State.emitCode, if_pos (by omega)] at he ⊢
    have hsym := toNat_passSymbol e
    have hemit := carryOut_emits s (e >>> codeShift)
    have hnext := toNat_shl8_lowMask e
    have hrem : (s.carryOut (e >>> codeShift)).rem = 0xFFFFFFFF#32 ∨ (s.carryOut (e >>> codeShift)).rem.toNat ≤ 255 := by
      rcases hemit.rem with h | h
      · rw [h]; exact hr
      · exact .inr h
    have hext := ext_carryOut_le (s := s) (by omega) (e >>> codeShift)
    have hout := outNumber_carryOut (c := e >>> codeShift) hr (by omega) (fun h => (hcarry (by omega)).2) (by omega)
      ((emitCode_emits n _ _ _).writes.error_eq_zero he)
    rw [ih (by omega) (by simp only [symBits]; omega) (by simp only [symBits]; omega) (by omega) hrem (by omega)
      (fun h => by omega) he (by omega), hout, hsym, hnext, pow_succ 256 m, Nat.add_mul]
    have hm1 : m ≤ 1 := by omega
    have hcode : e.toNat / 2 ^ 23 * 256 ^ m + e.toNat * 256 % 2 ^ 31 / 2 ^ (31 - 8 * m) =
        e.toNat / 2 ^ (31 - 8 * (m + 1)) := by
      interval_cases m <;> omega
    rw [← hcode, Nat.mul_comm (256 ^ m) 256, Nat.mul_assoc, Nat.add_assoc]

/-- Step 3 puts out everything that was held. -/
theorem flushCarry_frontOut {s : State} (hr : s.rem = 0xFFFFFFFF#32 ∨ s.rem.toNat ≤ 255) (he : s.flushCarry.error = 0#32) :
    s.flushCarry.frontOut = s.outNumber := by
  rw [outNumber_eq hr]
  unfold State.flushCarry at he ⊢
  split
  · rename_i hsome
    rw [if_pos hsome, carryOut_other s (by decide)] at he
    rw [carryOut_other s (by decide)]
    refine Eq.trans ?_ ((carryFlush_putsOrFails s 0#32).puts_of_error he).out
    exact bufNumber_congr fun _ _ => rfl
  · rename_i hnone
    simp only [Bool.or_eq_true, decide_eq_true_eq, not_or] at hnone
    obtain ⟨hb, hx⟩ := hnone
    have hx : s.ext.toNat = 0 := Nat.eq_zero_of_not_pos hx
    rw [heldNumber_zero hr]
    unfold State.held
    rw [if_neg hb, if_neg hb, hx]
    simp

section
variable {s : State} (hr : EncRegsOk s) (hc : s.carrySafe)
include hr hc

/-- A code above 2^31 has a byte, and its carry finds one that takes it (R84). -/
theorem doneCode_carry (h : 2 ^ 31 ≤ s.doneCode.2) : 0 < s.doneCodeBytes ∧ s.rem.toNat ≤ 254 := by
  obtain ⟨hsum, hcarry⟩ := hc
  obtain ⟨-, hhi⟩ := doneCode_inside hr.rng hsum
  have hpos := Nat.two_pow_pos (31 - s.doneCode.1)
  have hsum : s.val.toNat + s.rng.toNat < 2 ^ 32 := hsum
  refine ⟨?_, by omega⟩
  by_contra h0
  have hl : s.doneCode.1 = 0 := by unfold State.doneCodeBytes at h0; omega
  rw [hl] at hhi
  omega

theorem flushFront_frontOut (hx : s.ext.toNat < 2 ^ 32 - 3) (he : s.flushFront.error = 0#32) :
    s.flushFront.frontOut = s.outNumber * 256 ^ s.doneCodeBytes + s.doneCode.2 / 2 ^ (31 - 8 * s.doneCodeBytes) := by
  obtain ⟨hn, hl, hl'⟩ := doneCodeBytes_bounds hr
  have h2 := doneCodeBytes_le hr.rng
  have hcode : s.doneCode.2 = s.codeValue.2.toNat := by rw [doneCode_eq hr.rng]
  have hcarry := doneCode_carry hr hc
  have hemit := emitCode_emits s.codeValue.1 s.codeValue.1 s.codeValue.2 s
  have hrem : (State.emitCode s.codeValue.1 s.codeValue.1 s.codeValue.2 s).2.rem = 0xFFFFFFFF#32 ∨
      (State.emitCode s.codeValue.1 s.codeValue.1 s.codeValue.2 s).2.rem.toNat ≤ 255 := by
    rcases hemit.rem with h | h
    · rw [h]; exact hr.rem
    · exact .inr h
  rw [hcode] at hcarry ⊢
  rw [← emitCode_outNumber hn hl hl' h2 hr.rem (by omega) hcarry ((flushCarry_emits _).writes.error_eq_zero he)]
  exact flushCarry_frontOut hrem he

end

end Sys2Proof.Machine

namespace Sys2Proof.Proofs

open Sys2Proof.Machine

/-- Settles O28: the code is the first block at or above val, of the longest length that fits rng, or of half that length
where this one passes the interval's end. -/
theorem encDoneCodeIsShortest : Obligations.EncDoneCodeIsShortest := by
  intro s hr hv
  have hcode := doneCode_eq hr
  have h9 := doneCode_fst_le hr
  have hdvd := doneCode_dvd s
  obtain ⟨hlo, hhi⟩ := doneCode_inside hr hv
  have hshort := fun j x => shorter_code_passes hr hv (j := j) (x := x)
  rw [hcode] at h9 hdvd hlo hhi hshort
  exact ⟨h9, Nat.mod_eq_zero_of_dvd hdvd, hlo, hhi, fun j x hj hx => hshort j x hj (Nat.dvd_of_mod_eq_zero hx)⟩

/-- The bytes that ENC_DONE leaves at the front: those put out, with the leftover raw bits in the bits that the code left
free. -/
theorem encDone_bufNumber {s t : State} (hs : s.Inv) (hm : s.mode = .enc) (hw : WindowOk s)
    (h : exec .encDone s = .next t) (he : t.error = 0#32) :
    s.flushFront.error = 0#32 ∧ ∃ x, x < 2 ^ s.doneFree ∧ t.bufNumber t.offs.toNat = s.flushFront.frontOut + x := by
  obtain ⟨-, -, -, -, hfull⟩ := encDoneLaysOutStream s t hs hm h he
  obtain ⟨hr, hrule⟩ := encDoneRule_of_exec hs hm h
  obtain ⟨v, w, k⟩ := encDoneRule_doneOk hr hrule he
  obtain ⟨-, hoffs, hend, -, hle⟩ := k.cursors hr
  have hsv := k.storage
  have hov : v.offs = t.offs := k.back.backs.offs.trans hoffs.symm
  have hlast := k.last hr
  refine ⟨k.front, ?_⟩
  have hback : ∀ a, a < t.offs.toNat → v.bufByte a = s.flushFront.bufByte a := fun a ha =>
    k.back.backs.bufByte (.inl (by rw [(flushFront_emits s).storage, ← hend]; omega))
  have hkept : ∀ a, a < t.offs.toNat → a + 1 ≠ s.storage.toNat - t.endOffs.toNat →
      t.bufByte a = s.flushFront.bufByte a := fun a ha hne => by
    rw [k.bufByte (.inl (by rw [hov]; exact ha)) (by rw [hsv, ← hend]; exact hne), hback a ha]
  unfold State.frontOut
  rw [← hoffs]
  by_cases hlow : t.offs.toNat = 0 ∨ t.offs.toNat + t.endOffs.toNat < s.storage.toNat
  · exact ⟨0, Nat.two_pow_pos _, bufNumber_congr fun a ha => hkept a ha (by omega)⟩
  · obtain ⟨n, hn⟩ : ∃ n, t.offs.toNat = n + 1 := ⟨t.offs.toNat - 1, by omega⟩
    have hbelow : t.bufNumber n = s.flushFront.bufNumber n := bufNumber_congr fun a ha => hkept a (by omega) (by omega)
    rw [show s.storage.toNat - t.endOffs.toNat - 1 = n by omega, zeroGap_bufByte, if_neg (by rw [hov]; omega),
      hback n (by omega)] at hlast
    rw [hn, State.bufNumber, State.bufNumber, hbelow]
    by_cases hleft : s.nendBits.toNat % 8 = 0
    · rw [if_pos hleft, Nat.or_zero] at hlast
      exact ⟨0, Nat.two_pow_pos _, by rw [hlast, Nat.add_zero]⟩
    · obtain ⟨-, hfree, hcode, -⟩ := hfull (by omega) (by omega)
      obtain ⟨-, hbyte⟩ := flushFront_last hr (by omega) k.front
      rw [← hoffs, hn, Nat.add_sub_cancel] at hbyte
      rw [if_neg hleft, hbyte] at hlast
      rw [hlast, hbyte]
      have hbits : s.endWindow.toNat / 2 ^ (8 * (s.nendBits.toNat / 8)) < 2 ^ s.doneFree := by
        rw [Nat.div_lt_iff_lt_mul (Nat.two_pow_pos _), ← Nat.pow_add]
        exact Nat.lt_of_lt_of_le hw (Nat.pow_le_pow_right (by decide) (by omega))
      have hbits := Nat.lt_of_le_of_lt (Nat.mod_le _ 256) hbits
      refine ⟨_, hbits, ?_⟩
      obtain ⟨y, hy⟩ := Nat.dvd_of_mod_eq_zero (lastCodeByte_mod hr.rng)
      rw [hy, ← Nat.two_pow_add_eq_or_of_lt hbits, Nat.add_assoc]

/-- Settles O33: the bytes put out are the low end's and then the code's, which names a block inside the interval; the
leftover raw bits stay below that block's size. -/
theorem encDoneNamesFinalInterval : Obligations.EncDoneNamesFinalInterval := by
  intro s t hs hm hc hx hw _ h he
  obtain ⟨-, hr, -⟩ := inv_enc hs hm
  obtain ⟨hfront, x, hxlt, hnumber⟩ := encDone_bufNumber hs hm hw h he
  obtain ⟨hlo, hhi⟩ := doneCode_inside hr.rng hc.1
  have h2 := doneCodeBytes_le hr.rng
  have hfree : 31 - s.doneCode.1 = 31 - 8 * s.doneCodeBytes + s.doneFree := by
    have := doneCode_fst_le hr.rng
    unfold State.doneFree State.doneCodeBytes at *
    omega
  obtain ⟨y, hy⟩ := doneCode_dvd s
  have hscale : 2 ^ (31 - 8 * s.doneCodeBytes) * 256 ^ s.doneCodeBytes = 2 ^ 31 := by
    rw [pow_256, ← Nat.pow_add]; congr 1; omega
  rw [hfree, Nat.pow_add] at hhi hy
  rw [hnumber, flushFront_frontOut hr hc hx hfront, hy, Nat.mul_assoc, Nat.mul_div_cancel_left _ (Nat.two_pow_pos _)]
  rw [hy, Nat.mul_assoc] at hlo hhi
  unfold State.lowEnd
  rw [← hscale]
  generalize 2 ^ (31 - 8 * s.doneCodeBytes) = b at *
  generalize 256 ^ s.doneCodeBytes = p at *
  generalize 2 ^ s.doneFree = f at *
  constructor
  · calc (s.outNumber * (b * p) + s.val.toNat) * p
        ≤ (s.outNumber * (b * p) + b * (f * y)) * p := Nat.mul_le_mul_right _ (Nat.add_le_add_left hlo _)
      _ = (s.outNumber * p + f * y) * (b * p) := by ring
      _ ≤ (s.outNumber * p + f * y + x) * (b * p) := Nat.mul_le_mul_right _ (Nat.le_add_right _ _)
  · calc (s.outNumber * p + f * y + x + 1) * (b * p)
        ≤ (s.outNumber * p + f * y + f) * (b * p) := Nat.mul_le_mul_right _ (by omega)
      _ = (s.outNumber * (b * p) + (b * (f * y) + b * f)) * p := by ring
      _ ≤ (s.outNumber * (b * p) + s.val.toNat + s.rng.toNat) * p := Nat.mul_le_mul_right _ (by omega)

end Sys2Proof.Proofs
end

section
/-! PROOFS. What ENC_DONE stores where not everything fits (41_encoder.md R83, 60_exceptions.md R141): O26. -/

namespace Sys2Proof.Machine

/-! ### The front (steps 2 and 3) -/

/-- One symbol out: what is stored and what is held after it are one byte more than what was held, and a byte is held. -/
theorem carryOut_stores (s : State) (c : Word) :
    ∃ out, StoresFront out s (s.carryOut c) ∧
      (s.ext.toNat + 1 < 2 ^ 32 → out.length + (s.carryOut c).held = s.held + 1 ∧ 0 < (s.carryOut c).held) := by
  by_cases hc : c = symMax
  · subst hc
    refine ⟨[], ?_, fun hx => ?_⟩
    · rw [carryOut_ff]
      exact storesFront_regs s s.rem (s.ext + 1#32)
    · rw [held_carryOut_ff hx]
      exact ⟨Nat.zero_add _, Nat.succ_pos _⟩
  · refine ⟨_, carryOut_storesFront s hc, fun _ => ?_⟩
    rw [length_heldBytes, held_carryOut_other s hc]
    exact ⟨rfl, Nat.one_pos⟩

/-- Step 2 for a code of `m` bytes. -/
theorem emitCode_stores {m n : Nat} {l : Int} (hn : m ≤ n) (hl : l ≤ 8 * m) (hl' : 8 * m < l + 8) (e : Word) (s : State) :
    ∃ out, StoresFront out s (State.emitCode n l e s).2 ∧
      (s.ext.toNat + m < 2 ^ 32 → out.length + (State.emitCode n l e s).2.held = s.held + m) ∧
      (m = 0 → (State.emitCode n l e s).2 = s) ∧
      (s.ext.toNat + m < 2 ^ 32 → 0 < m → 0 < (State.emitCode n l e s).2.held) := by
  induction m generalizing n l e s with
  | zero =>
    have hend : (State.emitCode n l e s).2 = s := by
      cases n with
      | zero => rfl
      | succ n => rw [State.emitCode, if_neg (by omega)]
    rw [hend]
    exact ⟨[], StoresFront.refl s, fun _ => Nat.zero_add _, fun _ => rfl, fun _ h => absurd h (Nat.lt_irrefl 0)⟩
  | succ m ih =>
    obtain ⟨n, rfl⟩ : ∃ k, n = k + 1 := ⟨n - 1, by omega⟩
    rw [State.emitCode, if_pos (by omega)]
    obtain ⟨o, ho, hone⟩ := carryOut_stores s (e >>> codeShift)
    obtain ⟨p, hp, hsum, hsame, hpos⟩ := ih (n := n) (l := l - symBits) (by omega) (by simp only [symBits]; omega)
      (by simp only [symBits]; omega) ((e <<< symBits) &&& lowMask) (s.carryOut (e >>> codeShift))
    have hext := fun hx : s.ext.toNat + 1 < 2 ^ 32 => ext_carryOut_le hx (e >>> codeShift)
    refine ⟨o ++ p, ho.trans hp, fun hx => ?_, nofun, fun hx _ => ?_⟩
    · have := hext (by omega)
      have := hone (by omega)
      have := hsum (by omega)
      rw [List.length_append]
      omega
    · have := hext (by omega)
      have := hone (by omega)
      rcases Nat.eq_zero_or_pos m with h0 | h0
      · rw [hsame h0]; omega
      · exact hpos (by omega) h0

/-- Step 3: what was held is put out, and nothing stays pending. -/
theorem flushCarry_stores (s : State) :
    ∃ out, StoresFront out s s.flushCarry ∧ out.length = s.held ∧ s.flushCarry.ext = 0#32 ∧
      s.flushCarry.rem = if s.held = 0 then s.rem else 0#32 := by
  unfold State.flushCarry
  split
  · rename_i hsome
    have hne : (0#32 : Word) ≠ symMax := by decide
    refine ⟨_, carryOut_storesFront s hne, length_heldBytes s _, ext_carryOut_other s hne, ?_⟩
    have hheld : s.held ≠ 0 := by
      unfold State.held
      rcases Bool.or_eq_true .. ▸ hsome with hb | hx
      · rw [if_pos hb]; omega
      · have : 0 < s.ext.toNat := of_decide_eq_true hx
        omega
    rw [if_neg hheld, carryOut_other s hne]
    rfl
  · rename_i hnone
    simp only [Bool.or_eq_true, decide_eq_true_eq, not_or] at hnone
    obtain ⟨hb, hx⟩ := hnone
    have hx : s.ext.toNat = 0 := Nat.eq_zero_of_not_pos hx
    have hheld : s.held = 0 := by
      unfold State.held
      rw [if_neg hb, hx]
    rw [hheld, if_pos rfl]
    exact ⟨[], StoresFront.refl s, rfl, BitVec.eq_of_toNat_eq hx, rfl⟩

/-- Steps 2 and 3 together: while the pending count does not wrap, they put out `doneFront` bytes. -/
theorem flushFront_stores {s : State} (hr : EncRegsOk s) :
    ∃ out, StoresFront out s s.flushFront ∧ s.flushFront.ext = 0#32 ∧
      (s.flushFront.rem = 0#32 ∨ s.flushFront.rem = 0xFFFFFFFF#32) ∧
      (s.ext.toNat < 2 ^ 32 - 3 →
        out.length = s.doneFront ∧ s.flushFront.rem = if s.doneFront = 0 then s.rem else 0#32) := by
  obtain ⟨hn, hl, hl'⟩ := doneCodeBytes_bounds hr
  have h2 := doneCodeBytes_le hr.rng
  have hfront : s.doneFront = s.held + s.doneCodeBytes := rfl
  obtain ⟨o, ho, hsum, hsame, hpos⟩ := emitCode_stores hn hl hl' s.codeValue.2 s
  have hemit := emitCode_emits s.codeValue.1 s.codeValue.1 s.codeValue.2 s
  unfold State.flushFront
  generalize (State.emitCode s.codeValue.1 s.codeValue.1 s.codeValue.2 s).2 = u at *
  obtain ⟨p, hp, hlen, hext, hrem⟩ := flushCarry_stores u
  refine ⟨o ++ p, ho.trans hp, hext, ?_, fun hx => ⟨?_, ?_⟩⟩
  · rw [hrem]
    split
    · rename_i hheld
      have hurem : u.rem = 0xFFFFFFFF#32 ∨ u.rem.toNat ≤ 255 := by
        rcases hemit.rem with h | h
        · rw [h]; exact hr.rem
        · exact .inr h
      refine .inr (rem_of_not_byte hurem ?_)
      by_contra hb
      rw [State.held, if_pos (by simpa using hb)] at hheld
      omega
    · exact .inl rfl
  · have := hsum (by omega)
    rw [List.length_append]
    omega
  · rw [hrem]
    rcases Nat.eq_zero_or_pos s.doneCodeBytes with h0 | h0
    · rw [hsame h0, hfront, h0, Nat.add_zero]
    · have := hpos (by omega) h0
      rw [if_neg (by omega), if_neg (by omega)]

/-! ### The gap (step 5) -/

/-- Leftover bits that neither the gap nor the last range byte has room for make error -1 (EC4, EC5). -/
theorem finishGap_error_of_full {s : State} {w : Window} {free : Nat} (hs : s.error = 0#32) (hcount : w.count ≠ 0)
    (hfull : s.storage.toNat ≤ s.offs.toNat + s.endOffs.toNat) (hfree : free < w.count) :
    (finishGap w free s).error = encFault := by
  rw [finishGap_of_error hs, State.mergeLeftover, if_neg hcount, zeroGap_storage, zeroGap_endOffs, zeroGap_offs]
  split
  · rfl
  · rw [if_pos ⟨hfull, hfree⟩]
    rfl

theorem finishGap_of_error_ne {s : State} (hs : s.error ≠ 0#32) (w : Window) (free : Nat) : finishGap w free s = s :=
  if_neg hs

/-! ### ENC_DONE (R83) -/

/-- What ENC_DONE has done from `s` to `t`, whether or not everything fitted: the bytes `out` went to the front, and the
whole raw bytes to the back, which left `v` and the window `w`; then the gap was finished. -/
structure DoneSteps (s t v : State) (w : Window) (out : List Nat) : Prop where
  front  : StoresFront out s s.flushFront
  ext    : s.flushFront.ext = 0#32
  rem    : s.flushFront.rem = 0#32 ∨ s.flushFront.rem = 0xFFFFFFFF#32
  counts : s.ext.toNat < 2 ^ 32 - 3 →
    out.length = s.doneFront ∧ s.flushFront.rem = if s.doneFront = 0 then s.rem else 0#32
  back   : StoresBack (lowBytes (s.nendBits.toNat / 8) s.endWindow.toNat) s.flushFront v
  count  : w.count = s.nendBits.toNat % 8
  finish : t = { finishGap w s.doneFree v with mode := .done }

theorem encDoneRule_steps {s : State} (hr : EncRegsOk s) :
    ∃ t v w out, encDoneRule s = .ok t ∧ DoneSteps s t v w out := by
  obtain ⟨t, ht⟩ : ∃ t, encDoneRule s = .ok t := by
    unfold encDoneRule
    rw [bitCount_of_le hr.nendBits]
    exact ⟨_, rfl⟩
  have hfinish := encDoneRule_ok ht
  obtain ⟨hcount, hfree⟩ := flushAll_window hr
  obtain ⟨out, hfront, hext, hrem, hexact⟩ := flushFront_stores hr
  have hn : (s.window s.nendBits.toNat).count / 8 ≤ s.nendBits.toNat := Nat.div_le_self _ _
  dsimp only at hfinish
  rw [hfree] at hfinish
  exact ⟨t, _, _, out, ht, hfront, hext, hrem, hexact, flushWindow_storesBack hn s.flushFront, hcount, hfinish⟩

section
variable {s t v : State} {w : Window} {out : List Nat} (k : DoneSteps s t v w out)
include k

/-- What ENC_DONE writes (R83). -/
theorem DoneSteps.frame :
    t = { s with
      mode := .done, rem := t.rem, ext := 0#32, offs := t.offs, endOffs := t.endOffs, buf := t.buf, error := t.error } := by
  have hfront := k.front.frame
  rw [k.ext] at hfront
  have hback := k.back.frame
  rw [hfront] at hback
  rw [k.finish, finishGap_frame, hback]

theorem DoneSteps.regs :
    t.rem = s.flushFront.rem ∧ t.offs = s.flushFront.offs ∧ t.endOffs = v.endOffs ∧ v.offs = s.flushFront.offs ∧
    v.storage = s.storage ∧ s.flushFront.storage = s.storage ∧ s.flushFront.endOffs = s.endOffs := by
  have hback := k.back.frame
  have hfront := k.front.frame
  have hgap : t.rem = v.rem ∧ t.offs = v.offs ∧ t.endOffs = v.endOffs := by
    rw [k.finish, finishGap_frame]; exact ⟨rfl, rfl, rfl⟩
  have hv : v.rem = s.flushFront.rem ∧ v.offs = s.flushFront.offs ∧ v.storage = s.flushFront.storage := by
    rw [hback]; exact ⟨rfl, rfl, rfl⟩
  have hs : s.flushFront.storage = s.storage ∧ s.flushFront.endOffs = s.endOffs := by rw [hfront]; exact ⟨rfl, rfl⟩
  exact ⟨hgap.1.trans hv.1, hgap.2.1.trans hv.2.1, hgap.2.2, hv.2.1, hv.2.2.trans hs.1, hs.1, hs.2⟩

/-- The two cursors: the range bytes take the room first, and then the raw bytes. -/
theorem DoneSteps.cursors :
    t.offs.toNat = s.offs.toNat + min out.length s.room ∧
    t.endOffs.toNat = s.endOffs.toNat + min (s.nendBits.toNat / 8) (s.room - out.length) := by
  obtain ⟨-, hoffs, hend, -, -, -, hfe⟩ := k.regs
  have h := k.back.endOffs
  rw [length_lowBytes, k.front.room, hfe] at h
  rw [hoffs, hend]
  exact ⟨k.front.offs, h⟩

/-- The error before step 5: a range byte or a raw byte was lost where they are more than the room (EC1, EC2). -/
theorem DoneSteps.error_before :
    v.error = if out.length + s.nendBits.toNat / 8 ≤ s.room then s.error else encFault := by
  have h := k.back.error
  rwa [length_lowBytes, k.front.room, k.front.error, error_of_both] at h

/-- Outside the old gap, and before the byte of step 5, BUF is as it was. -/
theorem DoneSteps.outside (hcur : s.offs.toNat + s.endOffs.toNat ≤ s.storage.toNat) {a : Nat}
    (ha : a < s.offs.toNat ∨ s.storage.toNat - s.endOffs.toNat ≤ a)
    (hlast : a + 1 ≠ s.storage.toNat - t.endOffs.toNat) : t.bufByte a = s.bufByte a := by
  obtain ⟨-, hoffs, hend, hvo, hvs, hfs, hfe⟩ := k.regs
  obtain ⟨hto, hte⟩ := k.cursors
  have hroom : s.room = s.storage.toNat - (s.offs.toNat + s.endOffs.toNat) := rfl
  have hgap : t.bufByte a = v.bufByte a := by
    rw [k.finish]
    exact finishGap_bufByte w s.doneFree (by rw [hvo, ← hoffs, hvs, ← hend]; omega) (by rw [hvs, ← hend]; exact hlast)
  have hback := k.back.outside a
  rw [length_lowBytes, k.front.room, hfs, hfe] at hback
  rw [hgap, hback (by omega), k.front.outside a (by omega)]

/-- After an earlier error nothing is filled in. -/
theorem DoneSteps.gap_of_error (hs : s.error ≠ 0#32) {a : Nat} (ha : t.offs.toNat ≤ a)
    (ha' : a < s.storage.toNat - t.endOffs.toNat) : t.bufByte a = s.bufByte a := by
  obtain ⟨-, hoffs, hend, -, -, hfs, hfe⟩ := k.regs
  obtain ⟨hto, hte⟩ := k.cursors
  have hv : v.error ≠ 0#32 := by
    rw [k.error_before]
    split
    · exact hs
    · decide
  have hgap : t.bufByte a = v.bufByte a := by
    rw [k.finish, finishGap_of_error_ne hv]
    rfl
  have hback := k.back.outside a
  rw [length_lowBytes, k.front.room, hfs, hfe] at hback
  rw [hgap, hback (by omega), k.front.outside a (by omega)]

/-- Where something did not fit, error ends at -1 (EC1, EC2, EC4, EC5). -/
theorem DoneSteps.error_of_not_fits (hr : EncRegsOk s) (hx : s.ext.toNat < 2 ^ 32 - 3) (hno : ¬ s.doneFits) :
    t.error = encFault := by
  obtain ⟨hlen, -⟩ := k.counts hx
  obtain ⟨-, hoffs, hend, hvo, hvs, -, -⟩ := k.regs
  obtain ⟨hto, hte⟩ := k.cursors
  have hv := k.error_before
  have hneed : s.doneNeed = s.doneFront + s.nendBits.toNat / 8 := rfl
  have hroom : s.room = s.storage.toNat - (s.offs.toNat + s.endOffs.toNat) := rfl
  have hcur := hr.cursors
  have hfinish : t.error = (finishGap w s.doneFree v).error := by rw [k.finish]
  have hkeep : v.error = encFault → t.error = encFault := fun h => by
    rw [hfinish, finishGap_of_error_ne (by rw [h]; decide), h]
  rw [hlen, ← hneed] at hv
  by_cases hfit : s.doneNeed ≤ s.room
  · rw [if_pos hfit] at hv
    rcases hr.error with h0 | hbad
    · have hleft : ¬ (s.nendBits.toNat % 8 = 0 ∨ s.doneNeed < s.room ∨ s.nendBits.toNat % 8 ≤ s.doneFree) :=
        fun h => hno ⟨hfit, h⟩
      rw [hfinish]
      refine finishGap_error_of_full (hv.trans h0) (by rw [k.count]; omega) ?_ (by rw [k.count]; omega)
      rw [hvs, hvo, ← hoffs, ← hend]
      omega
    · exact hkeep (hv.trans hbad)
  · rw [if_neg hfit] at hv
    exact hkeep hv

end

end Sys2Proof.Machine

namespace Sys2Proof.Proofs

open Sys2Proof.Machine

/-- Settles O26: the range bytes, the raw bytes and the leftover bits take the room in this order, and what finds none
makes error -1. -/
theorem encDoneCompletes : Obligations.EncDoneCompletes := by
  intro s hs hm
  obtain ⟨-, hr, -⟩ := inv_enc hs hm
  obtain ⟨t, v, w, out, ht, k⟩ := encDoneRule_steps hr
  obtain ⟨hrem, hoffs, hend, -, -, -, -⟩ := k.regs
  obtain ⟨hto, hte⟩ := k.cursors
  have hcur := hr.cursors
  have hroom : s.room = s.storage.toNat - (s.offs.toNat + s.endOffs.toNat) := rfl
  refine ⟨t, exec_encoder hm hs rfl rfl rfl ht, ?_, by rw [hrem]; exact k.rem, by omega, by omega, by omega,
    fun a ha hlast => k.outside hcur ha hlast, fun he a ha ha' => k.gap_of_error he ha ha', fun hx => ?_⟩
  · rw [← hr.probe]
    exact k.frame
  · obtain ⟨hlen, hrem'⟩ := k.counts hx
    rw [hlen] at hto hte
    exact ⟨hrem.trans hrem', hto, hte, fun hfit => encDoneRule_error_of_fits hr hfit ht, k.error_of_not_fits hr hx⟩

end Sys2Proof.Proofs
end

section
/-! PROOFS. How many passes a width needs, and the registers that DEC_INIT primes (42_decoder.md R100): O34. -/

namespace Sys2Proof.Machine

/-! ### The number of passes (R74, R103) -/

/-- A width has one number of passes: one more makes it 256 times as wide, and the widths allowed lie closer. -/
theorem passes_unique {g j k : Nat} (hj : Passes g j) (hk : Passes g k) : j = k := by
  have key : ∀ {j k}, Passes g j → Passes g k → k ≤ j := fun {j k} hj hk => by
    by_contra hlt
    have hpow : 2 ^ (8 * (j + 1)) ≤ 2 ^ (8 * k) := Nat.pow_le_pow_right (by decide) (by omega)
    have hmul := Nat.mul_le_mul_left g hpow
    rw [pow_succ_mul8, Nat.mul_left_comm] at hmul
    have := hj.1
    have := hk.2
    omega
  exact Nat.le_antisymm (key hk hj) (key hj hk)

/-! ### DEC_INIT (R100) -/

/-- The front bytes of a new decoder: those of BUF below its size, then zeros (R101). -/
theorem frontByte_decInitRegs (s : State) (size : Word) (k : Nat) :
    (s.decInitRegs size).frontByte k = if k < size.toNat then (s.bufByte k).toNat else 0 := by
  unfold State.frontByte
  simp only [State.decInitRegs_offs, State.decInitRegs_storage, BitVec.toNat_ofNat, Nat.zero_mod, Nat.zero_add]
  rfl

/-- DEC_INIT reads four front bytes: the first before its normalization, the others in its three passes. -/
theorem decInitRule_primes (size : Word) (s : State) :
    ∃ t, decInitRule size s = .ok t ∧ Reads (s.decInitRegs size) t ∧ t.rng.toNat = 2 ^ 31 ∧
      t.val.toNat = 2 ^ 31 - 1 - (s.decInitRegs size).frontNumber 4 / 2 ∧
      t.rem.toNat = (s.decInitRegs size).frontByte 3 ∧ t.offs.toNat = min 4 size.toNat ∧ t.nbitsTotal = 33#32 := by
  have hrng := decInitPrimed_rng size s
  have hfront := decInitPrimed_front size s
  have hreads := decInitPrimed_reads size s
  have hframe := hreads.frame
  have hst : (decInitPrimed size s).storage = size := hreads.storage
  obtain ⟨hreg, hoffs⟩ := readFront_offs (s := s.decInitRegs size) (Nat.zero_le _)
  have hoffs : (decInitPrimed size s).offs.toNat = min 1 size.toNat := hoffs
  have hbyte : (decInitPrimed size s).rem.toNat = (s.decInitRegs size).frontByte 0 := by
    rw [← readFront_byte]
    exact BitVec.toNat_setWidth_of_le (by decide)
  have hlt := frontByte_lt (s.decInitRegs size) 0
  have hval : (decInitPrimed size s).val.toNat = 127 - (s.decInitRegs size).frontByte 0 / 2 := by
    rw [← hbyte] at hlt ⊢
    show (128#32 - 1#32 - (decInitPrimed size s).rem >>> (symBits - codeExtra)).toNat = _
    rw [BitVec.toNat_sub, toNat_ushiftRight_div]
    simp only [symBits, codeExtra, BitVec.reduceSub, BitVec.toNat_ofNat]
    omega
  have hnext := frontByte_succ (s := s.decInitRegs size) (t := decInitPrimed size s) (by rw [hframe]) (by rw [hframe])
    hreads.storage (Nat.zero_le _) hoffs
  have hnum := frontNumber_succ_left hnext 3
  have hnumlt := frontNumber_lt (decInitPrimed size s) 3
  have htotal : (decInitPrimed size s).nbitsTotal = 9#32 := by
    unfold decInitPrimed
    rw [readFront_frame]
    rfl
  obtain ⟨t, k, ht, -, hp, hr, hg, hv, hn, ho, hrem⟩ := decNormalize_ok (s := decInitPrimed size s)
    (by rw [hrng]; decide) (by rw [hrng]; decide) hfront
  rw [hrng] at hp hg
  obtain rfl : k = 3 := passes_unique hp (by decide)
  refine ⟨t, ht, hreads.trans hr, hg, ?_, ?_, ?_, ?_⟩
  · rw [hv, refilledVal, if_neg (by decide), hval, hbyte, hnum]
    omega
  · rw [hrem, if_neg (by decide), hnext]
  · rw [ho, hoffs, hst]
    omega
  · rw [hn, htotal]
    rfl

end Sys2Proof.Machine

namespace Sys2Proof.Proofs

open Sys2Proof.Machine

/-- Settles O34: the width 128 needs three passes, and each register is what they leave. -/
theorem decInitPrimesRegisters : Obligations.DecInitPrimesRegisters := by
  intro s size
  refine ⟨fun h => refusedAs_badOperand rfl rfl (Nat.not_le.mpr h), fun hc => ?_⟩
  obtain ⟨t, ht, hr, hrng, hval, hrem, hoffs, htotal⟩ := decInitRule_primes size s
  have hnum : (s.decInitRegs size).frontNumber 4 / 2 = (s.decInitRegs size).frontByte 0 * 2 ^ 23 +
      (s.decInitRegs size).frontByte 1 * 2 ^ 15 + (s.decInitRegs size).frontByte 2 * 2 ^ 7 +
      (s.decInitRegs size).frontByte 3 / 2 := by
    simp only [State.frontNumber]
    omega
  rw [hnum] at hval
  rw [Nat.min_comm] at hoffs
  dsimp only
  simp only [← frontByte_decInitRegs]
  rw [ofNat_toNat_eq hval, ofNat_toNat_eq hrem, ofNat_toNat_eq hrng,
    ofNat_toNat_eq hoffs, show BitVec.ofNat 32 33 = t.nbitsTotal from htotal.symm]
  refine exec_ok rfl (operands_none.mpr hc) (ht.trans ?_)
  conv_lhs => rw [hr.frame]
  rfl

end Sys2Proof.Proofs
end

section
/-! PROOFS. The probes, the commit and the fused bit of the decoder (42_decoder.md R104 to R107): O35 to O38. -/

namespace Sys2Proof.Machine

/-! ### The probes (R104, R105) -/

section
variable {s : State} (hr : s.rngOk) {ft : Word} (hc : probeOk ft)
include hr hc

theorem toNat_quotient_pos : 0 < (s.rng / ft).toNat := by
  rw [BitVec.toNat_udiv]
  exact part_pos hr hc.2 hc.1

/-- DECODE completes under its contract (R104). -/
theorem decodeRule_completes :
    decodeRule ft s = .ok { s with
      ext := s.rng / ft, result := BitVec.ofNat 32 (scaledValue s.val (s.rng / ft) ft.toNat), probe := some ft.toNat } := by
  have hpos := toNat_quotient_pos hr hc
  exact probeWith_ok (fun h0 => by rw [h0] at hpos; cases hpos) _

end

theorem decodeBinRule_eq_decodeRule {bits : Word} (h : bits.toNat ≤ 16) (s : State) :
    decodeBinRule bits s = decodeRule (BitVec.ofNat 32 (2 ^ bits.toNat)) s := by
  have hdiv : s.rng >>> bits.toNat = s.rng / BitVec.ofNat 32 (2 ^ bits.toNat) := by
    apply BitVec.eq_of_toNat_eq
    rw [toNat_ushiftRight_div, BitVec.toNat_udiv, toNat_ofNat_total h]
  rw [decodeBinRule, decodeRule, hdiv, toNat_ofNat_total h]

theorem probeOk_total {bits : Word} (h : probeBinOk bits) : probeOk (BitVec.ofNat 32 (2 ^ bits.toNat)) := by
  unfold probeOk totalMax
  rw [toNat_ofNat_total h]
  exact ⟨Nat.two_pow_pos _, two_pow_le_total h⟩

/-- val lies in the part that the scaled value numbers, counted from the bottom; the slack counts for part 0 (R104). -/
theorem scaledValue_part {val ext : Word} {n : Nat} (h0 : 0 < ext.toNat) :
    ext.toNat * (n - scaledValue val ext n - 1) ≤ val.toNat ∧
    (0 < scaledValue val ext n → val.toNat < ext.toNat * (n - scaledValue val ext n)) := by
  have hlo : ext.toNat * (val.toNat / ext.toNat) ≤ val.toNat := Nat.mul_div_le _ _
  have hhi : val.toNat < ext.toNat * (val.toNat / ext.toNat + 1) := Nat.lt_mul_div_succ _ h0
  unfold scaledValue
  generalize val.toNat / ext.toNat = q at *
  refine ⟨Nat.le_trans (Nat.mul_le_mul_left _ (by omega)) hlo, fun hx => ?_⟩
  rw [show n - (n - min (q + 1) n) = q + 1 by omega]
  exact hhi

/-- DECODE in DEC under its contract (R104). -/
theorem exec_decode {s : State} (hm : s.mode = .dec) (hr : s.rngOk) {ft : Word} (hc : probeOk ft) :
    let r := s.rng.toNat / ft.toNat
    exec (.decode ft) s = .next { s with
      ext := BitVec.ofNat 32 r, result := BitVec.ofNat 32 (ft.toNat - min (s.val.toNat / r + 1) ft.toNat)
      probe := some ft.toNat } := by
  have e : BitVec.ofNat 32 (s.rng.toNat / ft.toNat) = s.rng / ft := ofNat_toNat_eq BitVec.toNat_udiv
  dsimp only
  rw [e, ← BitVec.toNat_udiv]
  exact exec_ok (by rw [hm]; rfl) (operands_none.mpr hc) (decodeRule_completes hr hc)

/-! ### The narrowing commands (R106, R107) -/

theorem decideBit_one {s : State} {logp : Word} (h : s.val < s.rng >>> logp.toNat) :
    s.decideBit logp = (true, { s with rng := s.rng >>> logp.toNat, probe := none }) := if_pos h

theorem decideBit_zero {s : State} {logp : Word} (h : ¬ s.val < s.rng >>> logp.toNat) :
    s.decideBit logp =
      (false, { s with val := s.val - s.rng >>> logp.toNat, rng := s.rng - s.rng >>> logp.toNat, probe := none }) :=
  if_neg h

/-- A decoder's narrowing normalizes, and leaves what the claims say of one. -/
theorem decNarrows_completes {s u : State} (hr : DecRegsOk s) (hn : DecNarrows s u) :
    ∃ t, u.decNormalize = .ok t ∧ ∀ r, DecNarrowedTo s { t with result := r } u.val.toNat u.rng.toNat := by
  obtain ⟨hpos, hle⟩ := DecNarrows.rng_le hr hn
  obtain ⟨t, -, ht, -⟩ := decNormalize_ok hpos hle (DecNarrows.front hr hn)
  exact ⟨t, ht, decNarrowedTo_of_narrows hr hn ht⟩

section
variable {s : State} (hr : DecRegsOk s)
include hr

/-- The val that a commit leaves, modulo 2^32 (R106). -/
theorem toNat_commit_val {fl fh ft : Word} (hft : 1 ≤ ft.toNat ∧ ft.toNat ≤ totalMax)
    (hext : s.ext.toNat = s.rng.toNat / ft.toNat) (hc : updateOk fl fh ft) :
    (s.commit fl fh ft).val.toNat = (s.val.toNat + 2 ^ 32 - s.ext.toNat * (ft.toNat - fh.toNat)) % 2 ^ 32 := by
  obtain ⟨-, hle, e, -⟩ := commit_products hr hft hext hc
  have hg := s.rng.isLt
  have hmul : s.ext.toNat * (ft.toNat - fh.toNat) ≤ s.ext.toNat * ft.toNat := Nat.mul_le_mul_left _ (Nat.sub_le _ _)
  rw [State.commit_val, BitVec.toNat_sub, e]
  congr 1
  omega

/-- The interval that DEC_BIT_LOGP takes, in numbers (R107). -/
theorem decideBit_parts {logp : Word} (hc : logpOk logp) :
    let one := s.rng.toNat >>> logp.toNat
    ((s.decideBit logp).1 = decide (s.val.toNat < one)) ∧
    (s.decideBit logp).2.val.toNat = (if s.val.toNat < one then s.val.toNat else s.val.toNat - one) ∧
    (s.decideBit logp).2.rng.toNat = (if s.val.toNat < one then one else s.rng.toNat - one) := by
  obtain ⟨-, -, e, -⟩ := split_pos hr.rng hc.1 hc.2
  dsimp only
  rw [← BitVec.toNat_ushiftRight]
  by_cases h : s.val.toNat < (s.rng >>> logp.toNat).toNat
  · rw [if_pos h, if_pos h, decideBit_one h]
    exact ⟨(decide_eq_true h).symm, rfl, rfl⟩
  · rw [if_neg h, if_neg h, decideBit_zero h]
    exact ⟨(decide_eq_false h).symm, BitVec.toNat_sub_of_le (Nat.not_lt.mp h), e⟩

end

theorem decBitLogpRule_of_decNormalize {s u : State} {logp : Word} (h : (s.decideBit logp).2.decNormalize = .ok u) :
    decBitLogpRule logp s = .ok { u with result := if (s.decideBit logp).1 then 1#32 else 0#32 } := by
  unfold decBitLogpRule
  dsimp only
  rw [h]

end Sys2Proof.Machine

namespace Sys2Proof.Proofs

open Sys2Proof.Machine

/-- Settles O35: the quotient q of val counts the parts below it from the bottom, so val lies from part q on. -/
theorem decodeFindsPart : Obligations.DecodeFindsPart := by
  intro s ft hs hm
  obtain ⟨-, hr, -⟩ := inv_dec hs hm
  refine ⟨fun h => refusedAs_badOperand (by rw [hm]; rfl) rfl (by unfold probeOk totalMax; omega), fun h1 h2 => ?_⟩
  have hpos := toNat_quotient_pos hr.rng (ft := ft) ⟨h1, h2⟩
  have hlt := scaledValue_lt s.val (s.rng / ft) h1
  have hpart := scaledValue_part (val := s.val) (n := ft.toNat) hpos
  unfold scaledValue at hlt hpart
  rw [BitVec.toNat_udiv] at hlt hpart
  exact ⟨exec_decode hm hr.rng ⟨h1, h2⟩, hlt, hpart.1, hpart.2⟩

/-- Settles O36: a shift by bits divides by 2^bits. -/
theorem decodeBinIsDecode : Obligations.DecodeBinIsDecode := by
  intro s bits hs hm
  obtain ⟨-, hr, -⟩ := inv_dec hs hm
  refine ⟨fun h => refusedAs_badOperand (by rw [hm]; rfl) rfl (by unfold probeBinOk bitsMax; omega), fun hb => ?_⟩
  have hdecode := exec_decode hm hr.rng (probeOk_total hb)
  have hrule := decodeRule_completes hr.rng (probeOk_total hb)
  have hsame : exec (.decodeBin bits) s = exec (.decode (BitVec.ofNat 32 (2 ^ bits.toNat))) s :=
    (exec_ok (i := .decodeBin bits) (by rw [hm]; rfl) (operands_none.mpr hb)
      ((decodeBinRule_eq_decodeRule hb s).trans hrule)).trans
      (exec_ok (i := .decode _) (by rw [hm]; rfl) (operands_none.mpr (probeOk_total hb)) hrule).symm
  rw [toNat_ofNat_total hb, ← Nat.shiftRight_eq_div_pow] at hdecode
  exact ⟨hsame.trans hdecode, hsame⟩

/-- Settles O37: the part committed is not empty, so the normalizer ends after the passes due. -/
theorem decUpdateCommits : Obligations.DecUpdateCommits := by
  intro s fl fh ft hs hm
  obtain ⟨hmem, hr, hp⟩ := inv_dec hs hm
  have ha : admittedIn (.decUpdate fl fh ft) s.mode = true := by rw [hm]; rfl
  refine ⟨fun h => refusedAs_of_contract ha (if_neg h), fun h hbad => ?_, fun h hl hh => ?_⟩
  · exact refusedAs_of_contract ha ((if_pos h).trans (operands_some (by unfold updateOk; omega)))
  · obtain ⟨hft, hext⟩ := hp _ h
    have hc : updateOk fl fh ft := ⟨hl, hh⟩
    obtain ⟨t, ht, hto⟩ := decNarrows_completes hr (commit_narrows hr hft hext hc)
    rw [toNat_commit_val hr hft hext hc, toNat_commit_rng hr hft hext hc] at hto
    exact ⟨t, exec_ok ha ((if_pos h).trans (operands_none.mpr hc)) ((onStream_of_le hmem.storage _).trans ht),
      (decUpdateRule_writes ht).2.2, hto t.result⟩

/-- Settles O38: val below the width of the top part is a 1, and both parts are not empty. -/
theorem decBitLogpDecides : Obligations.DecBitLogpDecides := by
  intro s logp hs hm
  obtain ⟨hmem, hr, -⟩ := inv_dec hs hm
  refine ⟨fun h => refusedAs_badOperand (by rw [hm]; rfl) rfl (by unfold logpOk logpMax; omega), fun h1 h2 => ?_⟩
  have hc : logpOk logp := ⟨h1, h2⟩
  obtain ⟨u, hu, hto⟩ := decNarrows_completes hr (decideBit_narrows hr hc)
  obtain ⟨hbit, hval, hrng⟩ := decideBit_parts hr hc
  have hrule := decBitLogpRule_of_decNormalize hu
  rw [hval, hrng] at hto
  simp only [hbit, decide_eq_true_eq] at hrule
  exact ⟨_, exec_ok (by rw [hm]; rfl) (operands_none.mpr hc) ((onStream_of_le hmem.storage _).trans hrule), rfl, hto _⟩

end Sys2Proof.Proofs
end

section
/-! PROOFS. Uniform integers and raw bits of the decoder (42_decoder.md R109, R110): O40, O41. -/

namespace Sys2Proof.Machine

/-! ### Uniform integers (R109) -/

section
variable {s : State} (hr : DecRegsOk s)
include hr

theorem decUpdateRule_completes {fl fh ft : Word} (hft : 1 ≤ ft.toNat ∧ ft.toNat ≤ totalMax)
    (hext : s.ext.toNat = s.rng.toNat / ft.toNat) (hc : updateOk fl fh ft) : ∃ t, decUpdateRule fl fh ft s = .ok t :=
  let ⟨t, ht, _⟩ := decNarrows_completes hr (commit_narrows hr hft hext hc)
  ⟨t, ht⟩

/-- A probe with a commit of the part found completes (R109). -/
theorem decodeSymbol_completes {ft : Word} (hc : probeOk ft) :
    ∃ u v, decodeRule ft s = .ok u ∧ decUpdateRule u.result (u.result + 1#32) ft u = .ok v ∧
      decodeSymbol ft s = .ok v := by
  have hu := decodeRule_completes hr.rng hc
  obtain ⟨hru, -⟩ := decodeRule_keeps hr hc hu
  obtain ⟨v, hv⟩ := decUpdateRule_completes hru hc (decodeRule_ext hc hu hr) (decodeRule_result hc hu).2
  exact ⟨_, v, hu, hv, by rw [decodeSymbol, hu]; exact hv⟩

end

theorem decUintRule_unsplit {total : Word} (h : extraBits total = 0) (s : State) :
    decUintRule total s = decodeSymbol total s := if_pos h

theorem decUintRule_split {total : Word} {s v w : State} (h : extraBits total ≠ 0)
    (hv : decodeSymbol (splitTotal total) s = .ok v) (hw : decBitsRule (BitVec.ofNat 32 (extraBits total)) v = .ok w) :
    decUintRule total s = .ok (w.checkUint (v.result <<< extraBits total ||| w.result) (total - 1#32)) := by
  rw [splitTotal] at hv
  rw [decUintRule, if_neg h, hv]
  dsimp only
  rw [hw]

/-- The value that DEC_UINT joins and checks, in numbers (R109). -/
theorem checkUint_joined {s : State} {total hi lo : Word} {x : Nat} (h2 : 2 ≤ total.toNat) (hp : s.probe = none)
    (hx : x ≤ 24) (hhi : hi.toNat < 2 ^ 8) (hlo : lo.toNat < 2 ^ x) :
    let value := hi.toNat * 2 ^ x + lo.toNat
    s.checkUint (hi <<< x ||| lo) (total - 1#32) =
      if value < total.toNat then { s with result := BitVec.ofNat 32 value }
      else { s with result := total - 1#32, error := 1#32 } := by
  have hv := toNat_joined hx hhi hlo
  have hle : hi <<< x ||| lo ≤ total - 1#32 ↔ hi.toNat * 2 ^ x + lo.toNat < total.toNat := by
    rw [BitVec.le_def, hv, toNat_pred (by omega)]
    omega
  dsimp only
  rcases checkUint_cases s (hi <<< x ||| lo) (total - 1#32) with ⟨h, e⟩ | ⟨h, e⟩
  · rw [e, if_pos (hle.mp h), ofNat_toNat_eq hv, ← hp]
  · rw [e, if_neg (mt hle.mpr h), ← hp]

/-! ### Raw bits (R110) -/

/-- DEC_BITS under its contract (R110). -/
theorem decBitsRule_eq {s : State} (hr : DecRegsOk s) {nbits : Word} (hc : rawOk nbits) :
    let avail := s.nendBits.toNat
    let m := refillBytes avail nbits.toNat
    let w := s.endWindow.toNat ||| (s.backNumber m * 2 ^ avail)
    decBitsRule nbits s = .ok { s with
      result := BitVec.ofNat 32 (w % 2 ^ nbits.toNat), endWindow := BitVec.ofNat 32 (w / 2 ^ nbits.toNat)
      nendBits := BitVec.ofNat 32 (avail + 8 * m - nbits.toNat), nbitsTotal := s.nbitsTotal + nbits
      endOffs := BitVec.ofNat 32 (min (s.endOffs.toNat + m) s.storage.toNat), probe := none } := by
  have hn : nbits.toNat ≤ 25 := hc.2
  have hfew := hr.nendBits
  obtain ⟨t, ht⟩ := decBitsRule_completes (s := s) (by omega) nbits
  obtain ⟨hbits, hcount, hend⟩ := refill_window (n := nbits.toNat) hfew hr.back
  have hframe := (refill_reads s.nendBits.toNat nbits.toNat s).frame
  have hlow := low_mask (refill s.nendBits.toNat nbits.toNat s).1.bits (n := nbits.toNat) (by omega)
  have hhigh := toNat_ushiftRight_div (refill s.nendBits.toNat nbits.toNat s).1.bits nbits.toNat
  rw [hbits] at hlow hhigh
  dsimp only
  rw [ht, decBitsRule_ok ht, ofNat_toNat_eq hlow, ofNat_toNat_eq hhigh, ofNat_toNat_eq hend, hcount]
  conv_lhs => rw [hframe]

end Sys2Proof.Machine

namespace Sys2Proof.Proofs

open Sys2Proof.Machine

/-- The parts of a probe with its commit are commands that the unit admits, one after the other. -/
theorem decodeSymbol_exec {s u v : State} {ft : Word} (hs : s.Inv) (hm : s.mode = .dec) (hc : probeOk ft)
    (hu : decodeRule ft s = .ok u) (hv : decUpdateRule u.result (u.result + 1#32) ft u = .ok v) :
    exec (.decode ft) s = .next u ∧ exec (.decUpdate u.result (u.result + 1#32) ft) u = .next v := by
  have hmu : u.mode = .dec := (decodeRule_writes hu).mode.trans hm
  have heu : exec (.decode ft) s = .next u := exec_ok (by rw [hm]; rfl) (operands_none.mpr hc) hu
  have hprobe : u.probe = some ft.toNat := by rw [probeWith_eq hu]
  exact ⟨heu, exec_ok (by rw [hmu]; rfl) ((if_pos hprobe).trans (operands_none.mpr (decodeRule_result hc hu).2))
    ((onStream_of_le (exec_keeps_inv hs heu).storage _).trans hv)⟩

/-- Settles O40: up to 256 the rule is the probe with its commit; above it is that for the high part, then the raw bits, and
the value joined from the two is checked. -/
theorem decUintIsProbeCommitBits : Obligations.DecUintIsProbeCommitBits := by
  intro s total hs hm
  obtain ⟨hmem, hr, -⟩ := inv_dec hs hm
  have ha : admittedIn (.decUint total) s.mode = true := by rw [hm]; rfl
  refine ⟨fun h => refusedAs_badOperand ha rfl (Nat.not_le.mpr h), fun h2 h256 => ?_, fun hbig => ?_⟩
  · have hx : extraBits total = 0 := (extraBits_eq_zero_iff h2).mpr h256
    have hc : probeOk total := by unfold probeOk totalMax; omega
    obtain ⟨u, v, hu, hv, hsym⟩ := decodeSymbol_completes hr hc
    obtain ⟨heu, hev⟩ := decodeSymbol_exec hs hm hc hu hv
    obtain ⟨-, hlt, hle⟩ := decodeRule_result hc hu
    have hres := (decUpdateRule_writes hv).2.2
    refine ⟨u, v, exec_ok ha (operands_none.mpr h2) ?_, heu, hev, hres, by rw [hres]; omega,
      (decodeSymbol_writes hsym).1.refusal⟩
    exact (onStream_of_le hmem.storage _).trans ((decUintRule_unsplit hx s).trans hsym)
  · have h2 : 2 ≤ total.toNat := by omega
    have hx : extraBits total ≠ 0 := fun h0 => by
      have := (extraBits_eq_zero_iff h2).mp h0
      omega
    have hc := probeOk_splitTotal h2
    have hraw := rawOk_extraBits hx
    obtain ⟨u, v, hu, hv, hsym⟩ := decodeSymbol_completes hr hc
    have hrv := decodeSymbol_keeps hr hc hsym
    obtain ⟨w, hw⟩ := decBitsRule_completes (Nat.le_trans hrv.nendBits (by decide)) (BitVec.ofNat 32 (extraBits total))
    obtain ⟨eu, ev, ew⟩ := decodeParts_exec hs hm hc hraw hu hv hw
    have hrule := decUintRule_split hx hsym hw
    obtain ⟨-, hlt, hle⟩ := decodeRule_result hc hu
    have hsplit := toNat_splitTotal h2
    have hhigh := high_lt h2
    have hlo := decBitsRule_result_lt hraw hw
    rw [toNat_ofNat_extraBits] at hlo
    rw [(decUpdateRule_writes hv).2.2,
      checkUint_joined h2 (decBitsRule_writes hw).2 (extraBits_le total) (by omega) hlo] at hrule
    have hft : splitTotal total = BitVec.ofNat 32 ((total.toNat - 1) / 2 ^ extraBits total + 1) :=
      (ofNat_toNat_eq hsplit).symm
    rw [hft] at eu ev
    exact ⟨u, v, w, eu, ev, ew, ((decodeSymbol_writes hsym).1.trans (decBitsRule_writes hw).1).refusal,
      exec_ok ha (operands_none.mpr h2) ((onStream_of_le hmem.storage _).trans hrule)⟩

/-- Settles O41: the refill ORs the next back bytes in above the valid bits, and the field is the window's low bits. -/
theorem decBitsReadsField : Obligations.DecBitsReadsField := by
  intro s nbits hs hm
  obtain ⟨hmem, hr, -⟩ := inv_dec hs hm
  refine ⟨fun h => refusedAs_badOperand (by rw [hm]; rfl) rfl (by unfold rawOk rawMax; omega), fun h1 h2 => ?_⟩
  exact exec_ok (by rw [hm]; rfl) (operands_none.mpr ⟨h1, h2⟩)
    ((onStream_of_le hmem.storage _).trans (decBitsRule_eq hr ⟨h1, h2⟩))

end Sys2Proof.Proofs
end

section
/-! PROOFS. Every command answers (60_exceptions.md R140, 42_decoder.md R112, 70_reset_and_hazards.md R172): O52. -/

namespace Sys2Proof.Machine

/-! ### Where the rules of the encoder answer -/

section
variable {s : State} (hr : EncRegsOk s)
include hr

theorem Narrows.completes {u : State} (hn : Narrows s u) : ∃ t, u.encNormalize = .ok t :=
  let ⟨t, ht, _⟩ := encNarrowedTo_of_narrows hr hn
  ⟨t, ht⟩

theorem encUintRule_completes {value total : Word} (hc : encUintOk value total) :
    ∃ t, encUintRule value total s = .ok t := by
  have hok := encodeOk_high hc
  obtain ⟨u, hu⟩ := Narrows.completes hr (encode_narrows hr.rng hok)
  by_cases hx : extraBits total = 0
  · rw [splitTotal_of_unsplit hx, hx, BitVec.ushiftRight_zero] at hu
    exact ⟨u, (encUintRule_unsplit hx s).trans hu⟩
  · have hn : u.nendBits = s.nendBits := by rw [(encodeRule_emits hu).frame]
    obtain ⟨t, ht⟩ := encBitsRule_completes (s := u) (by rw [hn]; exact hr.nendBits)
      (value &&& (1#32 <<< extraBits total - 1#32)) (BitVec.ofNat 32 (extraBits total))
    exact ⟨t, (encUintRule_split hx hu).trans ht⟩

theorem encDoneRule_completes : ∃ t, encDoneRule s = .ok t := by
  rw [encDoneRule, bitCount_of_le hr.nendBits]
  exact ⟨_, rfl⟩

end

/-- R81 gives a meaning to each of its four cases. -/
theorem encPatchRule_completes (value nbits : Word) (s : State) : ∃ t, encPatchRule value nbits s = .ok t := by
  unfold encPatchRule
  dsimp only
  split
  · exact ⟨_, rfl⟩
  split
  · exact ⟨_, rfl⟩
  split
  · exact ⟨_, rfl⟩
  · exact ⟨_, rfl⟩

/-! ### Where the rules of the decoder answer -/

section
variable {s : State} (hr : DecRegsOk s)
include hr

theorem decUintRule_completes {total : Word} (hc : uintTotalOk total) : ∃ t, decUintRule total s = .ok t := by
  have hp := probeOk_splitTotal hc
  obtain ⟨-, v, -, -, hv⟩ := decodeSymbol_completes hr hp
  by_cases hx : extraBits total = 0
  · rw [splitTotal_of_unsplit hx] at hv
    exact ⟨v, (decUintRule_unsplit hx s).trans hv⟩
  · have hn := (decodeSymbol_keeps hr hp hv).nendBits
    obtain ⟨w, hw⟩ := decBitsRule_completes (s := v) (by omega) (BitVec.ofNat 32 (extraBits total))
    exact ⟨_, decUintRule_split hx hv hw⟩

end

/-- In a stream rng has at least 24 bits, so R131's shift count is not negative. -/
theorem tellFracRule_completes {s : State} (hr : s.rngOk) : ∃ t, tellFracRule s = .ok t := by
  have h := ilog_ge_of_rngOk hr
  exact ⟨_, if_neg (by omega)⟩

end Sys2Proof.Machine

namespace Sys2Proof.Proofs

open Sys2Proof.Machine

theorem rngOk_of_inv {s : State} (hs : s.Inv) (hm : s.mode ≠ .idle) : s.rngOk := by
  have hmode := hs.mode
  cases h : s.mode with
  | idle => exact absurd h hm
  | enc => exact ((modeInv_of_enc h).mp hmode).1.rng
  | dec => exact ((modeInv_of_dec h).mp hmode).1.rng
  | done => exact ((modeInv_of_done h).mp hmode).rng

section
variable {s : State} (hs : s.Inv)
include hs

theorem encoderRule_completes (ha : (s.mode == .enc) = true) {r : State → Except Fault State}
    (h : EncRegsOk s → ∃ t, r s = .ok t) : ∃ t, encoderRule r s = .ok t := by
  have hm := eq_of_beq ha
  obtain ⟨-, hr, -⟩ := inv_enc hs hm
  rw [encoderRule_of_inv hm hs]
  exact h hr

theorem decoderRule_completes (ha : (s.mode == .dec) = true) {r : State → Except Fault State}
    (h : DecRegsOk s → ProbeOk s → ∃ t, r s = .ok t) : ∃ t, r s = .ok t := by
  obtain ⟨-, hr, hp⟩ := inv_dec hs (eq_of_beq ha)
  exact h hr hp

theorem onStream_completes {r : State → Except Fault State} (h : ∃ t, r s = .ok t) : ∃ t, onStream r s = .ok t := by
  rw [onStream_of_le hs.storage]
  exact h

end

/-- Under its contract every rule answers. -/
theorem ruleOf_completes {i : Instr} {s : State} (hs : s.Inv) (ha : admittedIn i s.mode = true)
    (hc : contractOf i s = none) : ∃ t, ruleOf i s = .ok t := by
  cases i with
  | encInit | release | tell => exact ⟨_, rfl⟩
  | tellFrac => exact tellFracRule_completes (rngOk_of_inv hs fun h => by rw [h] at ha; cases ha)
  | encode =>
    exact encoderRule_completes hs ha fun hr => Narrows.completes hr (encode_narrows hr.rng (operands_none.mp hc))
  | encodeBin =>
    exact encoderRule_completes hs ha fun hr => Narrows.completes hr (encodeBin_narrows hr.rng (operands_none.mp hc))
  | encBitLogp =>
    exact encoderRule_completes hs ha fun hr => Narrows.completes hr (encBitLogp_narrows hr.rng (operands_none.mp hc) _)
  | encIcdf =>
    obtain ⟨n, hn, hsym⟩ := encIcdfContract_none hc
    exact encoderRule_completes hs ha fun hr => Narrows.completes hr (encIcdf_narrows hr.rng hn hsym)
  | encUint => exact encoderRule_completes hs ha fun hr => encUintRule_completes hr (operands_none.mp hc)
  | encBits => exact encoderRule_completes hs ha fun hr => encBitsRule_completes hr.nendBits _ _
  | encPatch => exact encoderRule_completes hs ha fun _ => encPatchRule_completes _ _ s
  | encShrink => exact encoderRule_completes hs ha fun _ => ⟨_, rfl⟩
  | encDone => exact encoderRule_completes hs ha encDoneRule_completes
  | decInit size =>
    obtain ⟨t, ht, -⟩ := decInitRule_primes size s
    exact ⟨t, ht⟩
  | decode => exact decoderRule_completes hs ha fun hr _ => ⟨_, decodeRule_completes hr.rng (operands_none.mp hc)⟩
  | decodeBin =>
    have hb := operands_none.mp hc
    exact decoderRule_completes hs ha fun hr _ =>
      ⟨_, (decodeBinRule_eq_decodeRule hb s).trans (decodeRule_completes hr.rng (probeOk_total hb))⟩
  | decUpdate =>
    obtain ⟨hprobe, hok⟩ := decUpdateContract_none hc
    exact onStream_completes hs (decoderRule_completes hs ha fun hr hp =>
      decUpdateRule_completes hr (hp _ hprobe).1 (hp _ hprobe).2 hok)
  | decBitLogp =>
    refine onStream_completes hs (decoderRule_completes hs ha fun hr _ => ?_)
    obtain ⟨u, hu, -⟩ := decNarrows_completes hr (decideBit_narrows hr (operands_none.mp hc))
    exact ⟨_, decBitLogpRule_of_decNormalize hu⟩
  | decIcdf =>
    refine onStream_completes hs (decoderRule_completes hs ha fun hr _ => ?_)
    obtain ⟨u, hu, -⟩ := decNarrows_completes hr (icdfPart_narrows hr (decIcdfContract_none hc))
    exact ⟨_, decIcdfRule_of_decNormalize hu⟩
  | decUint =>
    exact onStream_completes hs (decoderRule_completes hs ha fun hr _ => decUintRule_completes hr (operands_none.mp hc))
  | decBits =>
    exact onStream_completes hs (decoderRule_completes hs ha fun hr _ =>
      decBitsRule_completes (Nat.le_trans hr.nendBits (by decide)) _)

/-- Settles O52: a command that is not refused meets its contract, under which its rule answers. -/
theorem everyCommandAnswers : Obligations.EveryCommandAnswers := by
  intro i s hs
  rw [exec_eq_command]
  rcases Bool.eq_false_or_eq_true (admittedIn i s.mode) with ha | ha
  · cases hc : contractOf i s with
    | some r => exact ⟨_, command_refused ha r _⟩
    | none =>
      obtain ⟨t, ht⟩ := ruleOf_completes hs ha hc
      exact ⟨t, command_ok ha ht⟩
  · exact ⟨_, command_wrongMode ha _ _⟩

end Sys2Proof.Proofs
end

section
/-! PROOFS. What the round trip of symbols rests on: how many front bytes an encoder has made (41_encoder.md R73, R74), where
a symbol's part of the interval lies (R75), and the front bytes as the number that a decoder reads (20_memory.md R35,
42_decoder.md R101, R103). -/

namespace Sys2Proof.Machine

/-! ### The bytes an encoder has made (R73, R74) -/

/-- The front bytes put out and those still held: one for each pass of R74 so far. -/
def State.outBytes (s : State) : Nat := s.offs.toNat + s.held

theorem ext_le_outBytes (s : State) : s.ext.toNat ≤ s.outBytes := by
  unfold State.outBytes State.held
  omega

/-- One symbol out makes one byte, where none is lost. -/
theorem carryOut_outBytes {s : State} {c : Word} (hx : s.ext.toNat + 1 < 2 ^ 32) (he : (s.carryOut c).error = 0#32) :
    (s.carryOut c).outBytes = s.outBytes + 1 := by
  unfold State.outBytes
  by_cases hc : c = symMax
  · subst hc
    rw [held_carryOut_ff hx, carryOut_ff]
    rfl
  · rw [carryOut_other s hc] at he
    have hput := ((carryFlush_putsOrFails s c).puts_of_error he).offs
    rw [held_carryOut_other s hc, carryOut_other s hc]
    exact congrArg (· + 1) hput

theorem carryAll_outBytes {s : State} {x k : Nat} (hx : s.ext.toNat + k < 2 ^ 32) (he : (s.carryAll x k).error = 0#32) :
    (s.carryAll x k).outBytes = s.outBytes + k ∧ (s.carryAll x k).ext.toNat ≤ s.ext.toNat + k := by
  induction k with
  | zero => exact ⟨rfl, Nat.le_refl _⟩
  | succ k ih =>
    rw [State.carryAll] at he ⊢
    obtain ⟨hout, hext⟩ := ih (by omega) ((carryOut_emits _ _).writes.error_eq_zero he)
    have hle := ext_carryOut_le (s := s.carryAll x k) (by omega) (BitVec.ofNat 32 (shiftedVal x k / 2 ^ 23))
    exact ⟨by rw [carryOut_outBytes (by omega) he, hout, Nat.add_assoc], by omega⟩

/-- The bytes made are the bytes out and held, whatever the interval. -/
theorem outBytes_congr {s t : State} (ho : t.offs = s.offs) (hr : t.rem = s.rem) (hx : t.ext = s.ext) :
    t.outBytes = s.outBytes := by
  unfold State.outBytes State.held State.remIsByte
  rw [ho, hr, hx]

/-! ### A symbol's part of the interval (R75, R106) -/

/-- The width of the symbol's part of an interval of width `g`. -/
def Symbol.width (x : Symbol) (g : Nat) : Nat :=
  if 0 < x.fl.toNat then g / x.ft.toNat * (x.fh.toNat - x.fl.toNat) else g - g / x.ft.toNat * (x.ft.toNat - x.fh.toNat)

/-- What lies above the symbol's part. -/
def Symbol.above (x : Symbol) (g : Nat) : Nat := g / x.ft.toNat * (x.ft.toNat - x.fh.toNat)

section
variable {x : Symbol} (hok : encodeOk x.fl x.fh x.ft)
include hok

/-- The parts below, in and above the symbol's make up the interval. -/
theorem Symbol.below_add_width (g : Nat) :
    (if 0 < x.fl.toNat then g - g / x.ft.toNat * (x.ft.toNat - x.fl.toNat) else 0) + x.width g + x.above g = g := by
  obtain ⟨-, -, hl, hh⟩ := hok
  have hle : g / x.ft.toNat * x.ft.toNat ≤ g := Nat.div_mul_le_self _ _
  have hsplit : g / x.ft.toNat * (x.ft.toNat - x.fl.toNat) =
      g / x.ft.toNat * (x.fh.toNat - x.fl.toNat) + g / x.ft.toNat * (x.ft.toNat - x.fh.toNat) := by
    rw [← Nat.mul_add]
    congr 1
    omega
  have hbelow : g / x.ft.toNat * (x.ft.toNat - x.fl.toNat) ≤ g / x.ft.toNat * x.ft.toNat :=
    Nat.mul_le_mul_left _ (Nat.sub_le _ _)
  unfold Symbol.width Symbol.above
  split <;> omega

/-- A val in the symbol's part has its scaled value in [fl, fh) (R104, R111). -/
theorem Symbol.scaledValue_mem {val ext : Word} {g : Nat} (he : ext.toNat = g / x.ft.toNat) (h0 : 0 < ext.toNat)
    (hlo : x.above g ≤ val.toNat) (hhi : val.toNat < x.above g + x.width g) :
    x.fl.toNat ≤ scaledValue val ext x.ft.toNat ∧ scaledValue val ext x.ft.toNat < x.fh.toNat := by
  have hsum := below_add_width hok g
  obtain ⟨-, -, hl, hh⟩ := hok
  have hq : x.ft.toNat - x.fh.toNat ≤ val.toNat / ext.toNat := by
    rw [Nat.le_div_iff_mul_le h0, Nat.mul_comm, he]
    exact hlo
  unfold scaledValue
  refine ⟨?_, by omega⟩
  rcases Nat.eq_zero_or_pos x.fl.toNat with hfl | hfl
  · omega
  · have hlt : val.toNat / ext.toNat < x.ft.toNat - x.fl.toNat := by
      unfold Symbol.width Symbol.above at *
      rw [if_pos hfl, ← Nat.mul_add, ← he] at hhi
      rw [Nat.div_lt_iff_lt_mul h0, Nat.mul_comm]
      rwa [show x.ft.toNat - x.fh.toNat + (x.fh.toNat - x.fl.toNat) = x.ft.toNat - x.fl.toNat by omega] at hhi
    omega

end

/-! ### The front bytes as the decoder reads them (R35, R101, R103) -/

/-- The first 31 + 8 n bits of the front: what the decoder has folded into val after `n` passes. -/
def State.streamCode (s : State) (n : Nat) : Nat := s.frontNumber (n + 4) / 2

theorem frontNumber_div (s : State) (n m : Nat) : s.frontNumber (n + m) / 256 ^ m = s.frontNumber n := by
  induction m with
  | zero => simp
  | succ m ih =>
    have hb := frontByte_lt s (n + m)
    rw [← Nat.add_assoc, State.frontNumber, Nat.pow_succ', ← Nat.div_div_eq_div_mul,
      show (s.frontNumber (n + m) * 256 + s.frontByte (n + m)) / 256 = s.frontNumber (n + m) by omega, ih]

theorem streamCode_div (s : State) (n m : Nat) : s.streamCode (n + m) / 256 ^ m = s.streamCode n := by
  unfold State.streamCode
  rw [Nat.div_div_eq_div_mul, Nat.mul_comm, ← Nat.div_div_eq_div_mul, Nat.add_right_comm, frontNumber_div]

/-- The front readers of a state whose cursor has moved by `m` bytes find what the old ones find from there on. -/
theorem frontByte_of_moved {s t : State} {m : Nat}
    (hframe : t.buf = s.buf ∧ t.resets = s.resets ∧ t.storage = s.storage)
    (hoffs : t.offs.toNat = min (s.offs.toNat + m) s.storage.toNat) (j : Nat) :
    t.frontByte j = s.frontByte (m + j) := by
  obtain ⟨hbuf, hres, hst⟩ := hframe
  unfold State.frontByte State.bufByte
  rw [hbuf, hres, hst, hoffs]
  by_cases h : s.offs.toNat + (m + j) < s.storage.toNat
  · rw [if_pos h, if_pos (by omega), show min (s.offs.toNat + m) s.storage.toNat + j = s.offs.toNat + (m + j) by omega]
  · rw [if_neg h, if_neg (by omega)]

theorem frontNumber_add {s t : State} {n : Nat} (h : ∀ j, t.frontByte j = s.frontByte (n + j)) (k : Nat) :
    s.frontNumber (n + k) = s.frontNumber n * 2 ^ (8 * k) + t.frontNumber k := by
  induction k with
  | zero => simp [State.frontNumber]
  | succ k ih =>
    rw [← Nat.add_assoc, State.frontNumber, ih, State.frontNumber, h k, pow_succ_mul8]
    ring

/-- The stream bits that k passes of R103 fold in: bit 0 of rem, then k front bytes but for their last bit. -/
def State.foldedBits (s : State) (k : Nat) : Nat := (s.rem.toNat % 2 * 2 ^ (8 * k) + s.frontNumber k) / 2

theorem foldedBits_lt (s : State) (k : Nat) : s.foldedBits k < 2 ^ (8 * k) := by
  have hf := frontNumber_lt s k
  have hr : s.rem.toNat % 2 * 2 ^ (8 * k) ≤ 1 * 2 ^ (8 * k) := Nat.mul_le_mul_right _ (by omega)
  unfold State.foldedBits
  omega

/-- The bits folded in continue the stream's. -/
theorem streamCode_add {s t : State} {n : Nat} (hr : t.rem.toNat = s.frontByte (n + 3))
    (h : ∀ j, t.frontByte j = s.frontByte (n + 4 + j)) (k : Nat) :
    s.streamCode (n + k) = s.streamCode n * 2 ^ (8 * k) + t.foldedBits k := by
  have hparity : s.frontNumber (n + 4) = 2 * s.streamCode n + t.rem.toNat % 2 := by
    have e : s.frontNumber (n + 4) = s.frontNumber (n + 3) * 256 + s.frontByte (n + 3) := rfl
    unfold State.streamCode
    rw [hr]
    omega
  have hadd : s.frontNumber (n + k + 4) =
      2 * (s.streamCode n * 2 ^ (8 * k)) + (t.rem.toNat % 2 * 2 ^ (8 * k) + t.frontNumber k) := by
    rw [Nat.add_right_comm, frontNumber_add h, hparity]
    ring
  rw [State.streamCode, hadd, State.foldedBits]
  omega

/-- The passes of R103 take val up by their bytes, less the bits folded in; nothing is cut off inside the interval. -/
theorem refilledVal_add_foldedBits {s : State} {v g k : Nat} (hv : v < g) (hp : Passes g k) :
    refilledVal s v k + s.foldedBits k + 1 = (v + 1) * 2 ^ (8 * k) := by
  have hb := foldedBits_lt s k
  have hle : (v + 1) * 2 ^ (8 * k) ≤ g * 2 ^ (8 * k) := Nat.mul_le_mul_right _ hv
  have htop := hp.2
  unfold refilledVal
  rw [← State.foldedBits]
  split
  · subst k
    rw [Nat.mul_zero, Nat.pow_zero] at *
    omega
  · rw [Nat.add_mul, Nat.one_mul] at *
    rw [Nat.mod_eq_of_lt (by omega)]
    omega

end Sys2Proof.Machine
end

section
/-! PROOFS. Symbols there and back (41_encoder.md R75, R83; 42_decoder.md R104, R106, R111; 43_common.md R134): the
encoder's stream, the decoder that follows it, and the round trip of R111 for symbols (O43). -/

namespace Sys2Proof.Proofs

open Sys2Proof.Machine

/-! ### A stream of symbols -/

/-- An encoder that has encoded symbols, without a lost byte or carry. -/
structure SymbolStream (s : State) : Prop where
  inv    : s.Inv
  mode   : s.mode = .enc
  safe   : s.carrySafe
  window : WindowOk s
  error  : s.error = 0#32

/-- What an ENCODE of `x` that loses no byte does from `s` to `t`, in `k` passes: the symbol's part of the interval, moved up
by `k` bytes. -/
structure EncodesSymbol (x : Symbol) (k : Nat) (s t : State) : Prop where
  ok     : encodeOk x.fl x.fh x.ft
  few    : k ≤ 3
  passes : Passes (x.width s.rng.toNat) k
  bytes  : t.outBytes = s.outBytes + k
  total  : t.nbitsTotal = s.nbitsTotal + BitVec.ofNat 32 (8 * k)
  rng    : t.rng.toNat = x.width s.rng.toNat * 2 ^ (8 * k)
  top    : t.lowEnd + t.rng.toNat = (s.lowEnd + (s.rng.toNat - x.above s.rng.toNat)) * 2 ^ (8 * k)
  low    : s.lowEnd * 2 ^ (8 * k) ≤ t.lowEnd
  keeps  : t.storage = s.storage ∧ t.params = s.params

theorem SymbolStream.regs {s : State} (hs : SymbolStream s) : EncRegsOk s := (inv_enc hs.inv hs.mode).2.1

theorem outNumber_of_nothing_out {s : State} (ho : s.offs = 0#32) (hr : s.rem = 0xFFFFFFFF#32) (hx : s.ext = 0#32) :
    s.outBytes = 0 ∧ s.outNumber = 0 := by
  have hb : s.remIsByte = false := by rw [remIsByte_eq, hr]; rfl
  unfold State.outBytes State.held State.outNumber
  rw [hb, ho, hx]
  exact ⟨rfl, rfl⟩

/-- ENC_INIT starts a stream of symbols, whose interval is all of 2^31. -/
theorem encInit_symbolStream {s t : State} {size : Word} (hs : s.Inv) (hc : size.toNat ≤ s.params.bufCap)
    (h : exec (.encInit size) s = .next t) :
    SymbolStream t ∧ t.storage = size ∧ t.params = s.params ∧ t.outBytes = 0 ∧ t.lowEnd = 0 ∧
      t.rng.toNat = 2 ^ 31 ∧ t.nbitsTotal = 33#32 := by
  have hinv := exec_keeps_inv hs h
  have hrule := ruleOf_of_exec (i := .encInit size) rfl (operands_none.mpr hc) h
  have hsafe := encInit_carrySafe hrule
  injection hrule with ht
  obtain ⟨hbytes, hout⟩ := outNumber_of_nothing_out (s := t) (by rw [← ht]) (by rw [← ht]) (by rw [← ht])
  have hlow : t.lowEnd = 0 := by rw [State.lowEnd, hout, ← ht]; rfl
  have hregs : t.mode = .enc ∧ WindowOk t ∧ t.error = 0#32 ∧ t.storage = size ∧ t.params = s.params ∧
      t.rng.toNat = 2 ^ 31 ∧ t.nbitsTotal = 33#32 := by
    rw [← ht]
    exact ⟨rfl, Nat.one_pos, rfl, rfl, rfl, rfl, rfl⟩
  obtain ⟨hmode, hwindow, herr, hst, hpar, hrng, htotal⟩ := hregs
  exact ⟨⟨hinv, hmode, hsafe, hwindow, herr⟩, hst, hpar, hbytes, hlow, hrng, htotal⟩

/-- An ENCODE that loses no byte encodes its symbol. -/
theorem SymbolStream.encode {s t : State} (hs : SymbolStream s) (hx : s.outBytes + 3 < 2 ^ 32) {x : Symbol}
    (hok : encodeOk x.fl x.fh x.ft) (h : exec (.encode x.fl x.fh x.ft) s = .next t) (ht : t.error = 0#32) :
    SymbolStream t ∧ ∃ k, EncodesSymbol x k s t := by
  have hext := ext_le_outBytes s
  obtain ⟨t', ht', hrule, hframe, k, hk, hp, heq⟩ := exec_encode hs.mode hs.inv hok
  obtain rfl : t' = t := by rw [ht'] at h; injection h
  obtain ⟨j, -, hlow, hrng, hge, -⟩ :=
    encodeStaysInsideInterval s t' x.fl x.fh x.ft hs.inv hs.mode hs.safe (by omega) hok h hs.error ht
  have hinv := exec_keeps_inv hs.inv h
  have hmode : t'.mode = .enc := by rw [hframe.1]; exact hs.mode
  have hj : Passes (x.width s.rng.toNat) j := by
    have hr := (inv_enc hinv hmode).2.1.rng
    unfold State.rngOk at hr
    rwa [hrng, pow_256] at hr
  obtain rfl : j = k := passes_unique hj hp
  have hout := (carryAll_outBytes (s := s) (k := j) (by omega) (by rw [heq] at ht; exact ht)).1
  rw [pow_256] at hlow hrng hge
  have hsum := Symbol.below_add_width hok s.rng.toNat
  refine ⟨⟨hinv, hmode, ?_, ?_, ht⟩, j, hok, hk, hj, ?_, by rw [heq], hrng, ?_, hge, ?_⟩
  · exact narrows_carrySafe (encode_narrows hs.regs.rng hok) hrule hs.safe
  · have hw := hs.window
    unfold WindowOk at *
    rw [hframe.1]
    exact hw
  · rw [← hout, heq]
    exact outBytes_congr rfl rfl rfl
  · have hwidth : t'.rng.toNat = x.width s.rng.toNat * 2 ^ (8 * j) := hrng
    rw [hlow, hwidth, ← Nat.add_mul]
    exact congrArg (· * 2 ^ (8 * j)) (by omega)
  · rw [hframe.1]
    exact ⟨rfl, rfl⟩

theorem encodeAll_cons {x : Symbol} {xs : List Symbol} {s e : State} (h : s.encodeAll (x :: xs) = some e) :
    ∃ f, exec (.encode x.fl x.fh x.ft) s = .next f ∧ f.encodeAll xs = some e := by
  rw [State.encodeAll] at h
  split at h
  · exact ⟨_, ‹_›, h⟩
  · cases h
  · cases h

/-- No byte has been lost where error is 0 at the end (R14). -/
theorem encodeAll_error {xs : List Symbol} {s e : State} (h : s.encodeAll xs = some e) (he : e.error = 0#32) :
    s.error = 0#32 := by
  induction xs generalizing s with
  | nil => cases h; exact he
  | cons x xs ih =>
    obtain ⟨f, hf, h⟩ := encodeAll_cons h
    exact error_eq_zero_of_exec hf (ih h) nofun nofun

/-- The front bytes of `d` name a number inside the interval of `s`, at the scale of its val (R12, R13). -/
def Names (d s : State) : Prop :=
  s.lowEnd ≤ d.streamCode s.outBytes ∧ d.streamCode s.outBytes < s.lowEnd + s.rng.toNat

/-- A number inside the symbol's part is inside the interval that the symbol was encoded in. -/
theorem EncodesSymbol.names {x : Symbol} {k : Nat} {d s t : State} (h : EncodesSymbol x k s t) (ht : Names d t) :
    Names d s := by
  obtain ⟨hlo, hhi⟩ := ht
  have hdiv := streamCode_div d s.outBytes k
  rw [pow_256, ← h.bytes] at hdiv
  have hpos := Nat.two_pow_pos (8 * k)
  unfold Names
  rw [← hdiv, Nat.le_div_iff_mul_le hpos, Nat.div_lt_iff_lt_mul hpos]
  refine ⟨Nat.le_trans h.low hlo, Nat.lt_of_lt_of_le hhi ?_⟩
  rw [h.top]
  exact Nat.mul_le_mul_right _ (by omega)

/-- The bytes that name a number in the last interval name one in each interval before it. -/
theorem encodeAll_names {xs : List Symbol} {d s e : State} (hs : SymbolStream s)
    (hxs : ∀ x ∈ xs, encodeOk x.fl x.fh x.ft) (hn : s.outBytes + 3 * xs.length < 2 ^ 32 - 3)
    (h : s.encodeAll xs = some e) (he : e.error = 0#32) :
    SymbolStream e ∧ e.storage = s.storage ∧ e.params = s.params ∧ e.outBytes ≤ s.outBytes + 3 * xs.length ∧
      (Names d e → Names d s) := by
  induction xs generalizing s with
  | nil =>
    cases h
    exact ⟨hs, rfl, rfl, Nat.le_refl _, id⟩
  | cons x xs ih =>
    rw [List.length_cons] at *
    obtain ⟨f, hf, h⟩ := encodeAll_cons h
    obtain ⟨hsf, k, hk⟩ := hs.encode (by omega) (hxs x List.mem_cons_self) hf (encodeAll_error h he)
    have hb := hk.bytes
    have hfew := hk.few
    obtain ⟨hse, hst, hp, hle, hnames⟩ := ih hsf (fun y hy => hxs y (List.mem_cons_of_mem x hy)) (by omega) h
    exact ⟨hse, hst.trans hk.keeps.1, hp.trans hk.keeps.2, by omega, fun hd => hk.names (hnames hd)⟩

/-! ### The decoder behind the encoder (R111) -/

/-- The decoder `u` has read from the front of `d` what the encoder `s` has made, and val is how far the number that the
bytes name lies below the interval's top (R13). -/
structure Follows (d s u : State) : Prop where
  inv   : u.Inv
  mode  : u.mode = .dec
  keeps : u.buf = d.buf ∧ u.resets = d.resets ∧ u.storage = d.storage
  offs  : u.offs.toNat = min (d.offs.toNat + (s.outBytes + 4)) d.storage.toNat
  rem   : u.rem.toNat = d.frontByte (s.outBytes + 3)
  rng   : u.rng = s.rng
  total : u.nbitsTotal = s.nbitsTotal
  val   : u.val.toNat + d.streamCode s.outBytes + 1 = s.lowEnd + s.rng.toNat

/-- After DEC_INIT the decoder has read what an encoder after ENC_INIT has made, and 4 bytes more. -/
theorem decInit_follows {d s : State} {size : Word} (hd : d.Inv) (hc : size.toNat ≤ d.params.bufCap)
    (hbytes : s.outBytes = 0) (hlow : s.lowEnd = 0) (hrng : s.rng.toNat = 2 ^ 31) (htotal : s.nbitsTotal = 33#32) :
    ∃ t, exec (.decInit size) d = .next t ∧ Follows (d.decInitRegs size) s t := by
  obtain ⟨t, ht, hr, hg, hval, hrem, hoffs, hn⟩ := decInitRule_primes size d
  have hexec : exec (.decInit size) d = .next t := exec_ok rfl (operands_none.mpr hc) ht
  have hlt := frontNumber_lt (d.decInitRegs size) 4
  have hframe := hr.frame
  refine ⟨t, hexec, exec_keeps_inv hd hexec, hr.mode, by rw [hframe]; exact ⟨rfl, rfl, rfl⟩, ?_, ?_, ?_, ?_, ?_⟩
  · rw [hoffs, hbytes]
    rfl
  · rw [hrem, hbytes]
  · exact BitVec.eq_of_toNat_eq (hg.trans hrng.symm)
  · rw [hn, htotal]
  · rw [hval, hbytes, hlow, hrng, State.streamCode, Nat.zero_add]
    omega

section
variable {x : Symbol} {k : Nat} {d s f u : State} (hu : Follows d s u) (hx : EncodesSymbol x k s f) (hf : Names d f)
include hu

theorem Follows.frontByte (j : Nat) : u.frontByte j = d.frontByte (s.outBytes + 4 + j) :=
  frontByte_of_moved hu.keeps hu.offs j

include hx hf

/-- val lies in the symbol's part of the interval. -/
theorem Follows.val_mem :
    x.above u.rng.toNat ≤ u.val.toNat ∧ u.val.toNat < x.above u.rng.toNat + x.width u.rng.toNat := by
  obtain ⟨hlo, hhi⟩ := hf
  have hpos := Nat.two_pow_pos (8 * k)
  have hdiv := streamCode_div d s.outBytes k
  have htop := hx.top
  have hval := hu.val
  have hrng : u.rng.toNat = s.rng.toNat := by rw [hu.rng]
  rw [pow_256, ← hx.bytes] at hdiv
  rw [htop, ← Nat.div_lt_iff_lt_mul hpos, hdiv] at hhi
  rw [hx.rng] at htop
  have hlow : f.lowEnd = (s.lowEnd + (s.rng.toNat - x.above s.rng.toNat) - x.width s.rng.toNat) * 2 ^ (8 * k) := by
    rw [Nat.sub_mul]
    omega
  rw [hlow, ← Nat.le_div_iff_mul_le hpos, hdiv] at hlo
  have hsum := Symbol.below_add_width hx.ok s.rng.toNat
  rw [hrng]
  omega

end

/-- A probe finds the scaled value of val, and changes nothing that the decoder follows the encoder by. -/
theorem Follows.decode {d s u : State} (hu : Follows d s u) {ft : Word} (hc : probeOk ft) :
    ∃ p, exec (.decode ft) u = .next p ∧ Follows d s p ∧ p.probe = some ft.toNat ∧
      p.ext.toNat = p.rng.toNat / ft.toNat ∧ p.result.toNat = scaledValue p.val p.ext ft.toNat := by
  obtain ⟨-, hr, -⟩ := inv_dec hu.inv hu.mode
  obtain ⟨p, hp⟩ : ∃ p, decodeRule ft u = .ok p := ⟨_, decodeRule_completes hr.rng hc⟩
  have hexec : exec (.decode ft) u = .next p := exec_ok (by rw [hu.mode]; rfl) (operands_none.mpr hc) hp
  have hinv := exec_keeps_inv hu.inv hexec
  refine ⟨p, hexec, ?_, by rw [probeWith_eq hp], decodeRule_ext hc hp hr, (decodeRule_result hc hp).1⟩
  rw [probeWith_eq hp] at hinv ⊢
  exact ⟨hinv, hu.mode, hu.keeps, hu.offs, hu.rem, hu.rng, hu.total, hu.val⟩

section
variable {x : Symbol} {k : Nat} {d s f p : State} (hp : Follows d s p) (hx : EncodesSymbol x k s f) (hf : Names d f)
include hp hx hf

/-- val after the commit and its passes: again how far the number that the bytes name lies below the interval's top. -/
theorem Follows.val_of_commit :
    refilledVal p (p.val.toNat - x.above p.rng.toNat) k + d.streamCode f.outBytes + 1 = f.lowEnd + f.rng.toNat := by
  obtain ⟨hlo, hhi⟩ := hp.val_mem hx hf
  have hrng : p.rng.toNat = s.rng.toNat := by rw [hp.rng]
  have hfold := refilledVal_add_foldedBits (s := p) (v := p.val.toNat - x.above p.rng.toNat) (g := x.width p.rng.toNat)
    (by omega) (by rw [hrng]; exact hx.passes)
  have hcode := streamCode_add hp.rem hp.frontByte k
  have hval := hp.val
  have htop : s.lowEnd + (s.rng.toNat - x.above s.rng.toNat) =
      p.val.toNat - x.above p.rng.toNat + 1 + d.streamCode s.outBytes := by
    have hsum := Symbol.below_add_width hx.ok s.rng.toNat
    rw [hrng] at hlo ⊢
    omega
  rw [hx.top, htop, Nat.add_mul, hx.bytes, hcode]
  omega

/-- The commit of the symbol: the decoder takes the symbol's part, in as many passes as the encoder. -/
theorem Follows.decUpdate (hprobe : p.probe = some x.ft.toNat) (hext : p.ext.toNat = p.rng.toNat / x.ft.toNat) :
    ∃ v, exec (.decUpdate x.fl x.fh x.ft) p = .next v ∧ Follows d f v := by
  obtain ⟨-, -, hcommit⟩ := decUpdateCommits p x.fl x.fh x.ft hp.inv hp.mode
  obtain ⟨v, hv, -, hto⟩ := hcommit hprobe hx.ok.2.2.1 hx.ok.2.2.2
  obtain ⟨hlo, -⟩ := hp.val_mem hx hf
  have hbound := p.val.isLt
  have hval := hp.val_of_commit hx hf
  have hrng : p.rng.toNat = s.rng.toNat := by rw [hp.rng]
  have hlow : (p.val.toNat + 2 ^ 32 - x.above p.rng.toNat) % 2 ^ 32 = p.val.toNat - x.above p.rng.toNat := by omega
  rw [hext] at hto
  obtain ⟨j, -, hj, hg, hw, hrem, hoffs, hframe⟩ := hto
  obtain rfl : j = k := passes_unique hj (by rw [hrng]; exact hx.passes)
  have hb := hx.bytes
  obtain ⟨hbuf, hres, hst⟩ := hp.keeps
  refine ⟨v, hv, exec_keeps_inv hp.inv hv, ?_, ?_, ?_, ?_, ?_, ?_, ?_⟩
  · rw [hframe]
    exact hp.mode
  · rw [hframe]
    exact ⟨hbuf, hres, hst⟩
  · rw [hoffs, hst, hp.offs]
    omega
  · rw [hrem, hb]
    split
    · subst j
      exact hp.rem
    · rw [hp.frontByte]
      congr 1
      omega
  · refine BitVec.eq_of_toNat_eq ?_
    rw [hg, hx.rng, ← hrng]
    rfl
  · rw [hframe, hx.total, ← hp.total]
  · rw [hw, ← hval, ← hlow]
    rfl

end

/-- The decoder that follows an encoder mirrors it over all its symbols. -/
theorem mirrors_of_encodeAll {xs : List Symbol} {d s e u : State} (hs : SymbolStream s)
    (hxs : ∀ x ∈ xs, encodeOk x.fl x.fh x.ft) (hn : s.outBytes + 3 * xs.length < 2 ^ 32 - 3)
    (h : s.encodeAll xs = some e) (he : e.error = 0#32) (hd : Names d e) (hu : Follows d s u) : Mirrors xs s u := by
  induction xs generalizing s u with
  | nil => trivial
  | cons x xs ih =>
    rw [List.length_cons] at hn
    have hok := hxs x List.mem_cons_self
    have hxs' : ∀ y ∈ xs, encodeOk y.fl y.fh y.ft := fun y hy => hxs y (List.mem_cons_of_mem x hy)
    obtain ⟨f, hf, h⟩ := encodeAll_cons h
    obtain ⟨hsf, k, hk⟩ := hs.encode (by omega) hok hf (encodeAll_error h he)
    have hb := hk.bytes
    have hfew := hk.few
    obtain ⟨-, -, -, -, hnames⟩ := encodeAll_names (d := d) hsf hxs' (by omega) h he
    obtain ⟨p, hp, hfp, hprobe, hext, hres⟩ := hu.decode (ft := x.ft) ⟨hok.1, hok.2.1⟩
    obtain ⟨v, hv, hfv⟩ := hfp.decUpdate hk (hnames hd) hprobe hext
    obtain ⟨hlo, hhi⟩ := hfp.val_mem hk (hnames hd)
    have hpos : 0 < p.ext.toNat := by
      rw [hext]
      exact part_pos (inv_dec hfp.inv hfp.mode).2.1.rng hok.2.1 hok.1
    obtain ⟨hfl, hfh⟩ := Symbol.scaledValue_mem hok hext hpos hlo hhi
    rw [← hres] at hfl hfh
    exact ⟨f, p, v, hf, hp, hfl, hfh, hv, hfv.rng, hfv.total, ih hsf hxs' (by omega) h hfv⟩

/-! ### The end of the stream (R83) and the round trip (R111) -/

/-- A new decoder's first front bytes are those that ENC_DONE left. -/
theorem frontNumber_decInitRegs {d : State} {size : Word} {n : Nat} (h : n ≤ size.toNat) :
    (d.decInitRegs size).frontNumber n = d.bufNumber n := by
  induction n with
  | zero => rfl
  | succ n ih =>
    rw [State.frontNumber, State.bufNumber, ih (by omega), frontByte_decInitRegs, if_pos (by omega)]

/-- The bytes that ENC_DONE leaves name a number inside the last interval. -/
theorem SymbolStream.done {e d : State} (he : SymbolStream e) (hx : e.ext.toNat < 2 ^ 32 - 3)
    (h : exec .encDone e = .next d) (hd : d.error = 0#32) :
    d.params = e.params ∧ Names (d.decInitRegs e.storage) e := by
  obtain ⟨hlo, hhi⟩ := encDoneNamesFinalInterval e d he.inv he.mode he.safe hx he.window he.error h hd
  obtain ⟨d', hd', hframe, -, -, -, hle, -, -, hbytes⟩ := encDoneCompletes e he.inv he.mode
  obtain rfl : d' = d := by rw [hd'] at h; injection h
  obtain ⟨-, hoffs, -, -, hlost⟩ := hbytes hx
  have hfits : e.doneFits := by
    by_contra hno
    rw [hlost hno] at hd
    cases hd
  have hneed : e.doneNeed ≤ e.room := hfits.1
  have hcount : d'.offs.toNat = e.outBytes + e.doneCodeBytes := by
    have e1 : e.doneNeed = e.doneFront + e.nendBits.toNat / 8 := rfl
    have e2 : e.doneFront = e.held + e.doneCodeBytes := rfl
    rw [hoffs, State.outBytes]
    omega
  have h2 := doneCodeBytes_le he.regs.rng
  have hnum := frontNumber_div (d'.decInitRegs e.storage) d'.offs.toNat (4 - e.doneCodeBytes)
  rw [frontNumber_decInitRegs (n := d'.offs.toNat) (by omega),
    show d'.offs.toNat + (4 - e.doneCodeBytes) = e.outBytes + 4 by omega] at hnum
  refine ⟨by rw [hframe], ?_⟩
  unfold Names State.streamCode
  rw [← hnum] at hlo hhi
  generalize e.doneCodeBytes = m at *
  interval_cases m <;> omega

/-- Settles O43: the bytes of ENC_DONE name a number in the last interval and so in each one before it; the decoder's val
says where that number lies below the interval's top, so each probe finds the symbol that was encoded. -/
theorem rangeCodedRoundTrip : Obligations.RangeCodedRoundTrip := by
  intro s s0 e d size xs hs hxs hlen hc hinit hencode hdone herr
  obtain ⟨hstream, hsize, hparams, hbytes, hlow, hrng, htotal⟩ := encInit_symbolStream hs hc hinit
  have heerr := error_eq_zero_of_exec hdone herr nofun nofun
  have hn : s0.outBytes + 3 * xs.length < 2 ^ 32 - 3 := by omega
  obtain ⟨hse, hste, hpe, hout, -⟩ := encodeAll_names (d := d) hstream hxs hn hencode heerr
  have hext := ext_le_outBytes e
  obtain ⟨hpd, hnames⟩ := hse.done (by omega) hdone herr
  rw [hste, hsize] at hnames
  have hcap : size.toNat ≤ d.params.bufCap := by rw [hpd, hpe, hparams]; exact hc
  obtain ⟨t, ht, hfollows⟩ := decInit_follows (exec_keeps_inv hse.inv hdone) hcap hbytes hlow hrng htotal
  exact ⟨t, ht, mirrors_of_encodeAll hstream hxs hn hencode heerr hnames hfollows⟩

end Sys2Proof.Proofs
end

section
/-! PROOFS. The shared commands (43_common.md R130 to R133): TELL and TELL_FRAC as exact counts, the table form of
TELL_FRAC against the form that squares, and RELEASE. -/

namespace Sys2Proof.Machine

/-! ### The counts of R130 and R131 as integers -/

theorem sub_ofNat_eq_ofInt (x : Word) (n : Nat) : x - BitVec.ofNat 32 n = BitVec.ofInt 32 ((x.toNat : Int) - n) := by
  rw [Int.sub_eq_add_neg, BitVec.ofInt_add, BitVec.ofInt_neg, BitVec.ofInt_natCast, BitVec.ofInt_natCast,
    BitVec.ofNat_toNat, BitVec.setWidth_eq, BitVec.sub_eq_add_neg]

theorem shiftLeft_bitRes (x : Word) : x <<< bitRes = 8#32 * x := by
  rw [BitVec.shiftLeft_eq_mul_twoPow, BitVec.mul_comm]
  rfl

/-- r of R131: the top 16 bits of rng. -/
def topBits (rng : Word) : Nat := rng.toNat / 2 ^ (ilog rng - 16)

theorem tellFracValue_eq_sub (rng nbitsTotal : Word) :
    tellFracValue rng nbitsTotal =
      8#32 * nbitsTotal - BitVec.ofNat 32 (8 * ilog rng + fracEighths (topBits rng)) := by
  rw [← shiftLeft_bitRes, topBits, ← Nat.shiftRight_eq_div_pow]
  rfl

theorem tellFracValue_eq_ofInt (rng nbitsTotal : Word) :
    tellFracValue rng nbitsTotal =
      BitVec.ofInt 32 (8 * (nbitsTotal.toNat : Int) - (8 * (ilog rng : Int) + (fracEighths (topBits rng) : Int))) := by
  have h8 : 8#32 * nbitsTotal = BitVec.ofNat 32 (8 * nbitsTotal.toNat) := by
    rw [BitVec.ofNat_mul, BitVec.ofNat_toNat, BitVec.setWidth_eq]
  rw [tellFracValue_eq_sub, h8, Int.sub_eq_add_neg, BitVec.ofInt_add, BitVec.ofInt_neg, BitVec.sub_eq_add_neg]
  exact_mod_cast rfl

/-! ### The top 16 bits of rng -/

theorem lt_ilog_of_two_pow_le {x : Word} {n : Nat} (h : 2 ^ n ≤ x.toNat) : n < ilog x := by
  have h0 : x ≠ 0#32 := by
    rintro rfl
    exact absurd h (Nat.not_le.mpr (Nat.two_pow_pos n))
  exact (Nat.pow_lt_pow_iff_right (by decide)).mp (Nat.lt_of_le_of_lt h (Proofs.lt_two_pow_ilog h0))

theorem ilog_mono {x y : Word} (h : x.toNat ≤ y.toNat) : ilog x ≤ ilog y := by
  by_cases h0 : x = 0#32
  · rw [h0]
    exact Nat.zero_le _
  · have := lt_ilog_of_two_pow_le (Nat.le_trans (Proofs.two_pow_pred_ilog_le h0) h)
    omega

theorem topBits_bounds {rng : Word} (h : 2 ^ 23 < rng.toNat) : 2 ^ 15 ≤ topBits rng ∧ topBits rng < 2 ^ 16 := by
  have hl := lt_ilog_of_two_pow_le (Nat.le_of_lt h)
  have h0 : rng ≠ 0#32 := by rintro rfl; exact absurd h (by decide)
  have hlo := Proofs.two_pow_pred_ilog_le h0
  have hhi := Proofs.lt_two_pow_ilog h0
  rw [show ilog rng - 1 = 15 + (ilog rng - 16) by omega, Nat.pow_add] at hlo
  rw [show ilog rng = 16 + (ilog rng - 16) by omega, Nat.pow_add] at hhi
  exact ⟨(Nat.le_div_iff_mul_le (Nat.two_pow_pos _)).mpr hlo, (Nat.div_lt_iff_lt_mul (Nat.two_pow_pos _)).mpr hhi⟩

/-- A wider interval has no smaller bit length, and for the same bit length no smaller top bits. -/
theorem ilog_topBits_mono {g h : Word} (hgh : g.toNat ≤ h.toNat) :
    toLex (ilog g, topBits g) ≤ toLex (ilog h, topBits h) := by
  refine Prod.Lex.toLex_le_toLex'.mpr ⟨ilog_mono hgh, fun e => ?_⟩
  have e : ilog g = ilog h := e
  simp only [topBits, e]
  exact Nat.div_le_div_right hgh

/-! ### The table CORR (R131) -/

/-- The least r of 16 bits whose fractional part is `e` eighths: the first after the breakpoint before. -/
def firstTopBits : Nat → Nat
  | 0 => 2 ^ 15
  | e + 1 => corr e + 1

/-- Of the breakpoints only CORR[b] can lie inside the stretch of r whose top 4 bits are b + 8. -/
theorem corr_between : ∀ b ≤ 7, firstTopBits b ≤ 4096 * (b + 8) ∧ 4096 * (b + 9) ≤ corr (b + 1) + 1 := by decide

theorem fracEighths_spec {r : Nat} (hlo : 2 ^ 15 ≤ r) (hhi : r < 2 ^ 16) :
    fracEighths r ≤ 7 ∧ firstTopBits (fracEighths r) ≤ r ∧ r ≤ corr (fracEighths r) := by
  have hb : r >>> 12 = r / 4096 := Nat.shiftRight_eq_div_pow r 12
  obtain ⟨b, hrb⟩ : ∃ b, b = r >>> 12 - 8 := ⟨_, rfl⟩
  obtain ⟨hfirst, hnext⟩ := corr_between b (by omega)
  simp only [fracEighths, ← hrb]
  by_cases h : corr b < r
  · have hb7 : b ≠ 7 := by
      rintro rfl
      have : 65535 < r := h
      omega
    rw [if_pos h]
    exact ⟨by omega, h, by omega⟩
  · rw [if_neg h]
    exact ⟨by omega, by omega, Nat.not_lt.mp h⟩

/-! ### The form that squares three times (R132) -/

/-- One pass of R132 on l and r. -/
def squareStep (x : Nat × Nat) : Nat × Nat :=
  let r := x.2 * x.2 / 2 ^ 15
  (2 * x.1 + r / 2 ^ 16, r / 2 ^ (r / 2 ^ 16))

/-- The three passes. -/
def squareThrice (x : Nat × Nat) : Nat × Nat := squareStep (squareStep (squareStep x))

theorem square_lt {r : Nat} (h : r < 2 ^ 16) : r * r / 2 ^ 15 < 2 ^ 17 :=
  Nat.div_lt_of_lt_mul (Nat.lt_of_lt_of_le (Nat.mul_lt_mul'' h h) (by decide))

theorem squareStep_snd_lt {x : Nat × Nat} (h : x.2 < 2 ^ 16) : (squareStep x).2 < 2 ^ 16 := by
  have hq := square_lt h
  rw [squareStep]
  generalize x.2 * x.2 / 2 ^ 15 = q at *
  obtain hbit | hbit : q / 2 ^ 16 = 0 ∨ q / 2 ^ 16 = 1 := by omega
  · simp only [hbit]; omega
  · simp only [hbit]; omega

/-- A pass keeps the lexicographic order of l and r: it appends to l the leading bit of the square, which rises with r. -/
theorem squareStep_mono {x y : Nat × Nat} (hx : x.2 < 2 ^ 16) (h : toLex x ≤ toLex y) :
    toLex (squareStep x) ≤ toLex (squareStep y) := by
  have hq := square_lt hx
  rw [Prod.Lex.toLex_le_toLex] at h ⊢
  have hsq : x.2 ≤ y.2 → x.2 * x.2 / 2 ^ 15 ≤ y.2 * y.2 / 2 ^ 15 := fun hr => Nat.div_le_div_right (Nat.mul_le_mul hr hr)
  simp only [squareStep]
  generalize x.2 * x.2 / 2 ^ 15 = q at *
  generalize y.2 * y.2 / 2 ^ 15 = p at *
  rcases h with hl | ⟨hl, hr⟩
  · left; omega
  · have hqp := hsq hr
    rcases Nat.lt_or_eq_of_le (Nat.div_le_div_right (c := 2 ^ 16) hqp) with hbit | hbit
    · left; omega
    · right
      rw [hl, hbit]
      exact ⟨rfl, Nat.div_le_div_right hqp⟩

theorem squareThrice_fst_mono {x y : Nat × Nat} (hx : x.2 < 2 ^ 16) (h : toLex x ≤ toLex y) :
    (squareThrice x).1 ≤ (squareThrice y).1 := by
  have h1 := squareStep_mono hx h
  have h2 := squareStep_mono (squareStep_snd_lt hx) h1
  exact Prod.Lex.monotone_fst _ _ (squareStep_mono (squareStep_snd_lt (squareStep_snd_lt hx)) h2)

theorem squareThrice_fst_add (l r : Nat) : (squareThrice (l, r)).1 = 8 * l + (squareThrice (0, r)).1 := by
  simp only [squareThrice, squareStep]
  ring

/-- At both ends of each part of the table the two forms agree. -/
theorem squareThrice_at_breakpoints :
    ∀ e ≤ 7, (squareThrice (0, firstTopBits e)).1 = e ∧ (squareThrice (0, corr e)).1 = e := by decide

/-- R132 for every r: between two breakpoints both forms are constant, since the squaring form rises with r. -/
theorem squareThrice_fst {r : Nat} (hlo : 2 ^ 15 ≤ r) (hhi : r < 2 ^ 16) (l : Nat) :
    (squareThrice (l, r)).1 = 8 * l + fracEighths r := by
  obtain ⟨h7, hfirst, hlast⟩ := fracEighths_spec hlo hhi
  obtain ⟨efirst, elast⟩ := squareThrice_at_breakpoints _ h7
  have hge := squareThrice_fst_mono (x := (0, firstTopBits (fracEighths r))) (y := (0, r)) (Nat.lt_of_le_of_lt hfirst hhi)
    (Prod.Lex.toLex_mono ⟨le_rfl, hfirst⟩)
  have hle := squareThrice_fst_mono (x := (0, r)) (y := (0, corr (fracEighths r))) hhi
    (Prod.Lex.toLex_mono ⟨le_rfl, hlast⟩)
  rw [efirst] at hge
  rw [elast] at hle
  rw [squareThrice_fst_add, Nat.le_antisymm hle hge]

/-- The eighths that R131 subtracts, by the form that squares. -/
theorem squareThrice_topBits {rng : Word} (h : 2 ^ 23 < rng.toNat) :
    (squareThrice (ilog rng, topBits rng)).1 = 8 * ilog rng + fracEighths (topBits rng) :=
  squareThrice_fst (topBits_bounds h).1 (topBits_bounds h).2 _

end Sys2Proof.Machine

namespace Sys2Proof.Proofs

open Sys2Proof.Machine

theorem admittedIn_tell_of_ne_idle {m : Mode} (h : m ≠ .idle) :
    admittedIn .tell m = true ∧ admittedIn .tellFrac m = true := by
  cases m with
  | idle => exact absurd rfl h
  | enc | dec | done => exact ⟨rfl, rfl⟩

/-- The table that R131 lists is the model's. -/
theorem getD_table_eq_corr :
    ∀ b ≤ 7, [35733, 38967, 42495, 46340, 50535, 55109, 60097, 65535].getD b 0 = corr b := by decide

/-- `b` of R131 as its pseudocode states it. -/
theorem listed_eq_fracEighths {r : Nat} (hhi : r < 2 ^ 16) :
    (if [35733, 38967, 42495, 46340, 50535, 55109, 60097, 65535].getD (r / 4096 - 8) 0 < r then r / 4096 - 8 + 1
      else r / 4096 - 8) = fracEighths r := by
  rw [getD_table_eq_corr _ (by omega), fracEighths, Nat.shiftRight_eq_div_pow]

/-- Settles O45: TELL's rule answers in every state, and the difference of the words is that of the numbers. -/
theorem tellCountsBits : Obligations.TellCountsBits := by
  refine fun s => ⟨fun hm => refusedAs_wrongMode (by rw [hm]; rfl), fun hm => ?_⟩
  rw [← sub_ofNat_eq_ofInt]
  exact exec_ok (admittedIn_tell_of_ne_idle hm).1 rfl rfl

/-- Settles O46: in a stream rng has at least 24 bits, so the rule answers, with the value of `tellFracValue_eq_ofInt`. -/
theorem tellFracFollowsTable : Obligations.TellFracFollowsTable := by
  refine fun s hs => ⟨fun hm => refusedAs_wrongMode (by rw [hm]; rfl), fun hm => ?_⟩
  have hr := rngOk_of_inv hs hm
  obtain ⟨hlo, hhi⟩ := topBits_bounds hr.1
  have hl := ilog_ge_of_rngOk hr
  dsimp only
  rw [← topBits, listed_eq_fracEighths hhi, ← tellFracValue_eq_ofInt]
  exact ⟨(fracEighths_spec hlo hhi).1, exec_ok (admittedIn_tell_of_ne_idle hm).2 rfl (if_neg (by omega))⟩

/-- Settles O47: the squaring form rises with the top bits of rng and agrees with the table at its breakpoints. -/
theorem tellFracEqualsSquaring : Obligations.TellFracEqualsSquaring := by
  intro rng nbitsTotal h _
  have hsq : 8 * (ilog rng : Int) + fracEighths (topBits rng) = ((squareThrice (ilog rng, topBits rng)).1 : Nat) := by
    exact_mod_cast (squareThrice_topBits h).symm
  rw [tellFracValue_eq_ofInt, hsq]
  rfl

/-- Settles O48: the fractional part is at most 7 eighths, and the form that squares rises with rng. -/
theorem tellFracIsMonotonic : Obligations.TellFracIsMonotonic := by
  refine ⟨fun rng nbitsTotal h _ => ?_, fun g h hg hgh _ => ?_⟩
  · obtain ⟨hlo, hhi⟩ := topBits_bounds h
    refine ⟨fracEighths (topBits rng), (fracEighths_spec hlo hhi).1, ?_⟩
    rw [tellFracValue_eq_sub, tellValue, BitVec.ofNat_add, BitVec.ofNat_mul, BitVec.mul_sub, sub_add_eq_sub_sub]
  · rw [Nat.shiftRight_eq_div_pow, Nat.shiftRight_eq_div_pow, ← topBits, ← topBits, ← squareThrice_topBits hg,
      ← squareThrice_topBits (Nat.lt_of_lt_of_le hg hgh)]
    exact squareThrice_fst_mono (topBits_bounds hg).2 (ilog_topBits_mono hgh)

/-- Settles O49: RELEASE is admitted in every mode and has no contract. -/
theorem releaseEndsStream : Obligations.ReleaseEndsStream := fun _ => exec_ok rfl rfl rfl

end Sys2Proof.Proofs
end

section
/-! PROOFS. The statement of 60_exceptions.md: what a refused command changes (O11). -/

namespace Sys2Proof.Proofs

open Sys2Proof.Machine

/-- Settles O11: a command is refused, which is R146's change of the mark alone, or runs its rule, and no rule writes the
mark. -/
theorem refusedCommandChangesOnlyMark : Obligations.RefusedCommandChangesOnlyMark := by
  intro i s t h
  rcases exec_next h with ⟨r, hrefused⟩ | ⟨-, -, hrule⟩
  · exact .inr ⟨r, hrefused⟩
  · exact .inl (ruleWrites_refusal (ruleOf_writes hrule))

end Sys2Proof.Proofs
end

section
/-! PROOFS. The statements of 70_reset_and_hazards.md: what a hardware reset leaves (R160) and what an INIT forgets
(R161). -/

namespace Sys2Proof.Machine

/-- A hardware reset is served in every mode and never faults. -/
theorem step_hardwareReset {s : State} {rest : List Transaction} (h : s.port = .hardwareReset :: rest) :
    step s = .next (State.afterReset s.params (s.resets + 1) rest) := by
  unfold step
  rw [h]
  rfl

/-- No byte of either memory counts as written after a hardware reset, so a read shows the new draw (R30, R31). -/
@[simp] theorem State.afterReset_bufByte (p : Params) (n : Nat) (q : List Transaction) (a : Nat) :
    (State.afterReset p n q).bufByte a = Config.bufDraw n a := rfl

@[simp] theorem State.afterReset_tblByte (p : Params) (n : Nat) (q : List Transaction) (a : Nat) :
    (State.afterReset p n q).tblByte a = Config.tblDraw n a := rfl

@[simp] theorem State.afterReset_refused (p : Params) (n : Nat) (q : List Transaction) :
    (State.afterReset p n q).refused = false := rfl

end Sys2Proof.Machine

namespace Sys2Proof.Proofs

open Sys2Proof.Machine

/-- Settles O9: a hardware reset is always served and leaves `State.afterReset`, with the next index of the draw. -/
theorem hardwareResetFromAnyState : Obligations.HardwareResetFromAnyState := by
  intro s rest hport
  refine ⟨_, step_hardwareReset hport, ?_⟩
  simp

/-- Settles O60: each INIT writes every coder register, MODE and PROBE. ENC_INIT writes constants and its operand.
What DEC_INIT writes is a function of the bytes of BUF and its operand, and both states hold the same bytes. -/
theorem initForgetsOldStream : Obligations.InitForgetsOldStream := by
  intro s u size hparams hbuf htbl hresets hport hresult hrefusal hs
  have hu : size.toNat ≤ u.params.bufCap := by rwa [hparams]
  have hbyte (k : Nat) : u.bufByte k = s.bufByte k := State.bufByte_congr (by rw [hbuf]) hresets
  constructor
  · rw [(encInitStartsStream u size).2 hu, (encInitStartsStream s size).2 hs,
      hparams, hbuf, htbl, hresets, hport, hresult, hrefusal]
  · rw [(decInitPrimesRegisters u size).2 hu, (decInitPrimesRegisters s size).2 hs,
      hparams, hbuf, htbl, hresets, hport, hresult, hrefusal]
    simp only [hbyte]

end Sys2Proof.Proofs
end
